-- ==== Sys2Proof/Word.lean ====
section
/-!
DEFINITION. The words of R8 and R9: byte, half, word, dword, the 56-bit address of R96 and R140, and the
plainest arithmetic over them.
-/

namespace Sys2Proof

/-- A word of R9: 32 bits. -/
abbrev Word := BitVec 32
/-- A byte of R9. -/
abbrev Byte := BitVec 8
/-- A dword of R9: 64 bits. -/
abbrev DWord := BitVec 64
/-- A 56-bit address or program counter (R96, R140). -/
abbrev Addr := BitVec 56
/-- A six-bit operand field of an instruction word (R44, R45). -/
abbrev Fld := BitVec 6

/-- Bits [hi:lo] of a word read as a number (R7). -/
def bits (w : Word) (hi lo : Nat) : Nat := (w.toNat >>> lo) % 2 ^ (hi + 1 - lo)

/-- Bit [n] of a word (R7). -/
def bit (w : Word) (n : Nat) : Bool := w.getLsbD n

/-- The word whose bits above hi and below lo are zero and whose field [hi:lo] holds v. -/
def putBits (v hi lo : Nat) : Word := BitVec.ofNat 32 ((v % 2 ^ (hi + 1 - lo)) <<< lo)

/-- high ∥ low of a register pair: the even register holds bits [31:0] (R187). -/
def pairVal (hi lo : Word) : DWord := hi ++ lo

/-- The low word of a dword. -/
def lowWord (x : DWord) : Word := x.setWidth 32
/-- The high word of a dword. -/
def highWord (x : DWord) : Word := (x >>> 32).setWidth 32

/-- Little-endian bytes of a number, n of them (R9). -/
def leBytes : Nat → Nat → List Byte
  | 0, _ => []
  | n + 1, v => BitVec.ofNat 8 v :: leBytes n (v / 256)

/-- The number that little-endian bytes spell (R9). -/
def leNat : List Byte → Nat
  | [] => 0
  | b :: bs => b.toNat + 256 * leNat bs

/-- ⌈a / b⌉. -/
def ceilDiv (a b : Nat) : Nat := (a + b - 1) / b

/-- Apply f to the element at index i, and leave the list as it is where there is none. -/
def modifyAt {α : Type} (f : α → α) : Nat → List α → List α
  | _, [] => []
  | 0, a :: as => f a :: as
  | i + 1, a :: as => a :: modifyAt f i as

/-- Replace the run of elements from index i on by the values given, within the list's length. -/
def writeRun {α : Type} : Nat → List α → List α → List α
  | _, _, [] => []
  | _, [], as => as
  | 0, v :: vs, _ :: as => v :: writeRun 0 vs as
  | i + 1, vs, a :: as => a :: writeRun i vs as

/-- All numbers below n, ascending. -/
abbrev upto (n : Nat) : List Nat := List.range n

end Sys2Proof
end

