-- ==== Sys2Proof/Syntax.lean ====
section
/-!
DEFINITION. The instructions and events of spec/opcode_table.json as abstract syntax: operands in the roles of
R63 to R69, conditions of R65, hints of R55 to R60, and for each row without a word the parameters that its rule
names. The ONE inductive of this file that lists the rows is Instr.
-/

namespace Sys2Proof

/-- A source register field with its empty-action bit (R49). -/
structure Src where
  f : Fld
  chk : Bool
  deriving DecidableEq, Repr, Inhabited

/-- The b operand of a form that admits sb (R48): a vector register, or a uniform register. -/
inductive SrcB where
  | vec (r : Src)
  | uni (r : Src)
  deriving DecidableEq, Repr, Inhabited

/-- Integer conditions of R65. -/
inductive ICond where
  | eq | ne | ltI | leI | gtI | geI | ltN | leN | gtN | geN
  deriving DecidableEq, Repr, Inhabited

/-- Float conditions of R65. -/
inductive FCond where
  | eq | ne | lt | le | gt | ge | num | nan | equ | neu | ltu | leu | gtu | geu
  deriving DecidableEq, Repr, Inhabited

/-- Float types of majors 0x20 to 0x28 and 0x2B; for the arithmetic majors f16 and bf16 are the packed x2 forms. -/
inductive FTy where
  | f32 | f64 | f16 | bf16
  deriving DecidableEq, Repr, Inhabited

/-- Float format codes of R67. -/
inductive Fmt where
  | f32 | f64 | f16 | bf16 | e4m3 | e5m2 | e2m1 | e8m0
  deriving DecidableEq, Repr, Inhabited

/-- Integer type codes of R67. -/
inductive IntTy where
  | i8 | n8 | i16 | n16 | i32 | n32 | i64 | n64
  deriving DecidableEq, Repr, Inhabited

/-- Rounding codes of R67: five modes, and the mode held in k.fmode. -/
inductive Rnd where
  | ne | tz | up | dn | sr | mode
  deriving DecidableEq, Repr, Inhabited

/-- Element formats of pack (R67). -/
inductive PackElem where
  | e4m3 | e5m2 | e2m1 | i8 | n8 | i4 | n4
  deriving DecidableEq, Repr, Inhabited

/-- Operations of gred and gscan (R64). -/
inductive RedOp where
  | addI32 | minI32 | maxI32 | minN32 | maxN32 | andB32 | orB32 | xorB32
  deriving DecidableEq, Repr, Inhabited

/-- Operations of gate.fold (R68). -/
inductive FoldOp where
  | addI32 | andB32 | orB32 | maxI32
  deriving DecidableEq, Repr, Inhabited

/-- Load widths (R66). -/
inductive LdW where
  | n8 | i8 | n16 | i16 | b32 | b64 | b128
  deriving DecidableEq, Repr, Inhabited

/-- Store widths (R66). -/
inductive StW where
  | b8 | b16 | b32 | b64 | b128
  deriving DecidableEq, Repr, Inhabited

/-- Surface access widths (R337). -/
inductive SurfW where
  | b32 | b64 | b128 | fmt
  deriving DecidableEq, Repr, Inhabited

/-- Load classes (R66). -/
inductive LdOrd where
  | ord | vol | acq
  deriving DecidableEq, Repr, Inhabited

/-- Store classes (R66). -/
inductive StOrd where
  | ord | vol | rel
  deriving DecidableEq, Repr, Inhabited

/-- Classes of atom (R227). -/
inductive AtOrd where
  | rlx | acq | rel | ar
  deriving DecidableEq, Repr, Inhabited

/-- Classes of atomred: relaxed or release (R228). -/
inductive RedOrd where
  | rlx | rel
  deriving DecidableEq, Repr, Inhabited

/-- Fence classes (R230). -/
inductive FenceClass where
  | ar | acq | rel
  deriving DecidableEq, Repr, Inhabited

/-- Scopes in widening order (R11, R214). -/
inductive Scope where
  | thread | group | block | core | stack | device | system
  deriving DecidableEq, Repr, Inhabited

/-- Transforms of xcopy (R254). -/
inductive Xform where
  | none | tr | benc | bdec | fcv | gath | swz
  deriving DecidableEq, Repr, Inhabited

/-- Modifiers of hint.mod (R60). The scope field 0 is the target's default. -/
structure Mods where
  sat : Bool
  nega : Bool
  negb : Bool
  negc : Bool
  scope : BitVec 3
  cache : BitVec 3
  deriving DecidableEq, Repr, Inhabited

/-- The parameters of a partition on one stack (R440). -/
structure PartParams where
  columns : List Nat
  slices : List Nat
  floors : List (Nat × Nat)   -- vault, floor in hundredths of GB/s
  encSlots : List Nat
  powerFloor : Nat            -- watts
  ceiling : Nat
  sliceLen : Nat
  deriving DecidableEq, Repr, Inhabited

/-- A lane breakpoint (R483); part is the partition that its command names (entry 84). -/
structure Breakpoint where
  enable : Bool
  job : Word
  pc : Addr
  block : Word
  lane : BitVec 10
  anyBlock : Bool
  anyLane : Bool
  part : Nat
  deriving DecidableEq, Repr, Inhabited

/-- A part that a retire command names (R518). -/
inductive RetPart where
  | core (stack core : Nat)
  | bank (stack bank : Nat)
  | lane (stack vault lane : Nat)
  | dramRow (stack vault layer bank row : Nat)
  deriving DecidableEq, Repr, Inhabited

/-- An operation that the Kelmus transport brings from another module (R508, R510). -/
inductive FabricOp where
  | store (va : Addr) (bytes : List Byte)
  | copy (va : Addr) (bytes : List Byte)
  | billet (va : Addr) (sectors : List (Nat × List Byte))
  | fsemInc (va : Addr) (amount : Word)
  | fsemRd (va : Addr)
  deriving DecidableEq, Repr, Inhabited

/-- One constructor per row of spec/opcode_table.json, in the table's order. Rows 0 to 239 are words of the
instruction set; the rows after them are events of the device, the host and the links, with the parameters their
rules name. -/
inductive Instr where
  -- hint words (R55)
  | hintImm (p : BitVec 22)
  | hintGrd (sense : Bool) (p : BitVec 3)
  | hintMod (m : Mods)
  | hintYield
  | hintSched (v : BitVec 22)
  -- control (R63)
  | bra (i : BitVec 20)
  | br (sense : Bool) (p : BitVec 3) (i : BitVec 20)
  | bru (sense : Bool) (sp : BitVec 2) (i : BitVec 20)
  | call (d : Fld) (i : BitVec 20)
  | callx (d : Fld) (a : Src)
  | ret (a : Src)
  | exit
  | regroup (a : Src)
  | conv (b : Src)
  | nop
  | winVReg (b : Src)
  | winSReg (b : Src)
  | winVImm (i : BitVec 11)
  | winSImm (i : BitVec 11)
  -- uniform arithmetic (R63)
  | saddI32 (d : Fld) (a b : Src)
  | ssubI32 (d : Fld) (a b : Src)
  | smulI32 (d : Fld) (a b : Src)
  | sandB32 (d : Fld) (a b : Src)
  | sorB32 (d : Fld) (a b : Src)
  | sxorB32 (d : Fld) (a b : Src)
  | sshlB32 (d : Fld) (a b : Src)
  | sshrN32 (d : Fld) (a b : Src)
  | ssraI32 (d : Fld) (a b : Src)
  | sminI32 (d : Fld) (a b : Src)
  | sminN32 (d : Fld) (a b : Src)
  | smaxI32 (d : Fld) (a b : Src)
  | smaxN32 (d : Fld) (a b : Src)
  | saddI64 (d : Fld) (a b : Src)
  | ssubI64 (d : Fld) (a b : Src)
  | smovB32 (d : Fld) (a : Src)
  | scmp (sp : BitVec 2) (c : ICond) (a b : Src)
  | ssel (d : Fld) (sp : BitVec 2) (a b : Src)
  | srdsp (d : Fld) (n : BitVec 6)
  | saddI32Imm (d : Fld) (a : Src) (i : BitVec 11)
  | sandB32Imm (d : Fld) (a : Src) (i : BitVec 11)
  | sorB32Imm (d : Fld) (a : Src) (i : BitVec 11)
  | sxorB32Imm (d : Fld) (a : Src) (i : BitVec 11)
  | smovi (d : Fld) (i : BitVec 20)
  -- vector integer (R64)
  | addI32 (d : Fld) (a : Src) (b : SrcB)
  | subI32 (d : Fld) (a : Src) (b : SrcB)
  | mulI32 (d : Fld) (a : Src) (b : SrcB)
  | mulhiI32 (d : Fld) (a : Src) (b : SrcB)
  | mulhiN32 (d : Fld) (a : Src) (b : SrcB)
  | andB32 (d : Fld) (a : Src) (b : SrcB)
  | orB32 (d : Fld) (a : Src) (b : SrcB)
  | xorB32 (d : Fld) (a : Src) (b : SrcB)
  | shlB32 (d : Fld) (a : Src) (b : SrcB)
  | shrN32 (d : Fld) (a : Src) (b : SrcB)
  | sraI32 (d : Fld) (a : Src) (b : SrcB)
  | rotlB32 (d : Fld) (a : Src) (b : SrcB)
  | rotrB32 (d : Fld) (a : Src) (b : SrcB)
  | minI32 (d : Fld) (a : Src) (b : SrcB)
  | maxI32 (d : Fld) (a : Src) (b : SrcB)
  | minN32 (d : Fld) (a : Src) (b : SrcB)
  | maxN32 (d : Fld) (a : Src) (b : SrcB)
  | mulWideI32 (d : Fld) (a : Src) (b : SrcB)
  | mulWideN32 (d : Fld) (a : Src) (b : SrcB)
  | addI64 (d : Fld) (a : Src) (b : SrcB)
  | subI64 (d : Fld) (a : Src) (b : SrcB)
  | addA64 (d : Fld) (a : Src) (b : SrcB)
  | bfeN32 (d : Fld) (a : Src) (b : SrcB)
  | bfeI32 (d : Fld) (a : Src) (b : SrcB)
  | bfiB32 (d : Fld) (a : Src) (b : SrcB)
  | absI32 (d : Fld) (a : Src)
  | negI32 (d : Fld) (a : Src)
  | clzB32 (d : Fld) (a : Src)
  | popcB32 (d : Fld) (a : Src)
  | brevB32 (d : Fld) (a : Src)
  | movB32 (d : Fld) (a : Src)
  | notB32 (d : Fld) (a : Src)
  | lea (d : Fld) (a : Src) (b : SrcB) (k : BitVec 2)
  | leaN (d : Fld) (a : Src) (b : SrcB) (k : BitVec 2)
  | addI32Imm (d : Fld) (a : Src) (i : BitVec 11)
  | andB32Imm (d : Fld) (a : Src) (i : BitVec 11)
  | orB32Imm (d : Fld) (a : Src) (i : BitVec 11)
  | xorB32Imm (d : Fld) (a : Src) (i : BitVec 11)
  | movi (d : Fld) (i : BitVec 20)
  | sel (d : Fld) (sense : Bool) (p : BitVec 3) (a : Src) (b : SrcB)
  | cmp (wide : Bool) (p : BitVec 3) (c : ICond) (a : Src) (b : SrcB)
  | pand (d a b : BitVec 3)
  | por (d a b : BitVec 3)
  | pxor (d a b : BitVec 3)
  | pnot (d a : BitVec 3)
  | voteAny (d a : BitVec 3)
  | voteAll (d a : BitVec 3)
  | ballot (d : Fld) (a : BitVec 3)
  | matchB32 (d : Fld) (a : Src)
  | lanes (d : Fld)
  | shflIdx (d : Fld) (a : Src) (b : SrcB)
  | shflUp (d : Fld) (a : Src) (b : SrcB)
  | shflDown (d : Fld) (a : Src) (b : SrcB)
  | shflXor (d : Fld) (a : Src) (b : SrcB)
  | s2v (d : Fld) (a : Src)
  | v2s (d : Fld) (a : Src) (b : SrcB)
  | gred (o : RedOp) (d : Fld) (a : Src)
  | gscan (o : RedOp) (d : Fld) (a : Src)
  | madI32 (d : Fld) (a b : Src) (c : Fld)
  -- memory (R66)
  | ldG (d : Fld) (a : Src) (i : BitVec 6) (w : LdW) (o : LdOrd)
  | stG (i : BitVec 6) (a b : Src) (w : StW) (o : StOrd)
  | ldSp (d : Fld) (a : Src) (i : BitVec 6) (w : LdW) (o : LdOrd)
  | stSp (i : BitVec 6) (a b : Src) (w : StW) (o : StOrd)
  | ldK (d : Fld) (a : Src) (i : BitVec 6) (w : LdW)
  | prefetchL2 (a : Src) (i : BitVec 6)
  | prefetchL1 (a : Src) (i : BitVec 6)
  | pgprobe (d : Fld) (a : Src) (i : BitVec 6)
  | ldNfB32 (d : Fld) (a : Src) (i : BitVec 6)
  | ldNfB64 (d : Fld) (a : Src) (i : BitVec 6)
  | ldNfB128 (d : Fld) (a : Src) (i : BitVec 6)
  -- float (R67)
  | floatAdd (t : FTy) (d : Fld) (a : Src) (b : SrcB)
  | floatSub (t : FTy) (d : Fld) (a : Src) (b : SrcB)
  | floatMul (t : FTy) (d : Fld) (a : Src) (b : SrcB)
  | floatMin (t : FTy) (d : Fld) (a : Src) (b : SrcB)
  | floatMax (t : FTy) (d : Fld) (a : Src) (b : SrcB)
  | fclass (t : FTy) (d : Fld) (a : Src)
  | dot2 (t : FTy) (d : Fld) (a : Src) (b : SrcB)
  | dot4 (t : FTy) (d : Fld) (a : Src) (b : SrcB)
  | fma (t : FTy) (d : Fld) (a b : Src) (c : Fld)
  | floatCmp (t : FTy) (p : BitVec 3) (c : FCond) (a : Src) (b : SrcB)
  | rcpF32 (d : Fld) (a : Src)
  | rsqrtF32 (d : Fld) (a : Src)
  | sqrtF32 (d : Fld) (a : Src)
  | exp2F32 (d : Fld) (a : Src)
  | log2F32 (d : Fld) (a : Src)
  | sinF32 (d : Fld) (a : Src)
  | cosF32 (d : Fld) (a : Src)
  | tanhF32 (d : Fld) (a : Src)
  | rcpF64 (d : Fld) (a : Src)
  | rsqrtF64 (d : Fld) (a : Src)
  | sqrtF64 (d : Fld) (a : Src)
  | exp2F16x2 (d : Fld) (a : Src)
  | tanhF16x2 (d : Fld) (a : Src)
  | tanhBf16x2 (d : Fld) (a : Src)
  | castFloat (d : Fld) (a : Src) (dst src : Fmt) (sat : Bool) (r : Rnd)
  | castIntFloat (d : Fld) (a : Src) (toInt : Bool) (it : IntTy) (ft : FTy) (sat : Bool) (r : Rnd)
  | pack (d : Fld) (a : Src) (el : PackElem) (ix : BitVec 3) (sat : Bool) (r : Rnd)
  | rngSeed (a : Src)
  | rngNext (d : Fld)
  | fmodeRd (d : Fld)
  | fmodeWr (a : Src)
  -- atomics (R68)
  | atomAdd (w64 : Bool) (d : Fld) (a b : Src) (o : AtOrd)
  | atomMin (w64 : Bool) (d : Fld) (a b : Src) (o : AtOrd)
  | atomMax (w64 : Bool) (d : Fld) (a b : Src) (o : AtOrd)
  | atomAnd (w64 : Bool) (d : Fld) (a b : Src) (o : AtOrd)
  | atomOr (w64 : Bool) (d : Fld) (a b : Src) (o : AtOrd)
  | atomXor (w64 : Bool) (d : Fld) (a b : Src) (o : AtOrd)
  | atomXchg (w64 : Bool) (d : Fld) (a b : Src) (o : AtOrd)
  | atomCas (w64 : Bool) (d : Fld) (a b : Src) (o : AtOrd)
  | atomMinN32 (d : Fld) (a b : Src) (o : AtOrd)
  | atomMaxN32 (d : Fld) (a b : Src) (o : AtOrd)
  | atomMinN64 (d : Fld) (a b : Src) (o : AtOrd)
  | atomMaxN64 (d : Fld) (a b : Src) (o : AtOrd)
  | atomAddF32 (d : Fld) (a b : Src) (o : AtOrd)
  | atomAddF16x2 (d : Fld) (a b : Src) (o : AtOrd)
  | atomAddBf16x2 (d : Fld) (a b : Src) (o : AtOrd)
  | atomAddF64 (d : Fld) (a b : Src) (o : AtOrd)
  | atomredAddI32 (a b : Src) (o : RedOrd)
  | atomredMinI32 (a b : Src) (o : RedOrd)
  | atomredMaxI32 (a b : Src) (o : RedOrd)
  | atomredAndB32 (a b : Src) (o : RedOrd)
  | atomredOrB32 (a b : Src) (o : RedOrd)
  | atomredXorB32 (a b : Src) (o : RedOrd)
  | atomredAddF32 (a b : Src) (o : RedOrd)
  | atomredAddI64 (a b : Src) (o : RedOrd)
  -- synchronisation (R68)
  | fence (sc : Scope) (k : FenceClass)
  | fenceX (e l : BitVec 6)
  | gateIn (n : BitVec 4)
  | gateWait (n : BitVec 4)
  | gatePass (n : BitVec 4)
  | gateFold (d : Fld) (op : FoldOp) (n : BitVec 4) (b : SrcB)
  | nbarArrive (n : BitVec 4)
  | nbarWait (n : BitVec 4)
  | monArm (a : Src)
  | monWait
  | fsemInc (a b : Src)
  | fsemWait (a b : Src)
  | fsemRd (d : Fld) (a : Src)
  -- engines (R69)
  | xcopy (t : Xform) (d : Fld) (a : Src)
  | xcopyCancel (a : Fld)
  | xcopyStat (d a : Fld)
  | accAlloc (d : Fld) (a : Src)
  | accFree (a : Src)
  | accLd (d : Fld) (a : Src) (b : SrcB)
  | accZero (a : Src)
  | mseqStart (a : Src)
  | mseqStop
  | mhdr (k : BitVec 3) (off : BitVec 17)
  | mload (k : BitVec 3)
  | mswap
  | mstream (a c : BitVec 3) (ovw chain : Bool)
  | mchain (s l : BitVec 2)
  | mdrain (c d : BitVec 3) (clear : Bool)
  | marrive (n : BitVec 4)
  | mwait (c : BitVec 16) (n : BitVec 4)
  | mloop (l : BitVec 2) (c : BitVec 8) (back : BitVec 10)
  | mjmp (i : BitVec 20)
  | mend
  | srfAlloc (d : Fld) (a : Src)
  | srfFree (a : Src)
  | srfQuery (d : Fld) (a : Src) (k : BitVec 6)
  | srfPin (a : Src)
  | srfEvict (a : Src)
  | srfView (d : Fld) (a : Src)
  | sld (d : Fld) (a b : Src) (w : SurfW) (vol : Bool)
  | sst (d : Fld) (a b : Src) (w : SurfW) (vol : Bool)
  | qbind (q : BitVec 4) (a : Src)
  | qpush (q : BitVec 4) (a : Src) (k : BitVec 5)
  | qpushS (q : BitVec 4) (a : Src) (k : BitVec 5)
  | qpop (d : Fld) (q : BitVec 4) (k : BitVec 5)
  | qpeek (d : Fld) (q : BitVec 4) (k : BitVec 5)
  | qstat (d : Fld) (q : BitVec 4)
  | hmarkGet (d : Fld) (a : Src)
  | hmarkVoid (a : Src)
  | hmarkClose (a : Src)
  | launch (a : Src)
  | ctrNew (d : Fld) (a : Src)
  | ctrRaise (a b : Src)
  | ctrPost (a : Src)
  | ctrWait (a : Src)
  | ctrRd (d : Fld) (a : Src)
  | cancel (a : Src)
  | prio (a : Src)
  | sliceRd (d : Fld)
  | kRd (d : Fld) (n : BitVec 12)
  | kWr (d : Fld) (n : BitVec 12)
  | tlbinvPartition (d : Fld)
  | tlbinvPage (d : Fld)
  | kCycleLoRead (d : Fld)
  | trap (c : BitVec 12)
  | tret
  | parkRd (d : Fld) (a : Src)
  | ctxSave (a : Src)
  | ctxLoad (a : Src)
  | halt
  | snap
  | capRd (d : Fld) (a : Src)
  -- events
  | heldRecordEntry (part stack : Nat) (job : Word)
  | trapGroupStart (part stack : Nat) (job : Word)
  | breakpointMatch (blk grp lane bp : Nat)
  | loadCompletion (acc : Nat)
  | parityRetry (stack vault offset : Nat) (lanes : List Nat) (attempts : Nat) (write : Bool)
  | laneSwap (stack vault lane : Nat)
  | pageServiceComplete (part : Nat) (va : Addr)
  | tlbInvalidationComplete (inv : Nat)
  | hostCompletionError (acc : Nat)
  | monitorPoll (blk grp lane : Nat)
  | fsemRecheck (blk grp : Nat)
  | convEpisodeEnd (blk grp : Nat) (pc : Addr)
  | regroupArrival (blk grp lane : Nat)
  | regroupWindowClose (blk : Nat)
  | copyChunk (copy chunk : Nat)
  | copyCompletion (copy : Nat)
  | sequencerGrant (stack core : Nat)
  | pass (blk : Nat)
  | accumulatorUpdate (blk : Nat)
  | accBankReturn (blk slot : Nat)
  | accGrant (stack core : Nat)
  | tileFetch (part entry tile : Nat)
  | saggerEviction (part entry tile : Nat)
  | linkFailure
  | linkReturn
  | flitRetry
  | callDepart (blk grp queue : Nat)
  | returnArrival (call : Nat)
  | drawAccept (call : Nat)
  | registrationComplete (part : Nat) (h : Word)
  | rayQuery (call : Nat)
  | depthCall (call : Nat)
  | blendCall (call : Nat)
  | clearCall (call : Nat)
  | textureCall (call : Nat)
  | tessellateTriangle (call : Nat)
  | tessellateQuad (call : Nat)
  | frameBegin (call : Nat)
  | bandEncode (call : Nat)
  | frameEnd (call : Nat)
  | closeEffect (part : Nat) (h : Word)
  | hallmarkWatchdogExpiry (part entry : Nat)
  | barrierWatchdogExpiry (blk : Nat)
  | regroupWatchdogExpiry (blk grp lane : Nat)
  | contextStop (part stack : Nat) (job : Word)
  | stopComplete (part stack : Nat) (job : Word)
  | blockEviction (blk : Nat)
  | blockRestore (blk : Nat)
  | blockPlacement (blk : Nat)
  | deferralHold (blk : Nat)
  | vaultReading (stack : Nat) (tenths : List Nat)
  | refreshCharge (stack : Nat)
  | sliceExpiry (part stack : Nat) (job : Word)
  | blockCompletion (blk : Nat)
  | windowEnd (stack core : Nat)
  | powerStepEnd (stack core : Nat)
  | powerMeasurement (watts forecast : Nat)
  | debugStepEnd (part stack : Nat) (job : Word)
  | snapshotTrigger (blk : Nat) (id : Word)
  | hostWrite (part : Nat) (va : Addr) (bytes : List Byte)
  | hostRead (part : Nat) (va : Addr) (len : Nat)
  | create (part : Nat) (p0 p1 : PartParams) (table window mailbox : Addr)
  | resize (part stack : Nat) (p : PartParams)
  | destroy (part : Nat)
  | invalidate (part : Nat) (va : Option Addr)
  | cap (watts : Nat)
  | floor (part stack watts : Nat)
  | fabricRow (part row : Nat) (contents : BitVec 128)
  | debugStop (part stack : Nat) (job : Word)
  | debugResume (part stack : Nat) (job : Word)
  | debugStep (part stack : Nat) (job : Word) (block : Word) (grp lane : Nat)
  | debugBreakpoint (stack n : Nat) (bp : Breakpoint)
  | debugTraceArea (stack area : Nat) (arrival conflict : Bool) (threshold : Nat)
  | debugState (stack d : Nat)
  | attest (stack : Nat) (nonce : BitVec 512)
  | retire (p : RetPart)
  | dramRowRemap (stack vault layer bank row : Nat)
  /-- part: the stack and the partition that the row of the other module names -/
  | fabricOpArrival (src : Nat) (part : Nat × Nat) (op : FabricOp)
  | keepalive (port : Nat)
  | moduleUnreachable (m : Nat)
  | boot (stack : Nat)
  | p3Entry (stack : Nat)
  | illegalEncoding (w : Word)
  | fetchFault (cause : BitVec 2)
  | firmwareUpdate (stack image : Nat)
  | neighbourSessionSetUp (port : Nat) (billets : Bool)
  | keepaliveArrival (port m : Nat)
  deriving DecidableEq, Repr, Inhabited

/-- A pending hint word of a thread (R54, R55). -/
inductive Hint where
  | imm (p : BitVec 22)
  | grd (sense : Bool) (p : BitVec 3)
  | mod (m : Mods)
  | yield
  | sched (v : BitVec 22)
  /-- a hint word of a reserved kind or with a reserved bit, which makes its sequence illegal (R56) -/
  | bad (w : Word)
  deriving DecidableEq, Repr, Inhabited

/-- A location's space: device physical memory (R143), the scratchpad of a block (R162), bytes of a surface
(R338). -/
inductive Machine.Space where
  | mem
  | scratch (blk : Nat)
  | srf (part entry : Nat)
  deriving DecidableEq, Repr, Inhabited

/-- What a read of BAR0 or of a function's extended capability names. R501 gives the contents of BAR0 and no offsets: the model
names them (DESIGN CHOICE, entry 116). -/
inductive BarItem where
  /-- a word of the capability list (R517) -/
  | capability (word : Nat)
  /-- the status words of the commands that a stack has completed, and its reports of R516 (R504) -/
  | commands (stack : Nat)
  | reports (stack : Nat)
  /-- the error logs: array and transfer records (R171), parts that stay in service degraded (R518) -/
  | arrayLog (stack : Nat)
  | transferLog (stack : Nat)
  | degraded (stack : Nat)
  /-- the step at which a stack's boot failed (R512), and its power state (R519) -/
  | boot (stack : Nat)
  | power (stack : Nat)
  /-- the certificate of a stack's identity key or debug attestation key (R515) -/
  | certificate (stack : Nat) (debug : Bool)
  /-- the management processor's own state, in debug state D2 (R520) -/
  | processor (stack : Nat)
  /-- the function's status word (R505), and an entry of its MSI-X table (R500) -/
  | status
  | vector (n : Nat)
  /-- errors reported under Advanced Error Reporting with the function as requester (R161, R500, R502, R503) -/
  | errors
  deriving DecidableEq, Repr, Inhabited

/-- What one step of the model does: which agent moves next (DESIGN CHOICE, entry 1). -/
inductive Move where
  /-- the issue stage of a lane cluster gives one turn (R81) -/
  | turn (stack core cluster : Nat)
  /-- the lanes of a group that its turn found ready at a key issue as one bundle (R80) -/
  | issue (blk grp : Nat) (pc : Addr) (hints : List Hint) (lanes : List Nat)
  /-- a k.wr of a group takes effect, after the cycle in which it issued (R453) -/
  | kWrite (blk grp n : Nat) (v : Word)
  /-- the running sequencer of a block fetches and starts its next word (R284) -/
  | seq (blk : Nat)
  /-- an access in flight that fills no register is performed (R148, R217) -/
  | perform (acc : Nat)
  /-- an event row of the opcode table -/
  | event (i : Instr)
  /-- the core clock of a core advances by one cycle (R40) -/
  | cycle (stack core : Nat)
  /-- the microsecond count of a stack advances by one (R171) -/
  | micro (stack : Nat)
  /-- a cell of a granule of memory, of scratchpad or of a bank is upset: bit n of it flips and ECC corrects it, or more
  than ECC corrects (R164, R166, R172, R313); what upsets a cell is outside the machine -/
  | upset (sp : Machine.Space) (granule bit : Nat) (uncorrectable : Bool)
  /-- an error is met in a register file of a core, corrected or not: it counts toward the core's retirement (R518; entry
  111) -/
  | regUpset (stack core : Nat) (uncorrectable : Bool)
  /-- a unit meets an uncorrectable error inside it while it serves a call (R346); what brings it about is outside the
  machine -/
  | unitError (call : Nat)
  /-- the host has read records of a stack's trace ring, whose room is free again (R485) -/
  | traceRead (stack records : Nat)
  /-- the command queues give the next command that waited (R504) -/
  | command
  /-- the host reads BAR0 of a function, and writes an entry of its MSI-X table (R500, R501) -/
  | barRead (fn : Nat) (item : BarItem)
  | vectorWrite (fn n : Nat) (entry : BitVec 128)
  /-- the host gives the module its number (R508) -/
  | numberModule (n : Nat)
  deriving DecidableEq, Repr, Inhabited

end Sys2Proof
end

