-- ==== Sys2Proof/WellFormed.lean ====
section
/-!
DEFINITION. Which instructions have an encoding (R47, R66 to R70, R207 to R210, R302, R453): register groups aligned,
code values not reserved. What the operand types already rule out needs no check here.
-/

namespace Sys2Proof

/-- Why a word is no instruction (R70); each raises the illegal trap. -/
inductive DecodeError where
  | short            -- fewer than four bytes
  | reservedMajor
  | reservedMinor
  | reservedBits
  | misaligned       -- R47
  | reservedCode     -- a code value that R63 to R69 reserve
  deriving DecidableEq, Repr, Inhabited

/-- R47: an operand of n registers is named by a multiple of n. -/
def aligned (f : Fld) (n : Nat) : Bool := f.toNat % n == 0

/-- The alignment of a b operand of n registers, in either file. -/
def SrcB.aligned (b : SrcB) (n : Nat) : Bool :=
  match b with
  | .vec r => Sys2Proof.aligned r.f n
  | .uni r => Sys2Proof.aligned r.f n

def SrcB.isUni : SrcB → Bool
  | .vec _ => false
  | .uni _ => true

/-- Registers of a load destination (R173). -/
def LdW.regs : LdW → Nat
  | .b64 => 2
  | .b128 => 4
  | _ => 1

/-- Bytes of a load (R173). -/
def LdW.bytes : LdW → Nat
  | .n8 | .i8 => 1
  | .n16 | .i16 => 2
  | .b32 => 4
  | .b64 => 8
  | .b128 => 16

def StW.regs : StW → Nat
  | .b64 => 2
  | .b128 => 4
  | _ => 1

def StW.bytes : StW → Nat
  | .b8 => 1
  | .b16 => 2
  | .b32 => 4
  | .b64 => 8
  | .b128 => 16

/-- Data registers of a surface form (R337). -/
def SurfW.regs : SurfW → Nat
  | .b32 => 1
  | .b64 => 2
  | .b128 => 4
  | .fmt => 4

/-- Registers of one float operand: a .f64 value takes a pair (R187). -/
def FTy.regs : FTy → Nat
  | .f64 => 2
  | _ => 1

def Fmt.regs : Fmt → Nat
  | .f64 => 2
  | _ => 1

def IntTy.regs : IntTy → Nat
  | .i64 | .n64 => 2
  | _ => 1

/-- Registers of the a and b operands of dot2 and dot4 by type (R202). -/
def dotSrcRegs (t : FTy) (four : Bool) : Nat :=
  match t, four with
  | .f32, false => 2
  | .f32, true => 4
  | .f64, _ => 4
  | .f16, false | .bf16, false => 1
  | .f16, true | .bf16, true => 2

/-- System registers that k.rd may name (R454, R490). -/
def kReadable (n : Nat) : Bool :=
  [0x000, 0x001, 0x002, 0x004, 0x005, 0x010, 0x011, 0x012, 0x013, 0x014, 0x015, 0x016,
   0x020, 0x021, 0x022, 0x023, 0x024, 0x025, 0x026, 0x027, 0x028, 0x029, 0x02A, 0x02B,
   0x02C, 0x02D, 0x02E, 0x02F, 0x040, 0x041, 0x042, 0x043, 0x044, 0x045, 0x050, 0x051,
   0x060, 0x061, 0x100, 0x101, 0x102, 0x104, 0x105, 0x106, 0x107, 0x110, 0x111, 0x120, 0x121,
   0x130, 0x131, 0x132, 0x133, 0x134, 0x135].contains n

/-- System registers that k.wr may name (R454, R490). -/
def kWritable (n : Nat) : Bool :=
  [0x010, 0x011, 0x012, 0x013, 0x014, 0x015,
   0x020, 0x021, 0x022, 0x023, 0x024, 0x025, 0x026, 0x027, 0x028, 0x029, 0x02A, 0x02B,
   0x02C, 0x02D, 0x02E, 0x02F, 0x040, 0x041, 0x042, 0x043, 0x044, 0x045, 0x050, 0x051, 0x052,
   0x100, 0x101, 0x102].contains n

/-- Element formats of pack that R207 delivers only with sat = 1. -/
def PackElem.needsSat : PackElem → Bool
  | .e4m3 | .e5m2 => false
  | _ => true

/-- Byte-wide elements of pack (R210). -/
def PackElem.isByte : PackElem → Bool
  | .e4m3 | .e5m2 | .i8 | .n8 => true
  | _ => false

/-- R47: every one of the (field, registers) given is aligned. -/
def alignedAll (l : List (Fld × Nat)) : Option DecodeError :=
  if l.all (fun p => aligned p.1 p.2) then none else some .misaligned

/-- A code value check (R70). -/
def codeOk (b : Bool) : Option DecodeError := if b then none else some .reservedCode

/-- The first failed check, in order. -/
def firstOf (x y : Option DecodeError) : Option DecodeError := x.orElse (fun _ => y)

/-- Alignment of a, d and b where they span n registers. -/
def alignedB (d a : Fld × Nat) (b : SrcB) (n : Nat) : Option DecodeError :=
  firstOf (alignedAll [d, a]) (if b.aligned n then none else some .misaligned)

/-- What the operand types leave to check; none for a well-formed instruction. Constructors that are not named
have every operand bounded by its type. -/
def wfError : Instr → Option DecodeError
  | .hintMod m => codeOk (decide (m.cache.toNat ≤ 4))
  | .call d _ => alignedAll [(d, 2)]
  | .callx d a => alignedAll [(d, 2), (a.f, 2)]
  | .ret a => alignedAll [(a.f, 2)]
  | .saddI64 d a b | .ssubI64 d a b => alignedAll [(d, 2), (a.f, 2), (b.f, 2)]
  | .srdsp _ n => codeOk (decide (n.toNat < 24))
  | .mulWideI32 d _ _ | .mulWideN32 d _ _ => alignedAll [(d, 2)]
  | .addI64 d a b | .subI64 d a b => alignedB (d, 2) (a.f, 2) b 2
  | .addA64 d a _ | .lea d a _ _ | .leaN d a _ _ => alignedAll [(d, 2), (a.f, 2)]
  | .cmp wide _ _ a b => if wide then alignedB (0, 1) (a.f, 2) b 2 else none
  | .ldG d a _ w _ => alignedAll [(d, w.regs), (a.f, 2)]
  | .stG _ a b w _ => alignedAll [(a.f, 2), (b.f, w.regs)]
  | .ldSp d _ _ w _ | .ldK d _ _ w => alignedAll [(d, w.regs)]
  | .stSp _ _ b w _ => alignedAll [(b.f, w.regs)]
  | .prefetchL2 a _ | .prefetchL1 a _ | .pgprobe _ a _ | .ldNfB32 _ a _ => alignedAll [(a.f, 2)]
  | .ldNfB64 d a _ => alignedAll [(d, 2), (a.f, 2)]
  | .ldNfB128 d a _ => alignedAll [(d, 4), (a.f, 2)]
  | .floatAdd t d a b | .floatSub t d a b | .floatMul t d a b | .floatMin t d a b | .floatMax t d a b =>
      alignedB (d, t.regs) (a.f, t.regs) b t.regs
  | .fclass t _ a => alignedAll [(a.f, t.regs)]
  | .dot2 t d a b =>
      firstOf (alignedB (d, t.regs) (a.f, dotSrcRegs t false) b (dotSrcRegs t false))
        (codeOk (!(b.isUni && dotSrcRegs t false == 4)))
  | .dot4 t d a b =>
      firstOf (codeOk (t != .f64))
        (firstOf (alignedB (d, t.regs) (a.f, dotSrcRegs t true) b (dotSrcRegs t true))
          (codeOk (!(b.isUni && dotSrcRegs t true == 4))))
  | .fma t d a b c => alignedAll [(d, t.regs), (a.f, t.regs), (b.f, t.regs), (c, t.regs)]
  | .floatCmp t _ _ a b => alignedB (0, 1) (a.f, t.regs) b t.regs
  | .rcpF64 d a | .rsqrtF64 d a | .sqrtF64 d a => alignedAll [(d, 2), (a.f, 2)]
  | .castFloat d a dst src sat _ =>
      firstOf (codeOk (dst != src && (sat || dst != .e2m1))) (alignedAll [(d, dst.regs), (a.f, src.regs)])
  | .castIntFloat d a toInt it ft sat _ =>
      firstOf (codeOk (sat || !toInt))
        (if toInt then alignedAll [(d, it.regs), (a.f, ft.regs)] else alignedAll [(d, ft.regs), (a.f, it.regs)])
  | .pack _ _ el ix sat _ => codeOk ((sat || !el.needsSat) && (!el.isByte || decide (ix.toNat < 4)))
  | .rngSeed a => alignedAll [(a.f, 2)]
  | .atomAdd w d a b _ | .atomMin w d a b _ | .atomMax w d a b _ | .atomAnd w d a b _ | .atomOr w d a b _
  | .atomXor w d a b _ | .atomXchg w d a b _ =>
      alignedAll [(d, if w then 2 else 1), (a.f, 2), (b.f, if w then 2 else 1)]
  | .atomCas w d a b _ => alignedAll [(d, if w then 2 else 1), (a.f, 2), (b.f, if w then 4 else 2)]
  | .atomMinN32 _ a _ _ | .atomMaxN32 _ a _ _ | .atomAddF32 _ a _ _ | .atomAddF16x2 _ a _ _
  | .atomAddBf16x2 _ a _ _ => alignedAll [(a.f, 2)]
  | .atomMinN64 d a b _ | .atomMaxN64 d a b _ | .atomAddF64 d a b _ => alignedAll [(d, 2), (a.f, 2), (b.f, 2)]
  | .atomredAddI32 a _ _ | .atomredMinI32 a _ _ | .atomredMaxI32 a _ _ | .atomredAndB32 a _ _
  | .atomredOrB32 a _ _ | .atomredXorB32 a _ _ | .atomredAddF32 a _ _ => alignedAll [(a.f, 2)]
  | .atomredAddI64 a b _ => alignedAll [(a.f, 2), (b.f, 2)]
  | .fenceX e l => codeOk (e != 0 && l != 0)
  | .monArm a => alignedAll [(a.f, 2)]
  | .fsemInc a _ | .fsemWait a _ | .fsemRd _ a => alignedAll [(a.f, 2)]
  | .xcopy _ _ a => alignedAll [(a.f, 8)]
  | .mseqStart a => alignedAll [(a.f, 2)]
  | .mchain s l => codeOk (decide (s.toNat + l.toNat + 1 ≤ 4))
  | .mwait c _ => codeOk (c != 0)
  | .mloop _ _ back => codeOk (back != 0)
  | .srfAlloc _ a | .srfView _ a => alignedAll [(a.f, 2)]
  | .srfQuery _ a k => firstOf (codeOk (decide (k.toNat < 18))) (alignedAll [(a.f, 2)])
  | .sld d a _ w _ => alignedAll [(d, w.regs), (a.f, 2)]
  | .sst _ a b w _ => alignedAll [(a.f, 2), (b.f, w.regs)]
  | .launch a | .ctxSave a | .ctxLoad a => alignedAll [(a.f, 2)]
  | .kRd _ n => codeOk (kReadable n.toNat && n != 4)
  | .kWr _ n => codeOk (kWritable n.toNat)
  | _ => none

/-- The instruction has an encoding that R63 to R70 accept. -/
def wellFormed (i : Instr) : Bool := wfError i == none

end Sys2Proof
end

