-- ==== Sys2Proof/Decode.lean ====
section
/-!
DEFINITION. Decoding and encoding of instruction words (R43, R44, R62 to R71). A word decodes when its major and
minor code are assigned, its operands are well formed, and every reserved bit is zero, that is when encoding the
instruction read gives the word back.
-/

namespace Sys2Proof

/-! Field codes -/

def ICond.code : ICond → BitVec 4
  | .eq => 0 | .ne => 1 | .ltI => 2 | .leI => 3 | .gtI => 4 | .geI => 5 | .ltN => 6 | .leN => 7 | .gtN => 8 | .geN => 9

def ICond.ofCode (c : BitVec 4) : Option ICond :=
  [ICond.eq, .ne, .ltI, .leI, .gtI, .geI, .ltN, .leN, .gtN, .geN][c.toNat]?

def FCond.code : FCond → BitVec 4
  | .eq => 0 | .ne => 1 | .lt => 2 | .le => 3 | .gt => 4 | .ge => 5 | .num => 6 | .nan => 7 | .equ => 8 | .neu => 9
  | .ltu => 10 | .leu => 11 | .gtu => 12 | .geu => 13

def FCond.ofCode (c : BitVec 4) : Option FCond :=
  [FCond.eq, .ne, .lt, .le, .gt, .ge, .num, .nan, .equ, .neu, .ltu, .leu, .gtu, .geu][c.toNat]?

def FTy.code : FTy → BitVec 2
  | .f32 => 0 | .f64 => 1 | .f16 => 2 | .bf16 => 3

def FTy.ofCode (c : BitVec 2) : FTy := [FTy.f32, .f64, .f16, .bf16].getD c.toNat .f32

def Fmt.code : Fmt → BitVec 3
  | .f32 => 0 | .f64 => 1 | .f16 => 2 | .bf16 => 3 | .e4m3 => 4 | .e5m2 => 5 | .e2m1 => 6 | .e8m0 => 7

def Fmt.ofCode (c : BitVec 3) : Fmt :=
  [Fmt.f32, .f64, .f16, .bf16, .e4m3, .e5m2, .e2m1, .e8m0].getD c.toNat .f32

def IntTy.code : IntTy → BitVec 3
  | .i8 => 0 | .n8 => 1 | .i16 => 2 | .n16 => 3 | .i32 => 4 | .n32 => 5 | .i64 => 6 | .n64 => 7

def IntTy.ofCode (c : BitVec 3) : IntTy :=
  [IntTy.i8, .n8, .i16, .n16, .i32, .n32, .i64, .n64].getD c.toNat .i8

def Rnd.code : Rnd → BitVec 3
  | .ne => 0 | .tz => 1 | .up => 2 | .dn => 3 | .sr => 4 | .mode => 5

def Rnd.ofCode (c : BitVec 3) : Option Rnd := [Rnd.ne, .tz, .up, .dn, .sr, .mode][c.toNat]?

def PackElem.code : PackElem → BitVec 3
  | .e4m3 => 0 | .e5m2 => 1 | .e2m1 => 2 | .i8 => 3 | .n8 => 4 | .i4 => 5 | .n4 => 6

def PackElem.ofCode (c : BitVec 3) : Option PackElem :=
  [PackElem.e4m3, .e5m2, .e2m1, .i8, .n8, .i4, .n4][c.toNat]?

def RedOp.code : RedOp → BitVec 3
  | .addI32 => 0 | .minI32 => 1 | .maxI32 => 2 | .minN32 => 3 | .maxN32 => 4 | .andB32 => 5 | .orB32 => 6 | .xorB32 => 7

def RedOp.ofCode (c : BitVec 3) : RedOp :=
  [RedOp.addI32, .minI32, .maxI32, .minN32, .maxN32, .andB32, .orB32, .xorB32].getD c.toNat .addI32

def FoldOp.code : FoldOp → BitVec 2
  | .addI32 => 0 | .andB32 => 1 | .orB32 => 2 | .maxI32 => 3

def FoldOp.ofCode (c : BitVec 2) : FoldOp := [FoldOp.addI32, .andB32, .orB32, .maxI32].getD c.toNat .addI32

def LdW.code : LdW → BitVec 3
  | .n8 => 0 | .i8 => 1 | .n16 => 2 | .i16 => 3 | .b32 => 4 | .b64 => 5 | .b128 => 6

def LdW.ofCode (c : BitVec 3) : Option LdW := [LdW.n8, .i8, .n16, .i16, .b32, .b64, .b128][c.toNat]?

def StW.code : StW → BitVec 3
  | .b8 => 0 | .b16 => 1 | .b32 => 2 | .b64 => 3 | .b128 => 4

def StW.ofCode (c : BitVec 3) : Option StW := [StW.b8, .b16, .b32, .b64, .b128][c.toNat]?

def SurfW.code : SurfW → BitVec 2
  | .b32 => 0 | .b64 => 1 | .b128 => 2 | .fmt => 3

def SurfW.ofCode (c : BitVec 2) : SurfW := [SurfW.b32, .b64, .b128, .fmt].getD c.toNat .b32

def LdOrd.code : LdOrd → BitVec 2
  | .ord => 0 | .vol => 1 | .acq => 2

def LdOrd.ofCode (c : BitVec 2) : Option LdOrd := [LdOrd.ord, .vol, .acq][c.toNat]?

def StOrd.code : StOrd → BitVec 2
  | .ord => 0 | .vol => 1 | .rel => 3

def StOrd.ofCode (c : BitVec 2) : Option StOrd :=
  match c.toNat with
  | 0 => some .ord
  | 1 => some .vol
  | 3 => some .rel
  | _ => none

def AtOrd.code : AtOrd → BitVec 2
  | .rlx => 0 | .acq => 1 | .rel => 2 | .ar => 3

def AtOrd.ofCode (c : BitVec 2) : AtOrd := [AtOrd.rlx, .acq, .rel, .ar].getD c.toNat .rlx

def RedOrd.code : RedOrd → BitVec 2
  | .rlx => 0 | .rel => 2

def RedOrd.ofCode (c : BitVec 2) : Option RedOrd :=
  match c.toNat with
  | 0 => some .rlx
  | 2 => some .rel
  | _ => none

def FenceClass.code : FenceClass → BitVec 2
  | .ar => 0 | .acq => 1 | .rel => 2

def FenceClass.ofCode (c : BitVec 2) : Option FenceClass := [FenceClass.ar, .acq, .rel][c.toNat]?

def Scope.code : Scope → BitVec 3
  | .thread => 1 | .group => 2 | .block => 3 | .core => 4 | .stack => 5 | .device => 6 | .system => 7

/-- R60: code 0 is the target's default, and no scope of fence. -/
def Scope.ofCode (c : BitVec 3) : Option Scope :=
  match c.toNat with
  | 1 => some .thread
  | 2 => some .group
  | 3 => some .block
  | 4 => some .core
  | 5 => some .stack
  | 6 => some .device
  | 7 => some .system
  | _ => none

def Xform.code : Xform → BitVec 4
  | .none => 0 | .tr => 1 | .benc => 2 | .bdec => 3 | .fcv => 4 | .gath => 5 | .swz => 6

def Xform.ofCode (c : BitVec 4) : Option Xform :=
  [Xform.none, .tr, .benc, .bdec, .fcv, .gath, .swz][c.toNat]?

/-! Formats (R44) -/

abbrev b1 (x : Bool) : BitVec 1 := BitVec.ofBool x

def packA (m d a b : BitVec 6) (fn : BitVec 4) (sb ea eb : Bool) : Word :=
  m ++ (d ++ (a ++ (b ++ (fn ++ (b1 sb ++ (b1 ea ++ (b1 eb ++ (0 : BitVec 1))))))))

def packB (m d a b c : BitVec 6) (ea eb : Bool) : Word :=
  m ++ (d ++ (a ++ (b ++ (c ++ (b1 ea ++ b1 eb)))))

def packC (m d a : BitVec 6) (fn : BitVec 2) (ea : Bool) (imm : BitVec 11) : Word :=
  m ++ (d ++ (a ++ (fn ++ (b1 ea ++ imm))))

def packD (m d : BitVec 6) (imm : BitVec 20) : Word := m ++ (d ++ imm)

def packE (m d a b : BitVec 6) (fn : BitVec 3) (o : BitVec 2) (ea eb : Bool) : Word :=
  m ++ (d ++ (a ++ (b ++ (fn ++ (o ++ (b1 ea ++ (b1 eb ++ (0 : BitVec 1))))))))

def packH (kind : BitVec 4) (payload : BitVec 22) : Word := (0x3F : BitVec 6) ++ (kind ++ payload)

def SrcB.f : SrcB → Fld
  | .vec r => r.f
  | .uni r => r.f
def SrcB.chk : SrcB → Bool
  | .vec r => r.chk
  | .uni r => r.chk

/-- Format A with d, a and a b operand of R48. -/
def encAB (m : BitVec 6) (fn : BitVec 4) (d : Fld) (a : Src) (b : SrcB) : Word :=
  packA m d a.f b.f fn b.isUni a.chk b.chk

/-- Format A with d and a only. -/
def encA1 (m : BitVec 6) (fn : BitVec 4) (d : Fld) (a : Src) : Word := packA m d a.f 0 fn false a.chk false

/-- Format A with three registers of one file (sb reserved). -/
def encA2 (m : BitVec 6) (fn : BitVec 4) (d : Fld) (a b : Src) : Word := packA m d a.f b.f fn false a.chk b.chk

/-- Format A with three numbers. -/
def encA0 (m : BitVec 6) (fn : BitVec 4) (d a b : Fld) : Word := packA m d a b fn false false false

def encE (m : BitVec 6) (fn : BitVec 3) (o : BitVec 2) (d : Fld) (a b : Src) : Word :=
  packE m d a.f b.f fn o a.chk b.chk

def p3 (p : BitVec 3) : Fld := (0 : BitVec 3) ++ p
def p4 (p : BitVec 4) : Fld := (0 : BitVec 2) ++ p
def p5 (p : BitVec 5) : Fld := (0 : BitVec 1) ++ p
def p2 (p : BitVec 2) : Fld := (0 : BitVec 4) ++ p

def Mods.payload (m : Mods) : BitVec 22 :=
  b1 m.sat ++ (b1 m.nega ++ (b1 m.negb ++ (b1 m.negc ++ (m.scope ++ (m.cache ++ (0 : BitVec 12))))))

/-- The word of an instruction; none for an event, which has no word, and for tlbinv.*, whose words are those of
k.wr (rows 229 and 230 of the table have no encoding of their own). -/
def encode : Instr → Option Word
  | .hintImm p => some (packH 0 p)
  | .hintGrd n p => some (packH 1 ((0 : BitVec 18) ++ (b1 n ++ p)))
  | .hintMod m => some (packH 2 m.payload)
  | .hintYield => some (packH 3 0)
  | .hintSched v => some (packH 4 v)
  | .bra i => some (packD 0x01 0 i)
  | .br n p i => some (packD 0x02 ((0 : BitVec 2) ++ (b1 n ++ p)) i)
  | .bru n p i => some (packD 0x03 ((0 : BitVec 3) ++ (b1 n ++ p)) i)
  | .call d i => some (packD 0x04 d i)
  | .callx d a => some (encA1 0x05 0 d a)
  | .ret a => some (encA1 0x05 1 0 a)
  | .exit => some (encA0 0x05 2 0 0 0)
  | .regroup a => some (encA1 0x05 3 0 a)
  | .conv b => some (packA 0x05 0 0 b.f 4 true false b.chk)
  | .nop => some (encA0 0x05 5 0 0 0)
  | .winVReg b => some (packA 0x05 0 0 b.f 6 true false b.chk)
  | .winSReg b => some (packA 0x05 0 0 b.f 7 true false b.chk)
  | .winVImm i => some (packC 0x0A 0 0 0 false i)
  | .winSImm i => some (packC 0x0A 0 0 1 false i)
  | .saddI32 d a b => some (encA2 0x06 0 d a b)
  | .ssubI32 d a b => some (encA2 0x06 1 d a b)
  | .smulI32 d a b => some (encA2 0x06 2 d a b)
  | .sandB32 d a b => some (encA2 0x06 3 d a b)
  | .sorB32 d a b => some (encA2 0x06 4 d a b)
  | .sxorB32 d a b => some (encA2 0x06 5 d a b)
  | .sshlB32 d a b => some (encA2 0x06 6 d a b)
  | .sshrN32 d a b => some (encA2 0x06 7 d a b)
  | .ssraI32 d a b => some (encA2 0x06 8 d a b)
  | .sminI32 d a b => some (encA2 0x06 9 d a b)
  | .sminN32 d a b => some (encA2 0x06 10 d a b)
  | .smaxI32 d a b => some (encA2 0x06 11 d a b)
  | .smaxN32 d a b => some (encA2 0x06 12 d a b)
  | .saddI64 d a b => some (encA2 0x06 13 d a b)
  | .ssubI64 d a b => some (encA2 0x06 14 d a b)
  | .smovB32 d a => some (encA1 0x06 15 d a)
  | .scmp p c a b => some (encA2 0x07 c.code (p2 p) a b)
  | .ssel d p a b => some (encA2 0x08 ((0 : BitVec 2) ++ p) d a b)
  | .srdsp d n => some (packA 0x08 d n 0 4 false false false)
  | .saddI32Imm d a i => some (packC 0x09 d a.f 0 a.chk i)
  | .sandB32Imm d a i => some (packC 0x09 d a.f 1 a.chk i)
  | .sorB32Imm d a i => some (packC 0x09 d a.f 2 a.chk i)
  | .sxorB32Imm d a i => some (packC 0x09 d a.f 3 a.chk i)
  | .smovi d i => some (packD 0x0B d i)
  | .addI32 d a b => some (encAB 0x0C 0 d a b)
  | .subI32 d a b => some (encAB 0x0C 1 d a b)
  | .mulI32 d a b => some (encAB 0x0C 2 d a b)
  | .mulhiI32 d a b => some (encAB 0x0C 3 d a b)
  | .mulhiN32 d a b => some (encAB 0x0C 4 d a b)
  | .andB32 d a b => some (encAB 0x0C 5 d a b)
  | .orB32 d a b => some (encAB 0x0C 6 d a b)
  | .xorB32 d a b => some (encAB 0x0C 7 d a b)
  | .shlB32 d a b => some (encAB 0x0C 8 d a b)
  | .shrN32 d a b => some (encAB 0x0C 9 d a b)
  | .sraI32 d a b => some (encAB 0x0C 10 d a b)
  | .rotlB32 d a b => some (encAB 0x0C 11 d a b)
  | .rotrB32 d a b => some (encAB 0x0C 12 d a b)
  | .minI32 d a b => some (encAB 0x0C 13 d a b)
  | .maxI32 d a b => some (encAB 0x0C 14 d a b)
  | .minN32 d a b => some (encAB 0x0C 15 d a b)
  | .maxN32 d a b => some (encAB 0x0D 0 d a b)
  | .mulWideI32 d a b => some (encAB 0x0D 1 d a b)
  | .mulWideN32 d a b => some (encAB 0x0D 2 d a b)
  | .addI64 d a b => some (encAB 0x0D 3 d a b)
  | .subI64 d a b => some (encAB 0x0D 4 d a b)
  | .addA64 d a b => some (encAB 0x0D 5 d a b)
  | .bfeN32 d a b => some (encAB 0x0D 6 d a b)
  | .bfeI32 d a b => some (encAB 0x0D 7 d a b)
  | .bfiB32 d a b => some (encAB 0x0D 8 d a b)
  | .absI32 d a => some (encA1 0x0D 9 d a)
  | .negI32 d a => some (encA1 0x0D 10 d a)
  | .clzB32 d a => some (encA1 0x0D 11 d a)
  | .popcB32 d a => some (encA1 0x0D 12 d a)
  | .brevB32 d a => some (encA1 0x0D 13 d a)
  | .movB32 d a => some (encA1 0x0D 14 d a)
  | .notB32 d a => some (encA1 0x0D 15 d a)
  | .lea d a b k => some (encAB 0x0E ((0 : BitVec 2) ++ k) d a b)
  | .leaN d a b k => some (encAB 0x0E ((1 : BitVec 2) ++ k) d a b)
  | .addI32Imm d a i => some (packC 0x0F d a.f 0 a.chk i)
  | .andB32Imm d a i => some (packC 0x0F d a.f 1 a.chk i)
  | .orB32Imm d a i => some (packC 0x0F d a.f 2 a.chk i)
  | .xorB32Imm d a i => some (packC 0x0F d a.f 3 a.chk i)
  | .movi d i => some (packD 0x10 d i)
  | .sel d n p a b => some (encAB 0x11 (b1 n ++ p) d a b)
  | .cmp w p c a b => some (encAB 0x12 c.code ((0 : BitVec 2) ++ (b1 w ++ p)) a b)
  | .pand d a b => some (encA0 0x13 0 (p3 d) (p3 a) (p3 b))
  | .por d a b => some (encA0 0x13 1 (p3 d) (p3 a) (p3 b))
  | .pxor d a b => some (encA0 0x13 2 (p3 d) (p3 a) (p3 b))
  | .pnot d a => some (encA0 0x13 3 (p3 d) (p3 a) 0)
  | .voteAny d a => some (encA0 0x14 0 (p3 d) (p3 a) 0)
  | .voteAll d a => some (encA0 0x14 1 (p3 d) (p3 a) 0)
  | .ballot d a => some (encA0 0x14 2 d (p3 a) 0)
  | .matchB32 d a => some (encA1 0x14 3 d a)
  | .lanes d => some (encA0 0x14 4 d 0 0)
  | .shflIdx d a b => some (encAB 0x14 5 d a b)
  | .shflUp d a b => some (encAB 0x14 6 d a b)
  | .shflDown d a b => some (encAB 0x14 7 d a b)
  | .shflXor d a b => some (encAB 0x14 8 d a b)
  | .s2v d a => some (encA1 0x14 9 d a)
  | .v2s d a b => some (encAB 0x14 10 d a b)
  | .gred o d a => some (encA1 0x15 ((0 : BitVec 1) ++ o.code) d a)
  | .gscan o d a => some (encA1 0x15 ((1 : BitVec 1) ++ o.code) d a)
  | .madI32 d a b c => some (packB 0x16 d a.f b.f c a.chk b.chk)
  | .ldG d a i w o => some (encE 0x18 w.code o.code d a ⟨i, false⟩)
  | .stG i a b w o => some (encE 0x19 w.code o.code i a b)
  | .ldSp d a i w o => some (encE 0x1A w.code o.code d a ⟨i, false⟩)
  | .stSp i a b w o => some (encE 0x1B w.code o.code i a b)
  | .ldK d a i w => some (encE 0x1C w.code 0 d a ⟨i, false⟩)
  | .prefetchL2 a i => some (encE 0x1D 0 0 0 a ⟨i, false⟩)
  | .prefetchL1 a i => some (encE 0x1D 1 0 0 a ⟨i, false⟩)
  | .pgprobe d a i => some (encE 0x1D 2 0 d a ⟨i, false⟩)
  | .ldNfB32 d a i => some (encE 0x1D 3 0 d a ⟨i, false⟩)
  | .ldNfB64 d a i => some (encE 0x1D 4 0 d a ⟨i, false⟩)
  | .ldNfB128 d a i => some (encE 0x1D 5 0 d a ⟨i, false⟩)
  | .floatAdd t d a b => some (encAB ((0x8 : BitVec 4) ++ t.code) 0 d a b)
  | .floatSub t d a b => some (encAB ((0x8 : BitVec 4) ++ t.code) 1 d a b)
  | .floatMul t d a b => some (encAB ((0x8 : BitVec 4) ++ t.code) 2 d a b)
  | .floatMin t d a b => some (encAB ((0x8 : BitVec 4) ++ t.code) 3 d a b)
  | .floatMax t d a b => some (encAB ((0x8 : BitVec 4) ++ t.code) 4 d a b)
  | .fclass t d a => some (encA1 ((0x8 : BitVec 4) ++ t.code) 5 d a)
  | .dot2 t d a b => some (encAB ((0x8 : BitVec 4) ++ t.code) 6 d a b)
  | .dot4 t d a b => some (encAB ((0x8 : BitVec 4) ++ t.code) 7 d a b)
  | .fma t d a b c => some (packB ((0x9 : BitVec 4) ++ t.code) d a.f b.f c a.chk b.chk)
  | .floatCmp t p c a b => some (encAB 0x28 c.code (t.code ++ ((0 : BitVec 1) ++ p)) a b)
  | .rcpF32 d a => some (encA1 0x29 0 d a)
  | .rsqrtF32 d a => some (encA1 0x29 1 d a)
  | .sqrtF32 d a => some (encA1 0x29 2 d a)
  | .exp2F32 d a => some (encA1 0x29 3 d a)
  | .log2F32 d a => some (encA1 0x29 4 d a)
  | .sinF32 d a => some (encA1 0x29 5 d a)
  | .cosF32 d a => some (encA1 0x29 6 d a)
  | .tanhF32 d a => some (encA1 0x29 7 d a)
  | .rcpF64 d a => some (encA1 0x29 8 d a)
  | .rsqrtF64 d a => some (encA1 0x29 9 d a)
  | .sqrtF64 d a => some (encA1 0x29 10 d a)
  | .exp2F16x2 d a => some (encA1 0x29 11 d a)
  | .tanhF16x2 d a => some (encA1 0x29 12 d a)
  | .tanhBf16x2 d a => some (encA1 0x29 13 d a)
  | .castFloat d a dst src sat r => some (packA 0x2A d a.f (dst.code ++ src.code) (b1 sat ++ r.code) false a.chk false)
  | .castIntFloat d a toInt it ft sat r =>
      some (packA 0x2B d a.f (b1 toInt ++ (it.code ++ ft.code)) (b1 sat ++ r.code) false a.chk false)
  | .pack d a el ix sat r => some (packA 0x2C d a.f (el.code ++ ix) (b1 sat ++ r.code) false a.chk false)
  | .rngSeed a => some (encA1 0x2D 0 0 a)
  | .rngNext d => some (encA0 0x2D 1 d 0 0)
  | .fmodeRd d => some (encA0 0x2D 2 d 0 0)
  | .fmodeWr a => some (encA1 0x2D 3 0 a)
  | .atomAdd w d a b o => some (encE ((0x18 : BitVec 5) ++ b1 w) 0 o.code d a b)
  | .atomMin w d a b o => some (encE ((0x18 : BitVec 5) ++ b1 w) 1 o.code d a b)
  | .atomMax w d a b o => some (encE ((0x18 : BitVec 5) ++ b1 w) 2 o.code d a b)
  | .atomAnd w d a b o => some (encE ((0x18 : BitVec 5) ++ b1 w) 3 o.code d a b)
  | .atomOr w d a b o => some (encE ((0x18 : BitVec 5) ++ b1 w) 4 o.code d a b)
  | .atomXor w d a b o => some (encE ((0x18 : BitVec 5) ++ b1 w) 5 o.code d a b)
  | .atomXchg w d a b o => some (encE ((0x18 : BitVec 5) ++ b1 w) 6 o.code d a b)
  | .atomCas w d a b o => some (encE ((0x18 : BitVec 5) ++ b1 w) 7 o.code d a b)
  | .atomMinN32 d a b o => some (encE 0x32 0 o.code d a b)
  | .atomMaxN32 d a b o => some (encE 0x32 1 o.code d a b)
  | .atomMinN64 d a b o => some (encE 0x32 2 o.code d a b)
  | .atomMaxN64 d a b o => some (encE 0x32 3 o.code d a b)
  | .atomAddF32 d a b o => some (encE 0x32 4 o.code d a b)
  | .atomAddF16x2 d a b o => some (encE 0x32 5 o.code d a b)
  | .atomAddBf16x2 d a b o => some (encE 0x32 6 o.code d a b)
  | .atomAddF64 d a b o => some (encE 0x32 7 o.code d a b)
  | .atomredAddI32 a b o => some (encE 0x33 0 o.code 0 a b)
  | .atomredMinI32 a b o => some (encE 0x33 1 o.code 0 a b)
  | .atomredMaxI32 a b o => some (encE 0x33 2 o.code 0 a b)
  | .atomredAndB32 a b o => some (encE 0x33 3 o.code 0 a b)
  | .atomredOrB32 a b o => some (encE 0x33 4 o.code 0 a b)
  | .atomredXorB32 a b o => some (encE 0x33 5 o.code 0 a b)
  | .atomredAddF32 a b o => some (encE 0x33 6 o.code 0 a b)
  | .atomredAddI64 a b o => some (encE 0x33 7 o.code 0 a b)
  | .fence sc k => some (encA0 0x34 0 0 (p3 sc.code) (p2 k.code))
  | .fenceX e l => some (encA0 0x34 1 0 e l)
  | .gateIn n => some (encA0 0x34 2 0 (p4 n) 0)
  | .gateWait n => some (encA0 0x34 3 0 (p4 n) 0)
  | .gatePass n => some (encA0 0x34 4 0 (p4 n) 0)
  | .gateFold d op n b => some (packA 0x34 d (op.code ++ n) b.f 5 b.isUni false b.chk)
  | .nbarArrive n => some (encA0 0x34 6 0 (p4 n) 0)
  | .nbarWait n => some (encA0 0x34 7 0 (p4 n) 0)
  | .monArm a => some (encA1 0x34 8 0 a)
  | .monWait => some (encA0 0x34 9 0 0 0)
  | .fsemInc a b => some (encA2 0x34 10 0 a b)
  | .fsemWait a b => some (encA2 0x34 11 0 a b)
  | .fsemRd d a => some (encA1 0x34 12 d a)
  | .xcopy t d a => some (encA1 0x35 t.code d a)
  | .xcopyCancel a => some (encA0 0x36 0 0 a 0)
  | .xcopyStat d a => some (encA0 0x36 1 d a 0)
  | .accAlloc d a => some (encA1 0x37 0 d a)
  | .accFree a => some (encA1 0x37 1 0 a)
  | .accLd d a b => some (encAB 0x37 2 d a b)
  | .accZero a => some (encA1 0x37 3 0 a)
  | .mseqStart a => some (encA1 0x37 4 0 a)
  | .mseqStop => some (encA0 0x37 5 0 0 0)
  | .mhdr k off => some (packD 0x38 0 (k ++ off))
  | .mload k => some (packD 0x38 1 (k ++ (0 : BitVec 17)))
  | .mswap => some (packD 0x38 2 0)
  | .mstream a c ovw ch => some (packD 0x38 3 (a ++ (c ++ (b1 ovw ++ (b1 ch ++ (0 : BitVec 12))))))
  | .mchain s l => some (packD 0x38 4 ((0 : BitVec 16) ++ (s ++ l)))
  | .mdrain c d x => some (packD 0x38 5 (c ++ (d ++ (b1 x ++ (0 : BitVec 13)))))
  | .marrive n => some (packD 0x38 6 ((0 : BitVec 16) ++ n))
  | .mwait c n => some (packD 0x38 7 (c ++ n))
  | .mloop l c back => some (packD 0x38 8 (l ++ (c ++ back)))
  | .mjmp i => some (packD 0x38 9 i)
  | .mend => some (packD 0x38 10 0)
  | .srfAlloc d a => some (encA1 0x39 0 d a)
  | .srfFree a => some (encA1 0x39 1 0 a)
  | .srfQuery d a k => some (packA 0x39 d a.f k 2 false a.chk false)
  | .srfPin a => some (encA1 0x39 3 0 a)
  | .srfEvict a => some (encA1 0x39 4 0 a)
  | .srfView d a => some (encA1 0x39 5 d a)
  | .sld d a b w v => some (encE 0x3A ((0 : BitVec 1) ++ w.code) ((0 : BitVec 1) ++ b1 v) d a b)
  | .sst d a b w v => some (encE 0x3A ((1 : BitVec 1) ++ w.code) ((0 : BitVec 1) ++ b1 v) d a b)
  | .qbind q a => some (encA1 0x3B 0 (p4 q) a)
  | .qpush q a k => some (packA 0x3B (p4 q) a.f (p5 k) 1 false a.chk false)
  | .qpushS q a k => some (packA 0x3B (p4 q) a.f (p5 k) 2 false a.chk false)
  | .qpop d q k => some (encA0 0x3B 3 d (p4 q) (p5 k))
  | .qpeek d q k => some (encA0 0x3B 4 d (p4 q) (p5 k))
  | .qstat d q => some (encA0 0x3B 5 d (p4 q) 0)
  | .hmarkGet d a => some (encA1 0x3B 6 d a)
  | .hmarkVoid a => some (encA1 0x3B 7 0 a)
  | .hmarkClose a => some (encA1 0x3B 8 0 a)
  | .launch a => some (encA1 0x3C 0 0 a)
  | .ctrNew d a => some (encA1 0x3C 1 d a)
  | .ctrRaise a b => some (encA2 0x3C 2 0 a b)
  | .ctrPost a => some (encA1 0x3C 3 0 a)
  | .ctrWait a => some (encA1 0x3C 4 0 a)
  | .ctrRd d a => some (encA1 0x3C 5 d a)
  | .cancel a => some (encA1 0x3C 6 0 a)
  | .prio a => some (encA1 0x3C 7 0 a)
  | .sliceRd d => some (encA0 0x3C 8 d 0 0)
  | .kRd d n => some (packA 0x3D d (n.extractLsb' 6 6) (n.extractLsb' 0 6) 0 false false false)
  | .kCycleLoRead d => some (packA 0x3D d 0 4 0 false false false)
  | .kWr d n => some (packA 0x3D d (n.extractLsb' 6 6) (n.extractLsb' 0 6) 1 false false false)
  | .trap c => some (packA 0x3D 0 (c.extractLsb' 6 6) (c.extractLsb' 0 6) 2 false false false)
  | .tret => some (encA0 0x3D 3 0 0 0)
  | .parkRd d a => some (encA1 0x3D 4 d a)
  | .ctxSave a => some (encA1 0x3D 5 0 a)
  | .ctxLoad a => some (encA1 0x3D 6 0 a)
  | .halt => some (encA0 0x3D 7 0 0 0)
  | .snap => some (encA0 0x3D 8 0 0 0)
  | .capRd d a => some (encA1 0x3D 9 d a)
  | _ => none

/-! Fields of a word -/

def wMaj (w : Word) : BitVec 6 := w.extractLsb' 26 6
def wD (w : Word) : Fld := w.extractLsb' 20 6
def wA (w : Word) : Fld := w.extractLsb' 14 6
def wB (w : Word) : Fld := w.extractLsb' 8 6
def wFn4 (w : Word) : BitVec 4 := w.extractLsb' 4 4
def wFn3 (w : Word) : BitVec 3 := w.extractLsb' 5 3
def wOrd (w : Word) : BitVec 2 := w.extractLsb' 3 2
def wFn2 (w : Word) : BitVec 2 := w.extractLsb' 12 2
def wC (w : Word) : Fld := w.extractLsb' 2 6
def wImm11 (w : Word) : BitVec 11 := w.extractLsb' 0 11
def wImm20 (w : Word) : BitVec 20 := w.extractLsb' 0 20
def wSb (w : Word) : Bool := w.getLsbD 3
def wEa (w : Word) : Bool := w.getLsbD 2
def wEb (w : Word) : Bool := w.getLsbD 1

/-- Operand a with its empty-action in formats A and E. -/
def wSrcA (w : Word) : Src := ⟨wA w, wEa w⟩
def wSrcB (w : Word) : Src := ⟨wB w, wEb w⟩
/-- Operand b under R48. -/
def wOpB (w : Word) : SrcB := if wSb w then .uni (wSrcB w) else .vec (wSrcB w)

/-- Operands a and b of format B, whose empty-action bits are [1] and [0]. -/
def wSrcABf (w : Word) : Src := ⟨wA w, w.getLsbD 1⟩
def wSrcBBf (w : Word) : Src := ⟨wB w, w.getLsbD 0⟩
/-- Operand a of format C, whose empty-action bit is [11]. -/
def wSrcAC (w : Word) : Src := ⟨wA w, w.getLsbD 11⟩

def lo2 (f : Fld) : BitVec 2 := f.extractLsb' 0 2
def lo3 (f : Fld) : BitVec 3 := f.extractLsb' 0 3
def lo4 (f : Fld) : BitVec 4 := f.extractLsb' 0 4
def lo5 (f : Fld) : BitVec 5 := f.extractLsb' 0 5

def decHint (w : Word) : Option Instr :=
  match (w.extractLsb' 22 4).toNat with
  | 0 => some (.hintImm (w.extractLsb' 0 22))
  | 1 => some (.hintGrd (w.getLsbD 3) (w.extractLsb' 0 3))
  | 2 => some (.hintMod ⟨w.getLsbD 21, w.getLsbD 20, w.getLsbD 19, w.getLsbD 18, w.extractLsb' 15 3, w.extractLsb' 12 3⟩)
  | 3 => some .hintYield
  | 4 => some (.hintSched (w.extractLsb' 0 22))
  | _ => none

def dec05 (w : Word) : Option Instr :=
  match (wFn4 w).toNat with
  | 0 => some (.callx (wD w) (wSrcA w))
  | 1 => some (.ret (wSrcA w))
  | 2 => some .exit
  | 3 => some (.regroup (wSrcA w))
  | 4 => some (.conv (wSrcB w))
  | 5 => some .nop
  | 6 => some (.winVReg (wSrcB w))
  | 7 => some (.winSReg (wSrcB w))
  | _ => none

def dec06 (w : Word) : Option Instr :=
  let d := wD w; let a := wSrcA w; let b := wSrcB w
  match (wFn4 w).toNat with
  | 0 => some (.saddI32 d a b) | 1 => some (.ssubI32 d a b) | 2 => some (.smulI32 d a b) | 3 => some (.sandB32 d a b)
  | 4 => some (.sorB32 d a b) | 5 => some (.sxorB32 d a b) | 6 => some (.sshlB32 d a b) | 7 => some (.sshrN32 d a b)
  | 8 => some (.ssraI32 d a b) | 9 => some (.sminI32 d a b) | 10 => some (.sminN32 d a b) | 11 => some (.smaxI32 d a b)
  | 12 => some (.smaxN32 d a b) | 13 => some (.saddI64 d a b) | 14 => some (.ssubI64 d a b) | _ => some (.smovB32 d a)

def dec08 (w : Word) : Option Instr :=
  match (wFn4 w).toNat with
  | 0 | 1 | 2 | 3 => some (.ssel (wD w) ((wFn4 w).extractLsb' 0 2) (wSrcA w) (wSrcB w))
  | 4 => some (.srdsp (wD w) (wA w))
  | _ => none

def dec09 (w : Word) : Option Instr :=
  let d := wD w; let a := wSrcAC w; let i := wImm11 w
  match (wFn2 w).toNat with
  | 0 => some (.saddI32Imm d a i) | 1 => some (.sandB32Imm d a i) | 2 => some (.sorB32Imm d a i) | _ => some (.sxorB32Imm d a i)

def dec0A (w : Word) : Option Instr :=
  match (wFn2 w).toNat with
  | 0 => some (.winVImm (wImm11 w)) | 1 => some (.winSImm (wImm11 w)) | _ => none

def dec0C (w : Word) : Option Instr :=
  let d := wD w; let a := wSrcA w; let b := wOpB w
  match (wFn4 w).toNat with
  | 0 => some (.addI32 d a b) | 1 => some (.subI32 d a b) | 2 => some (.mulI32 d a b) | 3 => some (.mulhiI32 d a b)
  | 4 => some (.mulhiN32 d a b) | 5 => some (.andB32 d a b) | 6 => some (.orB32 d a b) | 7 => some (.xorB32 d a b)
  | 8 => some (.shlB32 d a b) | 9 => some (.shrN32 d a b) | 10 => some (.sraI32 d a b) | 11 => some (.rotlB32 d a b)
  | 12 => some (.rotrB32 d a b) | 13 => some (.minI32 d a b) | 14 => some (.maxI32 d a b) | _ => some (.minN32 d a b)

def dec0D (w : Word) : Option Instr :=
  let d := wD w; let a := wSrcA w; let b := wOpB w
  match (wFn4 w).toNat with
  | 0 => some (.maxN32 d a b) | 1 => some (.mulWideI32 d a b) | 2 => some (.mulWideN32 d a b) | 3 => some (.addI64 d a b)
  | 4 => some (.subI64 d a b) | 5 => some (.addA64 d a b) | 6 => some (.bfeN32 d a b) | 7 => some (.bfeI32 d a b)
  | 8 => some (.bfiB32 d a b) | 9 => some (.absI32 d a) | 10 => some (.negI32 d a) | 11 => some (.clzB32 d a)
  | 12 => some (.popcB32 d a) | 13 => some (.brevB32 d a) | 14 => some (.movB32 d a) | _ => some (.notB32 d a)

def dec0E (w : Word) : Option Instr :=
  let k := (wFn4 w).extractLsb' 0 2
  match ((wFn4 w).extractLsb' 2 2).toNat with
  | 0 => some (.lea (wD w) (wSrcA w) (wOpB w) k)
  | 1 => some (.leaN (wD w) (wSrcA w) (wOpB w) k)
  | _ => none

def dec0F (w : Word) : Option Instr :=
  let d := wD w; let a := wSrcAC w; let i := wImm11 w
  match (wFn2 w).toNat with
  | 0 => some (.addI32Imm d a i) | 1 => some (.andB32Imm d a i) | 2 => some (.orB32Imm d a i) | _ => some (.xorB32Imm d a i)

def dec13 (w : Word) : Option Instr :=
  let d := lo3 (wD w); let a := lo3 (wA w); let b := lo3 (wB w)
  match (wFn4 w).toNat with
  | 0 => some (.pand d a b) | 1 => some (.por d a b) | 2 => some (.pxor d a b) | 3 => some (.pnot d a) | _ => none

def dec14 (w : Word) : Option Instr :=
  let d := wD w; let a := wSrcA w; let b := wOpB w
  match (wFn4 w).toNat with
  | 0 => some (.voteAny (lo3 d) (lo3 a.f)) | 1 => some (.voteAll (lo3 d) (lo3 a.f)) | 2 => some (.ballot d (lo3 a.f))
  | 3 => some (.matchB32 d a) | 4 => some (.lanes d) | 5 => some (.shflIdx d a b) | 6 => some (.shflUp d a b)
  | 7 => some (.shflDown d a b) | 8 => some (.shflXor d a b) | 9 => some (.s2v d a) | 10 => some (.v2s d a b) | _ => none

def dec1D (w : Word) : Option Instr :=
  let d := wD w; let a := wSrcA w; let i := wB w
  match (wFn3 w).toNat with
  | 0 => some (.prefetchL2 a i) | 1 => some (.prefetchL1 a i) | 2 => some (.pgprobe d a i)
  | 3 => some (.ldNfB32 d a i) | 4 => some (.ldNfB64 d a i) | 5 => some (.ldNfB128 d a i) | _ => none

/-- Majors 0x20 to 0x23; their low two bits are the type. -/
def dec20 (w : Word) : Option Instr :=
  let t := FTy.ofCode ((wMaj w).extractLsb' 0 2); let d := wD w; let a := wSrcA w; let b := wOpB w
  match (wFn4 w).toNat with
  | 0 => some (.floatAdd t d a b) | 1 => some (.floatSub t d a b) | 2 => some (.floatMul t d a b)
  | 3 => some (.floatMin t d a b) | 4 => some (.floatMax t d a b) | 5 => some (.fclass t d a)
  | 6 => some (.dot2 t d a b) | 7 => some (.dot4 t d a b) | _ => none

def dec29 (w : Word) : Option Instr :=
  let d := wD w; let a := wSrcA w
  match (wFn4 w).toNat with
  | 0 => some (.rcpF32 d a) | 1 => some (.rsqrtF32 d a) | 2 => some (.sqrtF32 d a) | 3 => some (.exp2F32 d a)
  | 4 => some (.log2F32 d a) | 5 => some (.sinF32 d a) | 6 => some (.cosF32 d a) | 7 => some (.tanhF32 d a)
  | 8 => some (.rcpF64 d a) | 9 => some (.rsqrtF64 d a) | 10 => some (.sqrtF64 d a) | 11 => some (.exp2F16x2 d a)
  | 12 => some (.tanhF16x2 d a) | 13 => some (.tanhBf16x2 d a) | _ => none

def wSat (w : Word) : Bool := w.getLsbD 7
def wRnd (w : Word) : Option Rnd := Rnd.ofCode (w.extractLsb' 4 3)

def dec2A (w : Word) : Option Instr := do
  let r ← wRnd w
  some (.castFloat (wD w) (wSrcA w) (Fmt.ofCode (w.extractLsb' 11 3)) (Fmt.ofCode (w.extractLsb' 8 3)) (wSat w) r)

def dec2B (w : Word) : Option Instr := do
  let r ← wRnd w
  some (.castIntFloat (wD w) (wSrcA w) (w.getLsbD 13) (IntTy.ofCode (w.extractLsb' 10 3)) (FTy.ofCode (w.extractLsb' 8 2))
    (wSat w) r)

def dec2C (w : Word) : Option Instr := do
  let r ← wRnd w
  let el ← PackElem.ofCode (w.extractLsb' 11 3)
  some (.pack (wD w) (wSrcA w) el (w.extractLsb' 8 3) (wSat w) r)

def dec2D (w : Word) : Option Instr :=
  match (wFn4 w).toNat with
  | 0 => some (.rngSeed (wSrcA w)) | 1 => some (.rngNext (wD w)) | 2 => some (.fmodeRd (wD w)) | 3 => some (.fmodeWr (wSrcA w))
  | _ => none

/-- Majors 0x30 and 0x31; the low bit of the major is the width. -/
def dec30 (w : Word) : Option Instr :=
  let x := (wMaj w).getLsbD 0; let d := wD w; let a := wSrcA w; let b := wSrcB w; let o := AtOrd.ofCode (wOrd w)
  match (wFn3 w).toNat with
  | 0 => some (.atomAdd x d a b o) | 1 => some (.atomMin x d a b o) | 2 => some (.atomMax x d a b o)
  | 3 => some (.atomAnd x d a b o) | 4 => some (.atomOr x d a b o) | 5 => some (.atomXor x d a b o)
  | 6 => some (.atomXchg x d a b o) | _ => some (.atomCas x d a b o)

def dec32 (w : Word) : Option Instr :=
  let d := wD w; let a := wSrcA w; let b := wSrcB w; let o := AtOrd.ofCode (wOrd w)
  match (wFn3 w).toNat with
  | 0 => some (.atomMinN32 d a b o) | 1 => some (.atomMaxN32 d a b o) | 2 => some (.atomMinN64 d a b o)
  | 3 => some (.atomMaxN64 d a b o) | 4 => some (.atomAddF32 d a b o) | 5 => some (.atomAddF16x2 d a b o)
  | 6 => some (.atomAddBf16x2 d a b o) | _ => some (.atomAddF64 d a b o)

def dec33 (w : Word) : Option Instr :=
  let a := wSrcA w; let b := wSrcB w
  match RedOrd.ofCode (wOrd w) with
  | none => none
  | some o =>
    match (wFn3 w).toNat with
    | 0 => some (.atomredAddI32 a b o) | 1 => some (.atomredMinI32 a b o) | 2 => some (.atomredMaxI32 a b o)
    | 3 => some (.atomredAndB32 a b o) | 4 => some (.atomredOrB32 a b o) | 5 => some (.atomredXorB32 a b o)
    | 6 => some (.atomredAddF32 a b o) | _ => some (.atomredAddI64 a b o)

def dec34 (w : Word) : Option Instr :=
  let d := wD w; let a := wSrcA w; let b := wSrcB w; let n := lo4 (wA w)
  match (wFn4 w).toNat with
  | 0 => match Scope.ofCode (lo3 a.f), FenceClass.ofCode (lo2 b.f) with
         | some sc, some k => some (.fence sc k)
         | _, _ => none
  | 1 => some (.fenceX a.f b.f)
  | 2 => some (.gateIn n) | 3 => some (.gateWait n) | 4 => some (.gatePass n)
  | 5 => some (.gateFold d (FoldOp.ofCode ((wA w).extractLsb' 4 2)) n (wOpB w))
  | 6 => some (.nbarArrive n) | 7 => some (.nbarWait n) | 8 => some (.monArm a) | 9 => some .monWait
  | 10 => some (.fsemInc a b) | 11 => some (.fsemWait a b) | 12 => some (.fsemRd d a) | _ => none

def dec36 (w : Word) : Option Instr :=
  match (wFn4 w).toNat with
  | 0 => some (.xcopyCancel (wA w)) | 1 => some (.xcopyStat (wD w) (wA w)) | _ => none

def dec37 (w : Word) : Option Instr :=
  let d := wD w; let a := wSrcA w
  match (wFn4 w).toNat with
  | 0 => some (.accAlloc d a) | 1 => some (.accFree a) | 2 => some (.accLd d a (wOpB w)) | 3 => some (.accZero a)
  | 4 => some (.mseqStart a) | 5 => some .mseqStop | _ => none

def dec38 (w : Word) : Option Instr :=
  let i := wImm20 w
  match (wD w).toNat with
  | 0 => some (.mhdr (i.extractLsb' 17 3) (i.extractLsb' 0 17))
  | 1 => some (.mload (i.extractLsb' 17 3))
  | 2 => some .mswap
  | 3 => some (.mstream (i.extractLsb' 17 3) (i.extractLsb' 14 3) (i.getLsbD 13) (i.getLsbD 12))
  | 4 => some (.mchain (i.extractLsb' 2 2) (i.extractLsb' 0 2))
  | 5 => some (.mdrain (i.extractLsb' 17 3) (i.extractLsb' 14 3) (i.getLsbD 13))
  | 6 => some (.marrive (i.extractLsb' 0 4))
  | 7 => some (.mwait (i.extractLsb' 4 16) (i.extractLsb' 0 4))
  | 8 => some (.mloop (i.extractLsb' 18 2) (i.extractLsb' 10 8) (i.extractLsb' 0 10))
  | 9 => some (.mjmp i)
  | 10 => some .mend
  | _ => none

def dec39 (w : Word) : Option Instr :=
  let d := wD w; let a := wSrcA w
  match (wFn4 w).toNat with
  | 0 => some (.srfAlloc d a) | 1 => some (.srfFree a) | 2 => some (.srfQuery d a (wB w)) | 3 => some (.srfPin a)
  | 4 => some (.srfEvict a) | 5 => some (.srfView d a) | _ => none

def dec3A (w : Word) : Option Instr :=
  let d := wD w; let a := wSrcA w; let b := wSrcB w; let s := SurfW.ofCode (w.extractLsb' 5 2); let v := w.getLsbD 3
  if w.getLsbD 4 then none else if w.getLsbD 7 then some (.sst d a b s v) else some (.sld d a b s v)

def dec3B (w : Word) : Option Instr :=
  let d := wD w; let a := wSrcA w; let k := lo5 (wB w)
  match (wFn4 w).toNat with
  | 0 => some (.qbind (lo4 d) a) | 1 => some (.qpush (lo4 d) a k) | 2 => some (.qpushS (lo4 d) a k)
  | 3 => some (.qpop d (lo4 a.f) k) | 4 => some (.qpeek d (lo4 a.f) k) | 5 => some (.qstat d (lo4 a.f))
  | 6 => some (.hmarkGet d a) | 7 => some (.hmarkVoid a) | 8 => some (.hmarkClose a) | _ => none

def dec3C (w : Word) : Option Instr :=
  let d := wD w; let a := wSrcA w
  match (wFn4 w).toNat with
  | 0 => some (.launch a) | 1 => some (.ctrNew d a) | 2 => some (.ctrRaise a (wSrcB w)) | 3 => some (.ctrPost a)
  | 4 => some (.ctrWait a) | 5 => some (.ctrRd d a) | 6 => some (.cancel a) | 7 => some (.prio a) | 8 => some (.sliceRd d)
  | _ => none

def dec3D (w : Word) : Option Instr :=
  let d := wD w; let a := wSrcA w; let n := w.extractLsb' 8 12
  match (wFn4 w).toNat with
  | 0 => if n == 4 then some (.kCycleLoRead d) else some (.kRd d n)
  | 1 => some (.kWr d n) | 2 => some (.trap n) | 3 => some .tret | 4 => some (.parkRd d a) | 5 => some (.ctxSave a)
  | 6 => some (.ctxLoad a) | 7 => some .halt | 8 => some .snap | 9 => some (.capRd d a) | _ => none

/-- The instruction whose major, minor code and code fields a word holds; reserved bits are checked by decodeWord. -/
def interpret (w : Word) : Option Instr :=
  match (wMaj w).toNat with
  | 0x01 => some (.bra (wImm20 w))
  | 0x02 => some (.br (w.getLsbD 23) (w.extractLsb' 20 3) (wImm20 w))
  | 0x03 => some (.bru (w.getLsbD 22) (w.extractLsb' 20 2) (wImm20 w))
  | 0x04 => some (.call (wD w) (wImm20 w))
  | 0x05 => dec05 w
  | 0x06 => dec06 w
  | 0x07 => (ICond.ofCode (wFn4 w)).map (fun c => .scmp (lo2 (wD w)) c (wSrcA w) (wSrcB w))
  | 0x08 => dec08 w
  | 0x09 => dec09 w
  | 0x0A => dec0A w
  | 0x0B => some (.smovi (wD w) (wImm20 w))
  | 0x0C => dec0C w
  | 0x0D => dec0D w
  | 0x0E => dec0E w
  | 0x0F => dec0F w
  | 0x10 => some (.movi (wD w) (wImm20 w))
  | 0x11 => some (.sel (wD w) (w.getLsbD 7) (w.extractLsb' 4 3) (wSrcA w) (wOpB w))
  | 0x12 => (ICond.ofCode (wFn4 w)).map (fun c => .cmp (w.getLsbD 23) (w.extractLsb' 20 3) c (wSrcA w) (wOpB w))
  | 0x13 => dec13 w
  | 0x14 => dec14 w
  | 0x15 => if w.getLsbD 7 then some (.gscan (RedOp.ofCode (w.extractLsb' 4 3)) (wD w) (wSrcA w))
            else some (.gred (RedOp.ofCode (w.extractLsb' 4 3)) (wD w) (wSrcA w))
  | 0x16 => some (.madI32 (wD w) (wSrcABf w) (wSrcBBf w) (wC w))
  | 0x18 => match LdW.ofCode (wFn3 w), LdOrd.ofCode (wOrd w) with
            | some x, some o => some (.ldG (wD w) (wSrcA w) (wB w) x o)
            | _, _ => none
  | 0x19 => match StW.ofCode (wFn3 w), StOrd.ofCode (wOrd w) with
            | some x, some o => some (.stG (wD w) (wSrcA w) (wSrcB w) x o)
            | _, _ => none
  | 0x1A => match LdW.ofCode (wFn3 w), LdOrd.ofCode (wOrd w) with
            | some x, some o => some (.ldSp (wD w) (wSrcA w) (wB w) x o)
            | _, _ => none
  | 0x1B => match StW.ofCode (wFn3 w), StOrd.ofCode (wOrd w) with
            | some x, some o => some (.stSp (wD w) (wSrcA w) (wSrcB w) x o)
            | _, _ => none
  | 0x1C => (LdW.ofCode (wFn3 w)).map (fun x => .ldK (wD w) (wSrcA w) (wB w) x)
  | 0x1D => dec1D w
  | 0x20 | 0x21 | 0x22 | 0x23 => dec20 w
  | 0x24 | 0x25 | 0x26 | 0x27 =>
      some (.fma (FTy.ofCode ((wMaj w).extractLsb' 0 2)) (wD w) (wSrcABf w) (wSrcBBf w) (wC w))
  | 0x28 => (FCond.ofCode (wFn4 w)).map
      (fun c => .floatCmp (FTy.ofCode (w.extractLsb' 24 2)) (w.extractLsb' 20 3) c (wSrcA w) (wOpB w))
  | 0x29 => dec29 w
  | 0x2A => dec2A w
  | 0x2B => dec2B w
  | 0x2C => dec2C w
  | 0x2D => dec2D w
  | 0x30 | 0x31 => dec30 w
  | 0x32 => dec32 w
  | 0x33 => dec33 w
  | 0x34 => dec34 w
  | 0x35 => (Xform.ofCode (wFn4 w)).map (fun t => .xcopy t (wD w) (wSrcA w))
  | 0x36 => dec36 w
  | 0x37 => dec37 w
  | 0x38 => dec38 w
  | 0x39 => dec39 w
  | 0x3A => dec3A w
  | 0x3B => dec3B w
  | 0x3C => dec3C w
  | 0x3D => dec3D w
  | 0x3F => decHint w
  | _ => none

/-- Majors that R70 leaves unassigned. -/
def reservedMajor (m : Nat) : Bool := [0x00, 0x17, 0x1E, 0x1F, 0x2E, 0x2F, 0x3E].contains m

/-- Decode one word (R43, R70). -/
def decodeWord (w : Word) : Except DecodeError Instr :=
  match interpret w with
  | none => .error (if reservedMajor (wMaj w).toNat then .reservedMajor else .reservedMinor)
  | some i =>
    match wfError i with
    | some e => .error e
    | none => if encode i == some w then .ok i else .error .reservedBits

/-- Decode the first instruction of a byte sequence, and give the bytes after it (R9, R43). -/
def decode : List Byte → Except DecodeError (Instr × List Byte)
  | b0 :: b1 :: b2 :: b3 :: rest =>
    match decodeWord (b3 ++ (b2 ++ (b1 ++ b0))) with
    | .ok i => .ok (i, rest)
    | .error e => .error e
  | _ => .error .short

/-- The decoder on a word of the opcode table, laid out little-endian (R9). -/
def decodeTableWord (_nbits w : Nat) : Option Instr :=
  match decode (leBytes 4 w) with
  | .ok (i, _) => some i
  | .error _ => none

end Sys2Proof
end

