-- ==== Sys2Proof/Config.lean ====
section
/-!
DEFINITION. What the spec leaves open, as free values: opaque constants, so that no proof can see a value of them
(entry 1, entry 6). A function whose first argument is called n is applied to State.moves, the counter that the step reads
and advances.
-/

namespace Sys2Proof.Config

/-- Which agent moves next when nothing is due: the order among agents is open (R81, R223, R349; entry 1). -/
opaque schedule (n : Nat) : Move

/-- A free bit: an old or a new form where both are allowed (R73, R146, R165, R250; entry 6). -/
opaque freeBit (n : Nat) : Bool

/-- The bank and row of a vault's layer in which a byte of near DRAM lies, by its offset in the vault: no rule gives them (R518;
entry 111). -/
opaque dramRow (layer off : Nat) : Nat × Nat

/-- How many writes back a read looks; whether an access in several parts is interrupted between them (R36, R151, R223; entry
18). -/
opaque stale (n i : Nat) : Nat
opaque pause (n : Nat) : Bool

/-- Whether an L1 data cache keeps a line that it has read, and whether a read is satisfied from a line that it holds
(R26, R217; entry 18). -/
opaque keepLine (n : Nat) : Bool
opaque hitLine (n : Nat) : Bool

/-- A free number, for a choice among alternatives that the rule names (entry 6). -/
opaque freeNat (n : Nat) : Nat

/-- Words of an accumulator bank at a grant (R299; entry 6). -/
opaque bankWord (n i : Nat) : Word

/-- First_k of a surface, before its reduction below n_k (R318; entry 6). -/
opaque firstBank (n : Nat) : Nat

/-- Base of a surface's backing store (R320, R324; entry 6). -/
opaque backing (n : Nat) : Addr

/-- Bytes of a partition's far DRAM on a stack that are left for backing stores (R324, R331; entry 6). -/
opaque backingRoom (part stack : Nat) : Nat

/-- Where the backing and the context storage of a partition lie in a stack's far DRAM, and the size of the latter (R504;
entry 6). -/
opaque storageBase (part stack : Nat) (context : Bool) : Nat
opaque contextRoom (part stack : Nat) : Nat

/-- Whether an operation that leaves for another module meets an unrecoverable outcome there (R510; entry 6). -/
opaque remoteFails (n : Nat) : Bool

/-- How many destination bytes the chunk of a copy that begins at an offset holds, before the limits of R266. -/
opaque chunkLength (copy off : Nat) : Nat

/-- Unused sector bytes of a billet after an expanding hop (R264; entry 6). -/
opaque sectorByte (n i : Nat) : Byte

/-- The bits between the fields that R416 fixes in a header of a coded frame, by unit type and place; and the coded tile of a
band, from its samples and the reference frame: the coding decisions are the encoder's own (R413, R414, R416; entry 6). -/
opaque obuBits (n type place : Nat) : List Bool
opaque tileData (n band : Nat) (samples reference : List Nat) : List Byte

/-- What every conforming decoder makes of a stream that begins with a key frame, in samples: its last frame as far as it is
coded, and that frame when it is complete and filtered (R415, R416; entry 6). -/
opaque reconstruction (stream : List Byte) : List Nat
opaque filtered (stream : List Byte) : List Nat

/-- Bytes of far DRAM reserved for the frames of an encoder slot (R412; entry 6). -/
opaque slotStorage : Nat

/-- SHA-512 digest of a firmware image (R512, R516; entry 6). -/
opaque digest (image : Nat) : BitVec 512

/-- Whether the signature of a firmware image verifies (R512; entry 6). -/
opaque signed (image : Nat) : Bool

/-- Whether the boot ROM reads the firmware image, and computes its digest, without a failure (R512; entry 6). -/
opaque imageRead (n : Nat) : Bool
opaque imageHashed (n : Nat) : Bool

/-- The certificate of a stack's identity key, or of its debug attestation key (R515; entry 6). -/
opaque certificate (stack : Nat) (debug : Bool) : List Byte

/-- Security version of a firmware image (R512; entry 6). -/
opaque version (image : Nat) : BitVec 16

/-- Signature r ∥ s over a report body by the key named: 0 the identity key, 1 the debug attestation key (R516). -/
opaque signature (n stack key : Nat) (body : List Byte) : List Byte

/-- The phase c of the readings of R434 and c′ of the charges of R437, for each stack. -/
opaque readingPhase (stack : Nat) : Nat
opaque chargePhase (stack : Nat) : Nat

/-- The phase of a core's 10 µs windows (R493). -/
opaque windowPhase (stack core : Nat) : Nat

/-- The value of a special function that the interval arithmetic of the model leaves undecided between two
neighbouring results (R205; entry 7). -/
opaque undecided (fn : Nat) (arg : Nat) : Nat

/-- Which physical bank operators, visibility units or encoders serve a call that leaves the choice (R342). -/
opaque unitChoice (n : Nat) : Nat

/-- Quads in a quad record of a draw: one or two (R387, R523; entry 6). -/
opaque twoQuads (n : Nat) : Bool

/-- Size of the opaque section of a block's image in 64-byte units (R470, R472; entry 6). -/
opaque opaqueUnits (blk : Nat) : Nat

/-- Bytes of an opaque section (R472; entry 6). -/
opaque opaqueByte (n i : Nat) : Byte

/-- The hottest sensor of a vault's column at a reading, in tenths of a degree (R434; entry 6). -/
opaque temperature (n vault : Nat) : Nat

/-- Module power over the last 100 µs, and the forecast of its average over 10 ms, in watts (R496; entry 6). -/
opaque power (n : Nat) : Nat × Nat

/-- Power that a partition draws, in watts, at a measurement (R496; entry 6). -/
opaque partDraw (n part : Nat) : Nat

/-- Entry point of the dispatcher program of a partition on a stack, for its mailbox (R451, R504; entry 6). -/
opaque dispatcherEntry (part stack : Nat) (mailbox : Addr) : Addr

end Sys2Proof.Config
end

