-- ==== Sys2Proof/Machine/State.lean ====
section
/-!
DEFINITION. The machine's state as plain data: every piece of state that spec/ gives the module, its stacks, cores,
partitions, contexts, blocks, groups and threads, and the machine right after reset. A field's docstring names its
rule; INVENTORY.md lists each with its reset value.
-/

namespace Sys2Proof.Machine

/-- Byte-addressed storage as (address, byte) pairs: addresses strictly rise, and no byte equals what an unlisted
address reads as, which is 0 (entry 2, entry 3; R322 for tile bytes). -/
abbrev Memory := List Host.Cell

/-- The canonical form of a memory. -/
def Memory.wf : Memory → Bool
  | [] => true
  | [c] => c.2 != 0
  | c :: d :: m => c.2 != 0 && decide (c.1 < d.1) && Memory.wf (d :: m)

/-- Register states of R32. -/
inductive RegState where
  | full | empty | poisoned
  deriving DecidableEq, Repr, Inhabited

/-- A vector or uniform register (R31). -/
structure Reg where
  val : Word
  st : RegState
  deriving DecidableEq, Repr, Inhabited

/-- What a blocked thread waits for. -/
inductive Wait where
  /-- registers of which some are empty, until none is (R49, R50): uniform or vector, physical index -/
  | regs (rs : List (Bool × Nat))
  /-- service of the pages listed: of a fetch (R99), or of a word that is replayed from its first hint word (R156) -/
  | pages (vas : List Addr) (replay : Bool)
  /-- a block barrier; arrived is false while an earlier phase keeps the arrival back (R233) -/
  | gate (n : Nat) (arrived : Bool)
  /-- a gate.fold that has arrived, and the physical index of its destination (R235) -/
  | fold (n dst : Nat)
  /-- nbar.wait (R237) -/
  | nbar (n : Nat)
  /-- room for a record of so many words in the call buffer of a queue (R349) -/
  | room (q need : Nat)
  /-- a ninth claim (R351) -/
  | claim (q : Nat)
  /-- the drain of a qbind, with the descriptor that it read (R373) -/
  | drain (q : Nat) (desc : Word)
  /-- mon.wait (R240) -/
  | monitor
  /-- fsem.wait (R244) -/
  | fsem (va : Addr) (value : Word)
  /-- ctr.wait (R446) -/
  | counter (id : Word)
  /-- a copy slot (R270) -/
  | copySlot (ticket : Nat)
  /-- acc.alloc, with the request's ticket and its banks (R299) -/
  | accBanks (ticket n : Nat)
  /-- the writes of acc.zero, or another wait that ends with the instruction's own accesses -/
  | own
  /-- the pin of a surface (R331, R334) -/
  | pin (entry : Nat)
  /-- srf.free: the accesses that passed their check (R332) -/
  | srfFree (entry : Nat)
  /-- srf.evict: when it began, and the tiles that were resident (R334) -/
  | srfEvict (entry since : Nat) (tiles : List Nat)
  /-- hmark.get at a full window, with the moment at which it began and the physical index of its destination (R377) -/
  | hmark (entry since dst : Nat)
  /-- launch: room for it (R443), the link where a counter of its record lies on the other stack (R424), and the accesses
  listed, which its release covers (R428) -/
  | launch (far : Bool) (accs : List Nat)
  /-- fence or fence.x: the accesses listed must have been performed (R230, R231) -/
  | fence (accs : List Nat)
  /-- conv, with the mask (R104) -/
  | conv (mask : Word)
  /-- regroup: waiting for its registers (R106), or arrived (R107) -/
  | regroupRegs
  | regroupWindow
  /-- k.tlbinv (R454) -/
  | tlbinv (inv : Nat)
  /-- ctx.save: the target's pending fills (R480) -/
  | saveFills (blk : Nat)
  /-- the sweep of the core's lane page registers (R154) -/
  | sweep
  /-- a counter of the other stack while the link carries nothing, or, for one that is read, while it stalls (R424, R447) -/
  | link (read : Bool)
  deriving DecidableEq, Repr, Inhabited

/-- Whether a thread can issue (R79, R100, R455, R461). -/
inductive Run where
  | ready
  | exited
  | killed
  | parked
  | blocked (w : Wait)
  deriving DecidableEq, Repr, Inhabited

/-- An armed monitor (R239, R241): its address, the word that it watches, and the page size, as a power of two, of the
translation that it holds. -/
structure Monitor where
  va : Addr
  pa : Nat
  shift : Nat
  value : Word
  stale : Bool
  deriving DecidableEq, Repr, Inhabited

/-- One lane's context (R27, R31). -/
structure Thread where
  /-- names the thread within its block while regroup moves it: its linear index (R28) -/
  tid : Nat
  pc : Addr
  hints : List Hint
  run : Run
  preds : BitVec 8
  regs : List Reg
  fmode : Word
  gen : DWord
  starv : Nat
  yieldTurns : Nat
  monitor : Option Monitor
  gatePending : BitVec 16
  nbarCount : List (BitVec 16)
  unwatched : Bool
  /-- breakpoints on which the thread stopped, as a mask: its next word does not match them again (R484) -/
  bpSkip : BitVec 8
  rwdog : Nat
  /-- core cycle count at which the present wait began (R246) -/
  waitFrom : Nat
  /-- accesses that the thread's later accesses must follow: those before the arrivals of a phase at whose end it waited
  (R236; entry 92) -/
  behind : List Nat
  /-- the word inside which the thread waits, whose operands it has read: it is not fetched again (R331, R332, R334, R373,
  R377) -/
  held : Option Word
  deriving DecidableEq, Repr, Inhabited

/-- A queue binding (R341). -/
structure Binding where
  type : Nat
  inst : Nat
  deriving DecidableEq, Repr, Inhabited

/-- A call record in a call buffer (R349, R369); no lane addresses it to the group (R374). pushed is the moment at which it
entered (R362), and gives the writes that happen before its accesses (R225, R364). -/
structure CallRec where
  words : List Word
  lane : Option Nat
  pushed : Nat
  gives : List Nat
  deriving DecidableEq, Repr, Inhabited

/-- A return record that some lane has not taken (R350); lanes it still goes to, and what the accesses of its call have
seen (R225). -/
structure ReturnRec where
  words : List Word
  lanes : List Nat
  seen : List Nat
  deriving DecidableEq, Repr, Inhabited

/-- An unfilled claim (R351): k registers from physical index dst of the lane. -/
structure Claim where
  lane : Nat
  dst : Nat
  k : Nat
  peek : Bool
  deriving DecidableEq, Repr, Inhabited

/-- A queue register (R340). -/
structure Queue where
  binding : Option Binding
  draining : Bool
  calls : List CallRec
  returns : List ReturnRec
  claims : List Claim
  deriving DecidableEq, Repr, Inhabited

/-- A group (R27, R31). -/
structure Group where
  num : Nat
  cluster : Nat
  slot : Nat
  threads : List Thread
  sregs : List Reg
  spreds : BitVec 4
  wv : BitVec 5
  ws : BitVec 6
  queues : List Queue
  deferred : Option (Addr × List Hint)
  cycleHi : Word
  evgrp : Bool
  deriving DecidableEq, Repr, Inhabited

/-- A subject of an arrival record (R246): stack, core, cluster, slot, lane or sequencer, group, pc, wait. -/
structure Subject where
  seq : Bool
  stack : Nat
  core : Nat
  cluster : Nat
  slot : Nat
  group : Nat
  lane : Nat
  pc : Addr
  wait : Nat
  deriving DecidableEq, Repr, Inhabited

/-- A block barrier (R232). -/
structure Gate where
  phase : Bool
  arrived : List Nat
  acc : Word
  op : Option FoldOp
  poison : Bool
  /-- of its last completed phase, and of the present one the thread that arrived last (R246) -/
  lastArriver : Option Subject
  longest : Option Subject
  latest : Option Subject
  /-- accesses in flight at the arrivals of this phase, and of the phase that ended last (R236; entry 92) -/
  before : List Nat
  ended : List Nat
  deriving DecidableEq, Repr, Inhabited

/-- A numbered barrier (R237); each thread holds its own wait count. -/
structure NBar where
  a : Word
  m : BitVec 16
  /-- of its last completed phase, and of the present one the thread that arrived last (R246) -/
  lastArriver : Option Subject
  longest : Option Subject
  latest : Option Subject
  deriving DecidableEq, Repr, Inhabited

/-- Spaces of an operand slot (R281). -/
inductive SlotSpace where
  | scratch | view | acc
  deriving DecidableEq, Repr, Inhabited

/-- An operand slot of the sequencer, with cur and its armed values (R281). -/
structure OpSlot where
  header : BitVec 128
  space : SlotSpace
  handle : Word
  stride : Nat
  level : Nat
  step : Word
  base : Word
  cur : Word
  armed : List Word
  deriving DecidableEq, Repr, Inhabited

/-- A cell of a plane (R275): its logical position, the stored element's bits, its scale byte where it has one. -/
structure PlaneCell where
  pos : Nat
  raw : Nat
  scale : Option Nat
  deriving DecidableEq, Repr, Inhabited

/-- A weight plane (R274, R275). -/
structure Plane where
  fmt : Nat
  cols : Nat
  depth : Nat
  cells : List (List PlaneCell)
  deriving DecidableEq, Repr, Inhabited

/-- An activation row as a chain link carries it (R293). -/
structure ActRow where
  fmt : Nat
  cols : Nat
  scaled : Bool
  elems : List (Nat × Option Nat)
  deriving DecidableEq, Repr, Inhabited

/-- An mstream in progress (R306). -/
structure Stream where
  pc : Addr
  word : Word
  act : OpSlot
  handle : Word
  base : Nat
  stride : Nat
  ovw : Bool
  chain : Bool
  row : Nat
  rows : Nat
  deriving DecidableEq, Repr, Inhabited

/-- A row in the array whose accumulator update is not yet performed (R286). -/
structure PendingRow where
  /-- address of its mstream (R295) -/
  pc : Addr
  /-- it entered before the latest mswap (R285) -/
  old : Bool
  row : ActRow
  plane : Plane
  handle : Word
  word : Nat
  ovw : Bool
  deriving DecidableEq, Repr, Inhabited

/-- Sequencer states of R282. -/
inductive SeqState where
  | idle | pending | running | faulted
  deriving DecidableEq, Repr, Inhabited

/-- What a running sequencer waits for. -/
inductive SeqWait where
  | none
  | mwait (n count : Nat)
  /-- mchain that joins, until every member has (R309) -/
  | chain
  /-- mchain that leaves, for its forwarded rows (R309) -/
  | leave
  | page (va : Addr)
  deriving DecidableEq, Repr, Inhabited

/-- A block's matrix sequencer (R281 to R296). -/
structure Sequencer where
  state : SeqState
  pc : Addr
  slots : List (Option OpSlot)
  /-- armed flag and remaining count of each loop level (R310) -/
  loops : List (Bool × Nat)
  live : Option Plane
  shadow : Option Plane
  streams : List Stream
  rows : List PendingRow
  /-- chain length and start (R292), and this member's position -/
  chain : Option (Nat × Nat)
  pos : Nat
  /-- names the chain that it has joined with the others, or 0 while it waits for them (R309) -/
  joint : Nat
  broken : Bool
  west : List ActRow
  wait : SeqWait
  /-- core cycle count at which the present wait began, and the word that waits -/
  waitFrom : Nat
  waitWord : Word
  /-- number of the mseq.start by which it entered the pending state last (R283) -/
  since : Nat
  deriving DecidableEq, Repr, Inhabited

/-- A grant of accumulator banks (R290): generation, and the words of each bank. A freed grant keeps its banks until
the words that started with it are complete (R300). -/
structure AccGrant where
  gen : BitVec 16
  banks : Nat
  freed : Bool
  /-- number of the grant, which a free value of an unwritten word is applied to (R299) -/
  ticket : Nat
  /-- acc.zero has written every word that is not listed (R300) -/
  zeroed : Bool
  words : List (Nat × Word)
  deriving DecidableEq, Repr, Inhabited

/-- A compaction window (R107): the cycle at which it opened, and the arrivals with their keys. -/
structure RegroupWindow where
  opened : Nat
  arrived : List (Nat × Nat × Word)
  deriving DecidableEq, Repr, Inhabited

/-- A wait episode at a conv word (R104). -/
structure ConvEpisode where
  grp : Nat
  pc : Addr
  hints : List Hint
  began : Nat
  deriving DecidableEq, Repr, Inhabited

/-- States of a block (R430). -/
inductive Phase where
  | waiting | deferred | resident | evicted | stopped | complete | cancelled
  deriving DecidableEq, Repr, Inhabited

/-- Snapshot registers of a block (R490). -/
structure Snap where
  seq : Word
  cyc : DWord
  iss : Word
  chg : Word
  us : Word
  deriving DecidableEq, Repr, Inhabited

/-- A block (R27, R28, R430). -/
structure Block where
  launch : Option Nat
  lin : Nat
  stack : Nat
  core : Nat
  part : Nat
  job : Word
  trapGroup : Bool
  priv : Bool
  phase : Phase
  /-- the block has been resident before, so that placing it restores it (R473) -/
  saved : Bool
  shape : Nat × Nat × Nat
  vregs : Nat
  sregs : Nat
  scratchSize : Nat
  entry : Addr
  order : Nat
  groups : List Group
  scratch : Memory
  scratchPoison : List Nat
  gates : List Gate
  nbars : List NBar
  seq : Sequencer
  accs : List (Option AccGrant)
  accGen : BitVec 16
  window : Option RegroupWindow
  convs : List ConvEpisode
  missing : List Addr
  /-- refresh charge in vault-cycles as numerator and denominator (R437) -/
  charge : Nat × Nat
  /-- no reading of its vault has followed its placement (R437) -/
  unread : Bool
  deferredFrom : Option Nat
  /-- the vault column held for it (R436) -/
  heldCol : Option Nat
  issued : Nat
  bwdog : Nat
  evictableFrom : Option Nat
  snap : Snap
  /-- triggers of this module still to reach the block's core, in their order (R488) -/
  snapDue : List Word
  /-- the last trigger latched of each other module -/
  snapLatched : List Word
  deriving DecidableEq, Repr, Inhabited

/-- A park record (R457): its words, and what tret acts on. -/
structure ParkRecord where
  blk : Nat
  grp : Nat
  lanes : List Nat
  seq : Bool
  kind : Nat
  pc : Addr
  hints : Nat
  words : List Word
  deriving DecidableEq, Repr, Inhabited

/-- A watchpoint (R454, R463). -/
structure Watch where
  base : Addr
  len : Word
  ctl : BitVec 3
  deriving DecidableEq, Repr, Inhabited

/-- Stop states of a context (R468, R482). -/
inductive StopState where
  | running
  | stopping (debug : Bool)
  | stopped (debug : Bool)
  deriving DecidableEq, Repr, Inhabited

/-- The work of one job of a partition on one stack (R424, R429; entry 84), with its registers (R454, R490). -/
structure Ctx where
  job : Word
  stack : Nat
  part : Nat
  tentry : Addr
  tentryPriv : Bool
  talloc : Word
  tact : BitVec 3
  tpc : Addr
  wps : List Watch
  evw : Addr
  park : List ParkRecord
  held : List ParkRecord
  slice : Nat
  stop : StopState
  /-- the thread that a step names by block, group and lane, and whether it has issued (R484) -/
  step : Option (Word × Nat × Nat)
  stepped : Bool
  terminated : Bool
  deriving DecidableEq, Repr, Inhabited

/-- Counter states (R425). -/
inductive CtrState where
  | open | complete | cancelled
  deriving DecidableEq, Repr, Inhabited

/-- A completion counter (R424, R425). -/
structure Counter where
  used : Bool
  gen : BitVec 16
  level : BitVec 2
  total : Nat
  posted : Nat
  state : CtrState
  parent : Option Word
  fixed : Bool
  rejected : Bool
  misuse : Bool
  deferred : Bool
  deriving DecidableEq, Repr, Inhabited

/-- Residency states of R322. -/
inductive TileState where
  | absent | resident | evicted
  /-- in motion: being evicted, refetched, or moved from a bank to another (R325) -/
  | evicting | fetching | moving
  deriving DecidableEq, Repr, Inhabited

/-- States of a hallmark (R357). -/
inductive MarkState where
  | drawn | registering | registered | closed | voided | retired
  deriving DecidableEq, Repr, Inhabited

/-- An outstanding hallmark of a domain (R355 to R365). -/
structure Mark where
  seq : Nat
  state : MarkState
  /-- job and stack of the holder -/
  holder : Word × Nat
  /-- block whose thread drew it (R448) -/
  blk : Nat
  /-- banks (stack, number) at which its intent stands -/
  intents : List (Nat × Nat)
  /-- a draw that carries it is waiting, walking or has been accepted -/
  draw : Bool
  deriving DecidableEq, Repr, Inhabited

/-- An entry of the surface table (R320), with the tiles and bytes of its surface. -/
structure SrfEntry where
  kind : Nat
  home : Nat
  tile : Nat
  samples : Nat
  fmt : Nat
  gen : BitVec 16
  fresh : Bool
  height : Nat
  width : Nat
  layers : Nat
  degraded : Bool
  moving : Bool
  viewWrite : Bool
  viewable : Bool
  pinned : Bool
  count : List Nat
  first : List Nat
  tiles : Nat
  backing : Addr
  write : Bool
  parent : Nat
  next : Nat
  floor : Nat
  marks : List Mark
  wclock : Nat
  tileSt : List (Nat × TileState)
  /-- tiles with the number of their last access (R324) -/
  recent : List (Nat × Nat)
  /-- srf.free has begun: every check of the handle fails (R332) -/
  freeing : Bool
  /-- a view: generation of its parent at the binding (R321) -/
  pgen : BitVec 16
  bytes : Memory
  poison : List Nat
  deriving DecidableEq, Repr, Inhabited

/-- What a partition is and has on one stack (R440, R454). -/
structure PartStack where
  params : PartParams
  floorEff : Nat
  counters : List Counter
  bwdog : Word
  rwdog : Word
  hwdog : Word
  diag : Addr
  diagLen : Word
  tlbva : Addr
  /-- parameters of a resize that waits for the stops of R441 -/
  pending : Option PartParams
  /-- far DRAM reserved for backing stores and for contexts: base and bytes of each (R504) -/
  storage : List (Nat × Nat)
  deriving DecidableEq, Repr, Inhabited

/-- A request of the host through BAR2 that waits for page service (R502). -/
inductive HostReq where
  | write (va : Addr) (bytes : List Byte)
  | read (va : Addr) (len : Nat)
  deriving DecidableEq, Repr, Inhabited

/-- A partition (R440, R500 to R509). -/
structure Part where
  live : Bool
  table : Addr
  window : Addr
  mailbox : Addr
  on : List PartStack
  srfs : List SrfEntry
  fabric : List (BitVec 128)
  /-- the virtual function has enabled host debug (R520) -/
  dbgEnable : Bool
  funcStatus : Word
  /-- requests of the function that wait, in their order -/
  hostQueue : List HostReq
  deriving DecidableEq, Repr, Inhabited

/-- A translation that a core or a lane holds (R146, R153): page size as a power of two. -/
structure Trans where
  part : Nat
  vpage : Nat
  shift : Nat
  frame : Nat
  attr : BitVec 6
  deriving DecidableEq, Repr, Inhabited

/-- Window counters of a lane cluster (R490, R493) and its state under R81, R495, R496. -/
structure Cluster where
  last : Nat
  lastRes : Nat
  i : Word
  m : Word
  c : Word
  n : Word
  curI : Nat
  curM : Nat
  curC : Nat
  near : Bool
  streak : Nat
  phase64 : Nat
  deriving DecidableEq, Repr, Inhabited

/-- A step of R492 in progress, with times in tenths of a microsecond of the stack's count: the lane cluster whose mode
changes or none for the core's state, the state or mode (1 near-threshold) it goes to, the cause, the beginning of
the clock change, and the end. -/
structure PowerStep where
  cluster : Option Nat
  target : Nat
  cause : Nat
  clock : Nat
  ends : Nat
  deriving DecidableEq, Repr, Inhabited

/-- A core (R22). -/
structure Core where
  cycles : DWord
  state : Nat
  denial : Nat
  pdeny : Word
  clusters : List Cluster
  step : Option PowerStep
  /-- requests made during a step, which are decided again when it ends (R492): lane cluster or none, target, cause -/
  want : List (Option Nat × Nat × Nat)
  array : Option Nat
  seqQueue : List Nat
  /-- waiting requests for accumulator banks: ticket, block, banks (R299) -/
  accQueue : List (Nat × Nat × Nat)
  /-- words that the instruction cache holds, at most 16,384, each with the number of writes as of which it was read (R22,
  R73) -/
  icache : List (Nat × Nat)
  /-- launches of which the core has been given a block, and the number of writes when the cache was last invalidated
  (R73) -/
  icacheLaunch : List Nat
  icacheFrom : Nat
  tlb : List Trans
  lprs : List (Option Trans)
  /-- lines of 128 bytes that the L1 data cache holds, at most 1,024, the last the first chosen for eviction, each with the
  number of writes as of which it was read and the cache modifier of that read (R22, R26, R182, R217; entry 18) -/
  l1 : List (Nat × Nat × Nat)
  sweepTo : Nat
  pair : BitVec 16
  fsemLongest : Option Subject
  fsemSource : Option Word
  fenceLongest : Option Subject
  conflictAt : Option Nat
  deriving DecidableEq, Repr, Inhabited

/-- A vault (R18, R167 to R170, R434): temperatures in tenths of a degree. -/
structure Vault where
  reading : Nat
  forecast : Nat
  throttled : Bool
  /-- charges: lane and the microsecond of the charge -/
  charges : List (Nat × Nat)
  /-- lanes swapped to spare lanes -/
  swaps : List (Nat × Nat)
  pendingSwaps : List Nat
  degraded : Bool
  rowRemaps : List (Nat × Nat × Nat)
  deriving DecidableEq, Repr, Inhabited

/-- An encoder slot (R412). -/
structure EncSlot where
  open_ : Bool
  band : Nat
  part : Nat
  surface : Word
  size : Nat × Nat
  key : Bool
  tenBit : Bool
  out : Addr
  outSize : Nat
  written : Nat
  lastSize : Option (Nat × Nat)
  sinceKey : Nat
  /-- the base quantiser index (R413) -/
  baseQ : Nat
  /-- samples of the reconstruction so far, and of the reference frame (R412, R415) -/
  recon : List Nat
  ref : List Nat
  /-- the completed frames of the stream from its last key frame on, and the present frame so far, as coded (R416) -/
  stream : List Byte
  coded : List Byte
  deriving DecidableEq, Repr, Inhabited

/-- An invalidation (R154): partition, the address whose page it names or none for all, the accesses it waits for,
whether a management command asked for it, whether it is complete, whether the sweep is over and every matching entry
removed, and when it began. -/
structure Inval where
  part : Nat
  va : Option Addr
  accs : List Nat
  command : Bool
  complete : Bool
  removed : Bool
  /-- number of writes when it began: later walks see the tables as of no earlier moment (R146) -/
  from_ : Nat
  deriving DecidableEq, Repr, Inhabited

/-- A stack (R17). -/
structure Stack where
  us : DWord
  sec : Nat
  dbg : Nat
  /-- power state P3: held in reset (R519) -/
  heldReset : Bool
  image : Nat
  version : BitVec 16
  rollback : Word
  unlockFuse : Bool
  /-- the boot step that failed (R512), or 0 -/
  bootStep : Nat
  cores : List Core
  vaults : List Vault
  encs : List EncSlot
  arrayLog : List (BitVec 128)
  transferLog : List (BitVec 128)
  trace : List (List Word)
  traceSize : Nat
  traceDropped : Nat
  /-- the partition in whose far DRAM the trace area lies (R485) -/
  tracePart : Nat
  traceArrival : Bool
  traceConflict : Bool
  traceThreshold : Nat
  bps : List Breakpoint
  reserveCores : Nat
  reserveBanks : Nat
  retired : List RetPart
  degradedParts : List RetPart
  /-- errors of the last 24 hours that count toward a part's retirement: the microsecond of each, and whether it was
  uncorrectable (R518) -/
  errorsIn : List (RetPart × Nat × Bool)
  invals : List Inval
  cmdStatus : List Nat
  reports : List (List Byte)
  deriving DecidableEq, Repr, Inhabited

/-- A part of an access: a run of bytes of one space (R151). -/
structure Piece where
  space : Space
  addr : Nat
  len : Nat
  deriving DecidableEq, Repr, Inhabited

/-! The order of accesses (R213 to R226). -/

/-- A party of R213. -/
inductive Party where
  | thread (blk tid : Nat)
  | copy (id : Nat)
  /-- a block's matrix sequencer -/
  | seq (blk : Nat)
  /-- a borrowed unit that serves one call -/
  | unit (call : Nat)
  | host
  | peer
  /-- the device on its own account, on no path: diagnostic capture, trigger and event words -/
  | device
  deriving DecidableEq, Repr, Inhabited

/-- What a write passes on to a read that returns its value (R219, R220, R225): the party and the scope code of its
release, or a code above 7 for a read by the host (8) or by a link controller (9), and the writes that happened before. -/
structure Release where
  party : Party
  scope : Nat
  ids : List Nat
  deriving DecidableEq, Repr, Inhabited

/-- A performed write whose older bytes some read may still return (R223; entry 18): its number in the order of all
writes, what it replaced, its party and access, the writes that happened before it, and what it releases. -/
structure Past where
  id : Nat
  piece : Piece
  old : List Byte
  party : Party
  acc : Nat
  before : List Nat
  rels : List Release
  deriving DecidableEq, Repr, Inhabited

/-- How a party has seen a write: it wrote or read it (R149, R215), by a volatile access or another; it happens before the
party's later accesses (R218 to R222, R226); or it only counts as read, for a later release (R226). -/
inductive Sight where
  | own | vol | before | counted
  deriving DecidableEq, Repr, Inhabited

/-- A party has seen write id by the access, or at the moment, numbered at. -/
structure Seen where
  party : Party
  id : Nat
  at_ : Nat
  how : Sight
  deriving DecidableEq, Repr, Inhabited

/-- Paths of R35 that fence.x names besides the vector path. -/
inductive Path where
  | copy | matrix | call | host | peer
  deriving DecidableEq, Repr, Inhabited

/-- Where writes that happen before something are handed on (R225, R236, R428): a phase of a block barrier with its
arrivals, and the phase that ended last; a numbered barrier, toward the sequencer and from it; a token register; a launch;
the completed blocks of a launch; a counter; and what a thread has read of a path or gives to one. -/
inductive Handed where
  | gateIn (blk n : Nat)
  | gateOut (blk n : Nat)
  | toSeq (blk n : Nat)
  | fromSeq (blk n : Nat)
  | token (blk grp idx : Nat)
  | launch (n : Nat)
  | done (n : Nat)
  | counter (part : Nat) (id : Word)
  | took (blk tid : Nat) (p : Path)
  | gives (blk tid : Nat) (p : Path)
  /-- the calls that carried a hallmark of a domain, of a generation of its entry (R364) -/
  | mark (part : Nat) (gen : BitVec 16) (h : Word)
  deriving DecidableEq, Repr, Inhabited

/-- What happens before what, of the writes whose older form can still be read: how many there have been, those writes
the latest first, what each party has seen, the release fences of each party with their moment (R220), the
acquire-release fences (R221), and what is handed on. -/
structure Order where
  writes : Nat
  past : List Past
  seen : List Seen
  rels : List (Nat × Release)
  fences : List Release
  chans : List (Handed × List Nat)
  deriving DecidableEq, Repr, Inhabited

def Order.start : Order := ⟨0, [], [], [], [], []⟩

/-- Atomic operations of R227. -/
inductive AtomOp where
  | add | minI | maxI | minN | maxN | and_ | or_ | xor_ | xchg | cas | addF32 | addF16x2 | addBf16x2 | addF64
  deriving DecidableEq, Repr, Inhabited

/-- Where an access that fills registers puts its value: the vector registers of a lane or the uniform registers
of a group, from a physical index. -/
structure FillDst where
  uni : Bool
  grp : Nat
  lane : Nat
  idx : Nat
  n : Nat
  deriving DecidableEq, Repr, Inhabited

/-- What an access does when it is performed. -/
inductive AccKind where
  /-- a load; nf for ld.nf (R181) -/
  | load (w : LdW) (nf : Bool)
  /-- a load from constant space at an offset (R165) -/
  | const (w : LdW) (off : Nat)
  /-- sld in the surface's own format (R338) -/
  | pixel
  | store (data : List Byte)
  /-- sst.fmt of the bytes of one pixel sample -/
  | atom (op : AtomOp) (w64 : Bool) (operand comparand : DWord)
  /-- with who increments (R246) -/
  | fsemInc (amount : Word) (source : Subject)
  /-- a read of fsem.wait for a count, and the word that waits (R244) -/
  | fsemWait (value word : Word)
  | fsemRd
  | monArm (va : Addr)
  /-- a value already formed by its unit: acc.ld, pgprobe, ctr.new, ctr.rd, or a failed access (R158, R326) -/
  | value (regs : List Reg)
  /-- acc.ld of an accumulator word (R300) -/
  | accLd (handle : Word) (word : Nat)
  /-- an operation carried to another module (R510) -/
  | fabric (module stack part : Nat) (op : FabricOp)
  deriving DecidableEq, Repr, Inhabited

/-- The class of a part (R147): volatile, acquire, release; once, a volatile access, among them one of an unordered page;
and the scope code of its acquire or release. -/
structure Eff where
  vol : Bool
  acq : Bool
  rel : Bool
  once : Bool
  scope : Nat
  deriving DecidableEq, Repr, Inhabited

/-- A part of an access that is performed by itself (R151): where it lies in the access, its piece, and its class. -/
structure Share where
  off : Nat
  piece : Piece
  eff : Eff
  deriving DecidableEq, Repr, Inhabited

/-- An access in flight (R148 to R151, R173, R213): its pieces are what is performed next. -/
structure Access where
  id : Nat
  /-- number of the issue it belongs to: lanes of one issue keep their order on common bytes (R152, R228) -/
  batch : Nat
  /-- accesses that must have been performed first (R243) -/
  after : List Nat
  blk : Nat
  grp : Nat
  tid : Nat
  kind : AccKind
  dst : Option FillDst
  pieces : List Piece
  vol : Bool
  acq : Bool
  rel : Bool
  /-- pages whose service the access waits for (R155); it translates again when they are served -/
  waits : List Addr
  va : Addr
  /-- translations used (R154) -/
  pages : List (Nat × Nat)
  remote : Bool
  /-- a read that the L1 data cache may satisfy (R182, R217) -/
  l1 : Bool
  /-- a volatile access of an unordered page among others: never satisfied from a pending store (R148) -/
  once : Bool
  /-- scope code of its acquire or release (R150, R214) -/
  scope : Nat
  /-- other threads of a bundle that performs it once: it is an access of each (R89) -/
  mates : List Nat
  /-- its parts after the one in pieces, the place of that one, and the bytes that earlier parts have read (R151) -/
  later : List Share
  off : Nat
  got : List (Nat × Byte)
  /-- a load that waits for its pages: the ordering attribute that its thread's accesses take their order from, and the bytes
  that later ones of them have named meanwhile (R147, R218; entry 95) -/
  guess : Nat
  passed : List Piece
  /-- its cache modifier (R182) -/
  cache : Nat
  deriving DecidableEq, Repr, Inhabited

/-- A copy in flight (R248 to R270). -/
structure Copy where
  id : Nat
  stack : Nat
  core : Nat
  blk : Nat
  grp : Nat
  tok : Nat
  xf : Xform
  desc : List Word
  /-- row indexes of a gather, as read at issue (R256), and the headers of a carried billet, once read (R263) -/
  idx : List Nat
  heads : List Byte
  /-- chunks performed by number, the units in them, and the destination bytes that they wrote -/
  done : List Nat
  units : Nat
  bytes : Nat
  status : Nat
  cancelled : Bool
  slot : Bool
  /-- chunks that have not started, each with a page whose service it waits for (R267) -/
  waits : List (Nat × Addr)
  deriving DecidableEq, Repr, Inhabited

/-- Where a call is (R349 to R360). -/
inductive CallAt where
  /-- a draw in a reorder window (R358) -/
  | window
  /-- a bank call that found no place at its bank, in the glaze mesh (R359) -/
  | mesh
  /-- with its unit or bank, to be served; an accepted draw is walking (R357) -/
  | unit
  /-- a draw that has been walked: its quads are being returned -/
  | walked
  /-- performed: its return records are still to be sent -/
  | performed
  deriving DecidableEq, Repr, Inhabited

/-- A call that has left its call buffer and has not ended (R349, R350). -/
structure Call where
  id : Nat
  stack : Nat
  part : Nat
  blk : Nat
  grp : Nat
  q : Nat
  lane : Option Nat
  words : List Word
  unitType : Nat
  inst : Nat
  at_ : CallAt
  /-- room for its next return record is reserved (R350) -/
  reserved : Bool
  /-- return records still to be sent -/
  out : List (List Word)
  /-- the moment at which its record entered the call buffer (R362) -/
  pushed : Nat
  /-- a draw that was with its unit when its targets became degraded (R388) -/
  cut : Bool
  deriving DecidableEq, Repr, Inhabited

/-- An accepted launch (R421, R430): the record's words, and what changes. -/
structure Launch where
  stack : Nat
  words : List Word
  priv : Bool
  /-- launched by the management processor, and privileged (R451) -/
  dispatcher : Bool
  prio : Nat
  next : Nat
  done : Nat
  cancelled : Bool
  posted : Bool
  /-- number of writes when it was accepted: a constant image may be read as of any later moment (R165) -/
  from_ : Nat
  deriving DecidableEq, Repr, Inhabited

/-- The stack link (R506), with the microseconds since it last carried a flit. -/
structure Link where
  failed : Bool
  idle : Nat
  deriving DecidableEq, Repr, Inhabited

/-- An Ethernet port (R507, R508, R511): microseconds since a keepalive arrived. -/
structure Port where
  session : Bool
  billets : Bool
  heard : Bool
  quiet : Nat
  sent : Nat
  deriving DecidableEq, Repr, Inhabited

/-- A measure of R496 applied as one step: 1 boost withdrawn, 2 cadence doubled, 3 states lowered, 4 issue gated; the
partition, and the cores (stack, number) that it holds. -/
structure Measure where
  kind : Nat
  part : Nat
  cores : List (Nat × Nat)
  deriving DecidableEq, Repr, Inhabited

/-- A void or close of a hallmark that has not taken effect (R362, R368, R378): the group that issued it and when, and the
hmark.get forms of the group that it follows, by the moment at which they began. -/
structure MarkOp where
  close : Bool
  part : Nat
  mark : Word
  blk : Nat
  grp : Nat
  at_ : Nat
  gets : List Nat
  deriving DecidableEq, Repr, Inhabited

/-- What waits for the link to carry again: a post, a cancel, the cancellation of an open counter below one that was
cancelled, or the deferred flag of a counter (R424, R435, R448), a void or a close of a hallmark (R367, R368). -/
inductive LateOp where
  | post (part : Nat) (id : Word)
  | cancel (part : Nat) (id : Word)
  | lower (part : Nat) (id : Word)
  | defer (part : Nat) (id : Word)
  | mark (op : MarkOp)
  deriving DecidableEq, Repr, Inhabited

/-- Whose instruction exec performs: the model's own note of which agent acts. -/
inductive Actor where
  | none
  /-- an issue bundle: its block, group, lanes in ascending order, the word's address, pending hints and word -/
  | bundle (blk grp : Nat) (lanes : List Nat) (pc : Addr) (hints : List Hint) (word : Word)
  /-- the sequencer of a block and its word -/
  | seq (blk : Nat) (pc : Addr) (word : Word)
  /-- the command queues, for a command that has waited (R504) -/
  | command
  deriving DecidableEq, Repr, Inhabited

/-- A command that waits in the command queues (R504). -/
inductive Cmd where
  | create (part : Nat) (p0 p1 : PartParams) (table window mailbox : Addr)
  | resize (part stack : Nat) (p : PartParams)
  | destroy (part : Nat)
  | invalidate (part : Nat) (va : Option Addr)
  | cap (watts : Nat)
  | floor (part stack watts : Nat)
  | fabricRow (part row : Nat) (contents : BitVec 128)
  | debugStop (part stack : Nat) (job : Word)
  | debugResume (part stack : Nat) (job : Word)
  | debugStep (part stack : Nat) (job : Word) (block : Word) (grp lane : Nat)
  | debugBreakpoint (stack n : Nat) (bp : Breakpoint)
  | debugTraceArea (stack area : Nat) (arrival conflict : Bool) (threshold : Nat)
  | debugState (stack d : Nat)
  | attest (stack : Nat) (nonce : BitVec 512)
  | retire (p : RetPart)
  | firmwareUpdate (stack image : Nat)
  deriving DecidableEq, Repr, Inhabited

/-- What a read of BAR0 answers (R500, R501); disabled for a function that reads so. -/
inductive BarReply where
  | disabled
  | numbers (ns : List Nat)
  | bytes (bs : List Byte)
  | records (rs : List (BitVec 128))
  | parts (ps : List RetPart)
  deriving DecidableEq, Repr, Inhabited

/-- The machine. -/
structure State where
  stks : List Stack
  parts : List Part
  ctxs : List Ctx
  launches : List Launch
  blocks : List Block
  mem : Memory
  poison : List Nat
  /-- cells upset and not yet met by a read: space, granule, bit, uncorrectable (R164, R166, R313) -/
  upsets : List (Space × Nat × Nat × Bool)
  /-- parts of poisoned granules that the lanes of one store have written so far: the issue, the granule, and its bytes as
  a mask (R160) -/
  covered : List (Nat × Space × Nat × Nat)
  accesses : List Access
  copies : List Copy
  calls : List Call
  link : Link
  ports : List Port
  unreachable : List Nat
  moduleNum : Nat
  /-- microseconds of the module, by which its power is measured (R496) -/
  time : Nat
  capHost : Nat
  capEff : Nat
  avgPower : Nat
  /-- the host has set the cap since the last measurement (R499) -/
  capNew : Bool
  /-- readings of the module's power over 100 µs, the latest first, for the average over 10 ms (R496) -/
  powers : List Nat
  underCap : Nat
  /-- measures in force, the latest first -/
  measures : List Measure
  /-- the module's own count of snapshot triggers (R488) -/
  snapCount : Nat
  /-- modules with the microseconds since a route to them last carried a frame (R511) -/
  routes : List (Nat × Nat)
  msix : List (Nat × Nat × Word)
  /-- the MSI-X tables: 64 entries of each function (R500) -/
  vectors : List (List (BitVec 128))
  reports : List (Nat × Nat)
  /-- errors reported to the host under PCI Express error reporting: the stack, a code as in reports, and the function that is
  the requester (R161, R502, R503) -/
  hostErrors : List (Nat × Nat × Nat)
  /-- commands that wait, in queue order (R504) -/
  cmds : List Cmd
  /-- answers to reads of BAR0 (R501), with the function -/
  barReplies : List (Nat × BarReply)
  hostReplies : List (Option (List Byte))
  fabricOut : List (Nat × Nat × Nat × FabricOp)
  /-- operations of other modules that have arrived and are not performed: source, stack, partition (R508, R510) -/
  fabricIn : List (Nat × Nat × Nat × FabricOp)
  /-- answers to the reads of other modules, and to writes of a copy that failed; none is an unrecoverable outcome (R510) -/
  fabricReplies : List (Nat × Option Word)
  late : List LateOp
  order : Order
  cur : Actor
  agenda : List Move
  moves : Nat
  deriving DecidableEq, Repr, Inhabited

/-- Reasons to stop. No step raises one: every trap is a next state (R15), and a missing mapping is an outcome of
R145. -/
inductive Fault where
  /-- a device physical address outside R143; raised by nothing, since translation refuses such a frame first. Safe. -/
  | noSuchAddress
  deriving DecidableEq, Repr

/-- Reasons to refuse. -/
inductive Refusal where
  /-- raised by exec for an instruction that has no meaning yet; safe -/
  | notModelled (mnemonic : String)
  deriving DecidableEq, Repr

/-- A lane cluster after reset; slot 0 has the first turn (entry 4). -/
def Cluster.reset : Cluster :=
  ⟨15, 15, 0, 0, 0, 0, 0, 0, 0, false, 0, 0⟩

/-- A core after reset (R287, R490; entry 4). -/
def Core.reset : Core where
  cycles := 0
  state := 1
  denial := 0
  pdeny := 0
  clusters := List.replicate 4 Cluster.reset
  step := none
  want := []
  array := none
  seqQueue := []
  accQueue := []
  icache := []
  icacheLaunch := []
  icacheFrom := 0
  tlb := []
  lprs := List.replicate 128 none
  l1 := []
  sweepTo := 0
  pair := 0
  fsemLongest := none
  fsemSource := none
  fenceLongest := none
  conflictAt := none

/-- A vault after reset; the reading is the model's choice, and the forecast follows it (R434; entry 5). -/
def Vault.reset : Vault := ⟨250, 250, false, [], [], [], false, []⟩

/-- An idle encoder slot (R412). -/
def EncSlot.reset : EncSlot := ⟨false, 0, 0, 0, (0, 0), false, false, 0, 0, 0, none, 0, 0, [], [], [], []⟩

/-- A disarmed breakpoint (R483; entry 5). -/
def breakpointOff : Breakpoint := ⟨false, 0, 0, 0, 0, false, false, 0⟩

/-- A stack after reset: its boot ROM runs (R512, R519; entries 4, 5). -/
def Stack.reset : Stack where
  us := 0
  sec := 0
  dbg := 0
  heldReset := false
  image := 0
  version := 0
  rollback := 0
  unlockFuse := false
  bootStep := 0
  cores := List.replicate 128 Core.reset
  vaults := List.replicate 32 Vault.reset
  encs := List.replicate 16 EncSlot.reset
  arrayLog := []
  transferLog := []
  trace := []
  traceSize := 0
  traceDropped := 0
  tracePart := 0
  traceArrival := false
  traceConflict := false
  traceThreshold := 2
  bps := List.replicate 8 breakpointOff
  reserveCores := 8
  reserveBanks := 64
  retired := []
  degradedParts := []
  errorsIn := []
  invals := []
  cmdStatus := []
  reports := []

/-- A partition that does not exist (R500); its registers hold the values they take at creation (R454). -/
def PartParams.none : PartParams := ⟨[], [], [], [], 0, 0, 2 ^ 30⟩

def Counter.reset : Counter := ⟨false, 0, 0, 0, 0, .open, none, false, false, false, false⟩

def PartStack.reset : PartStack :=
  ⟨PartParams.none, 0, List.replicate 1024 Counter.reset, 20000, 1000, 10000, 0, 0, 0, none, []⟩

/-- A free surface table entry (R319). -/
def SrfEntry.reset : SrfEntry where
  kind := 0
  home := 0
  tile := 0
  samples := 0
  fmt := 0
  gen := 0
  fresh := true
  height := 0
  width := 0
  layers := 0
  degraded := false
  moving := false
  viewWrite := false
  viewable := false
  pinned := false
  count := [0, 0]
  first := [0, 0]
  tiles := 0
  backing := 0
  write := false
  parent := 0
  next := 0
  floor := 0
  marks := []
  wclock := 0
  tileSt := []
  recent := []
  freeing := false
  pgen := 0
  bytes := []
  poison := []

def Part.reset : Part :=
  ⟨false, 0, 0, 0, List.replicate 2 PartStack.reset, List.replicate 4096 SrfEntry.reset,
    List.replicate 4096 0, false, 0, []⟩

/-- An MSI-X table entry that is masked: bit 96 (PRESUMED, entry 116). -/
def vectorOff : BitVec 128 := BitVec.ofNat 128 (2 ^ 96)

def Port.reset : Port := ⟨false, false, false, 0, 0⟩

/-- The machine right after reset: no partition, no work, nothing listed in memory (R33, R440, R454, R490, R519;
entries 1 to 5). -/
def State.reset : State where
  stks := List.replicate 2 Stack.reset
  parts := List.replicate 32 Part.reset
  ctxs := []
  launches := []
  blocks := []
  mem := []
  poison := []
  upsets := []
  covered := []
  accesses := []
  copies := []
  calls := []
  link := ⟨false, 0⟩
  ports := List.replicate 4 Port.reset
  unreachable := []
  moduleNum := 0
  time := 0
  capHost := 1500
  capEff := 1500
  avgPower := 0
  capNew := false
  powers := []
  underCap := 0
  measures := []
  snapCount := 0
  routes := []
  msix := []
  vectors := List.replicate 33 (List.replicate 64 vectorOff)
  reports := []
  hostErrors := []
  cmds := []
  barReplies := []
  hostReplies := []
  fabricOut := []
  fabricIn := []
  fabricReplies := []
  late := []
  order := .start
  cur := .none
  agenda := []
  moves := 0

end Sys2Proof.Machine
end

