-- ==== Sys2Proof/Machine/Store.lean ====
section
/-!
DEFINITION. Lists, the parts of the state and how they are changed, and bytes by address in every space.
-/

namespace Sys2Proof.Machine

/-! Lists. -/

/-- f at each index, from index i on. -/
def mapFrom {α : Type} (f : Nat → α → α) : Nat → List α → List α
  | _, [] => []
  | i, a :: as => f i a :: mapFrom f (i + 1) as

/-- Apply f to the elements whose indexes are listed. -/
def mapAt {α : Type} (is : List Nat) (f : Nat → α → α) (as : List α) : List α :=
  mapFrom (fun i a => if is.contains i then f i a else a) 0 as

/-- Indexes of the elements that satisfy p, ascending. -/
def indexesFrom {α : Type} (p : α → Bool) : Nat → List α → List Nat
  | _, [] => []
  | i, a :: as => if p a then i :: indexesFrom p (i + 1) as else indexesFrom p (i + 1) as

abbrev indexes {α : Type} (p : α → Bool) (as : List α) : List Nat := indexesFrom p 0 as

/-- Insert by a key, keeping the order of equal keys. -/
def insertBy {α : Type} (lt : α → α → Bool) (a : α) : List α → List α
  | [] => [a]
  | b :: bs => if lt a b then a :: b :: bs else b :: insertBy lt a bs

def sortBy {α : Type} (lt : α → α → Bool) (as : List α) : List α :=
  as.foldl (fun acc a => insertBy lt a acc) []

/-- Without repeats, the first of each kept. -/
def nub {α : Type} [DecidableEq α] (as : List α) : List α :=
  as.foldl (fun acc a => if acc.contains a then acc else acc ++ [a]) []

/-- The bits of a lane mask (R95). -/
def maskOf (lanes : List Nat) : Word :=
  lanes.foldl (fun m l => m ||| ((1 : Word) <<< l)) 0

/-! Parts of the state. -/

def State.block? (s : State) (b : Nat) : Option Block := s.blocks[b]?
def State.group? (s : State) (b g : Nat) : Option Group := (s.blocks[b]?).bind (fun k => k.groups[g]?)
def State.thread? (s : State) (b g l : Nat) : Option Thread := (s.group? b g).bind (fun k => k.threads[l]?)
def State.stack (s : State) (k : Nat) : Stack := s.stks.getD k Stack.reset
def State.core (s : State) (k c : Nat) : Core := (s.stack k).cores.getD c Core.reset
def State.part (s : State) (p : Nat) : Part := s.parts.getD p Part.reset
def State.partOn (s : State) (p k : Nat) : PartStack := (s.part p).on.getD k PartStack.reset
def State.srf (s : State) (p e : Nat) : SrfEntry := (s.part p).srfs.getD e SrfEntry.reset
def State.vault (s : State) (k v : Nat) : Vault := (s.stack k).vaults.getD v Vault.reset

def State.mapBlock (s : State) (b : Nat) (f : Block → Block) : State :=
  { s with blocks := modifyAt f b s.blocks }
def State.mapGroup (s : State) (b g : Nat) (f : Group → Group) : State :=
  s.mapBlock b (fun k => { k with groups := modifyAt f g k.groups })
/-- Change the threads of the lanes listed. -/
def State.mapLanes (s : State) (b g : Nat) (ls : List Nat) (f : Nat → Thread → Thread) : State :=
  s.mapGroup b g (fun k => { k with threads := mapAt ls f k.threads })
def State.mapStack (s : State) (k : Nat) (f : Stack → Stack) : State :=
  { s with stks := modifyAt f k s.stks }
def State.mapCore (s : State) (k c : Nat) (f : Core → Core) : State :=
  s.mapStack k (fun t => { t with cores := modifyAt f c t.cores })
def State.mapVault (s : State) (k v : Nat) (f : Vault → Vault) : State :=
  s.mapStack k (fun t => { t with vaults := modifyAt f v t.vaults })
def State.mapPart (s : State) (p : Nat) (f : Part → Part) : State :=
  { s with parts := modifyAt f p s.parts }
def State.mapPartOn (s : State) (p k : Nat) (f : PartStack → PartStack) : State :=
  s.mapPart p (fun t => { t with on := modifyAt f k t.on })
def State.mapSrf (s : State) (p e : Nat) (f : SrfEntry → SrfEntry) : State :=
  s.mapPart p (fun t => { t with srfs := modifyAt f e t.srfs })

/-- The context of a job of a partition on a stack (R424, R429). -/
def State.ctx? (s : State) (part stack : Nat) (job : Word) : Option Ctx :=
  s.ctxs.find? (fun c => c.part == part && c.stack == stack && c.job == job)
def State.mapCtx (s : State) (part stack : Nat) (job : Word) (f : Ctx → Ctx) : State :=
  { s with ctxs := s.ctxs.map (fun c => if c.part == part && c.stack == stack && c.job == job then f c else c) }

/-- The counter that free values are applied to, advanced. -/
def State.draw (s : State) : State := { s with moves := s.moves + 1 }
/-- Moves due before anything else. -/
def State.due (s : State) (ms : List Move) : State := { s with agenda := s.agenda ++ ms }

/-- A report to the management processor of a stack: a code of the model's own (R161, R243, R313, R326). -/
def State.report (s : State) (stack code : Nat) : State := { s with reports := s.reports ++ [(stack, code)] }

/-- A report to the host under PCI Express error reporting, with the partition's function as requester (R161, R500, R502,
R503). -/
def State.hostError (s : State) (stack part code : Nat) : State :=
  { s with hostErrors := s.hostErrors ++ [(stack, code, part + 1)] }

/-! Memory: bytes by address. -/

def Memory.get : Memory → Nat → Byte
  | [], _ => 0
  | (a, v) :: m, x => if a = x then v else if x < a then 0 else Memory.get m x

/-- Write one byte; writing 0 removes the entry. -/
def Memory.set : Memory → Nat → Byte → Memory
  | [], x, v => if v = 0 then [] else [(x, v)]
  | (a, w) :: m, x, v =>
    if x < a then (if v = 0 then (a, w) :: m else (x, v) :: (a, w) :: m)
    else if a = x then (if v = 0 then m else (x, v) :: m)
    else (a, w) :: Memory.set m x v

def Memory.read (m : Memory) (a : Nat) : Nat → List Byte
  | 0 => []
  | n + 1 => m.get a :: Memory.read m (a + 1) n

def Memory.write (m : Memory) (a : Nat) : List Byte → Memory
  | [] => m
  | v :: vs => Memory.write (m.set a v) (a + 1) vs

/-- A little-endian word or dword of device physical memory (R9). -/
def State.memWord (s : State) (a : Nat) : Word := BitVec.ofNat 32 (leNat (s.mem.read a 4))
def State.memDWord (s : State) (a : Nat) : DWord := BitVec.ofNat 64 (leNat (s.mem.read a 8))

/-- Bytes of a space (R143, R162, R338). -/
def State.bytesOf (s : State) : Space → Memory
  | .mem => s.mem
  | .scratch b => (s.blocks[b]?).elim [] (·.scratch)
  | .srf p e => (s.srf p e).bytes

def State.setBytes (s : State) (m : Memory) : Space → State
  | .mem => { s with mem := m }
  | .scratch b => s.mapBlock b (fun k => { k with scratch := m })
  | .srf p e => s.mapSrf p e (fun k => { k with bytes := m })

/-- The granule of a byte: 32 bytes, or 8 in scratchpad (R160, R164). -/
def Space.granule : Space → Nat → Nat
  | .scratch _, a => a / 8
  | _, a => a / 32

def State.poisonOf (s : State) : Space → List Nat
  | .mem => s.poison
  | .scratch b => (s.blocks[b]?).elim [] (·.scratchPoison)
  | .srf p e => (s.srf p e).poison

def State.setPoison (s : State) (l : List Nat) : Space → State
  | .mem => { s with poison := l }
  | .scratch b => s.mapBlock b (fun k => { k with scratchPoison := l })
  | .srf p e => s.mapSrf p e (fun k => { k with poison := l })

def Space.granuleSize : Space → Nat
  | .scratch _ => 8
  | _ => 32

/-- A byte of a granule marked poisoned lies in the piece (R160). -/
def State.poisoned (s : State) (p : Piece) : Bool :=
  (s.poisonOf p.space).any (fun g => decide (g * p.space.granuleSize < p.addr + p.len) &&
    decide (p.addr < (g + 1) * p.space.granuleSize))

/-- Granules that the piece covers whole lose their mark (R160). -/
def State.clearPoison (s : State) (p : Piece) : State :=
  let ps := s.poisonOf p.space
  if ps.isEmpty then s
  else s.setPoison (ps.filter (fun g => !(decide (p.addr ≤ g * p.space.granuleSize) &&
    decide ((g + 1) * p.space.granuleSize ≤ p.addr + p.len)))) p.space

def State.readPiece (s : State) (p : Piece) : List Byte := (s.bytesOf p.space).read p.addr p.len

def State.writePiece (s : State) (p : Piece) (vs : List Byte) : State :=
  (s.setBytes ((s.bytesOf p.space).write p.addr (vs.take p.len)) p.space).clearPoison p

/-- Bytes of several pieces in their order. -/
def State.readPieces (s : State) (ps : List Piece) : List Byte := ps.flatMap s.readPiece

def State.writePieces (s : State) : List Piece → List Byte → State
  | [], _ => s
  | p :: ps, vs => (s.writePiece p vs).writePieces ps (vs.drop p.len)

/-! The shape of a surface (R314, R316, R317). -/

def srfFmtBytes (f : Nat) : Nat := if f = 3 then 8 else 4
def SrfEntry.edge (e : SrfEntry) : Nat :=
  match e.tile with
  | 0 => 32
  | 1 => 16
  | _ => 64
def SrfEntry.S (e : SrfEntry) : Nat := 2 ^ e.samples
def SrfEntry.p (e : SrfEntry) : Nat := srfFmtBytes e.fmt
def SrfEntry.tx (e : SrfEntry) : Nat := ceilDiv e.width e.edge
def SrfEntry.ty (e : SrfEntry) : Nat := ceilDiv e.height e.edge
/-- Bytes of one tile. -/
def SrfEntry.tileBytes (e : SrfEntry) : Nat := e.edge * e.edge * e.S * e.p
def SrfEntry.rowBytes (e : SrfEntry) : Nat := e.width * e.S * e.p

/-- The stack that owns a tile, and the tile's ordinal there (R317). -/
def SrfEntry.owner (e : SrfEntry) (t : Nat) : Nat :=
  if e.home = 2 then (t % e.tx + t / e.tx % e.ty) % 2 else e.home

/-- Bytes of a row of pixels within one tile. -/
def SrfEntry.tileRow (e : SrfEntry) : Nat := e.edge * e.S * e.p

/-- Where byte off of the raw image of row y of layer l (R338) stands among the bytes of the surface, which lie tile by
tile, and in a tile row by row (R316, R317; entry 29). -/
def SrfEntry.byteAt (e : SrfEntry) (l y off : Nat) : Nat :=
  ((l * e.ty + y / e.edge) * e.tx + off / e.tileRow) * e.tileBytes + y % e.edge * e.tileRow + off % e.tileRow

/-- The bytes of a run of a row image, tile by tile (R317, R338). -/
def SrfEntry.runs (e : SrfEntry) (sp : Space) (l y off len : Nat) : List Piece :=
  if len = 0 then []
  else (upto ((off + len - 1) / e.tileRow + 1 - off / e.tileRow)).map (fun i =>
    let c := off / e.tileRow + i
    let lo := max off (c * e.tileRow)
    ⟨sp, e.byteAt l y lo, min (off + len) ((c + 1) * e.tileRow) - lo⟩)

/-- The tiles of a run of bytes of a surface. -/
def SrfEntry.tilesOf (e : SrfEntry) (addr len : Nat) : List Nat :=
  (upto ((addr + len - 1) / e.tileBytes + 1 - addr / e.tileBytes)).map (addr / e.tileBytes + ·)

/-- The tile takes room in its bank: it is resident or in motion (R322). -/
def TileState.held : TileState → Bool
  | .absent | .evicted => false
  | _ => true

/-- Two runs of bytes share one. -/
def Piece.meets (p q : Piece) : Bool :=
  p.space == q.space && decide (p.addr < q.addr + q.len) && decide (q.addr < p.addr + p.len)

end Sys2Proof.Machine
end

