-- ==== Sys2Proof/Machine/Order.lean ====
section
/-!
DEFINITION. The order of accesses (R213 to R226): which parties share a scope, what happens before what, and which bytes a
read may return. A write may leave its older bytes to be read (entry 18); every read then chooses a moment no earlier than
each write to its bytes that the reader has seen, which are the writes that R223 excludes the predecessors of.
-/

namespace Sys2Proof.Machine

/-! Scopes (R214). -/

/-- Code of the narrowest scope around a party. -/
def Party.narrowest : Party → Nat
  | .thread _ _ => 1
  | .seq _ => 3
  | .copy _ => 4
  | .unit _ => 5
  | .host | .peer | .device => 7

/-- The block that a party is of. -/
def Party.block? : Party → Option Nat
  | .thread b _ | .seq b => some b
  | _ => none

/-- Stack and core of a party; a texture filter is of its group's core. -/
def Party.core? (s : State) : Party → Option (Nat × Nat)
  | .thread b _ | .seq b => (s.block? b).map (fun k => (k.stack, k.core))
  | .copy i => (s.copies.find? (fun c => c.id == i)).map (fun c => (c.stack, c.core))
  | .unit i => (s.calls.find? (fun c => c.id == i && c.unitType == 2)).bind (fun c =>
      (s.block? c.blk).map (fun k => (k.stack, k.core)))
  | _ => none

def Party.stack? (s : State) : Party → Option Nat
  | .unit i => (s.calls.find? (fun c => c.id == i)).map (·.stack)
  | p => (p.core? s).map (·.1)

/-- Group of a thread in its block. -/
def Party.group? (s : State) : Party → Option (Nat × Nat)
  | .thread b tid => (s.block? b).bind (fun k =>
      (indexes (fun (g : Group) => g.threads.any (·.tid == tid)) k.groups).head?.map (fun g => (b, g)))
  | _ => none

/-- q lies in the instance of the scope of a code around p. -/
def inInstance (s : State) (scope : Nat) (p q : Party) : Bool :=
  p == q || (match max scope p.narrowest with
    | 0 | 1 => false
    | 2 => (p.group? s).isSome && p.group? s == q.group? s
    | 3 => p.block?.isSome && p.block? == q.block?
    | 4 => (p.core? s).isSome && p.core? s == q.core? s
    | 5 => (p.stack? s).isSome && p.stack? s == q.stack? s
    | 6 => q != .host && q != .peer && q != .device
    | _ => true)

/-- Two parties share the scopes of a release and an acquire (R219). -/
def sharedScopes (s : State) (p : Party) (sp : Nat) (q : Party) (sq : Nat) : Bool :=
  inInstance s sp p q && inInstance s sq q p

/-- A read by q, an acquire of a scope or none, takes what the release passes on. -/
def Release.takenBy (s : State) (r : Release) (q : Party) (acq : Option Nat) : Bool :=
  if r.scope = 8 then q == .host
  else if r.scope = 9 then q == .peer
  else acq.elim false (fun sq => sharedScopes s r.party r.scope q sq)

/-! Happens-before, over the writes whose older form can be read (R222). -/

def Order.find? (o : Order) (i : Nat) : Option Past := o.past.find? (fun e => e.id == i)

/-- With the writes that happened before them. -/
def Order.closed (o : Order) (is : List Nat) : List Nat :=
  nub (is ++ is.flatMap (fun i => (o.find? i).elim [] (·.before)))

/-- What a party has seen before moment n. -/
def Order.seenBy (o : Order) (p : Party) (n : Nat) : List Seen :=
  o.seen.filter (fun x => x.party == p && decide (x.at_ < n))

/-- All that a release of a party at moment n passes on. -/
def Order.passed (o : Order) (p : Party) (n : Nat) : List Nat := o.closed ((o.seenBy p n).map (·.id))

/-- What happens before whatever follows all accesses of a party made before moment n: its own writes, and what happens before
its accesses (R222, R225, R226). -/
def Order.covers (o : Order) (p : Party) (n : Nat) : List Nat :=
  o.closed (((o.seenBy p n).filter (fun x => x.how == .before || (o.find? x.id).elim false (fun e => e.party == p))).map (·.id))

def Order.see (o : Order) (p : Party) (is : List Nat) (at_ : Nat) (how : Sight) : Order :=
  { o with seen := o.seen ++ is.map (fun i => ⟨p, i, at_, how⟩) }

def Order.chan (o : Order) (c : Handed) : List Nat := ((o.chans.find? (fun x => x.1 == c)).map (·.2)).getD []

def Order.setChan (o : Order) (c : Handed) (is : List Nat) : Order :=
  { o with chans := (if is.isEmpty then [] else [(c, is)]) ++ o.chans.filter (fun x => x.1 != c) }

def Order.putChan (o : Order) (c : Handed) (is : List Nat) : Order :=
  if is.isEmpty then o else o.setChan c (nub (o.chan c ++ is))

def State.mapOrder (s : State) (f : Order → Order) : State := { s with order := f s.order }

/-- The moment just before the party's next access. -/
def State.moment (s : State) : Nat := s.moves - 1

/-- From now on the writes happen before the accesses of a party. -/
def State.orders (s : State) (p : Party) (is : List Nat) : State :=
  if is.isEmpty then s else s.mapOrder (fun o => o.see p is s.moment .before)

/-- A party takes what a channel holds. -/
def State.takeChan (s : State) (p : Party) (c : Handed) : State := s.orders p (s.order.chan c)

/-- A party hands on all that it has seen, as a release. -/
def State.giveChan (s : State) (p : Party) (c : Handed) : State :=
  s.mapOrder (fun o => o.putChan c (o.passed p s.moves))

/-- Whose access it is: the parties it is of, its number, the accesses that it follows, and the scope of its acquire and
of its release. -/
structure Who where
  parties : List Party
  acc : Nat
  after : List Nat
  acq : Option Nat
  rel : Option Nat
  /-- the access is volatile (R147, R224) -/
  vol : Bool := false
  /-- its own party need not see what it writes (R522) -/
  loose : Bool := false
  deriving DecidableEq, Repr, Inhabited

def Who.of (p : Party) (n : Nat) : Who := { parties := [p], acc := n, after := [], acq := none, rel := none }

/-- How the parties have seen what the access itself writes or reads. -/
def Who.sight (w : Who) : Sight := if w.loose then .counted else if w.vol then .vol else .own

/-- The party wrote or read it. -/
def Sight.mine : Sight → Bool
  | .own | .vol => true
  | _ => false

/-- What the access of w has made or read happens before the accesses of a thread that follow it, whether they have been issued
or not (R236). -/
def followed (b : Nat) (w : Who) (is : List Nat) (s : State) (t : Thread) : State :=
  let later := s.accesses.filter (fun a => a.blk == b && (a.tid :: a.mates).contains t.tid && a.after.contains w.acc)
  let at_ := (later.map (·.id)).foldl min s.moves - 1
  if is.isEmpty then s else s.mapOrder (fun o => o.see (.thread b t.tid) is at_ .before)

/-- Writes that an access of a thread has made or read are passed on to the threads whose later accesses follow the access, for
those among them that have been issued already as well, and by the phases of the barriers at which it preceded an arrival
(R236; entry 92). -/
def passOn (s : State) (w : Who) (is : List Nat) : State :=
  w.parties.foldl (fun s p =>
    match p with
    | .thread b _ =>
      match s.block? b with
      | none => s
      | some k =>
        let follow := (k.groups.flatMap (·.threads)).filter (fun t => t.behind.contains w.acc)
        let s1 := follow.foldl (followed b w is) s
        s1.mapOrder (fun o => ((upto k.gates.length).zip k.gates).foldl (fun o g =>
          let o1 := if g.2.before.contains w.acc then o.putChan (.gateIn b g.1) is else o
          if g.2.ended.contains w.acc then o1.putChan (.gateOut b g.1) is else o1) o)
    | _ => s) s

/-! Loads that wait for their pages (R155, R218; entry 95). -/

/-- A load that has still to translate. -/
def Access.untold (a : Access) : Bool :=
  a.pieces.isEmpty && (match a.kind with
    | .load _ _ => true
    | _ => false)

/-- The access of w follows the load a of its thread. -/
def Access.before (a : Access) (w : Who) : Bool :=
  a.untold && decide (a.id < w.acc) && (a.tid :: a.mates).any (fun t => w.parties.contains (.thread a.blk t))

/-- Bytes are read or written while earlier loads of the thread wait for their pages. -/
def State.passes (s : State) (w : Who) (ps : List Piece) : State :=
  if s.accesses.any (·.before w) then
    { s with accesses := s.accesses.map (fun a => if a.before w then { a with passed := a.passed ++ ps } else a) }
  else s

/-! Writes. -/

/-- What a write releases: to the readers of its own release, to those of the fences before it, what an atomic passes on, and
what each thread that it is of gives to reads by the host or a link controller (R219, R220, R225, R521). -/
def releasesOf (s : State) (w : Who) (chain : List Release) : List Release :=
  let o := s.order
  let pt := w.parties.headD .host
  let own : List Release := match w.rel with
    | some sc => w.parties.map (fun p => ⟨pt, sc, o.passed p w.acc⟩)
    | none => []
  let fenced := (o.rels.filter (fun r => w.parties.contains r.2.party && decide (r.1 < w.acc))).map (·.2)
  let given : List Release := w.parties.flatMap (fun p => match p with
    | .thread b t => [⟨p, 8, o.chan (.gives b t .host)⟩, ⟨p, 9, o.chan (.gives b t .peer)⟩]
    | _ => [])
  (own ++ fenced ++ chain ++ given).filter (fun r => !r.ids.isEmpty)

/-- A write of a piece takes its place in the order, and its older bytes may be read on (R215, R223). What happens before it:
what does before its party's accesses, and of what its party has written or read that which R218 orders before it. -/
def noteWrite (w : Who) (chain : List Release) (s : State) (p : Piece) : State :=
  let o := s.order
  let rels := releasesOf s w chain
  let mine := w.parties.flatMap (fun q => o.seenBy q w.acc)
  let near := mine.filter (fun x => x.how == .before || (w.vol && x.how == .vol) ||
    (o.find? x.id).elim false (fun e => e.piece.meets p))
  let i := o.writes + 1
  let e : Past :=
    { id := i
      piece := p
      old := s.readPiece p
      party := w.parties.headD .host
      acc := w.acc
      before := nub (o.closed ((if w.rel.isSome then mine else near).map (·.id)) ++ rels.flatMap (fun r =>
        if w.parties.contains r.party && r.scope ≤ 7 then r.ids else []))
      rels := rels }
  passOn (s.mapOrder (fun o => w.parties.foldl (fun o q => o.see q [i] w.acc w.sight)
    { o with writes := i, past := e :: o.past })) w [i]

/-- Write bytes over pieces, in the order of all writes. -/
def State.writeAs (s : State) (w : Who) (chain : List Release) (ps : List Piece) (vs : List Byte) : State :=
  (ps.foldl (noteWrite w chain) (s.passes w ps)).writePieces ps vs

/-! Reads. -/

/-- The latest write to a piece that each of the readers must not read behind (R149, R215, R223). -/
def Order.floor (o : Order) (w : Who) (p : Piece) : Nat :=
  ((o.past.filter (fun e => e.piece.meets p && (w.after.contains e.acc || o.seen.any (fun x =>
    x.id == e.id && w.parties.contains x.party && decide (x.at_ < w.acc) && x.how != .counted)))).map (·.id)).foldl max 0

/-- A byte as of a moment in the order of all writes. -/
def Order.byteAt (o : Order) (sp : Space) (x n : Nat) (now : Byte) : Byte :=
  match (o.past.filter (fun e => decide (n < e.id) && e.piece.meets ⟨sp, x, 1⟩)).getLast? with
  | some e => e.old.getD (x - e.piece.addr) now
  | none => now

/-- The moment at which a read of a piece looks, no earlier than a floor: now for a read at the point of coherence, and
else a free one. -/
def lookAt (s : State) (atPoint : Bool) (floor i : Nat) : Nat :=
  if atPoint then s.order.writes else max floor (s.order.writes - Config.stale s.moves i)

/-- How a read looks at its bytes: at the point of coherence (R217), each piece at one moment (R151), as a line of the L1
stood, each byte by itself, or each piece at one moment for all reads of one access. -/
inductive Look where
  | point | one | asOf (n : Nat) | each | at_
  deriving DecidableEq, Repr, Inhabited

/-- The bytes of a piece, each with the moment at which it is read. -/
def momentsOf (s : State) (w : Who) (l : Look) (from_ : Nat) (p : Piece) : List (Nat × Nat) :=
  let floor (q : Piece) : Nat := max from_ (s.order.floor w q)
  (upto p.len).map (fun j => (p.addr + j, match l with
    | .point => s.order.writes
    | .one => lookAt s false (floor p) p.addr
    | .at_ => max (floor p) (s.order.writes - Config.stale w.acc p.addr)
    | .asOf n => max n (floor p)
    | .each => lookAt s false (floor ⟨p.space, p.addr + j, 1⟩) (p.addr + j)))

/-- The reader has seen the writes that it read. They and what happens before them happen before what follows an acquire, and
so does what they release to it (R218, R219, R222). -/
def noteRead (s : State) (w : Who) (sources : List Nat) : State :=
  if sources.isEmpty then s
  else
    let s1 := s.mapOrder (fun o => w.parties.foldl (fun o p => o.see p sources w.acc w.sight) o)
    let got (p : Party) : List Nat := nub ((if w.acq.isSome then s.order.closed sources else []) ++
      sources.flatMap (fun i => (s.order.find? i).elim [] (fun e =>
        let ids := (e.rels.filter (fun r => r.takenBy s p w.acq)).map (·.ids)
        if ids.isEmpty then [] else i :: ids.flatten)))
    passOn (s1.mapOrder (fun o => w.parties.foldl (fun o p => o.see p (got p) w.acc .before) o)) w sources

/-- Read the bytes of pieces for a party (R223), as of no moment before from_ (R165). -/
def State.readAs (s0 : State) (w : Who) (l : Look) (ps : List Piece) (from_ : Nat := 0) : State × List Byte :=
  let s := s0.passes w ps
  if s.order.past.isEmpty then (s, s.readPieces ps)
  else
    let o := s.order
    let ms := ps.map (fun p => (p, momentsOf s w l from_ p))
    let sources := nub (ms.flatMap (fun m => m.2.filterMap (fun x =>
      (o.past.find? (fun e => decide (e.id ≤ x.2) && e.piece.meets ⟨m.1.space, x.1, 1⟩)).map (·.id))))
    (noteRead s w sources, ms.flatMap (fun m => (m.2.zip (s.readPiece m.1)).map (fun x =>
      o.byteAt m.1.space x.1.1 x.1.2 x.2)))

/-- What the writes release that an atomic on a piece reads (R219). -/
def State.chainOf (s : State) (p : Piece) : List Release :=
  ((s.order.past.find? (fun e => e.piece.meets p)).map (·.rels)).getD []

/-! Fences (R220, R221, R225, R226). -/

/-- A fence with acquire: the reads before it act as acquires at its scope, so that what they have read happens before what
follows it (R218, R220, R222). -/
def fenceAcquire (s : State) (p : Party) (scope : Nat) : State :=
  let mine := ((s.order.seenBy p s.moves).filter (·.how.mine)).map (·.id)
  s.orders p (nub (s.order.closed mine ++ mine.flatMap (fun i => (s.order.find? i).elim [] (fun e =>
    (e.rels.filter (fun r => r.takenBy s p (some scope))).flatMap (·.ids)))))

/-- A fence with release: the writes after it act as releases at its scope. -/
def fenceRelease (s : State) (p : Party) (scope : Nat) : State :=
  let is := s.order.passed p s.moves
  if is.isEmpty then s else s.mapOrder (fun o => { o with rels := o.rels ++ [(s.moment, ⟨p, scope, is⟩)] })

/-- An acquire-release fence: it follows every earlier one of a scope instance that it shares. -/
def fenceBoth (s : State) (p : Party) (scope : Nat) : State :=
  let s1 := fenceAcquire s p scope
  let s2 := s1.orders p (nub ((s.order.fences.filter (fun r => sharedScopes s r.party r.scope p scope)).flatMap (·.ids)))
  let is := s2.order.passed p s2.moves
  fenceRelease (if is.isEmpty then s2 else s2.mapOrder (fun o => { o with fences := o.fences ++ [⟨p, scope, is⟩] })) p scope

/-- Writes of a party up to the latest that a thread has seen: in its own order they precede that (R225). -/
def Order.upTo (o : Order) (q : Party) (is : List Nat) : List Nat :=
  let last := ((o.past.filter (fun e => e.party == q && is.contains e.id)).map (·.id)).foldl max 0
  (o.past.filter (fun e => e.party == q && decide (e.id ≤ last))).map (·.id)

/-- The paths of a set of fence.x besides the vector path. -/
def pathsOf (m : BitVec 6) : List Path :=
  [(1, Path.copy), (2, .matrix), (3, .call), (4, .host), (5, .peer)].filterMap (fun x => if m.getLsbD x.1 then some x.2 else none)

/-- What fence.x covers of a path as earlier. -/
def Order.covered (o : Order) (b tid n : Nat) (p : Path) : List Nat :=
  let mine := (o.seenBy (.thread b tid) n).map (·.id)
  match p with
  | .host => o.upTo .host mine
  | .peer => o.upTo .peer mine ++ o.chan (.took b tid .peer)
  | _ => o.chan (.took b tid p)

/-- FENCE.X of one thread (R225, R226), once the covered accesses have been performed. -/
def fenceCross (s : State) (b tid : Nat) (e l : BitVec 6) : State :=
  let p : Party := .thread b tid
  let o := s.order
  let is := o.closed ((if e.getLsbD 0 then o.passed p s.moves else []) ++ (pathsOf e).flatMap (o.covered b tid s.moves))
  let s1 := if is.isEmpty then s
    else s.mapOrder (fun o => (pathsOf l).foldl (fun o q => o.putChan (.gives b tid q) is)
      (o.see p is s.moment (if l.getLsbD 0 then .before else .counted)))
  if e.getLsbD 0 && l.getLsbD 0 then
    fenceBoth s1 p (if e.getLsbD 4 || e.getLsbD 5 || l.getLsbD 4 || l.getLsbD 5 then 7 else 6)
  else s1

end Sys2Proof.Machine
end

