-- ==== Sys2Proof/Machine/Ecc.lean ====
section
/-!
DEFINITION. Where device physical bytes lie (R17 to R25, R143, R144), ECC of memory, scratchpad and banks (R160, R164, R166,
R171, R172, R313), and the bytes that a read delivers.
-/

namespace Sys2Proof.Machine

/-! Where a device physical byte lies (R17 to R21, R143, R144). -/

/-- near DRAM, far DRAM or host memory, with the stack; none in a reserved range (R143). -/
inductive Region where
  | near (stack : Nat) | far (stack : Nat) | host
  deriving DecidableEq, Repr, Inhabited

def region? (pa : Nat) : Option Region :=
  if pa < 0x0008_0000_0000 then some (.near 0)
  else if pa < 0x0010_0000_0000 then some (.near 1)
  else if pa < 0x001C_0000_0000 then some (.far 0)
  else if 0x0020_0000_0000 ≤ pa ∧ pa < 0x002C_0000_0000 then some (.far 1)
  else if 0x80_0000_0000_0000 ≤ pa ∧ pa < 0x100_0000_0000_0000 then some .host
  else none

/-- The stack that owns a byte; host memory belongs to the stack that reaches it (R25). -/
def ownerOf (pa stack : Nat) : Nat :=
  match region? pa with
  | some (.near k) | some (.far k) => k
  | _ => stack

/-- The link is failed, or counts as down because a stack is absent (R506, R514). -/
def State.linkDown (s : State) : Bool := s.link.failed || s.stks.any (fun k => k.sec != 1)

/-- The link has not failed, and has carried no flit in the last microsecond: it stalls or retrains (R326, R367, R506). -/
def State.linkStalls (s : State) : Bool := !s.linkDown && s.link.idle != 0

/-- The link carries nothing now. -/
def State.linkHeld (s : State) : Bool := s.linkDown || s.link.idle != 0

/-- The memory lies on the other stack while the link is failed (R161, R506). -/
def State.unreachablePA (s : State) (pa stack : Nat) : Bool := s.linkDown && ownerOf pa stack != stack

/-! ECC of DRAM (R166, R171, R172). -/

/-- The vault, layer and device of a granule's record, with its offset in the vault or device. -/
def arrayPlace (pa : Nat) : Option (Nat × Bool × Nat × Nat × Nat) :=
  match region? pa with
  | some (.near k) =>
    let o := pa - k * 2 ^ 35
    some (k, false, o / 2 ^ 30 % 32, o / 2 ^ 10 % 8, o % 2 ^ 30)
  | some (.far k) =>
    let o := pa - (if k = 0 then 0x10_0000_0000 else 0x20_0000_0000)
    let n := o / 256
    some (k, true, n % 12 + 12 * k, 0, n / 12 * 256 + o % 256)
  | _ => none

/-- The array error record of R171. -/
def arrayRecord (time : Word) (far : Bool) (place layer off bit kind : Nat) : BitVec 128 :=
  BitVec.ofNat 128 (time.toNat * 2 ^ 96 + (off / 32) * 2 ^ 64 + (if far then 1 else 0) * 2 ^ 56 + place * 2 ^ 51
    + layer * 2 ^ 48 + bit * 2 ^ 40 + kind)

/-- ARRAY_ERROR_RECORD: kind 1 corrected, 2 uncorrectable. R171 gives neither ring a length: the model's logs keep every
record (DESIGN CHOICE, entry 108). -/
def logArray (s : State) (pa bit kind : Nat) : State :=
  match arrayPlace pa with
  | none => s
  | some (k, far, place, layer, off) => s.mapStack k (fun t => { t with
      arrayLog := t.arrayLog ++ [arrayRecord (t.us.setWidth 32) far place layer off (if kind = 2 then 0 else bit) kind] })

/-- Granules of a piece. -/
def Piece.granules (p : Piece) : List Nat :=
  let n := p.space.granuleSize
  if p.len = 0 then [] else (upto ((p.addr + p.len - 1) / n + 1 - p.addr / n)).map (fun i => p.addr / n + i)

/-! The bank of a tile (R316 to R318). -/

/-- The bank of a tile owned by stack k (R318): banks that the partition holds there, in ascending order. -/
def bankList (p : PartParams) : List Nat :=
  (sortBy (fun a b => decide (a < b)) p.slices).flatMap (fun j => (upto 64).map (fun i => 64 * j + i))

def SrfEntry.ordinal (e : SrfEntry) (t : Nat) : Nat := if e.home = 2 then t / 2 else t

/-- Place of a tile in its stack's list of banks (R318). -/
def SrfEntry.place (e : SrfEntry) (n t : Nat) : Nat :=
  let k := e.owner t
  (e.first.getD k 0 + e.ordinal t % e.count.getD k 1) % n

/-- In-service banks that a partition holds on a stack (R318). -/
def banksOf (s : State) (part k : Nat) : List Nat := bankList (s.partOn part k).params

/-- Stack and bank number of a tile. -/
def tileBank (s : State) (part : Nat) (e : SrfEntry) (t : Nat) : Nat × Nat :=
  let k := e.owner t
  let bs := banksOf s part k
  (k, bs.getD (e.place bs.length t) 0)

/-! Errors that count toward the retirement of a part (R518). -/

/-- An error is met in a part of a stack. -/
def State.wear (s : State) (k : Nat) (p : RetPart) (bad : Bool) : State :=
  s.mapStack k (fun t => { t with errorsIn := (p, t.us.toNat, bad) :: t.errorsIn })

/-- The part that holds a granule: the core of a scratchpad, the bank of a tile, or the row of near DRAM. -/
def partOf (s : State) (sp : Space) (gr : Nat) : Option (Nat × RetPart) :=
  match sp with
  | .mem =>
    match arrayPlace (gr * 32) with
    | some (k, false, v, layer, off) =>
      let r := Config.dramRow layer off
      some (k, .dramRow k v layer r.1 r.2)
    | _ => none
  | .scratch b => (s.block? b).map (fun k => (k.stack, .core k.stack k.core))
  | .srf p e =>
    let x := s.srf p e
    let b := tileBank s p x ((x.tilesOf (gr * 32) 1).headD 0)
    some (b.1, .bank b.1 b.2)

/-- What a read that meets upset cells of a granule records: an array error record for memory (R166, R171), and a report
of a corrected bank error (R313); scratchpad keeps no record (R164). The error counts toward the retirement of its part
(R518). -/
def noteUpset (s : State) (sp : Space) (gr bit kind : Nat) : State :=
  let s1 := match sp with
    | .mem => logArray s (gr * 32) bit kind
    | .scratch _ => s
    | .srf p e =>
      let x := s.srf p e
      if kind = 1 then s.report (x.owner ((x.tilesOf (gr * 32) 1).headD 0)) 10 else s
  match partOf s sp gr with
  | some q => s1.wear q.1 q.2 (kind == 2)
  | none => s1

/-- The host completes the next request for a granule of the bytes, which lie in its memory, with an error (R161, R503). -/
def State.hostFails (s : State) (p : Piece) : Bool :=
  p.space == .mem && region? p.addr == some .host && p.granules.any (fun g => s.upsets.any (fun u => u.1 == .mem && u.2.1 == g))

/-- A read meets the cells upset in a granule: one flipped bit is corrected, more are an uncorrectable error, which
marks the granule (R160, R164, R166, R313). Host memory is none of the device's: an upset of it stands for a request that the
host completes with an error, and leaves no mark (R161, R503). -/
def meetUpset (s : State) (sp : Space) (gr : Nat) : State :=
  let s1 : State := { s with upsets := s.upsets.filter (fun u => !(u.1 == sp && u.2.1 == gr)) }
  match s.upsets.filter (fun u => u.1 == sp && u.2.1 == gr) with
  | [] => s
  | (_, _, bit, bad) :: us =>
    if sp = .mem ∧ region? (32 * gr) = some .host then s1
    else if us.isEmpty && !bad then noteUpset s1 sp gr bit 1
    else (noteUpset s1 sp gr 0 2).setPoison (gr :: s1.poisonOf sp) sp

def meetUpsets (s : State) (ps : List Piece) : State :=
  if s.upsets.isEmpty then s
  else ps.foldl (fun s p => p.granules.foldl (fun s g => meetUpset s p.space g) s) s

/-- Granules that a piece covers whole lose an upset that no read has met (R160, R166). -/
def clearUpsets (s : State) (p : Piece) : State :=
  let n := p.space.granuleSize
  { s with upsets := s.upsets.filter (fun u =>
      !(u.1 == p.space && decide (p.addr ≤ u.2.1 * n) && decide ((u.2.1 + 1) * n ≤ p.addr + p.len))) }

/-- Bytes of a granule that a piece holds, as a mask. -/
def Piece.within (p : Piece) (gr : Nat) : Nat :=
  let n := p.space.granuleSize
  ((upto n).map (fun j => if p.addr ≤ gr * n + j ∧ gr * n + j < p.addr + p.len then 2 ^ j else 0)).sum

/-- The lanes of one store may together cover a poisoned granule whole, whose mark then goes (R160). -/
def coverGranule (s : State) (batch : Nat) (p : Piece) (gr : Nat) : State :=
  let key (c : Nat × Space × Nat × Nat) : Bool := c.1 == batch && c.2.1 == p.space && c.2.2.1 == gr
  let old := ((s.covered.find? key).map (·.2.2.2)).getD 0
  let all := old ||| p.within gr
  let rest := s.covered.filter (fun c => !key c && s.accesses.any (fun a => a.batch == c.1))
  if all = 2 ^ p.space.granuleSize - 1 then
    { s.setPoison ((s.poisonOf p.space).filter (· != gr)) p.space with covered := rest }
  else { s with covered := (batch, p.space, gr, all) :: rest }

def coverGranules (s : State) (batch : Nat) (ps : List Piece) : State :=
  ps.foldl (fun s p => (p.granules.filter (fun g => (s.poisonOf p.space).contains g)).foldl
    (fun s g => coverGranule s batch p g) s) s

/-- Bytes read for a party of a stack: none where a granule is poisoned, the host completes with an error, or the memory
cannot be reached (R158, R160, R161, R503). -/
def readBytes (s : State) (stack : Nat) (w : Who) (l : Look) (ps : List Piece) (from_ : Nat := 0) :
    State × Option (List Byte) :=
  let s1 := meetUpsets s ps
  if ps.any (fun p => s.hostFails p || s1.poisoned p || (p.space == .mem && s1.unreachablePA p.addr stack)) then (s1, none)
  else
    let r := s1.readAs w l ps from_
    (r.1, some r.2)

end Sys2Proof.Machine
end

