-- ==== Sys2Proof/Machine/Ops.lean ====
section
/-!
DEFINITION. The named operations over the state that the meanings share: registers, translation, counters, hallmarks,
returns, and taking a trap (R455 to R460) with its return (R461).
-/

namespace Sys2Proof.Machine

/-- What exec and step answer. -/
abbrev Out := Host.Outcome State Fault Refusal

/-! Registers. -/

def Reg.mk0 : Reg := ⟨0, .full⟩
def full (v : Word) : Reg := ⟨v, .full⟩
/-- A poisoned register of the device holds 0 outside a faulted return record (R348). -/
def poison0 : Reg := ⟨0, .poisoned⟩
def Reg.isFull (r : Reg) : Bool := r.st == .full
def Reg.isEmpty (r : Reg) : Bool := r.st == .empty
def Reg.isPoisoned (r : Reg) : Bool := r.st == .poisoned

def getReg (rs : List Reg) (i : Nat) : Reg := rs.getD i Reg.mk0
def getRegs (rs : List Reg) (i n : Nat) : List Reg := (upto n).map (fun j => getReg rs (i + j))
/-- Empty registers keep no value that can be read: the mark alone changes. -/
def markEmpty (rs : List Reg) (i n : Nat) : List Reg :=
  writeRun i ((getRegs rs i n).map (fun r => { r with st := .empty })) rs

/-- Physical index of a vector field in a group (R45). -/
def Group.vi (g : Group) (f : Fld) : Nat := 8 * g.wv.toNat + f.toNat
def Group.si (g : Group) (f : Fld) : Nat := 8 * g.ws.toNat + f.toNat

/-- The registers that a field names. -/
def Group.vreg (g : Group) (t : Thread) (f : Fld) : Reg := getReg t.regs (g.vi f)
def Group.sreg (g : Group) (f : Fld) : Reg := getReg g.sregs (g.si f)
def Group.vregsAt (g : Group) (t : Thread) (f : Fld) (n : Nat) : List Reg := getRegs t.regs (g.vi f) n
def Group.sregsAt (g : Group) (f : Fld) (n : Nat) : List Reg := getRegs g.sregs (g.si f) n

def Thread.setRegs (t : Thread) (i : Nat) (vs : List Reg) : Thread := { t with regs := writeRun i vs t.regs }
def Group.setSregs (g : Group) (i : Nat) (vs : List Reg) : Group := { g with sregs := writeRun i vs g.sregs }

def Thread.pred (t : Thread) (p : BitVec 3) : Bool := t.preds.getLsbD p.toNat
def Thread.setPred (t : Thread) (p : BitVec 3) (v : Bool) : Thread :=
  { t with preds := if v then t.preds ||| ((1 : BitVec 8) <<< p.toNat)
                    else t.preds &&& ~~~((1 : BitVec 8) <<< p.toNat) }

/-- The registers of a load or of a long-latency producer as values (R173). -/
def wordsOfBytes (bs : List Byte) : Nat → List Word
  | 0 => []
  | n + 1 => BitVec.ofNat 32 (leNat (bs.take 4)) :: wordsOfBytes (bs.drop 4) n

def bytesOfWords (ws : List Word) : List Byte := ws.flatMap (fun w => leBytes 4 w.toNat)

/-! Threads. -/

/-- The thread goes on at an address with no pending hints (R96); what held for the word it completed, the
unwatched access (R461) and the breakpoints already taken (R484), holds no longer. -/
def Thread.goto (t : Thread) (pc : Addr) : Thread :=
  { t with pc := pc, hints := [], run := .ready, unwatched := false, bpSkip := 0 }

/-- The thread has completed the instruction at pc. -/
def Thread.next (t : Thread) : Thread := t.goto (t.pc + 4)

/-- The address of the first hint word of what the thread has pending (R57). -/
def Thread.start (t : Thread) : Addr := t.pc - 4 * BitVec.ofNat 56 t.hints.length

/-- A thread that goes back before its hints (R57). -/
def Thread.rewind (t : Thread) : Thread := { t with pc := t.start, hints := [] }

def Thread.live (t : Thread) : Bool := t.run != .exited && t.run != .killed

def State.now (s : State) (k c : Nat) : Nat := (s.core k c).cycles.toNat
def State.usOf (s : State) (k : Nat) : Nat := (s.stack k).us.toNat

/-- The context of a block is neither stopped nor being stepped, so that its copies, calls and sequencers go on (R468,
R484). -/
def ctxFree (s : State) (k : Block) : Bool :=
  (s.ctx? k.part k.stack k.job).elim true (fun c => c.stop == .running && c.step.isNone)

/-- The thread waits inside its instruction, which has read its operands (R331, R332, R334, R373, R377). -/
def Run.inside : Run → Bool
  | .blocked (.drain _ _) | .blocked (.hmark _ _ _) | .blocked (.pin _) | .blocked (.srfFree _) | .blocked (.srfEvict _ _ _) => true
  | _ => false

/-- The word of the bundle that is being executed. -/
def Actor.word? : Actor → Option Word
  | .bundle _ _ _ _ _ w => some w
  | _ => Option.none

/-- Block lanes on a wait, at the word with their hints pending; one inside an instruction keeps its word. -/
def State.blockLanes (s : State) (b g : Nat) (ls : List Nat) (w : Nat → Wait) : State :=
  match s.block? b with
  | none => s
  | some k =>
    let c := s.now k.stack k.core
    s.mapLanes b g ls (fun l t =>
      { t with
        run := .blocked (w l)
        waitFrom := if t.run = .blocked (w l) then t.waitFrom else c
        held := if (Run.blocked (w l)).inside then s.cur.word? else t.held })

/-- Lanes go on at the word after the present one. -/
def State.advance (s : State) (b g : Nat) (ls : List Nat) : State := s.mapLanes b g ls (fun _ t => t.next)

/-- Every thread of a block, changed. -/
def Block.mapThreads (k : Block) (f : Nat → Nat → Thread → Thread) : Block :=
  { k with groups := mapFrom (fun gi g => { g with threads := mapFrom (f gi) 0 g.threads }) 0 k.groups }

def Block.allThreads (k : Block) : List Thread := k.groups.flatMap (·.threads)

/-- Lane position of a thread of a block. -/
def Block.find (k : Block) (tid : Nat) : Option (Nat × Nat) :=
  (indexesFrom (fun (g : Group) => g.threads.any (·.tid == tid)) 0 k.groups).head?.bind (fun gi =>
    ((k.groups[gi]?).elim none (fun g => (indexes (·.tid == tid) g.threads).head?)).map (fun l => (gi, l)))

/-! Translation (R140 to R146, R153). -/

/-- Translation outcomes of R145; recoverable names the 64 KiB page (entry 8). -/
inductive Tr where
  | ok (t : Trans)
  | recoverable (page : Addr)
  | missing
  | denied
  deriving DecidableEq, Repr, Inhabited

inductive Use where
  | load | store | fetch
  deriving DecidableEq, Repr, Inhabited

/-- The page whose service a recoverable outcome waits for (entry 8). -/
def pageOf (va : Addr) : Addr := va &&& ~~~(0xFFFF : Addr)

/-- Attributes of a leaf: bits [9:4] (R142, R153). -/
def Trans.privileged (t : Trans) : Bool := t.attr.getLsbD 5
def Trans.shared (t : Trans) : Bool := t.attr.getLsbD 4
def Trans.execute (t : Trans) : Bool := t.attr.getLsbD 3
def Trans.write (t : Trans) : Bool := t.attr.getLsbD 2
def Trans.ordering (t : Trans) : Nat := t.attr.toNat % 4

/-- The device physical address of a virtual address under a translation that covers it. -/
def Trans.pa (t : Trans) (va : Nat) : Nat := t.frame + va % 2 ^ t.shift
def Trans.covers (t : Trans) (part : Nat) (va : Nat) : Bool := t.part == part && t.vpage == va / 2 ^ t.shift

/-- A table entry met at a level of the walk (R141, R142, R145). -/
inductive Entry where
  | table (next : Nat)
  | leaf (frame : Nat) (attr : BitVec 6)
  | later | gone
  deriving DecidableEq, Repr, Inhabited

/-- Bits of an address that a page at a level covers; level 0 and 1 hold no leaf. -/
def levelShift : Nat → Nat
  | 2 => 30
  | 3 => 21
  | 4 => 16
  | 1 => 38
  | _ => 47

def levelBits : Nat → Nat
  | 2 => 8
  | 4 => 5
  | _ => 9

def readEntry (e : DWord) (level : Nat) : Entry :=
  let n := e.toNat
  let st := n % 4
  if st = 0 then .gone
  else if st ≠ 1 then .later
  else
    let leaf := e.getLsbD 2
    let addr := (n / 4096 % 2 ^ 44) * 4096
    let attr : BitVec 6 := BitVec.ofNat 6 (n / 16)
    let reserved := e.getLsbD 3 || n / 2 ^ 10 % 4 != 0 || n / 2 ^ 56 != 0
    if reserved then .gone
    else if leaf then
      if level < 2 || attr.toNat % 4 = 3 || (attr.getLsbD 4 && attr.getLsbD 2)
          || addr % 2 ^ levelShift level != 0 || region? addr = none then .gone
      else .leaf addr attr
    else if level = 4 || attr != 0 || region? addr = none then .gone
    else .table addr

/-- What a walk finds at its end (R141, R145, R180). -/
inductive Found where
  | page (t : Trans)
  | state (later : Option Nat)
  deriving DecidableEq, Repr, Inhabited

/-- A walk meets no entry of a level older than at the beginning of the last invalidation on its stack that covers what the
entry maps and has removed what the device held (R146, R154). -/
def tableFloor (s : State) (stack part va level : Nat) : Nat :=
  (((s.stack stack).invals.filter (fun i => i.part == part && i.removed &&
    i.va.elim true (fun v => v.toNat / 2 ^ levelShift level == va / 2 ^ levelShift level))).map (·.from_)).foldl max 0

/-- A table entry, as it stands or as it stood since the last invalidation that covers it: the device may hold entries
from earlier walks (R146). A granule of a table that is poisoned, or that lies on a stack that cannot be reached, reads
as its stored bytes (DESIGN CHOICE, entry 94). -/
def entryAt (s : State) (stack part va level a : Nat) : DWord :=
  if s.order.past.isEmpty then s.memDWord a
  else
    let n := lookAt s false (tableFloor s stack part va level) (64 + level)
    BitVec.ofNat 64 (leNat ((upto 8).map (fun j => s.order.byteAt .mem (a + j) n (s.mem.get (a + j)))))

/-- Address of the entry of a table that maps an address at a level. -/
def entryAddr (va table level : Nat) : Nat := table + 8 * (va / 2 ^ levelShift level % 2 ^ levelBits level)

/-- The walk of R141 from a level on; fuel is the number of levels left. A state of 2 or 3 is reported as it
stands. An entry in host memory that the host does not deliver ends the walk as a missing mapping (R161, R503; DESIGN CHOICE,
entry 94). -/
def walkFrom (s : State) (stack part : Nat) (va : Nat) (table level : Nat) : Nat → Found
  | 0 => .state none
  | fuel + 1 =>
    let e := entryAt s stack part va level (entryAddr va table level)
    if s.hostFails ⟨.mem, entryAddr va table level, 8⟩ then .state none
    else match readEntry e level with
    | .gone => .state none
    | .later => .state (some (e.toNat % 4))
    | .leaf f a => .page ⟨part, va / 2 ^ levelShift level, levelShift level, f, a⟩
    | .table t => walkFrom s stack part va t (level + 1) fuel

/-- What the tables of a partition say of an address, for a walk on a stack. -/
def walk (s : State) (stack part : Nat) (va : Addr) : Found :=
  if va.toNat / 2 ^ 47 = 0x1FF then .state none
  else walkFrom s stack part va.toNat (s.part part).table.toNat 0 5

/-- The entries that a walk reads. -/
def entriesFrom (s : State) (stack part : Nat) (va : Nat) (table level : Nat) : Nat → List Piece
  | 0 => []
  | fuel + 1 =>
    let a := entryAddr va table level
    ⟨.mem, a, 8⟩ :: (match readEntry (entryAt s stack part va level a) level with
      | .table t => entriesFrom s stack part va t (level + 1) fuel
      | _ => [])

/-- A walk meets the upset cells of the entries that it reads (R166). -/
def meetWalk (s : State) (stack part : Nat) (va : Addr) : State :=
  if s.upsets.isEmpty ∨ va.toNat / 2 ^ 47 = 0x1FF then s
  else meetUpsets s (entriesFrom s stack part va.toNat (s.part part).table.toNat 0 5)

/-- The permissions of R145. -/
def permit (t : Trans) (use : Use) (priv : Bool) : Bool :=
  (!t.privileged || priv) && (match use with
    | .load => true
    | .store => t.write
    | .fetch => t.execute)

/-- The outcome of an access that uses a translation found. -/
def outcome (f : Found) (va : Addr) (use : Use) (priv : Bool) : Tr :=
  match f with
  | .page t => if permit t use priv then .ok t else .denied
  | .state (some _) => .recoverable (pageOf va)
  | .state none => .missing

/-- A translation through the core TLB: a translation held there that differs from the tables may be used or not,
as a free bit says (R146; entry 6). -/
def coreLookup (s : State) (stack core part : Nat) (va : Addr) : Found :=
  let w := walk s stack part va
  match (s.core stack core).tlb.find? (fun t => t.covers part va.toNat) with
  | none => w
  | some t => if w = .page t then w else if Config.freeBit s.moves then .page t else w

/-- The physical lane of a thread: cluster and lane (R153). -/
def laneIndex (cluster lane : Nat) : Nat := 32 * cluster + lane

/-- A lane's page register matches (R153). -/
def laneHits (s : State) (stack core cluster lane part : Nat) (va : Addr) : Bool :=
  ((s.core stack core).lprs.getD (laneIndex cluster lane) none).elim false (fun t => t.covers part va.toNat)

/-- A lane uses its lane page register where it matches (R153), or else the core's translations. -/
def laneLookup (s : State) (stack core cluster lane part : Nat) (va : Addr) : Found :=
  match (s.core stack core).lprs.getD (laneIndex cluster lane) none with
  | some t => if t.covers part va.toNat then .page t else coreLookup s stack core part va
  | none => coreLookup s stack core part va

/-- The core looks an address up in the tables: its translations hold no entry for it. -/
def missesTlb (s : State) (stack core part : Nat) (va : Addr) : State :=
  if (s.core stack core).tlb.any (fun t => t.covers part va.toNat) then s else meetWalk s stack part va

/-- The core holds a translation from now on (R146); a full table's own limits are not visible. -/
def holdTrans (s : State) (stack core : Nat) (t : Trans) : State :=
  if (s.core stack core).tlb.contains t then s
  else s.mapCore stack core (fun c => { c with
    tlb := t :: c.tlb.filter (fun u => !(u.part == t.part && u.vpage == t.vpage && u.shift == t.shift)) })

def holdLane (s : State) (stack core cluster lane : Nat) (t : Trans) : State :=
  (holdTrans s stack core t).mapCore stack core (fun c =>
    { c with lprs := modifyAt (fun _ => some t) (laneIndex cluster lane) c.lprs })

/-! Monitors (R240, R241), and every write to memory. -/

/-- Where a monitor watches at a check: translated again where its translation has been removed (R241). -/
def monitorPlace (s : State) (k : Block) (m : Monitor) : Tr :=
  if m.stale then outcome (walk s k.stack k.part m.va) m.va .load k.priv
  else .ok ⟨k.part, m.va.toNat / 2 ^ m.shift, m.shift, m.pa - m.va.toNat % 2 ^ m.shift, 0⟩

/-- MONITOR_CHECK of a thread that waits (R240, R241): it wakes where its word differs or cannot be read. A check whose
page is not present waits for its service. -/
def checkMonitor (s : State) (b g l : Nat) : State :=
  let wake (s : State) : State := s.mapLanes b g [l] (fun _ t => { t.next with monitor := none })
  match s.block? b, s.thread? b g l with
  | some k, some t =>
    match t.run, t.monitor with
    | .blocked .monitor, some m =>
      match monitorPlace s k m with
      | .ok tr =>
        let p : Piece := ⟨.mem, tr.pa m.va.toNat, 4⟩
        let s1 := meetUpsets s [p]
        if s1.poisoned p || s1.unreachablePA p.addr k.stack || s1.memWord p.addr != m.value then wake s1
        else s1.mapLanes b g [l] (fun _ t =>
          { t with monitor := some { m with pa := p.addr, shift := tr.shift, stale := false } })
      | .recoverable p => s.mapBlock b (fun k => { k with missing := nub (k.missing ++ [p]) })
      | _ => wake s
    | _, _ => s
  | _, _ => s

/-- A write of these pieces calls for a check of a thread's monitor (R240): a word in host memory is checked only at
mon.wait, on restore and every 10 µs. Where the monitor's translation is removed, a write to the word to which its address
now maps calls for one as well (R241). -/
def monitorTouched (s : State) (k : Block) (pieces : List Piece) (t : Thread) : Bool :=
  match t.run, t.monitor with
  | .blocked .monitor, some m =>
    let hit (a : Nat) : Bool := pieces.any (fun p => p.meets ⟨.mem, a, 4⟩) && region? a != some .host
    hit m.pa || (match monitorPlace s k m with
      | .ok tr => hit (tr.pa m.va.toNat)
      | _ => false)
  | _, _ => false

/-- The thread waits with a monitor whose translation is removed (R241). -/
def Thread.watchesStale (t : Thread) : Bool := t.run == .blocked .monitor && t.monitor.elim false (·.stale)

/-- Every waiting monitor whose word the pieces touch is checked (R240, R467). -/
def monitorCheck (s : State) (pieces : List Piece) : State :=
  (indexes (fun (k : Block) => (k.phase == .resident || k.phase == .evicted) &&
    k.groups.any (fun g => g.threads.any (monitorTouched s k pieces))) s.blocks).foldl (fun s b =>
      (((s.block? b).elim [] (fun k => ((upto k.groups.length).zip k.groups).flatMap (fun p =>
        (indexes (monitorTouched s k pieces) p.2.threads).map (fun l => (p.1, l)))))).foldl
          (fun s p => checkMonitor s b p.1 p.2) s) s

/-- A write of bytes over pieces, on any path (R152, R160, R215, R240). -/
def writeBytes (s : State) (w : Who) (ps : List Piece) (vs : List Byte) (chain : List Release := []) : State :=
  monitorCheck ((ps.foldl clearUpsets s).writeAs w chain ps vs) ps

/-! Counters (R424 to R426, R445, R448). -/

def ctrLevel (id : Word) : Nat := bits id 31 30
def ctrStack (id : Word) : Nat := bits id 29 29
def ctrGen (id : Word) : Nat := bits id 25 10
def ctrIndex (id : Word) : Nat := bits id 9 0

/-- The counter a valid identifier names (R424). -/
def State.counter? (s : State) (part : Nat) (id : Word) : Option Counter :=
  let ps := s.partOn part (ctrStack id)
  let c := ps.counters.getD (ctrIndex id) Counter.reset
  if id ≠ 0 ∧ bits id 28 26 = 0 ∧ (s.part part).live ∧ ps.params.columns ≠ [] ∧ c.used ∧
      c.gen.toNat = ctrGen id ∧ c.level.toNat = ctrLevel id
  then some c else none

def State.mapCounter (s : State) (part : Nat) (id : Word) (f : Counter → Counter) : State :=
  s.mapPartOn part (ctrStack id) (fun ps => { ps with counters := modifyAt f (ctrIndex id) ps.counters })

/-- A counter's completion is handed on to its parent with every release that contributed to it (R428). -/
def carryUp (s : State) (part : Nat) (id parent : Word) : State :=
  s.mapOrder (fun o => o.putChan (.counter part parent) (o.chan (.counter part id)))

/-- One post to a counter, and its completion's post to its parent (R425, R445). An operation that crosses
the link waits while the link carries nothing (R424). -/
def postFrom (s : State) (part : Nat) (src : Nat) (id : Word) : Nat → State
  | 0 => s
  | fuel + 1 =>
    if ctrStack id ≠ src ∧ s.linkHeld then { s with late := s.late ++ [.post part id] }
    else
      match s.counter? part id with
      | none => s
      | some c =>
        match c.state with
        | .cancelled => s
        | .complete => s.mapCounter part id (fun c => { c with misuse := true })
        | .open =>
          if c.posted + 1 = c.total then
            let s1 := s.mapCounter part id (fun c => { c with posted := c.posted + 1, state := .complete })
            match c.parent with
            | none => s1
            | some p => postFrom (carryUp s1 part id p) part (ctrStack id) p fuel
          else s.mapCounter part id (fun c => { c with posted := c.posted + 1 })

/-- Launch, graph, phase and job counters: at most four posts in a chain (R424). -/
def post (s : State) (part src : Nat) (id : Word) : State := postFrom s part src id 4

/-- Counter identifiers of a launch record, from the launch counter up (R421 words 9 to 12). -/
def recCounters (ws : List Word) : List Word := (ws.drop 9).take 4
def recPart (ws : List Word) : Nat := bits (ws.getD 8 0) 20 16

/-! Hallmarks (R356, R357, R361, R363). -/

def markEntry (h : Word) : Nat := bits h 31 20
def markSeq (h : Word) : Nat := bits h 19 0

/-- The hallmark of a call record, where its header has H set (R343). -/
def recMark (ws : List Word) : Option Word :=
  match ws with
  | hd :: h :: _ => if hd.getLsbD 9 then some h else none
  | _ => none

def State.mark? (s : State) (part : Nat) (h : Word) : Option Mark :=
  let e := s.srf part (markEntry h)
  if e.kind = 1 then e.marks.find? (fun m => m.seq == markSeq h) else none

def State.mapMark (s : State) (part : Nat) (h : Word) (f : Mark → Mark) : State :=
  s.mapSrf part (markEntry h) (fun e => { e with
    marks := e.marks.map (fun m => if m.seq == markSeq h then f m else m) })

/-- Some accepted call that carries the hallmark is neither performed nor discarded (R357). -/
def State.carried (s : State) (part : Nat) (h : Word) : Bool :=
  s.calls.any (fun c => c.part == part && c.at_ != .performed && c.at_ != .mesh && recMark c.words == some h)

/-- Hallmarks that are closed or voided, with no accepted call left, retire; the floor passes over the retired
(R357, R359, R363). -/
def settle (s : State) (part entry : Nat) : State :=
  s.mapSrf part entry (fun e =>
    let ms := e.marks.map (fun m =>
      let h : Word := BitVec.ofNat 32 (entry * 2 ^ 20 + m.seq)
      if (m.state == .closed || m.state == .voided) && !s.carried part h
      then { m with state := .retired, intents := [] } else m)
    let left := ms.dropWhile (fun m => m.state == .retired)
    let fl := match left with
      | [] => e.next
      | m :: _ => m.seq
    { e with marks := left, floor := fl, wclock := if fl = e.floor then e.wclock else 0 })

/-! Returns (R345, R347, R350 to R353). -/

/-- The status word of R345. -/
def statusWord (code tag detail type len : Nat) (last : Bool) : Word :=
  putBits (if 16 ≤ code then 1 else 0) 31 31 ||| putBits (if last then 1 else 0) 30 30 ||| putBits code 29 24
    ||| putBits tag 23 16 ||| putBits detail 15 8 ||| putBits type 7 5 ||| putBits (len - 1) 4 0

/-- What a claim of k words receives from a record (R347, R352). -/
def claimRegs (k : Nat) (rec : List Word) : List Reg :=
  match rec with
  | [] => []
  | st :: rest =>
    let faulted := st.getLsbD 31
    (upto k).map (fun j =>
      if j = 0 then full st
      else if faulted then ⟨st, .poisoned⟩
      else full (rest.getD (j - 1) 0))

/-- Fill a claim's registers. -/
def fillClaim (s : State) (b g : Nat) (c : Claim) (rec : List Word) : State :=
  s.mapLanes b g [c.lane] (fun _ t => t.setRegs c.dst (claimRegs c.k rec))

/-- The unfilled claims of a lane that a record fills: the peeks before its first pop, and that pop (R351). -/
def claimsFor (lane : Nat) : List Claim → List Claim × List Claim × Bool
  | [] => ([], [], false)
  | c :: cs =>
    if c.lane = lane then
      if c.peek then
        let r := claimsFor lane cs
        (c :: r.1, r.2.1, r.2.2)
      else ([c], cs, true)
    else
      let r := claimsFor lane cs
      (r.1, c :: r.2.1, r.2.2)

/-- Deliver a record to one lane of a queue; the lane has taken it where a pop was waiting (R350 to R352). -/
def deliverLane (s : State) (b g q lane : Nat) (rec : List Word) : State × Bool :=
  match (s.group? b g).bind (fun k => k.queues[q]?) with
  | none => (s, true)
  | some qu =>
    let r := claimsFor lane qu.claims
    let s1 := s.mapGroup b g (fun k => { k with queues := modifyAt (fun u => { u with claims := r.2.1 }) q k.queues })
    (r.1.foldl (fun s c => fillClaim s b g c rec) s1, r.2.2)

/-- The thread at a lane has popped a record of a call whose accesses have seen these writes (R225). -/
def tookCall (s : State) (b : Nat) (k : Group) (lane : Nat) (seen : List Nat) : State :=
  (k.threads[lane]?).elim s (fun t => s.mapOrder (fun o => o.putChan (.took b t.tid .call) seen))

/-- Deliver a return record to its lanes; those that have not taken it keep it in the return buffer (R350). A queue
that drains discards it (R373). -/
def deliver (s : State) (b g q : Nat) (lane : Option Nat) (rec : List Word) (seen : List Nat := []) : State :=
  match s.group? b g with
  | none => s
  | some k =>
    if (k.queues[q]?).elim true (·.draining) then s
    else
      let lanes := match lane with
        | some l => [l]
        | none => upto 32
      let alive := lanes.filter (fun l => (k.threads[l]?).elim false Thread.live)
      let r := alive.foldl (fun (acc : State × List Nat) l =>
        let d := deliverLane acc.1 b g q l rec
        (if d.2 then tookCall d.1 b k l seen else d.1, if d.2 then acc.2 else acc.2 ++ [l])) (s, [])
      if r.2.isEmpty then r.1
      else r.1.mapGroup b g (fun k => { k with
        queues := modifyAt (fun u => { u with returns := u.returns ++ [⟨rec, r.2, seen⟩] }) q k.queues })

/-- The type, opcode, tag, length and H of a record's header (R343). -/
def hdrType (w : Word) : Nat := bits w 31 29
def hdrOp (w : Word) : Nat := bits w 28 23
def hdrLen (w : Word) : Nat := bits w 22 18 + 1
def hdrTag (w : Word) : Nat := bits w 17 10
def hdrH (w : Word) : Bool := w.getLsbD 9

/-- Words of the last triangle record of a tessellation (R411): up to 15 triangles, 2 words each. -/
def lastTriLen (n : Nat) : Nat := 1 + 2 * ((n - 1) % 15 + 1)

/-- Words of an opcode's final return record (R387, R393, R398, R400, R401, R407, R411, R413 to R415); one word
where the opcode is reserved. -/
def finalLen (type : Nat) (ws : List Word) : Nat :=
  let hd := ws.getD 0 0
  let p0 := ws.getD (if hdrH hd then 2 else 1) 0
  match type, hdrOp hd with
  | 0, 0 => 3
  | 0, 1 => 5
  | 1, 0 => 2
  | 1, 1 | 1, 2 => 1
  | 2, 0 => 17
  | 3, 0 => lastTriLen ((bits p0 5 0 + 1) * (bits p0 5 0 + 1))
  | 3, 1 => lastTriLen (2 * (bits p0 5 0 + 1) * (bits p0 13 8 + 1))
  | 4, 0 => 2
  | 4, 1 | 4, 2 => 3
  | _, _ => 1

/-- The single or final record that answers a call with a code (R345, R379). -/
def answerWords (type : Nat) (ws : List Word) (code detail : Nat) : List Word :=
  let n := finalLen type ws
  statusWord code (hdrTag (ws.getD 0 0)) detail type n true :: List.replicate (n - 1) 0

/-- What happens before whatever follows the accesses of a call. -/
def State.callSeen (s : State) (id : Nat) : List Nat := s.order.covers (.unit id) s.moves

/-- End a call in flight with a code, and deliver the record; where no room is reserved for it, it is still to be sent
(R350). -/
def endCall (s : State) (c : Call) (code detail : Nat) : State :=
  let rec_ := answerWords c.unitType c.words code detail
  if c.reserved then
    let s1 := { s with calls := s.calls.filter (fun d => d.id != c.id) }
    deliver s1 c.blk c.grp c.q c.lane rec_ (s.callSeen c.id)
  else { s with calls := s.calls.map (fun d => if d.id == c.id then { d with at_ := .performed, out := [rec_] } else d) }

/-- Void a hallmark (R361): its intents go, and its calls not yet performed end with code 0x01. -/
def voidMark (s : State) (part : Nat) (h : Word) : State :=
  match s.mark? part h with
  | none => s
  | some m =>
    if m.state == .closed || m.state == .voided || m.state == .retired then s
    else
      let s1 := s.mapMark part h (fun m => { m with state := .voided, intents := [], draw := m.draw && m.state != .drawn })
      let cs := s1.calls.filter (fun c => c.part == part && c.at_ != .performed && recMark c.words == some h)
      settle (cs.foldl (fun s c => endCall s c 1 0) s1) part (markEntry h)

/-- Void every hallmark of a partition's surface entry that satisfies p. -/
def voidMarks (s : State) (part entry : Nat) (p : Mark → Bool) : State :=
  ((s.srf part entry).marks.filter p).foldl
    (fun s m => voidMark s part (BitVec.ofNat 32 (entry * 2 ^ 20 + m.seq))) s

/-- Void every hallmark of a partition that satisfies p. -/
def voidAll (s : State) (part : Nat) (p : Mark → Bool) : State :=
  (indexes (fun (e : SrfEntry) => e.marks.any p) (s.part part).srfs).foldl (fun s e => voidMarks s part e p) s

/-! The end of a block, and cancellation (R427, R448). -/

/-- Blocks of the same chain (R292): the launch, the stack and the chain agree, and they have joined it together, or wait to. -/
def chainMates (s : State) (b : Nat) : List Nat :=
  match s.block? b with
  | none => []
  | some k => (indexes (fun (o : Block) => o.launch.isSome && o.launch == k.launch && o.stack == k.stack && o.core / 4 == k.core / 4 &&
      o.phase == .resident && o.seq.chain == k.seq.chain && o.seq.chain.isSome && o.seq.joint == k.seq.joint) s.blocks).filter (· != b)

/-- A member leaves its chain abnormally, which breaks it for the others (R294). -/
def breakChain (s : State) (b : Nat) : State :=
  match (s.block? b).bind (·.seq.chain) with
  | none => s
  | some _ =>
    (chainMates s b).foldl (fun s o => s.mapBlock o (fun k => { k with seq := { k.seq with broken := true } }))
      (s.mapBlock b (fun k => { k with seq := { k.seq with chain := none, joint := 0, broken := false, west := [] } }))

/-- The array of the block's core goes free where the block's sequencer holds it, and no request of its own stands
in a queue of the core (R283, R299, R427). -/
def dropCoreClaims (s : State) (b : Nat) : State :=
  match s.block? b with
  | none => s
  | some k => s.mapCore k.stack k.core (fun c => { c with
      array := if c.array = some b then none else c.array
      seqQueue := c.seqQueue.filter (· != b)
      accQueue := c.accQueue.filter (fun q => q.2.1 != b) })

/-- A sequencer with nothing in it (R283). -/
def Sequencer.clear (st : SeqState) (pc : Addr) : Sequencer :=
  ⟨st, pc, List.replicate 8 none, List.replicate 4 (false, 0), none, none, [], [], none, 0, 0, false, [], .none, 0, 0, 0⟩

/-- The block's room on its core is free: slots, registers, scratchpad, banks, array and queues (R427). -/
def releaseBlock (s : State) (b : Nat) (ph : Phase) : State :=
  (dropCoreClaims s b).mapBlock b (fun k => { k with
    phase := ph
    accs := List.replicate 16 none
    window := none
    convs := []
    missing := [] })

/-- The hallmark of a draw that is discarded: an accepted draw ends its registration, and one that waited leaves it drawn
(R358). -/
def dropDraw (s : State) (c : Call) : State :=
  match recMark c.words with
  | some h => if c.unitType = 0 then s.mapMark c.part h (fun m =>
      if m.state == .registering then { m with state := .registered }
      else if c.at_ == .window then { m with draw := false } else m) else s
  | none => s

/-- A block's queues lose what they hold (R365, R448). -/
def Block.dropQueues (k : Block) : Block :=
  { k with groups := k.groups.map (fun g => { g with queues := g.queues.map (fun q =>
      { q with calls := [], returns := [], claims := [] }) }) }

/-- The launch of a block; a trap group has none. -/
def State.launchOf (s : State) (k : Block) : Option Launch := k.launch.bind (fun n => s.launches[n]?)

/-- A block of a launch that names the counter is deferred. -/
def deferredNames (s : State) (part : Nat) (id : Word) : Bool :=
  s.blocks.any (fun k => k.phase == .deferred && (s.launchOf k).elim false (fun l =>
    recPart l.words == part && (recCounters l.words).contains id))

/-- An open counter has the deferred flag while a block that names it is deferred (R435). -/
def flagDeferred (s : State) (part : Nat) (id : Word) : State :=
  let any := deferredNames s part id
  match s.counter? part id with
  | some c => if c.state = .open ∨ !any then s.mapCounter part id (fun c => { c with deferred := any }) else s
  | none => s

/-- The flags of the counters of a block's launch are set or cleared; a flag on the other stack waits while the link carries
nothing (R424, R435). -/
def markDeferred (s : State) (k : Block) : State :=
  match s.launchOf k with
  | none => s
  | some l => ((recCounters l.words).filter (· != 0)).foldl (fun s id =>
      if s.linkHeld ∧ ctrStack id ≠ k.stack then { s with late := s.late ++ [.defer (recPart l.words) id] }
      else flagDeferred s (recPart l.words) id) s

/-- A block that ends without completing: accesses already issued are still performed, copies report nothing,
calls not performed are discarded, and hallmarks it drew are voided (R448). -/
def endBlock (s : State) (b : Nat) : State :=
  match s.block? b with
  | none => s
  | some k =>
    if k.phase == .complete || k.phase == .cancelled then s
    else
      let s1 := if k.phase == .resident then breakChain s b else s
      let gone := s1.calls.filter (fun c => c.blk == b)
      let s2 := { s1 with
        copies := s1.copies.filter (fun c => c.blk != b)
        calls := s1.calls.filter (fun c => c.blk != b) }
      let s3 := (nub (gone.filterMap (fun c => (recMark c.words).map markEntry))).foldl
        (fun s e => settle s k.part e) (gone.foldl dropDraw ((releaseBlock s2 b .cancelled).mapBlock b Block.dropQueues))
      voidAll (if k.phase == .deferred then markDeferred s3 k else s3) k.part
        (fun m => m.blk == b && (m.state == .drawn || m.state == .registering || m.state == .registered))

/-- The counter lies on the other stack, and the link carries nothing (R424). -/
def counterFar (s : State) (stack : Nat) (id : Word) : Bool := s.linkHeld && id != 0 && ctrStack id != stack

/-- A counter's state becomes cancelled, where it is open. -/
def markCancelled (s : State) (part : Nat) (id : Word) : State :=
  s.mapCounter part id (fun c => { c with state := if c.state == .open then .cancelled else c.state })

/-- A cancelled counter counts for its parent as a completion (R425). -/
def cancelPost (s : State) (part : Nat) (id : Word) : State :=
  match (s.counter? part id).bind (·.parent) with
  | none => s
  | some p => post s part (ctrStack id) p

/-- Open counters become cancelled together, and then each counts for its parent, which ignores it where it is one of them
(R425, R448). -/
def cancelCounters (s : State) (part : Nat) (ids : List Word) : State :=
  let open_ := ids.filter (fun id => (s.counter? part id).elim false (fun c => c.state == .open))
  open_.foldl (fun s id => cancelPost s part id) (open_.foldl (fun s id => markCancelled s part id) s)

/-- One accepted launch whose record names a cancelled counter (R448): the open counters below it are cancelled, those on
the other stack when the link carries again (R424), and its blocks end. -/
def cancelLaunch (s : State) (n : Nat) (id : Word) : State :=
  match s.launches[n]? with
  | none => s
  | some l =>
    let part := recPart l.words
    let below := ((recCounters l.words).takeWhile (· != id)).filter (· != 0)
    let far := below.filter (counterFar s (ctrStack id))
    let s1 : State := { s with
      launches := modifyAt (fun l => { l with cancelled := l.cancelled || !l.posted }) n s.launches
      late := s.late ++ far.map (.lower part) }
    let s2 := cancelCounters s1 part (below.filter (fun c => !far.contains c))
    (indexes (fun (k : Block) => k.launch == some n) s2.blocks).foldl endBlock s2

/-- cancel of R448 on a valid counter that is neither complete nor cancelled. -/
def cancelOpen (s : State) (part : Nat) (id : Word) : State :=
  let s1 := cancelCounters s part [id]
  (indexes (fun (l : Launch) => recPart l.words == part && (recCounters l.words).contains id) s1.launches).foldl
    (fun s n => cancelLaunch s n id) s1

/-- The effect of cancel: an open counter is cancelled with its launches, and one that is complete or cancelled is
released (R448). -/
def cancelOrRelease (s : State) (part : Nat) (id : Word) : State :=
  match s.counter? part id with
  | none => s
  | some c => if c.state = .open then cancelOpen s part id else s.mapCounter part id (fun c => { c with used := false })

/-- cancel from a stack: over a link that carries nothing it takes effect when the link carries again (R424). -/
def cancelFrom (s : State) (part stack : Nat) (id : Word) : State :=
  if counterFar s stack id then { s with late := s.late ++ [.cancel part id] } else cancelOrRelease s part id

/-! Park records and traps (R455 to R460). -/

/-- A trap that one lane takes, with the kind's code and what its record says (R458). -/
structure Trap where
  lane : Nat
  kind : Nat
  detail : Word
  addr : Addr
  deriving DecidableEq, Repr, Inhabited

/-- Kind codes of R458. -/
def kIllegal : Nat := 1
def kRegisterBound : Nat := 2
def kEmptyRead : Nat := 3
def kPoison : Nat := 4
def kAlignment : Nat := 5
def kProtection : Nat := 6
def kWatchpoint : Nat := 7
def kBarrierTimeout : Nat := 8
def kHallmarkTimeout : Nat := 9
def kSparsity : Nat := 10
def kUnitFault : Nat := 11
def kLinkFault : Nat := 12
def kSoftware : Nat := 13

/-- The trap of a consumed poisoned register (R348): kind and detail. -/
def poisonKind (v : Word) : Nat × Word :=
  if bits v 29 24 = 0x30 then (kLinkFault, v)
  else if v ≠ 0 then (kUnitFault, v)
  else (kPoison, 0)

/-- Who a record is about: the fields that word 0 and words 8 and 9 of R457 take from the block and group. -/
structure Where where
  stack : Nat
  core : Nat
  cluster : Nat
  slot : Nat
  group : Nat
  trap : Bool
  lin : Nat
  job : Word
  time : Word
  deriving DecidableEq, Repr, Inhabited

/-- The park record of R457. -/
def parkWords (w : Where) (kind : Nat) (seq : Bool) (hints : Nat) (lanes : Word) (pc : Addr) (target detail : Word)
    (addr oldest : Addr) (rows : Nat) : List Word :=
  [ putBits kind 31 28 ||| putBits (if seq then 1 else 0) 27 27 ||| putBits w.stack 26 26 ||| putBits w.core 25 19
      ||| putBits w.cluster 18 17 ||| putBits w.slot 16 13 ||| putBits w.group 12 8
      ||| putBits (if w.trap then 1 else 0) 7 7 ||| putBits hints 2 0,
    lanes, pc.setWidth 32, (pc >>> 32).setWidth 32, target, detail, addr.setWidth 32, (addr >>> 32).setWidth 32,
    (if w.trap then 0 else BitVec.ofNat 32 w.lin), w.job, oldest.setWidth 32, (oldest >>> 32).setWidth 32,
    BitVec.ofNat 32 rows, w.time, 0, 0 ]

def State.whereOf (s : State) (k : Block) (g : Group) : Where :=
  ⟨k.stack, k.core, g.cluster, g.slot, g.num, k.trapGroup, k.lin, k.job, (s.stack k.stack).us.setWidth 32⟩

/-- Append records to the context's queue of 256, or hold them in order (R456). -/
def queueRecords (c : Ctx) (rs : List ParkRecord) : Ctx :=
  let all := c.park ++ c.held ++ rs
  { c with park := all.take 256, held := all.drop 256 }

/-- A line of 64 bytes of the diagnostic area; it is dropped where it does not translate with write permission
(R475). -/
def diagLine (s : State) (stack part : Nat) (va : Addr) (ws : List Word) : State :=
  match outcome (walk s stack part va) va .store true with
  | .ok t => writeBytes s (Who.of .device s.moves) [⟨.mem, t.pa va.toNat, 64⟩] (bytesOfWords ws)
  | _ => s

def diagOk (s : State) (stack part : Nat) (va : Addr) : Bool :=
  match outcome (walk s stack part va) va .store true with
  | .ok _ => true
  | _ => false

/-- The diagnostic capture of R475: header and records, or nothing where a line of it does not translate. -/
def capture (s : State) (part stack : Nat) (job : Word) (kind : Nat) (recs : List (List Word)) : State :=
  let ps := s.partOn part stack
  let room := ps.diagLen.toNat - 1
  let kept := recs.take room
  let lines := (upto (kept.length + 1)).map (fun i => ps.diag + BitVec.ofNat 56 (64 * i))
  if ps.diagLen = 0 || !lines.all (diagOk s stack part) then s
  else
    let header : List Word :=
      [BitVec.ofNat 32 kind, job, BitVec.ofNat 32 stack, BitVec.ofNat 32 kept.length,
       BitVec.ofNat 32 (recs.length - kept.length), (s.stack stack).us.setWidth 32] ++ List.replicate 10 0
    (lines.zip (header :: kept)).foldl (fun s p => diagLine s stack part p.1 p.2) s

/-- Termination of a context (R475): capture, cancellation of its job counter, its trap group ended, its hallmarks
voided, and the message of R505. -/
def terminate (s : State) (part stack : Nat) (job : Word) (kind : Nat) (trigger : List (List Word)) : State :=
  match s.ctx? part stack job with
  | none => s
  | some c =>
    if c.terminated then s
    else
      let s1 := (capture s c.part stack job kind (trigger ++ (c.park ++ c.held).map (·.words))).giveChan .device (.counter part job)
      let s2 := s1.mapCtx part stack job (fun c => { c with park := [], held := [], terminated := true })
      let s3 := cancelFrom s2 c.part stack job
      let s4 := (indexes (fun (k : Block) => k.job == job && k.stack == stack && k.part == part) s3.blocks).foldl endBlock s3
      let s5 := voidAll s4 c.part (fun m => m.holder == (job, stack))
      let s6 := s5.mapPart c.part (fun p => { p with funcStatus := job })
      { s6 with msix := s6.msix ++ [(c.part + 1, 0, job)], reports := s6.reports ++ [(stack, 1)] }

/-- The traps of one issue, by ascending kind (R456). -/
def byKind (ts : List Trap) : List (Nat × List Trap) :=
  ((upto 14).map (fun k => (k, ts.filter (·.kind == k)))).filter (fun p => !p.2.isEmpty)

/-- TAKING A TRAP (R455 to R460): the lanes park at the first hint word with their registers kept, and the issue
yields one record for each kind; the records enter the context's queue, or terminate the context where no handler
can serve them. -/
def raise (s : State) (b g : Nat) (pc : Addr) (hints : Nat) (word : Word) (ts : List Trap) : State :=
  if ts.isEmpty then s
  else
    match s.block? b, s.group? b g with
    | some k, some gr =>
      let first : Addr := pc - 4 * BitVec.ofNat 56 hints
      let s1 := s.mapLanes b g (ts.map (·.lane)) (fun _ t => { t with pc := first, hints := [], run := .parked, bpSkip := 0 })
      let recs := (byKind ts).map (fun p =>
        let lanes := sortBy (fun a b => decide (a < b)) (p.2.map (·.lane))
        let low := (p.2.find? (fun t => t.lane == lanes.headD 0)).getD ⟨0, 0, 0, 0⟩
        (⟨b, g, lanes, false, p.1, first, hints,
          parkWords (s.whereOf k gr) p.1 false hints (maskOf lanes) first word low.detail low.addr 0 0⟩ : ParkRecord))
      match s.ctx? k.part k.stack k.job with
      | none => s1
      | some c =>
        if c.tentry = 0 || k.trapGroup then
          terminate s1 k.part k.stack k.job (recs.headD ⟨0, 0, [], false, 0, 0, 0, []⟩).kind (recs.map (·.words))
        else s1.mapCtx k.part k.stack k.job (fun c => queueRecords c recs)
    | _, _ => s

/-- The sequencer's claim on the array of its core ends (R283). -/
def dropArray (s : State) (b : Nat) : State :=
  match s.block? b with
  | none => s
  | some k => s.mapCore k.stack k.core (fun c => { c with
      array := if c.array = some b then none else c.array
      seqQueue := c.seqQueue.filter (· != b) })

/-- A sequencer leaves the running state: both planes are empty, no row enters any more, rows in the array still
complete, and the array is released (R283, R295, R301). -/
def leaveRunning (s : State) (b : Nat) (st : SeqState) : State :=
  dropArray (s.mapBlock b (fun k => { k with seq := { k.seq with
    state := st, streams := [], wait := .none, live := none, shadow := none } })) b

/-- The address of the oldest stream word that is not complete, or the address given. -/
def Sequencer.oldest (q : Sequencer) (pc : Addr) : Addr :=
  ((q.rows.map (·.pc)) ++ (q.streams.map (·.pc))).headD pc

/-- A SEQUENCER FAULT (R295, R456): one record; where no handler can serve it the context is terminated, and the record is
captured after those of the block's waiting threads (R460). -/
def seqFault (s : State) (b : Nat) (kind : Nat) (pc : Addr) (word detail : Word) (rows : Nat)
    (waiting : List (List Word) := []) : State :=
  match s.block? b with
  | none => s
  | some k =>
    let w : Where := ⟨k.stack, k.core, 0, 0, 0, k.trapGroup, k.lin, k.job, (s.stack k.stack).us.setWidth 32⟩
    let addr : Addr := if kind = kProtection ∧ detail = 5 then pc else 0
    let r : ParkRecord := ⟨b, 0, [], true, kind, pc, 0,
      parkWords w kind true 0 0 pc word detail addr (k.seq.oldest pc) rows⟩
    let s2 := leaveRunning (breakChain s b) b .faulted
    match s2.ctx? k.part k.stack k.job with
    | none => s2
    | some c =>
      if k.trapGroup || c.tentry = 0 then terminate s2 k.part k.stack k.job kind (waiting ++ [r.words])
      else s2.mapCtx k.part k.stack k.job (fun c => queueRecords c [r])

/-! Exit, and barriers (R100, R232 to R237). -/

/-- Who arrives or waits, for an arrival record (R246). -/
def subjectOf (s : State) (k : Block) (g : Group) (lane : Nat) (t : Thread) : Subject :=
  ⟨false, k.stack, k.core, g.cluster, g.slot, g.num, lane, t.start, min (s.now k.stack k.core - t.waitFrom) (2 ^ 32 - 1)⟩

/-- Host debug of a partition is permitted on a stack (R482, R520). -/
def debugPermitted (s : State) (stack part : Nat) : Bool :=
  let k := s.stack stack
  k.sec == 1 && !k.heldReset && (k.dbg == 2 || (k.dbg == 1 && (s.part part).dbgEnable))

/-- One record to the trace ring of a stack; where the ring is full it is dropped and counted, and when room frees
a lost record comes first, about the same lane as the record that follows it (R485). -/
def traceRecord (s : State) (stack : Nat) (ws : List Word) : State :=
  s.mapStack stack (fun t =>
    if t.trace.length < t.traceSize then
      if t.traceDropped = 0 then { t with trace := t.trace ++ [ws] }
      else
        let lost : List Word := [putBits 6 31 28 ||| (ws.getD 0 0 &&& 0x0FFF_FFFF), ws.getD 1 0, ws.getD 2 0, t.us.setWidth 32,
          ws.getD 4 0, BitVec.ofNat 32 t.traceDropped, 0, 0]
        if t.trace.length + 1 < t.traceSize then { t with trace := t.trace ++ [lost, ws], traceDropped := 0 }
        else { t with trace := t.trace ++ [lost], traceDropped := 1 }
    else { t with traceDropped := t.traceDropped + 1 })

/-- A trace record about a subject (R485). -/
def subjectTrace (kind : Nat) (x : Subject) (time job w5 w6 w7 : Word) : List Word :=
  [ putBits kind 31 28 ||| putBits (if x.seq then 1 else 0) 27 27 ||| putBits x.stack 26 26 ||| putBits x.core 25 19
      ||| putBits x.cluster 18 17 ||| putBits x.slot 16 13 ||| putBits x.group 12 8 ||| putBits x.lane 4 0,
    x.pc.setWidth 32, (x.pc >>> 32).setWidth 32, time, job, w5, w6, w7 ]

/-- The pair of records of R486 for an event of a core, about a context of a partition. -/
def arrivalTrace (s : State) (part stack core : Nat) (job : Word) (event n : Nat) (last longest : Subject) (by_ : Word) : State :=
  if (s.stack stack).traceArrival && debugPermitted s stack part then
    let pair := (s.core stack core).pair
    let time := (s.stack stack).us.setWidth 32
    let w5 := putBits pair.toNat 31 16 ||| putBits event 5 4 ||| putBits n 3 0
    let w7 := BitVec.ofNat 32 longest.wait
    let s1 := traceRecord s stack (subjectTrace 2 last time job w5 by_ w7)
    let s2 := traceRecord s1 stack (subjectTrace 3 longest time job w5 0 w7)
    s2.mapCore stack core (fun c => { c with pair := c.pair + 1 })
  else s

/-- The longest of the waits listed; the first where several are equal. -/
def longestOf (l : List Subject) : Option Subject :=
  l.foldl (fun m x => match m with
    | none => some x
    | some y => if y.wait < x.wait then some x else m) none

def clearBit (p : BitVec 16) (n : Nat) : BitVec 16 := p &&& ~~~((1 : BitVec 16) <<< n)

/-- Threads of a block with their positions. -/
def Block.positions (k : Block) : List (Nat × Nat × Group × Thread) :=
  ((upto k.groups.length).zip k.groups).flatMap (fun p =>
    ((upto p.2.threads.length).zip p.2.threads).map (fun q => (p.1, q.1, p.2, q.2)))

/-- Every thread of the block that is not exited has arrived at barrier n (R232, R234). -/
def phaseFull (k : Block) (n : Nat) : Bool :=
  match k.gates[n]? with
  | none => false
  | some gt => !gt.arrived.isEmpty && k.allThreads.all (fun t => !t.live || gt.arrived.contains t.tid)

/-- Of a list of accesses, those still in flight. -/
def State.still (s : State) (as : List Nat) : List Nat := as.filter (fun i => s.accesses.any (fun a => a.id == i))

/-- The thread's later accesses follow those listed (R236). -/
def Thread.after (t : Thread) (as : List Nat) : Thread := { t with behind := t.behind ++ as }

/-- What the completion of a phase does to a thread: its wait ends, as an acquire, and a gate.fold receives the
accumulator (R232, R233, R235, R236). -/
def phaseThread (n : Nat) (gt : Gate) (t : Thread) : Thread :=
  let t1 := { t with gatePending := clearBit t.gatePending n }
  match t.run with
  | .blocked (.gate m true) => if m = n then (t1.after gt.before).next else t1
  | .blocked (.gate m false) =>
    if m = n then
      let t2 := t1.after gt.before
      { t2 with run := .ready }
    else t1
  | .blocked (.fold m dst) =>
    if m = n then ((t1.after gt.before).setRegs dst [if gt.poison then poison0 else full gt.acc]).next else t1
  | _ => t1

/-- The end of a phase is an acquire of what its arrivals released, for those that waited and for a later gate.wait
(R236). -/
def phaseOrder (s : State) (b n : Nat) (tids : List Nat) : State :=
  let is := s.order.chan (.gateIn b n)
  (tids.foldl (fun s t => s.orders (.thread b t) is) s).mapOrder (fun o =>
    (o.setChan (.gateIn b n) []).setChan (.gateOut b n) is)

/-- The thread waits for the end of the present phase of a barrier, at a second gate.in as well (R233). -/
def waitsAt (n : Nat) (t : Thread) : Bool :=
  match t.run with
  | .blocked (.gate m _) | .blocked (.fold m _) => m == n
  | _ => false

/-- PHASE_COMPLETION (R232): the phase bit toggles, the arrived set and the pending bits clear, waits end; what waited
follows what the arrivals release (R236; entries 18, 92). -/
def completePhase (s : State) (b n : Nat) : State :=
  match s.block? b with
  | none => s
  | some k =>
    match k.gates[n]? with
    | none => s
    | some gt =>
      let waits := k.positions.filter (fun p => waitsAt n p.2.2.2)
      let longest := longestOf (waits.map (fun p => subjectOf s k p.2.2.1 p.2.1 p.2.2.2))
      let ids := s.still gt.before
      let s1 := (phaseOrder s b n (waits.map (·.2.2.2.tid))).mapBlock b (fun k =>
        { (k.mapThreads (fun _ _ t => phaseThread n { gt with before := ids } t)) with
          gates := modifyAt (fun g => { g with
            phase := !g.phase, arrived := [], acc := 0, op := none, poison := false,
            lastArriver := gt.latest, longest := longest.or gt.latest, latest := none, before := [], ended := ids }) n k.gates
          bwdog := 0 })
      match gt.latest, longest.or gt.latest with
      | some a, some l => arrivalTrace s1 k.part k.stack k.core k.job 0 n a l 0
      | _, _ => s1

/-- Complete every phase that waits for no thread any more (R234). -/
def settleGates (s : State) (b : Nat) : State :=
  (upto 16).foldl (fun s n =>
    match s.block? b with
    | none => s
    | some k => if phaseFull k n then completePhase s b n else s) s

/-! Waits at conv (R104). -/

/-- A thread waits at the conv word of a key. -/
def convAt (pc : Addr) (hints : List Hint) (t : Thread) : Bool :=
  match t.run with
  | .blocked (.conv _) => t.pc == pc && t.hints == hints
  | _ => false

/-- Every thread that the waiting thread's mask names, but itself and the exited, waits at the same word with the
same pending hints (R104). -/
def convMet (g : Group) (lane : Nat) (t : Thread) : Bool :=
  match t.run with
  | .blocked (.conv m) => (upto g.threads.length).all (fun l =>
      l == lane || !m.getLsbD l ||
      (match g.threads[l]? with
        | some u => !u.live || convAt t.pc t.hints u
        | none => true))
  | _ => false

/-- CONV_RELEASE (R104): the threads whose masks are satisfied go on together. -/
def releaseConv (s : State) (b g : Nat) : State :=
  s.mapGroup b g (fun k => { k with
    threads := mapFrom (fun l t => if convMet k l t then t.next else t) 0 k.threads })

/-- A thread exits or is killed (R100, R461): its monitor is disarmed and its claims and fills are discarded. -/
def Thread.leave (t : Thread) (r : Run) : Thread :=
  { t with run := r, monitor := none, hints := [], regs := t.regs.map (fun x => if x.isEmpty then { x with st := .full } else x) }

/-- Lanes of a group exit: what was coming to them is discarded, and barriers no longer wait for them (R100, R234,
R353). -/
def leaveLanes (s : State) (b g : Nat) (ls : List Nat) (r : Run) : State :=
  let ts := (s.group? b g).elim [] (fun k => k.threads)
  let tids := ls.map (fun l => (ts[l]?).elim 0 (·.tid))
  let s1 := s.mapGroup b g (fun k => { k with
    threads := mapAt ls (fun _ t => t.leave r) k.threads
    queues := k.queues.map (fun q => { q with
      claims := q.claims.filter (fun c => !ls.contains c.lane)
      returns := (q.returns.map (fun x => { x with lanes := x.lanes.filter (fun l => !ls.contains l) })).filter
        (fun x => !x.lanes.isEmpty) }) })
  let s2 : State := { s1 with accesses := s1.accesses.map (fun (a : Access) =>
    if a.blk == b && tids.contains a.tid && (match a.dst with
      | some d => !d.uni
      | none => false) then { a with dst := none } else a) }
  let s3 := s2.mapBlock b (fun k => { k with bwdog := 0, window := k.window.map (fun w =>
    { w with arrived := w.arrived.filter (fun p => !(p.1 == g && ls.contains p.2.1)) }) })
  settleGates (releaseConv s3 b g) b

/-! The return from a trap (R461, R479). -/

/-- What an action of tret does to a thread of the record. -/
def actionThread (act : Nat) (r : ParkRecord) (tpc : Addr) (t : Thread) : Thread :=
  match act with
  | 1 => { t with run := .ready, unwatched := true }
  | 2 => t.goto (r.pc + 4 * BitVec.ofNat 56 (r.hints + 1))
  | 3 => t.goto (tpc &&& ~~~(3 : Addr))
  | _ => { t with run := .ready }

/-- RETURNING FROM A TRAP (R461): the oldest record is retired, and the action held in k.tact is done to its lanes
together; a sequencer record is only retired. -/
def returnFromTrap (s : State) (part stack : Nat) (job : Word) : State :=
  match s.ctx? part stack job with
  | none => s
  | some c =>
    match c.park with
    | [] => s
    | r :: rest =>
      let s1 := s.mapCtx part stack job (fun c => queueRecords { c with park := rest } [])
      if c.tact.toNat = 5 then terminate s1 part stack job r.kind []
      else if r.seq then s1
      else if c.tact.toNat = 4 then leaveLanes s1 r.blk r.grp r.lanes .killed
      else s1.mapLanes r.blk r.grp r.lanes (fun _ t =>
        if t.run = .parked then actionThread c.tact.toNat r c.tpc t else t)

end Sys2Proof.Machine
end

