-- ==== Sys2Proof/Machine/Operands.lean ====
section
/-!
DEFINITION. Operand forms and the conditions that every instruction of a thread meets before its own entry: hints
(R54 to R60), privilege (R452), the bound check (R46), empty registers (R49, R50), in the order of R72; immediates
(R52); and the shapes of effect: per lane (R112) and once per bundle (R59, R89).
-/

namespace Sys2Proof.Machine

/-- A register operand: its field (0 d, 1 a, 2 b, 3 c), file, first register field, count, empty-action bit, and
whether it is read and written. -/
structure Opd where
  field : Nat
  uni : Bool
  f : Fld
  n : Nat
  chk : Bool
  read : Bool
  write : Bool
  deriving DecidableEq, Repr, Inhabited

def vSrc (field : Nat) (r : Src) (n : Nat := 1) : Opd := ⟨field, false, r.f, n, r.chk, true, false⟩
def uSrc (field : Nat) (r : Src) (n : Nat := 1) : Opd := ⟨field, true, r.f, n, r.chk, true, false⟩
def vDst (d : Fld) (n : Nat := 1) : Opd := ⟨0, false, d, n, false, false, true⟩
def uDst (d : Fld) (n : Nat := 1) : Opd := ⟨0, true, d, n, false, false, true⟩
/-- A destination that the form reads too, with empty-action 0 (R49). -/
def vMod (d : Fld) (n : Nat := 1) : Opd := ⟨0, false, d, n, false, true, true⟩
/-- A register of field d or c that is only read, with empty-action 0 (R49). -/
def vRead (field : Nat) (f : Fld) (n : Nat := 1) : Opd := ⟨field, false, f, n, false, true, false⟩
def uRead (field : Nat) (f : Fld) (n : Nat := 1) : Opd := ⟨field, true, f, n, false, true, false⟩
/-- A register that is named and not read: only the bound check applies (R271). -/
def uName (field : Nat) (f : Fld) : Opd := ⟨field, true, f, 1, false, false, false⟩
/-- Operand b of a form that admits sb (R48). -/
def bSrc (b : SrcB) (n : Nat := 1) : Opd :=
  match b with
  | .vec r => vSrc 2 r n
  | .uni r => uSrc 2 r n

/-- Which hint kinds and modifiers a target accepts (R55, R60). -/
structure Accepts where
  imm : Bool
  sat : Bool
  neg : Bool
  negc : Bool
  scope : Bool
  cache : Bool
  deriving DecidableEq, Repr, Inhabited

def Accepts.plain : Accepts := ⟨false, false, false, false, false, false⟩
def Accepts.immOnly : Accepts := ⟨true, false, false, false, false, false⟩

/-- Conditions of R452. -/
inductive Need where
  | any | priv | handler
  deriving DecidableEq, Repr, Inhabited

/-- What a target is, apart from its effect. -/
structure Form where
  ops : List Opd
  acc : Accepts
  need : Need
  deriving DecidableEq, Repr, Inhabited

def Form.of (ops : List Opd) : Form := ⟨ops, Accepts.plain, .any⟩
def Form.imm (ops : List Opd) : Form := ⟨ops, Accepts.immOnly, .any⟩

/-- A bundle as its effect sees it: act are the lanes whose guard is true and that pass orders 1 to 4 of R72. -/
structure Issue where
  blk : Nat
  grp : Nat
  lanes : List Nat
  act : List Nat
  pc : Addr
  hints : List Hint
  word : Word
  deriving DecidableEq, Repr, Inhabited

/-! Hints (R54 to R60). -/

def hintKind : Hint → Nat
  | .imm _ => 0
  | .grd _ _ => 1
  | .mod _ => 2
  | .yield => 3
  | .sched _ => 4
  | .bad w => bits w 25 22

def hintImm? (hs : List Hint) : Option (BitVec 22) :=
  hs.findSome? (fun h => match h with
    | .imm p => some p
    | _ => none)

def hintMods (hs : List Hint) : Mods :=
  (hs.findSome? (fun h => match h with
    | .mod m => some m
    | _ => none)).getD ⟨false, false, false, false, 0, 0⟩

def hintYields (hs : List Hint) : Bool := hs.any (fun h => h == .yield)

/-- The guard of a thread (R59). -/
def guardOf (hs : List Hint) (t : Thread) : Bool :=
  match hs.findSome? (fun h => match h with
    | .grd sense p => some (sense, p)
    | _ => none) with
  | none => true
  | some (sense, p) => t.pred p != sense

/-- A modifier that is non-zero is one the target accepts, and the target accepts some modifier (R60). -/
def modsOk (a : Accepts) (m : Mods) : Bool :=
  (a.sat || a.neg || a.negc || a.scope || a.cache) &&
  (!m.sat || a.sat) && (!m.nega || a.neg) && (!m.negb || a.neg) && (!m.negc || a.negc) &&
  (m.scope == 0 || a.scope) && (m.cache == 0 || a.cache)

def hintOk (a : Accepts) : Hint → Bool
  | .imm _ => a.imm
  | .mod m => modsOk a m
  | .bad _ => false
  | _ => true

/-- No kind is repeated (R56). -/
def kindsDistinct : List Hint → Bool
  | [] => true
  | h :: hs => !hs.any (fun x => hintKind x == hintKind h) && kindsDistinct hs

/-- The sequence is one that its target accepts (R56). -/
def hintsOk (a : Accepts) (hs : List Hint) : Bool := hs.all (hintOk a) && kindsDistinct hs

/-! Immediates (R52). -/

def immC (hs : List Hint) (i : BitVec 11) : BitVec 64 :=
  match hintImm? hs with
  | none => i.signExtend 64
  | some p => (p ++ i).signExtend 64

def immD (hs : List Hint) (i : BitVec 20) : BitVec 64 :=
  match hintImm? hs with
  | none => i.signExtend 64
  | some p => (p ++ i).signExtend 64

/-- The offset of a memory form of width w (R52). -/
def offE (hs : List Hint) (i : BitVec 6) (w : Nat) : BitVec 64 :=
  match hintImm? hs with
  | none => i.zeroExtend 64 * BitVec.ofNat 64 w
  | some p => (p ++ i).signExtend 64 * BitVec.ofNat 64 w

/-! Orders 2 to 4 of R72. -/

/-- Order 2: the cause that R458 gives a form without its privilege (R452). -/
def needFails (n : Need) (k : Block) : Option Nat :=
  match n with
  | .any => none
  | .priv => if k.priv then none else some 1
  | .handler => if k.trapGroup then none else some 2

/-- Order 3: the first register at or beyond the allotment that an operand reaches (R46, R458). -/
def boundOf (k : Block) (g : Group) (o : Opd) : Option Word :=
  let i := if o.uni then g.si o.f else g.vi o.f
  let lim := if o.uni then k.sregs else k.vregs
  if lim < i + o.n then
    some (putBits (if o.uni then 1 else 0) 10 10 ||| putBits (min (max i lim) 1023) 9 0)
  else none

def boundFails (k : Block) (g : Group) (ops : List Opd) : Option Word := ops.findSome? (boundOf k g)

/-- The registers of an operand, as a thread sees them. -/
def opdRegs (g : Group) (t : Thread) (o : Opd) : List Reg :=
  if o.uni then g.sregsAt o.f o.n else g.vregsAt t o.f o.n

def opdEmpty (g : Group) (t : Thread) (o : Opd) : Bool := (opdRegs g t o).any Reg.isEmpty

/-- The registers that operands name, by file and physical index. -/
def opdIndexes (g : Group) (ops : List Opd) : List (Bool × Nat) :=
  ops.flatMap (fun o => (upto o.n).map (fun j => (o.uni, (if o.uni then g.si o.f else g.vi o.f) + j)))

/-- A register of a thread or of its group. -/
def regAt (g : Group) (t : Thread) (r : Bool × Nat) : Reg := getReg (if r.1 then g.sregs else t.regs) r.2

/-- The outcome of order 4 for a thread. -/
inductive Empties where
  | pass
  | trap (detail : Word)
  | wait (w : Wait)
  deriving DecidableEq, Repr, Inhabited

/-- Order 4: sources first, then the destination (R49, R50). -/
def emptiesOf (g : Group) (t : Thread) (ops : List Opd) : Empties :=
  let srcs := ops.filter (fun o => o.read && opdEmpty g t o)
  let dsts := ops.filter (fun o => o.write && opdEmpty g t o)
  match srcs.find? (·.chk) with
  | some o => .trap (if o.field = 1 then 0 else 1)
  | none =>
    if !srcs.isEmpty then .wait (.regs (opdIndexes g (ops.filter (·.read))))
    else if !dsts.isEmpty then .wait (.regs (opdIndexes g (ops.filter (·.write))))
    else .pass

/-- What a body answers: the state, and the traps of its lanes. -/
abbrev Body := Issue → State → State × List Trap

/-- A retry of an instruction that blocked after it had issued does not count as a bundle issued (R438). -/
def freshIssue : Run → Bool
  | .ready => true
  | .blocked (.regs _) => true
  | .blocked (.pages _ _) => true
  | _ => false

/-- The threads of the bundle have issued: their starvation counts return to 0 (R82), a yield begins (R87) for those that
issue the word and do not retry it, and the
slice counter and the block's count of bundles rise by one (R438, R490). -/
def noteIssue (s : State) (is : Issue) (k : Block) (issued : List Nat) (fresh : Bool) : State :=
  let s1 := s.mapLanes is.blk is.grp issued (fun _ t =>
    { t with starv := 0, yieldTurns := if hintYields is.hints && freshIssue t.run then 16 else t.yieldTurns })
  if fresh then
    (s1.mapBlock is.blk (fun b => { b with issued := b.issued + 1 })).mapCtx k.part k.stack k.job
      (fun c => { c with slice := c.slice + 1 })
  else s1

/-- A thread of a lane of a group. -/
def Group.thread (g : Group) (l : Nat) : Thread :=
  g.threads.getD l ⟨0, 0, [], .exited, 0, [], 0, 0, 0, 0, none, 0, [], false, 0, 0, 0, [], none⟩

/-- Lanes whose wait at this word is over complete it; the others of the bundle begin it (R89). -/
def resumeOr (mine : Wait → Bool) (done fresh : Body) : Body := fun is s =>
  match s.group? is.blk is.grp with
  | none => (s, [])
  | some g =>
    let back := is.act.filter (fun l => match (g.thread l).run with
      | .blocked w => mine w
      | _ => false)
    let new := is.act.filter (fun l => !back.contains l)
    let r := if back.isEmpty then (s, []) else done { is with act := back } s
    if new.isEmpty then r
    else
      let q := fresh { is with act := new } r.1
      (q.1, r.2 ++ q.2)

/-- Every lane of a list takes one trap. -/
def trapAll (ls : List Nat) (kind : Nat) (detail : Word) (addr : Addr := 0) : List Trap :=
  ls.map (fun l => ⟨l, kind, detail, addr⟩)

/-- The trap of orders 2 and 3 that the lanes whose guard is true take, where there is one. -/
def earlyFails (fm : Form) (k : Block) (g : Group) (gt : List Nat) : Option (Nat × Word) :=
  if gt.isEmpty then none
  else
    match needFails fm.need k with
    | some c => some (kProtection, BitVec.ofNat 32 c)
    | none => (boundFails k g fm.ops).map (fun d => (kRegisterBound, d))

/-- Threads that read a register in full have read the token of the copy whose completion word it holds, until the register
is written again (R225). -/
def noteTokens (s : State) (b gi : Nat) (g : Group) (ops : List Opd) (act : List Nat) : State :=
  let of (p : Opd → Bool) : List Nat := ((opdIndexes g (ops.filter (fun o => o.uni && p o)))).map (·.2)
  s.mapOrder (fun o =>
    let o1 := (of (·.read)).foldl (fun o r =>
      (act.map (fun l => (g.thread l).tid)).foldl (fun o t => o.putChan (.took b t .copy) (o.chan (.token b gi r))) o) o
    if act.isEmpty then o1 else (of (·.write)).foldl (fun o r => o.setChan (.token b gi r) []) o1)

/-- The bundle goes through orders 1 to 4 of R72, and then its body runs for the lanes that pass. Lanes whose guard
is false continue at the next word (R112). All traps of the issue are taken together (R456). -/
def runBundle (s : State) (fm : Form) (body : Body) (k : Block) (g : Group) (is : Issue) : State :=
  let trapsOf (ts : List Trap) (s : State) : State := raise s is.blk is.grp is.pc is.hints.length is.word ts
  if !hintsOk fm.acc is.hints then trapsOf (trapAll is.lanes kIllegal 0) (noteIssue s is k is.lanes true)
  else
    let gt := is.lanes.filter (fun l => guardOf is.hints (g.thread l))
    let gf := is.lanes.filter (fun l => !guardOf is.hints (g.thread l))
    match earlyFails fm k g gt with
    | some (kind, detail) =>
      trapsOf (trapAll gt kind detail)
        ((noteIssue s is k is.lanes true).advance is.blk is.grp gf)
    | none =>
      let chk := gt.map (fun l => (l, if (g.thread l).run.inside then .pass else emptiesOf g (g.thread l) fm.ops))
      let waits := chk.filterMap (fun p => match p.2 with
        | .wait w => some (p.1, w)
        | _ => none)
      let traps := chk.filterMap (fun p => match p.2 with
        | .trap d => some (⟨p.1, kEmptyRead, d, 0⟩ : Trap)
        | _ => none)
      let act := (chk.filter (fun p => p.2 == .pass)).map (·.1)
      let issued := is.lanes.filter (fun l => !(waits.any (fun p => p.1 == l)))
      let s1 := if waits.isEmpty then s
        else s.blockLanes is.blk is.grp (waits.map (·.1))
          (fun l => ((waits.find? (fun p => p.1 == l)).map (·.2)).getD .own)
      let s2 := if issued.isEmpty then s1
        else noteIssue s1 is k issued (issued.any (fun l => freshIssue (g.thread l).run))
      let s3 := if gf.isEmpty then s2 else s2.advance is.blk is.grp gf
      let s4 := noteTokens s3 is.blk is.grp g fm.ops act
      let r := if act.isEmpty then (s4, []) else body { is with act := act } s4
      trapsOf (traps ++ r.2) r.1

/-- The meaning of a word that a thread executes: the bundle in State.cur runs it. A sequencer that meets such a
word faults (R71, R284). -/
def withForm (fm : Form) (body : Body) (s : State) : Out :=
  match s.cur with
  | .none | .command => .next s
  | .seq b pc w => .next (seqFault s b kIllegal pc w 0 0)
  | .bundle b g lanes pc hints word =>
    match s.block? b, s.group? b g with
    | some k, some gr => .next (runBundle s fm body k gr ⟨b, g, lanes, [], pc, hints, word⟩)
    | _, _ => .next s

/-! Shapes of effect. -/

/-- What one lane's effect is. -/
inductive LaneRes where
  /-- the thread with its results; it goes on at the next word -/
  | ok (t : Thread)
  /-- the thread goes on at an address (R96) -/
  | jump (t : Thread) (pc : Addr)
  | trap (kind : Nat) (detail : Word) (addr : Addr)
  deriving DecidableEq, Repr, Inhabited

def LaneRes.thread (old : Thread) : LaneRes → Thread
  | .ok t => t.next
  | .jump t pc => t.goto pc
  | .trap _ _ _ => old

def LaneRes.trap? (l : Nat) : LaneRes → Option Trap
  | .trap k d a => some ⟨l, k, d, a⟩
  | _ => none

/-- A per-thread form: every active lane reads the group as it stands, and then writes its own registers (R112,
R114). -/
def perLane (f : Issue → Block → Group → Nat → Thread → LaneRes) : Body := fun is s =>
  match s.block? is.blk, s.group? is.blk is.grp with
  | some k, some g =>
    (s.mapLanes is.blk is.grp is.act (fun l t => (f is k g l t).thread t),
     is.act.filterMap (fun l => (f is k g l (g.thread l)).trap? l))
  | _, _ => (s, [])

/-- The result of a form that executes once per bundle: the group changed, or one trap for each active lane. -/
inductive GroupRes where
  | ok (g : Group)
  | trap (kind : Nat) (detail : Word) (addr : Addr)
  deriving DecidableEq, Repr, Inhabited

/-- A form that executes once per bundle and acts on the group alone (R89). -/
def perBundle (f : Issue → Block → Group → GroupRes) : Body := fun is s =>
  match s.block? is.blk, s.group? is.blk is.grp with
  | some k, some g =>
    match f is k g with
    | .ok g1 => ((s.mapGroup is.blk is.grp (fun _ => g1)).advance is.blk is.grp is.act, [])
    | .trap kind d a => (s, trapAll is.act kind d a)
  | _, _ => (s, [])

/-- The first poisoned register of a list decides the trap (R348; entry 9). -/
def poisonIn (rs : List Reg) : Option (Nat × Word) := (rs.find? Reg.isPoisoned).map (fun r => poisonKind r.val)

/-- The registers of operand b for a lane (R48). -/
def Group.bRegs (g : Group) (t : Thread) (b : SrcB) (n : Nat) : List Reg :=
  match b with
  | .vec r => g.vregsAt t r.f n
  | .uni r => g.sregsAt r.f n

/-- The number that a run of registers holds, the first lowest. -/
def regsVal (rs : List Reg) : Nat := leNat (bytesOfWords (rs.map (·.val)))
def regWord (rs : List Reg) : Word := (rs.headD Reg.mk0).val
/-- high ∥ low of a pair (R91, R122). -/
def regPair (rs : List Reg) : DWord := pairVal (rs.getD 1 Reg.mk0).val (rs.getD 0 Reg.mk0).val
def pairRegs (x : DWord) : List Reg := [full (lowWord x), full (highWord x)]

/-- The 56-bit address in a pair (R140). -/
def regAddr (rs : List Reg) : Addr := (regPair rs).setWidth 56

/-- R115: results with poison carried through. -/
def carry (srcs : List Reg) (n : Nat) (res : List Reg) : List Reg :=
  if srcs.any Reg.isPoisoned then List.replicate n poison0 else res

end Sys2Proof.Machine
end

