-- ==== Sys2Proof/Machine/Flags.lean ====
section
/-!
DEFINITION. Conditions and flags: the integer and float conditions of R65, and the predicate, uniform predicate and
mode bits that compares and float forms write.
-/

namespace Sys2Proof.Machine

/-- An integer condition of R65 between two values of one width. -/
def icondHolds {w : Nat} (c : ICond) (x y : BitVec w) : Bool :=
  match c with
  | .eq => x == y
  | .ne => x != y
  | .ltI => x.slt y
  | .leI => x.sle y
  | .gtI => y.slt x
  | .geI => y.sle x
  | .ltN => x.ult y
  | .leN => x.ule y
  | .gtN => y.ult x
  | .geN => y.ule x

/-- A float condition of R65, from the order of the operands: none is unordered. -/
def fcondHolds (c : FCond) (o : Option Ordering) : Bool :=
  match c, o with
  | .num, o => o.isSome
  | .nan, o => o.isNone
  | .eq, some .eq | .equ, some .eq => true
  | .ne, some .lt | .ne, some .gt | .neu, some .lt | .neu, some .gt => true
  | .lt, some .lt | .ltu, some .lt => true
  | .le, some .lt | .le, some .eq | .leu, some .lt | .leu, some .eq => true
  | .gt, some .gt | .gtu, some .gt => true
  | .ge, some .gt | .ge, some .eq | .geu, some .gt | .geu, some .eq => true
  | .equ, none | .neu, none | .ltu, none | .leu, none | .gtu, none | .geu, none => true
  | _, _ => false

/-- Write a uniform predicate (R93). -/
def Group.setSpred (g : Group) (p : BitVec 2) (v : Bool) : Group :=
  { g with spreds := if v then g.spreds ||| ((1 : BitVec 4) <<< p.toNat)
                     else g.spreds &&& ~~~((1 : BitVec 4) <<< p.toNat) }

def Group.spred (g : Group) (p : BitVec 2) : Bool := g.spreds.getLsbD p.toNat

end Sys2Proof.Machine
end

