-- ==== Sys2Proof/Machine/Fetch.lean ====
section
/-!
DEFINITION. Which threads can issue, the choice of a turn (R79 to R88), fetching a word (R73, R99, R145), and what each
move of the agenda prepares before its instruction or event is executed.
-/

namespace Sys2Proof.Machine

/-! Ends of waits. -/

/-- Free words of a call buffer (R340, R349). -/
def Queue.free (q : Queue) : Nat := 64 - (q.calls.map (·.words.length)).sum

/-- Copies that hold a slot of a core's engine (R248). -/
def copiesOn (s : State) (stack core : Nat) : Nat :=
  (s.copies.filter (fun c => c.stack == stack && c.core == core && c.slot)).length

/-- Tickets of the bundles of a core that wait for a copy slot, where they could take one. -/
def slotTickets (s : State) (stack core : Nat) : List Nat :=
  nub ((s.blocks.filter (fun k => k.phase == .resident && k.stack == stack && k.core == core && ctxFree s k)).flatMap
    (fun k => k.allThreads.filterMap (fun t => match t.run with
      | .blocked (.copySlot n) => some n
      | _ => none)))

/-- A slot is free for a ticket: slots are granted in the order in which the bundles first issued (R248). -/
def slotFor (s : State) (stack core ticket : Nat) : Bool :=
  decide (copiesOn s stack core + ((slotTickets s stack core).filter (· < ticket)).length < 256)

/-- Calls of a queue that are not ended, in its buffer or with a unit. -/
def queueBusy (s : State) (b g q : Nat) (qu : Queue) : Bool :=
  !qu.calls.isEmpty || s.calls.any (fun c => c.blk == b && c.grp == g && c.q == q)

/-- An address of the fabric window (R509). -/
def inWindow (va : Addr) : Bool := decide (va.toNat / 2 ^ 47 = 0x1FF)

/-- A wait at a semaphore of this module is to be looked at again: no read of it is in flight, and its count has reached the
value, a look will trap or miss a page, or the host holds the word (R242, R244). The wait on one of a stack that cannot be
reached goes on (DESIGN CHOICE, entry 101; R510 says so of modules). -/
def semOver (s : State) (b tid : Nat) (k : Block) (va : Addr) (v : Word) : Bool :=
  !inWindow va && !s.accesses.any (fun a => a.blk == b && (a.tid :: a.mates).contains tid && (match a.kind with
    | .fsemWait _ _ => true
    | _ => false)) && (match outcome (walk s k.stack k.part va) va .load k.priv with
    | .ok t =>
      let pa := t.pa va.toNat
      !s.unreachablePA pa k.stack && (s.poisoned ⟨.mem, pa, 8⟩ || decide (v.toNat ≤ (s.memDWord pa).toNat) ||
        region? pa == some .host)
    | _ => true)

/-- The stack that keeps the domain of an entry (R355). -/
def SrfEntry.domainStack (e : SrfEntry) : Nat := if e.home = 2 then 0 else e.home

/-- A tile's residency (R322). -/
def SrfEntry.tileState (e : SrfEntry) (t : Nat) : TileState :=
  ((e.tileSt.find? (fun p => p.1 == t)).map (·.2)).getD .absent

/-- Accepted launches of a stack with blocks not yet placed (R443). -/
def Launch.blocks (l : Launch) : Nat :=
  ((l.words.getD 2 0).toNat + 1) * ((l.words.getD 3 0).toNat + 1) * ((l.words.getD 4 0).toNat + 1)

def launchesOpen (s : State) (stack : Nat) : Nat :=
  (s.launches.filter (fun l => l.stack == stack && !l.cancelled && decide (l.next < l.blocks))).length

/-- A counter whose wait is over (R446). -/
def counterOver (s : State) (part : Nat) (id : Word) : Bool :=
  match s.counter? part id with
  | none => true
  | some c =>
    match c.state with
    | .open => false
    | .complete => true
    | .cancelled => s.blocks.all (fun k =>
        !(k.phase == .resident || k.phase == .evicted || k.phase == .stopped) ||
        (match k.launch.bind (fun n => s.launches[n]?) with
          | some l => !(recPart l.words == part && (recCounters l.words).contains id)
          | none => true))

/-- A load that waits for pages, or for its replay once they have been served (R157). -/
def Access.atReplay (a : Access) : Bool :=
  a.pieces.isEmpty && (match a.kind with
    | .load _ _ | .const _ _ => true
    | _ => false)

/-- Fills of a block that are still to arrive (R469). -/
def pendingFills (s : State) (b : Nat) : List Access := s.accesses.filter (fun a => a.blk == b && a.dst.isSome)

def fillsPending (s : State) (b : Nat) : Bool := !(pendingFills s b).isEmpty

/-- The wait of a thread is over, so that it can issue its word again. Waits that an event ends by itself answer
false here. -/
def waitOver (s : State) (b gi : Nat) (k : Block) (g : Group) (lane : Nat) (t : Thread) (w : Wait) : Bool :=
  match w with
  | .regs rs => !rs.any (fun r => (regAt g t r).isEmpty)
  | .pages vas _ => vas.all (fun v => !k.missing.contains v)
  | .nbar n => (t.nbarCount.getD n 0) != ((k.nbars[n]?).elim 0 (·.m))
  | .room q need => (g.queues[q]?).elim true (fun qu => decide (need ≤ qu.free) && !qu.draining)
  | .claim q => (g.queues[q]?).elim true (fun qu => decide ((qu.claims.filter (fun c => c.lane == lane)).length < 8))
  | .drain q _ => (g.queues[q]?).elim true (fun qu => !queueBusy s b gi q qu)
  | .fsem va v => semOver s b t.tid k va v
  | .counter id => !counterFar s k.stack id && counterOver s k.part id
  | .copySlot ticket => slotFor s k.stack k.core ticket
  | .pin e => !(s.srf k.part e).pinned || (upto (s.srf k.part e).tiles).all (fun i => (s.srf k.part e).tileState i == .resident)
  | .srfFree e => !(s.srf k.part e).freeing
  | .srfEvict e since ts => ts.all (fun i => !((s.srf k.part e).tileState i).held ||
      (s.srf k.part e).recent.any (fun p => p.1 == i && decide (since < p.2)))
  | .hmark e _ _ =>
    let far := (s.srf k.part e).domainStack != k.stack
    (s.linkDown && far) || (!(s.linkStalls && far) && ((s.srf k.part e).marks.length != 65536 || (s.srf k.part e).kind != 1))
  | .launch far accs => decide (launchesOpen s k.stack < 4096) && !(far && s.linkHeld) &&
      accs.all (fun i => !s.accesses.any (fun a => a.id == i))
  | .fence accs => accs.all (fun i => !s.accesses.any (fun a => a.id == i))
  | .regroupRegs => !t.regs.any Reg.isEmpty
  | .tlbinv i => ((s.stack k.stack).invals[i]?).elim true (·.complete)
  | .accBanks ticket _ => !(s.core k.stack k.core).accQueue.any (fun q => q.1 == ticket)
  | .saveFills o => !fillsPending s o
  | .sweep => decide ((s.core k.stack k.core).sweepTo ≤ s.now k.stack k.core)
  | .link read => if read then !s.linkStalls else !s.linkHeld
  | .own => true
  | .gate _ _ | .fold _ _ | .monitor | .conv _ | .regroupWindow => false

/-- The thread is ready (R79): ready, or its wait is over. -/
def canIssue (s : State) (b gi : Nat) (k : Block) (g : Group) (lane : Nat) (t : Thread) : Bool :=
  match t.run with
  | .ready => true
  | .blocked w => waitOver s b gi k g lane t w
  | _ => false

/-- The context lets the thread issue: it is not stopped, and during a step only the thread named issues (R468,
R482, R484). -/
def ctxLets (s : State) (k : Block) (g : Group) (lane : Nat) : Bool :=
  match s.ctx? k.part k.stack k.job with
  | none => true
  | some c => c.stop == .running && (match c.step with
    | none => true
    | some (lin, gn, l) => k.lin == lin.toNat && g.num == gn && lane == l && !k.trapGroup)

/-- Lanes of a group that can issue. -/
def readyLanes (s : State) (b gi : Nat) (k : Block) (g : Group) : List Nat :=
  (upto g.threads.length).filter (fun l =>
    match g.threads[l]? with
    | some t => k.phase == .resident && ctxLets s k g l && canIssue s b gi k g l t
    | none => false)

/-! Throttling (R492, R496, R497). -/

/-- How many measures of a kind hold a core. -/
def heldBy (s : State) (stack core kind : Nat) : Nat :=
  (s.measures.filter (fun m => m.kind == kind && m.cores.contains (stack, core))).length

/-- The vault of a core's column holds it throttled. -/
def vaultHolds (s : State) (stack core : Nat) : Bool := (s.vault stack (core / 4)).throttled

/-- g: the cycles of every 64 in which the lane clusters of a core may issue. -/
def gateOf (s : State) (stack core : Nat) : Nat :=
  min (64 >>> heldBy s stack core 4) (if vaultHolds s stack core then 16 else 64)

/-- k.cadence of a core (R287). -/
def cadenceOf (s : State) (stack core : Nat) : Nat :=
  if vaultHolds s stack core then 16 else min 16 (1 <<< heldBy s stack core 2)

/-- The core's clock is not being changed. -/
def clockRuns (s : State) (stack core : Nat) : Bool :=
  match (s.core stack core).step with
  | none => true
  | some p =>
    let now := 10 * s.usOf stack
    !(decide (p.clock ≤ now) && decide (now < p.clock + 10))

/-! Turns (R80 to R88). -/

/-- An issue key (R80). -/
abbrev Key := Addr × List Hint

def Thread.key (t : Thread) : Key := (t.pc, t.hints)

/-- The keys of ready lanes, by lower program counter and then fewer pending hints (R83). -/
def keyLt (a b : Key) : Bool :=
  decide (a.1.toNat < b.1.toNat) || (a.1 == b.1 && decide (a.2.length < b.2.length))

/-- Ready threads of a key not under yield (R83, R87). -/
def weight (g : Group) (ls : List Nat) (key : Key) : Nat :=
  (ls.filter (fun l => (g.thread l).key == key && (g.thread l).yieldTurns == 0)).length

def keyCount (g : Group) (ls : List Nat) (key : Key) : Nat := (ls.filter (fun l => (g.thread l).key == key)).length
def keyStarv (g : Group) (ls : List Nat) (key : Key) : Nat :=
  ((ls.filter (fun l => (g.thread l).key == key)).map (fun l => (g.thread l).starv)).foldl max 0

/-- The choice of R83: at most two keys. Forced keys of the same highest count and the same program counter, which differ
in their pending hints, are in no order by R83: the one with fewer hints is forced; of keys equal in weight, program counter and
number of hints, whose hints differ, the one with the lowest lane comes first (DESIGN CHOICE, entry 93). -/
def chooseKeys (g : Group) (ls : List Nat) : List Key :=
  let cands := nub (ls.map (fun l => (g.thread l).key))
  let ch0 := match g.deferred with
    | some d => if cands.contains d then [d] else []
    | none => []
  let rest := cands.filter (fun c => !ch0.contains c)
  let forced := (sortBy (fun a b => decide (keyStarv g ls b < keyStarv g ls a) ||
      (keyStarv g ls a == keyStarv g ls b && keyLt a b))
    (rest.filter (fun c => decide (32 ≤ keyStarv g ls c)))).head?
  let rank := sortBy (fun a b => decide (weight g ls b < weight g ls a) ||
      (weight g ls a == weight g ls b && keyLt a b)) rest
  let ch1 := if ch0.isEmpty then rank.take 1 else ch0
  let second := match forced with
    | some f => if ch1.contains f then (rank.filter (fun c => !ch1.contains c)).head? else some f
    | none => (rank.filter (fun c => !ch1.contains c)).head?
  ch1 ++ second.toList

/-! Fetch (R73, R99, R145). -/

/-- What a fetch answers: the word, a page to wait for, or a fault with its cause: 0 missing mapping, 1 permission
error, 2 uncorrectable error. -/
inductive Fetched where
  | word (w : Word)
  | wait (page : Addr)
  | fault (cause : BitVec 2)
  deriving DecidableEq, Repr, Inhabited

/-- The moment as of which a core fetches a word: one at which its instruction cache holds it, or any since the cache was
last invalidated (R73). -/
def fetchAt (s : State) (stack core pa : Nat) : Nat :=
  let c := s.core stack core
  match (c.icache.find? (fun p => p.1 == pa)).filter (fun _ => Config.hitLine s.moves) with
  | some p => p.2
  | none => lookAt s false c.icacheFrom 0

/-- The word at an address as of a moment. -/
def State.wordAsOf (s : State) (pa n : Nat) : Word :=
  if s.order.past.isEmpty then s.memWord pa
  else BitVec.ofNat 32 (leNat ((upto 4).map (fun j => s.order.byteAt .mem (pa + j) n (s.mem.get (pa + j)))))

/-- Fetch the word at an address by the partition's tables, in its present or an older form (R73); the instruction cache
of 64 KiB holds it from then on. R99 and R161 do not name a fetch from memory of the other stack across the failed link, or one
that the host completes with an error: each faults as an uncorrectable error does (DESIGN CHOICE, entry 115). -/
def fetchWord (s0 : State) (stack core part : Nat) (priv : Bool) (pc : Addr) : State × Fetched :=
  let s := missesTlb s0 stack core part pc
  match outcome (coreLookup s0 stack core part pc) pc .fetch priv with
  | .recoverable p => (s, .wait p)
  | .missing => (s, .fault 0)
  | .denied => (s, .fault 1)
  | .ok t =>
    let pa := t.pa pc.toNat
    let s1 := meetUpsets s [⟨.mem, pa, 4⟩]
    if s.hostFails ⟨.mem, pa, 4⟩ || s1.poisoned ⟨.mem, pa, 4⟩ || s1.unreachablePA pa stack then (s1, .fault 2)
    else
      let n := fetchAt s1 stack core pa
      ((holdTrans s1 stack core t).mapCore stack core (fun c => { c with
          icache := ((pa, n) :: c.icache.filter (fun p => p.1 != pa)).take 16384 }), .word (s1.wordAsOf pa n))

/-- Whether a word writes uniform state, from its encoding alone (R84). -/
def writesUniform : Instr → Bool
  | .saddI32 .. | .ssubI32 .. | .smulI32 .. | .sandB32 .. | .sorB32 .. | .sxorB32 .. | .sshlB32 .. | .sshrN32 ..
  | .ssraI32 .. | .sminI32 .. | .sminN32 .. | .smaxI32 .. | .smaxN32 .. | .saddI64 .. | .ssubI64 .. | .smovB32 ..
  | .scmp .. | .ssel .. | .srdsp .. | .saddI32Imm .. | .sandB32Imm .. | .sorB32Imm .. | .sxorB32Imm .. | .smovi ..
  | .winVReg .. | .winSReg .. | .winVImm .. | .winSImm .. | .v2s .. | .gred .. | .fsemRd .. | .xcopy ..
  | .xcopyStat .. | .accAlloc .. | .srfAlloc .. | .srfQuery .. | .srfView .. | .qbind .. | .qstat .. | .hmarkGet ..
  | .ctrNew .. | .ctrRd .. | .sliceRd .. | .kRd .. | .kCycleLoRead .. | .parkRd .. | .capRd .. => true
  | _ => false

/-- The word at an address as the issue stage sees it satisfies p, without any effect of the fetch. -/
def peekWord (s : State) (k : Block) (pc : Addr) (p : Instr → Bool) : Bool :=
  match (fetchWord s k.stack k.core k.part k.priv pc).2 with
  | .word w => match decodeWord w with
    | .ok i => p i
    | .error _ => false
  | _ => false

/-- The word ends its threads and reads nothing of its group (R100). -/
def exits : Instr → Bool
  | .exit => true
  | _ => false

/-- The bundles of a turn in the order in which they read and write (R84, R85): where both write uniform state the
second is deferred; where one does, the other comes first, so that it reads before the write, unless it is an exit, which
reads nothing and would change the mask that sr_live gives. Two keys with equal counts and one program counter, which
differ in their pending hints, are in no order by R84: the one with fewer hints is first (DESIGN CHOICE, entry 93). -/
def orderKeys (s : State) (k : Block) (g : Group) (ls : List Nat) (ch : List Key) : List Key × Option Key :=
  match ch with
  | [a, b] =>
    let ua := peekWord s k a.1 writesUniform
    let ub := peekWord s k b.1 writesUniform
    if ua && ub then
      let aFirst := if g.deferred = some a then true
        else if g.deferred = some b then false
        else decide (keyCount g ls b < keyCount g ls a) || (keyCount g ls a == keyCount g ls b && keyLt a b)
      if aFirst then ([a], some b) else ([b], some a)
    else if peekWord s k a.1 exits || (ua && !peekWord s k b.1 exits) then ([b, a], none)
    else ([a, b], none)
  | _ => (ch, none)

/-- Groups resident on a lane cluster, by slot (R81). -/
def groupsOn (s : State) (stack core cluster : Nat) : List (Nat × Nat × Block × Group) :=
  ((upto s.blocks.length).zip s.blocks).flatMap (fun p =>
    if p.2.phase == .resident && p.2.stack == stack && p.2.core == core then
      (((upto p.2.groups.length).zip p.2.groups).filter (fun q => q.2.cluster == cluster)).map
        (fun q => (p.1, q.1, p.2, q.2))
    else [])

/-- The group whose turn it is: the first with a ready thread in rotation after a slot (R81). -/
def nextGroup (s : State) (gs : List (Nat × Nat × Block × Group)) (last : Nat) : Option (Nat × Nat × Block × Group) :=
  ((upto 16).findSome? (fun i => gs.find? (fun p => p.2.2.2.slot == (last + 1 + i) % 16 &&
    !(readyLanes s p.1 p.2.1 p.2.2.1 p.2.2.2).isEmpty)))

/-! What a move prepares. -/

/-- An armed breakpoint of the stack that a lane matches at the first word of an issue (R483), where host debug of the
partition is permitted (R520); one on which the thread stopped already does not match again (R484). -/
def breakpointFor (s : State) (k : Block) (g : Group) (lane : Nat) (t : Thread) (pc : Addr) : Option Nat :=
  if k.trapGroup || !debugPermitted s k.stack k.part then none
  else ((indexes (fun (p : Breakpoint) => p.enable && p.part == k.part && p.job == k.job && p.pc == pc &&
    (p.anyBlock || p.block.toNat == k.lin) && (p.anyLane || p.lane.toNat == 32 * g.num + lane))
    (s.stack k.stack).bps).filter (fun n => !t.bpSkip.getLsbD n)).head?

/-- Count missing pages once each in a block (R155). -/
def countPages (s : State) (b : Nat) (vas : List Addr) : State :=
  s.mapBlock b (fun k => { k with missing := nub (k.missing ++ vas) })

/-- What step executes for a move, besides what the move itself has done to the state. -/
inductive Todo where
  | nothing
  | run (i : Instr)
  | illegal (w : Word)
  | fetchFault (cause : BitVec 2)
  deriving DecidableEq, Repr, Inhabited

/-- The word that was fetched, decoded (R70). -/
def todoOf (w : Word) : Todo :=
  match decodeWord w with
  | .ok i => .run i
  | .error _ => .illegal w

/-- The breakpoint at which a lane stops before it issues its next instruction: a retry of a word that it has issued is no
new issue. -/
def stopsAt (s : State) (k : Block) (g : Group) (l : Nat) : Option Nat :=
  let t := g.thread l
  if t.hints.isEmpty && freshIssue t.run then breakpointFor s k g l t t.pc else none

/-- Lanes of an issue fetch their word, and the machine notes who acts. -/
def fetchIssue (s : State) (k : Block) (b gi : Nat) (pc : Addr) (hints : List Hint) (ls : List Nat) : State × Todo :=
  let r := fetchWord s k.stack k.core k.part k.priv pc
  match r.2 with
  | .wait p => ((countPages r.1 b [p]).blockLanes b gi ls (fun _ => .pages [p] false), .nothing)
  | .fault c => ({ r.1 with cur := .bundle b gi ls pc hints 0 }, .fetchFault c)
  | .word w => ({ r.1 with cur := .bundle b gi ls pc hints w }, todoOf w)

/-- A lane of the turn was ready and is not issued: its starvation count rises (R82). -/
def starve (s : State) (b gi : Nat) (ls : List Nat) : State :=
  if ls.isEmpty then s else s.mapLanes b gi ls (fun _ t => { t with starv := t.starv + 1 })

/-- A match waits for the end of the cycle. -/
def matchDue (s : State) : Bool := s.agenda.any (fun m => match m with
  | .event (.breakpointMatch _ _ _ _) => true
  | _ => false)

/-- Other cores of the stack with a block of the context, whose cycle is the same moment, as a free number says: it comes before
the stop, and the threads that match in it belong to the stop (R483). -/
def sameCycle (s : State) (k : Block) : List Move :=
  let cs := nub ((s.blocks.filter (fun o => o.phase == .resident && o.part == k.part && o.stack == k.stack && o.job == k.job &&
    o.core != k.core)).map (·.core))
  let n := Config.freeNat s.moves
  ((upto cs.length).zip cs).filterMap (fun p => if n.testBit p.1 then some (.cycle k.stack p.2) else none)

/-- An issue bundle: the lanes that the turn found ready at a key (R80) and that still can issue there. Lanes that wait
inside a word go on in it, by themselves; the others fetch theirs. Lanes that match a breakpoint stop when what else the
core does in this cycle is done, so that all that match in the cycle stop together (R483). -/
def prepareIssue (s : State) (b gi : Nat) (pc : Addr) (hints : List Hint) (lanes : List Nat) : State × Todo :=
  match s.block? b, s.group? b gi with
  | some k, some g =>
    let here := lanes.filter (fun l => (g.thread l).key == (pc, hints))
    let at_ := (readyLanes s b gi k g).filter here.contains
    let hit := at_.filterMap (fun l => (stopsAt s k g l).map (fun n => (l, n)))
    let ls := at_.filter (fun l => !(hit.any (fun p => p.1 == l)))
    let with_ := if hit.isEmpty || matchDue s then [] else sameCycle s k
    let s1 := starve { s with agenda := s.agenda ++ with_ ++ hit.map (fun p => .event (.breakpointMatch b gi p.1 p.2)) } b gi
      (here.filter (fun l => !ls.contains l))
    let held (l : Nat) : Option Word := if (g.thread l).run.inside then (g.thread l).held else none
    match ls, ls.findSome? held with
    | [], _ => (s1, .nothing)
    | _, some w =>
      let rest := ls.filter (fun l => held l != some w)
      ({ s1 with
        agenda := if rest.isEmpty then s1.agenda else .issue b gi pc hints rest :: s1.agenda
        cur := .bundle b gi (ls.filter (fun l => held l == some w)) pc hints w }, todoOf w)
    | _, none => fetchIssue s1 k b gi pc hints ls
  | _, _ => (s, .nothing)

/-- A row of a stream, or a word after the waits of R285, can go on only while the sequencer runs and holds the
array; a word whose waits are not over is not started. -/
def seqRuns (s : State) (b : Nat) (k : Block) : Bool :=
  k.phase == .resident && k.seq.state == .running && (s.core k.stack k.core).array == some b && ctxFree s k &&
    clockRuns s k.stack k.core

/-- The running sequencer of a block fetches its next word (R284). -/
def prepareSeq (s : State) (b : Nat) : State × Todo :=
  match s.block? b with
  | none => (s, .nothing)
  | some k =>
    if !seqRuns s b k then (s, .nothing)
    else
      let r := fetchWord s k.stack k.core k.part k.priv k.seq.pc
      match r.2 with
      | .wait p => ((countPages r.1 b [p]).mapBlock b (fun k => { k with seq := { k.seq with wait := .page p } }), .nothing)
      | .fault c => ({ r.1 with cur := .seq b k.seq.pc 0 }, .fetchFault c)
      | .word w =>
        ({ r.1 with cur := .seq b k.seq.pc w }, todoOf w)

end Sys2Proof.Machine
end

