-- ==== Sys2Proof/Machine/Float.lean ====
section
/-!
DEFINITION. Number formats, rounding and delivery (R183 to R195, R207), exact sums and products (R198 to R203, R206),
and the special functions of R205 by integer arithmetic with error bounds. No thread's state is touched here.
-/

namespace Sys2Proof.Machine

/-! Formats (R183, R187). -/

/-- Fraction bits. -/
def fracBits : Fmt → Nat
  | .f32 => 23
  | .f64 => 52
  | .f16 => 10
  | .bf16 => 7
  | .e4m3 => 3
  | .e5m2 => 2
  | .e2m1 => 1
  | .e8m0 => 0

/-- Exponent bits. -/
def expBits : Fmt → Nat
  | .f32 => 8
  | .f64 => 11
  | .f16 => 5
  | .bf16 => 8
  | .e4m3 => 4
  | .e5m2 => 5
  | .e2m1 => 2
  | .e8m0 => 8

def fmtBias : Fmt → Nat
  | .f64 => 1023
  | .f16 | .e5m2 => 15
  | .e4m3 => 7
  | .e2m1 => 1
  | _ => 127

/-- Bits of a value, its sign included. -/
def fmtWidth : Fmt → Nat
  | .f32 => 32
  | .f64 => 64
  | .f16 | .bf16 => 16
  | .e2m1 => 4
  | _ => 8

/-- The encoding of the largest finite magnitude. -/
def maxCode : Fmt → Nat
  | .f32 => 0x7F7F_FFFF
  | .f64 => 0x7FEF_FFFF_FFFF_FFFF
  | .f16 => 0x7BFF
  | .bf16 => 0x7F7F
  | .e4m3 => 0x7E
  | .e5m2 => 0x7B
  | .e2m1 => 0x7
  | .e8m0 => 0xFE

/-- The canonical NaN (R185); E2M1 has none. -/
def canonNaN : Fmt → Nat
  | .f64 => 0x7FF8_0000_0000_0000
  | .f32 => 0x7FC0_0000
  | .f16 => 0x7E00
  | .bf16 => 0x7FC0
  | .e4m3 | .e5m2 => 0x7F
  | .e8m0 => 0xFF
  | .e2m1 => 0

/-- Formats that fzin and fzout reach, which have infinities by the layout of IEEE 754 (R194). -/
def wideFmt : Fmt → Bool
  | .f32 | .f64 | .f16 | .bf16 => true
  | _ => false

def hasInf : Fmt → Bool
  | .e5m2 => true
  | f => wideFmt f

/-- A decoded value: a NaN, an infinity, or m × 2^e with its sign. -/
inductive FV where
  | nan
  | inf (neg : Bool)
  | fin (neg : Bool) (m : Nat) (e : Int)
  deriving DecidableEq, Repr, Inhabited

def FV.neg : FV → Bool
  | .inf n | .fin n _ _ => n
  | .nan => false

def FV.isZero : FV → Bool
  | .fin _ m _ => m == 0
  | _ => false

def FV.isNaN : FV → Bool
  | .nan => true
  | _ => false

def FV.flip : FV → FV
  | .nan => .nan
  | .inf n => .inf (!n)
  | .fin n m e => .fin (!n) m e

/-- The quantum of subnormals, and of the binade of the largest finite value. -/
def minQ (f : Fmt) : Int := 1 - (fmtBias f : Int) - fracBits f
def maxQ (f : Fmt) : Int := ((maxCode f >>> fracBits f : Nat) : Int) - fmtBias f - fracBits f

/-- The value of an encoding (R183). -/
def decodeF (f : Fmt) (n : Nat) : FV :=
  match f with
  | .e8m0 => if n % 256 = 255 then .nan else .fin false 1 ((n % 256 : Nat) - 127)
  | _ =>
    let fb := fracBits f
    let ex := n >>> fb % 2 ^ expBits f
    let fr := n % 2 ^ fb
    let sg := (n >>> (fmtWidth f - 1)) % 2 = 1
    if hasInf f ∧ ex = 2 ^ expBits f - 1 then (if fr = 0 then .inf sg else .nan)
    else if f = .e4m3 ∧ ex = 15 ∧ fr = 7 then .nan
    else if ex = 0 then .fin sg fr (minQ f)
    else .fin sg (2 ^ fb + fr) ((ex : Int) - fmtBias f - fb)

/-- An encoding is a subnormal: an exponent field of 0 and a fraction that is not (R201). -/
def isSub (f : Fmt) (n : Nat) : Bool := n >>> fracBits f % 2 ^ expBits f == 0 && n % 2 ^ fracBits f != 0

/-- An operand read under fzin (R189, R194). -/
def readF (f : Fmt) (fzin : Bool) (n : Nat) : FV :=
  if fzin && wideFmt f && isSub f n then .fin (n >>> (fmtWidth f - 1) % 2 == 1) 0 0 else decodeF f n

/-- The bits of a sign and a magnitude's code. -/
def signed (f : Fmt) (neg : Bool) (code : Nat) : Nat := if neg then code + 2 ^ (fmtWidth f - 1) else code

def infCode (f : Fmt) (neg : Bool) : Nat := signed f neg ((2 ^ expBits f - 1) * 2 ^ fracBits f)

/-! Flags (R191), as bits of k.fmode. -/

def fNV : Word := 0x0100
def fDZ : Word := 0x0200
def fOF : Word := 0x0400
def fUF : Word := 0x0800
def fNX : Word := 0x1000

/-! Rounding (R192, R195). -/

/-- A rounding mode with the draw of a stochastic one. -/
inductive Mode where
  | ne | tz | up | dn
  | sr (g : Nat)
  deriving DecidableEq, Repr, Inhabited

/-- Whether the value goes to the grid point of greater magnitude: r of D parts lie beyond lo, and a little more where
sticky; odd tells that lo is not the choice of a tie. -/
def goesUp (mode : Mode) (neg : Bool) (r D : Nat) (sticky odd : Bool) : Bool :=
  if r = 0 && !sticky then false
  else
    match mode with
    | .ne => decide (D < 2 * r) || (decide (D = 2 * r) && (sticky || odd))
    | .tz => false
    | .up => !neg
    | .dn => neg
    | .sr g => decide (2 ^ 32 ≤ r * 2 ^ 32 / D + g)

/-- m × 2^e in units of 2^q, rounded down, with what is left over and its unit. -/
def unitsOf (m : Nat) (e q : Int) : Nat × Nat × Nat :=
  if q ≤ e then (m * 2 ^ (e - q).toNat, 0, 1)
  else (m / 2 ^ (q - e).toNat, m % 2 ^ (q - e).toNat, 2 ^ (q - e).toNat)

/-- The magnitude's code on the grid of R192, extended above the largest finite value, and whether it is exact. -/
def roundMag (f : Fmt) (mode : Mode) (neg : Bool) (m : Nat) (e : Int) (sticky : Bool) : Nat × Bool :=
  match f with
  | .e8m0 =>
    let l := Nat.log2 m
    let E : Int := l + e + 127
    if E < 0 then
      let u := unitsOf m e (-127)
      (if goesUp mode neg u.2.1 u.2.2 sticky false then 1 else 0, false)
    else
      let r := m - 2 ^ l
      (E.toNat + 1 + (if goesUp mode neg r (2 ^ l) sticky (E % 2 = 1) then 1 else 0), r == 0 && !sticky)
  | _ =>
    let top : Int := (Nat.log2 m : Int) + e
    let q := min (max (top - fracBits f) (minQ f)) (maxQ f)
    let u := unitsOf m e q
    let n := u.1 + (if goesUp mode neg u.2.1 u.2.2 sticky (u.1 % 2 = 1) then 1 else 0)
    ((q - minQ f).toNat * 2 ^ fracBits f + n, u.2.1 == 0 && !sticky)

/-- An overflow is one that IEEE 754 delivers as an infinity under the mode (R207): stochastic rounding is no mode of
IEEE 754 (DEDUCED, entry 10). -/
def toInf (mode : Mode) (neg : Bool) : Bool :=
  match mode with
  | .ne => true
  | .tz | .sr _ => false
  | .up => !neg
  | .dn => neg

/-- Deliver a value to a float format: its encoding and flags (R185, R191, R192, R194, R207). -/
def deliverF (f : Fmt) (sat fzout : Bool) (mode : Mode) (sticky : Bool) (v : FV) : Nat × Word :=
  match v with
  | .nan => if f = .e2m1 then (0, fNV) else (canonNaN f, 0)
  | .inf neg =>
    if f = .e8m0 && neg then (0xFF, fNV)
    else if sat then (signed f neg (maxCode f), fNX)
    else if hasInf f then (infCode f neg, 0)
    else (canonNaN f, fNV)
  | .fin neg m e =>
    if m = 0 && !sticky then (if f = .e8m0 then (0xFF, fNV) else (signed f neg 0, 0))
    else if f = .e8m0 && neg then (0xFF, fNV)
    else
      let r := roundMag f mode neg m e sticky
      -- the codes of E8M0 are counted from 1, 0 standing for zero
      let lim := if f = .e8m0 then 0xFF else maxCode f
      if lim < r.1 then
        if toInf mode neg && !sat then
          ((if hasInf f then infCode f neg else canonNaN f), fOF ||| fNX)
        else (signed f neg (maxCode f), fOF ||| fNX)
      else if f = .e8m0 then
        (r.1 - 1, (if r.2 then 0 else fNX) ||| (if r.1 = 0 then fUF else 0))
      else
        let small := decide (r.1 < 2 ^ fracBits f)
        let fl := if r.2 then 0 else if small then fNX ||| fUF else fNX
        if fzout && wideFmt f && small && r.1 != 0 then (signed f neg 0, fl ||| fUF ||| fNX)
        else (signed f neg r.1, fl)

/-- Deliver a value to an integer of lo to hi (R207). -/
def deliverI (lo hi : Int) (mode : Mode) (v : FV) : Int × Word :=
  match v with
  | .nan => (0, fNV)
  | .inf neg => (if neg then lo else hi, fNV)
  | .fin neg m e =>
    let u := unitsOf m e 0
    let n := u.1 + (if goesUp mode neg u.2.1 u.2.2 false (u.1 % 2 = 1) then 1 else 0)
    let x : Int := if neg then -(n : Int) else n
    if x < lo then (lo, fNV) else if hi < x then (hi, fNV) else (x, if u.2.1 = 0 then 0 else fNX)

/-! Exact operations (R198, R202, R203, R206). -/

/-- A product, with nv where it has no numeric result. -/
def mulF (a b : FV) : FV × Bool :=
  match a, b with
  | .nan, _ | _, .nan => (.nan, false)
  | .inf n, y => if y.isZero then (.nan, true) else (.inf (n != y.neg), false)
  | x, .inf n => if x.isZero then (.nan, true) else (.inf (x.neg != n), false)
  | .fin n m e, .fin k l d => (.fin (n != k) (m * l) (e + d), false)

/-- The least exponent of the terms, and their sum in that unit. -/
def sumExp (ts : List FV) : Int :=
  (ts.filterMap (fun t => match t with
    | .fin _ m e => if m = 0 then none else some e
    | _ => none)).foldl min 4096

def termIn (q : Int) : FV → Int
  | .fin neg m e => let x : Int := (m * 2 ^ (e - q).toNat : Nat); if m = 0 then 0 else if neg then -x else x
  | _ => 0

/-- The exact sum of terms, with nv, which infinities of both signs set whatever the other terms are (R202); an exact zero is
−0 where every term is −0 or the sum rounds down (R206). -/
def sumF (down : Bool) (ts : List FV) : FV × Bool :=
  let infs := ts.filter (fun t => match t with
    | .inf _ => true
    | _ => false)
  match infs with
  | t :: rest =>
    if rest.any (fun u => u.neg != t.neg) then (.nan, true)
    else if ts.any FV.isNaN then (.nan, false) else (t, false)
  | [] =>
    if ts.any FV.isNaN then (.nan, false)
    else
      let q := sumExp ts
      let total := (ts.map (termIn q)).sum
      if total = 0 then
        let neg := if ts.all FV.isZero && (ts.all FV.neg || ts.all (fun t => !t.neg)) then ts.all FV.neg else down
        (.fin neg 0 0, false)
      else (.fin (decide (total < 0)) total.natAbs q, false)

def nvFlag (b : Bool) : Word := if b then fNV else 0

/-- The products of elements and further terms summed exactly and delivered once. A product of zero and infinity is
invalid whatever the other terms are (R202, R203). -/
def sumOfProducts (f : Fmt) (fzout : Bool) (mode : Mode) (ps : List (FV × FV)) (more : List FV) : Nat × Word :=
  let prods := ps.map (fun p => mulF p.1 p.2)
  if prods.any (·.2) then (canonNaN f, fNV)
  else
    let s := sumF (mode == .dn) (prods.map (·.1) ++ more)
    if s.2 then (canonNaN f, fNV) else deliverF f false fzout mode false s.1

/-- Clamp to +0 to 1.0 (R199). -/
def clampF (f : Fmt) (n : Nat) : Nat :=
  match decodeF f n with
  | .nan => 0
  | .inf neg => if neg then 0 else fmtBias f * 2 ^ fracBits f
  | .fin neg m _ => if neg || m == 0 then 0 else min n (fmtBias f * 2 ^ fracBits f)

/-- The order of two values; none where one is a NaN; −0 equals +0 (R204). -/
def cmpF (a b : FV) : Option Ordering :=
  match a, b with
  | .nan, _ | _, .nan => none
  | .inf x, .inf y => some (if x = y then .eq else if x then .lt else .gt)
  | .inf x, _ => some (if x then .lt else .gt)
  | _, .inf y => some (if y then .gt else .lt)
  | x, y =>
    let q := sumExp [x, y]
    some (compare (termIn q x) (termIn q y))

/-- min and max of R200: −0 is less than +0, and one NaN gives the other operand. -/
def pickF (f : Fmt) (big : Bool) (fzin fzout : Bool) (x y : Nat) : Nat :=
  let a := readF f fzin x
  let b := readF f fzin y
  let code (n : Nat) (v : FV) : Nat :=
    if v.isZero || (fzout && wideFmt f && isSub f n) then signed f v.neg 0 else n
  match a, b with
  | .nan, .nan => canonNaN f
  | .nan, _ => code y b
  | _, .nan => code x a
  | _, _ =>
    let less := match cmpF a b with
      | some .lt => true
      | some .eq => a.neg && !b.neg
      | _ => false
    if less != big then code x a else code y b

/-- The class mask of an encoding (R201). -/
def classF (f : Fmt) (n : Nat) : Nat :=
  let neg := n >>> (fmtWidth f - 1) % 2 == 1
  match decodeF f n with
  | .nan => 0x100
  | .inf _ => if neg then 0x001 else 0x080
  | .fin _ m _ =>
    if m = 0 then (if neg then 0x008 else 0x010)
    else if isSub f n then (if neg then 0x004 else 0x020)
    else (if neg then 0x002 else 0x040)

/-! Special functions (R205). A value is bracketed between two integers over 2^P, found at a working precision of 64
more bits; where both ends round alike, that is the result. -/

/-- Terms x^(2k+1) / (2k+1), all of one sign or alternating, for x = 1 / n, at precision W. -/
def invSeries (alt : Bool) (n : Int) (t : Int) (k : Int) : Nat → Int
  | 0 => 0
  | fuel + 1 => if t = 0 then 0 else t / k + (if alt then -1 else 1) * invSeries alt n (t / (n * n)) (k + 2) fuel

/-- π and ln 2 over 2^W. -/
def piFix (W : Nat) : Int := 16 * invSeries true 5 (2 ^ W / 5) 1 W - 4 * invSeries true 239 (2 ^ W / 239) 1 W
def ln2Fix (W : Nat) : Int := 2 * invSeries false 3 (2 ^ W / 3) 1 W

/-- Σ x^k / k! from the term t with index k on, all over 2^W. -/
def expSeries (W : Nat) (x t : Int) (k : Int) : Nat → Int
  | 0 => 0
  | fuel + 1 => if t = 0 ∨ t = -1 then t else t + expSeries W x (t * x / 2 ^ W / k) (k + 1) fuel

/-- Σ ± x^(2j) / ((k)(k+1)…), the sine or cosine series from the term t on; y is x² over 2^W. -/
def trigSeries (W : Nat) (y t : Int) (k : Int) : Nat → Int
  | 0 => 0
  | fuel + 1 => if t = 0 ∨ t = -1 then t else t + trigSeries W y (-(t * y / 2 ^ W / (k * (k + 1)))) (k + 2) fuel

/-- 2 atanh z: Σ 2 z^(2k+1) / (2k+1); y is z² over 2^W. -/
def atanhSeries (W : Nat) (y t : Int) (k : Int) : Nat → Int
  | 0 => 0
  | fuel + 1 => if t = 0 ∨ t = -1 then t else t / k + atanhSeries W y (t * y / 2 ^ W) (k + 2) fuel

/-- x over 2^W, rounded down. -/
def fixOf (neg : Bool) (m : Nat) (e : Int) (W : Nat) : Int :=
  let n : Int := (unitsOf m e (-(W : Int))).1
  if neg then -n else n

/-- A bracket: the value times 2^-x lies between lo and hi over 2^P. -/
structure Bracket where
  lo : Int
  hi : Int
  scale : Int
  deriving DecidableEq, Repr, Inhabited

/-- The bracket around a value found at 64 more bits with an error below 2^40 of its units. -/
def bracketOf (v : Int) (scale : Int) : Bracket := ⟨v / 2 ^ 64 - 1, v / 2 ^ 64 + 2, scale⟩

/-- exp2 of a value: 2^n × e^(f ln 2). -/
def exp2Fix (P : Nat) (neg : Bool) (m : Nat) (e : Int) : Bracket :=
  let W := P + 64
  if 2048 ≤ m * 2 ^ e.toNat / 2 ^ (-e).toNat then ⟨2 ^ P, 2 ^ P + 1, if neg then -2048 else 2048⟩
  else
    let x := fixOf neg m e W
    let n := x / 2 ^ W
    let f := x % 2 ^ W
    bracketOf (expSeries W (f * ln2Fix W / 2 ^ W) (2 ^ W) 1 W) n

/-- log2 of a positive value: n + ln y / ln 2, with y in [1, 2). -/
def log2Fix (P : Nat) (m : Nat) (e : Int) : Bracket :=
  let W := P + 64
  let l := Nat.log2 m
  let y := fixOf false m (-(l : Int)) W
  let z := (y - 2 ^ W) * 2 ^ W / (y + 2 ^ W)
  let ln := 2 * atanhSeries W (z * z / 2 ^ W) z 1 W
  bracketOf (((l : Int) + e) * 2 ^ W + ln * 2 ^ W / ln2Fix W) 0

/-- sine or cosine: the argument less a multiple of π/2, found with 192 bits more. -/
def trigFix (cosine : Bool) (P : Nat) (neg : Bool) (m : Nat) (e : Int) : Bracket :=
  let W := P + 64
  let V := W + 192
  let h := piFix V / 2
  let x := fixOf neg m e V
  let k := (2 * x + h) / (2 * h)
  let r := (x - k * h) / 2 ^ 192
  let y := r * r / 2 ^ W
  let sn := trigSeries W y r 2 W
  let cs := trigSeries W y (2 ^ W) 1 W
  let j := ((k + (if cosine then 1 else 0)) % 4).toNat
  bracketOf (match j with
    | 0 => sn
    | 1 => cs
    | 2 => -sn
    | _ => -cs) 0

/-- tanh: (1 − u) / (1 + u) with u = e^(−2|x|). -/
def tanhFix (P : Nat) (neg : Bool) (m : Nat) (e : Int) : Bracket :=
  let W := P + 64
  let one : Int := 2 ^ W
  let big := 2048 ≤ m * 2 ^ e.toNat / 2 ^ (-e).toNat
  let t := 2 * fixOf false m e W
  let l := ln2Fix W
  let k := t / l
  let u := if big then 0 else expSeries W (-(t - k * l)) one 1 W / 2 ^ k.toNat
  let v := (one - u) * one / (one + u)
  bracketOf (if neg then -v else v) 0

/-- The result where both ends of a bracket at precision P round alike. -/
def settled (f : Fmt) (fzout : Bool) (P : Nat) (b : Bracket) : Option (Nat × Word) :=
  if 0 < b.lo then
    let x := deliverF f false fzout .ne true (.fin false b.lo.toNat (b.scale - P))
    let y := deliverF f false fzout .ne true (.fin false b.hi.toNat (b.scale - P))
    if x = y then some x else none
  else if b.hi < 0 then
    let x := deliverF f false fzout .ne true (.fin true (-b.hi).toNat (b.scale - P))
    let y := deliverF f false fzout .ne true (.fin true (-b.lo).toNat (b.scale - P))
    if x = y then some x else none
  else none

/-- The special functions with brackets. -/
inductive Fn where
  | exp2 | log2 | sin | cos | tanh
  deriving DecidableEq, Repr, Inhabited

def Fn.code : Fn → Nat
  | .exp2 => 0
  | .log2 => 1
  | .sin => 2
  | .cos => 3
  | .tanh => 4

def bracket (fn : Fn) (P : Nat) (neg : Bool) (m : Nat) (e : Int) : Bracket :=
  match fn with
  | .exp2 => exp2Fix P neg m e
  | .log2 => log2Fix P m e
  | .sin => trigFix false P neg m e
  | .cos => trigFix true P neg m e
  | .tanh => tanhFix P neg m e

/-- Growing precision; what none of them decides is a free value (entry 7). -/
def approxF (fn : Fn) (f : Fmt) (fzout : Bool) (neg : Bool) (m : Nat) (e : Int) (arg : Nat) : Nat × Word :=
  ([128, 256, 512, 1024].findSome? (fun P => settled f fzout P (bracket fn P neg m e))).getD
    (Config.undecided fn.code arg % 2 ^ fmtWidth f, fNX)

/-- log2 of a positive dyadic number is exact only for a power of two. -/
def exactLog (m : Nat) (e : Int) : Option FV :=
  if m = 2 ^ Nat.log2 m then
    let n : Int := (Nat.log2 m : Int) + e
    some (.fin (decide (n < 0)) n.natAbs 0)
  else none

/-- exp2 of an integer is exact. -/
def exactExp (neg : Bool) (m : Nat) (e : Int) : Option FV :=
  let u := unitsOf m e 0
  if u.2.1 = 0 && decide (u.1 < 4096) then some (.fin false 1 (if neg then -(u.1 : Int) else u.1)) else none

def oneF : FV := .fin false 1 0

/-- A special function of the table of R205 on one element. -/
def specialF (fn : Fn) (f : Fmt) (fzin fzout : Bool) (n : Nat) : Nat × Word :=
  let out (v : FV) : Nat × Word := deliverF f false fzout .ne false v
  match fn, readF f fzin n with
  | _, .nan => (canonNaN f, 0)
  | .exp2, .inf neg => if neg then out (.fin false 0 0) else (infCode f false, 0)
  | .log2, .inf neg => if neg then (canonNaN f, fNV) else (infCode f false, 0)
  | .sin, .inf _ | .cos, .inf _ => (canonNaN f, fNV)
  | .tanh, .inf neg => out (.fin neg 1 0)
  | .exp2, .fin neg m e =>
    match exactExp neg m e with
    | some v => out v
    | none => approxF .exp2 f fzout neg m e n
  | .log2, .fin neg m e =>
    if m = 0 then (infCode f true, fDZ)
    else if neg then (canonNaN f, fNV)
    else match exactLog m e with
      | some v => out v
      | none => approxF .log2 f fzout false m e n
  | .cos, .fin neg m e => if m = 0 then out oneF else approxF .cos f fzout neg m e n
  | fn, .fin neg m e => if m = 0 then out (.fin neg 0 0) else approxF fn f fzout neg m e n

/-- Reciprocal: exact, with 200 quotient bits and whether a remainder is left. -/
def rcpF (f : Fmt) (fzin fzout : Bool) (n : Nat) : Nat × Word :=
  match readF f fzin n with
  | .nan => (canonNaN f, 0)
  | .inf neg => (signed f neg 0, 0)
  | .fin neg m e =>
    if m = 0 then (infCode f neg, fDZ)
    else deliverF f false fzout .ne (2 ^ 200 % m != 0) (.fin neg (2 ^ 200 / m) (-200 - e))

/-- Square root: the integer root of an even power, and whether a remainder is left. -/
def sqrtF (f : Fmt) (fzin fzout : Bool) (n : Nat) : Nat × Word :=
  match readF f fzin n with
  | .nan => (canonNaN f, 0)
  | .inf neg => if neg then (canonNaN f, fNV) else (infCode f false, 0)
  | .fin neg m e =>
    if m = 0 then (signed f neg 0, 0)
    else if neg then (canonNaN f, fNV)
    else
      let odd := e % 2 = 1
      let x := (if odd then 2 * m else m) * 2 ^ 200
      let r := Nat.sqrt x
      deliverF f false fzout .ne (r * r != x) (.fin false r ((if odd then e - 1 else e) / 2 - 100))

/-- Reciprocal square root. -/
def rsqrtF (f : Fmt) (fzin fzout : Bool) (n : Nat) : Nat × Word :=
  match readF f fzin n with
  | .nan => (canonNaN f, 0)
  | .inf neg => if neg then (canonNaN f, fNV) else (signed f false 0, 0)
  | .fin neg m e =>
    if m = 0 then (infCode f neg, fDZ)
    else if neg then (canonNaN f, fNV)
    else
      let odd := e % 2 = 1
      let d := if odd then 2 * m else m
      let x := 2 ^ 400 / d
      let r := Nat.sqrt x
      deliverF f false fzout .ne (r * r != x || 2 ^ 400 % d != 0) (.fin false r (-((if odd then e - 1 else e) / 2) - 200))

/-! The generator (R196). -/

/-- A draw: the state after it, and g. -/
def drawG (s : DWord) : DWord × Word :=
  let a := s ^^^ (s <<< 13)
  let b := a ^^^ (a >>> 7)
  let c := b ^^^ (b <<< 17)
  (c, ((c * 0xC3A5_2D97_6E1B_F04B) >>> 32).setWidth 32)

end Sys2Proof.Machine
end

