-- ==== Sys2Proof/Machine/Memory.lean ====
section
/-!
DEFINITION. Memory accesses (R139 to R182): the parts of an access and their translation, watchpoints (R463), loads,
stores, constant and scratchpad space, prefetch and probe, how an access in flight is performed and fills its
registers, and the reliability events of near DRAM (R166 to R172).
-/

namespace Sys2Proof.Machine

/-! Lanes of one issue, one after another in ascending order. -/

/-- Every active lane acts in ascending order on the state that the lanes before it left; the registers that it
reads are those at issue. -/
def eachLane (f : Issue → Block → Group → Nat → Thread → State → State × List Trap) : Body := fun is s =>
  match s.block? is.blk, s.group? is.blk is.grp with
  | some k, some g => is.act.foldl (fun (acc : State × List Trap) l =>
      let r := f is k g l (g.thread l) acc.1
      (r.1, acc.2 ++ r.2)) (s, [])
  | _, _ => (s, [])

/-- During a core's sweep its memory instructions wait at issue (R154); a thread that waits inside one has issued it. -/
def unlessSwept (body : Body) : Body := fun is s =>
  match s.block? is.blk with
  | none => (s, [])
  | some k =>
    let out := is.act.filter (fun l => !(s.thread? is.blk is.grp l).elim false (·.run.inside))
    if s.now k.stack k.core < (s.core k.stack k.core).sweepTo ∧ out ≠ [] then
      (s.blockLanes is.blk is.grp out (fun _ => .sweep), [])
    else
      let r := body is s
      (r.1.draw, r.2)

/-! Parts and translation (R145, R151, R153). -/

/-- The parts of an access of w bytes at the 64 KiB boundary, each with its length (R151; entry 8). -/
def partsOf (va : Addr) (w : Nat) : List (Addr × Nat) :=
  let r := 65536 - va.toNat % 65536
  if w ≤ r then [(va, w)] else [(va, r), (va + BitVec.ofNat 56 r, w - r)]

/-- Translate one page for a lane: its lane page register, or the core's translations, which it then holds (R153). -/
def xlateLane (s0 : State) (k : Block) (cluster lane : Nat) (use : Use) (va : Addr) : State × Tr :=
  let s := if laneHits s0 k.stack k.core cluster lane k.part va then s0 else missesTlb s0 k.stack k.core k.part va
  let r := outcome (laneLookup s0 k.stack k.core cluster lane k.part va) va use k.priv
  match r with
  | .ok t => ((holdLane s k.stack k.core cluster lane t).draw, r)
  | _ => (s.draw, r)

/-- Translate without a lane: uniform forms, units and the constant cache. -/
def xlateCore (s0 : State) (k : Block) (use : Use) (va : Addr) : State × Tr :=
  let s := missesTlb s0 k.stack k.core k.part va
  let r := outcome (coreLookup s0 k.stack k.core k.part va) va use k.priv
  match r with
  | .ok t => ((holdTrans s k.stack k.core t).draw, r)
  | _ => (s.draw, r)

/-- Translate every part in address order. -/
def xlateAll (x : State → Addr → State × Tr) (s : State) : List (Addr × Nat) → State × List (Addr × Nat × Tr)
  | [] => (s, [])
  | p :: ps =>
    let r := x s p.1
    let q := xlateAll x r.1 ps
    (q.1, (p.1, p.2, r.2) :: q.2)

/-- The first unrecoverable part's cause: 3 missing mapping, 4 permission error (R458). -/
def badCause (ps : List (Addr × Nat × Tr)) : Option Nat :=
  ps.findSome? (fun p => match p.2.2 with
    | .missing => some 3
    | .denied => some 4
    | _ => none)

/-- The pages whose service is awaited. -/
def pagesOf (ps : List (Addr × Nat × Tr)) : List Addr :=
  ps.filterMap (fun p => match p.2.2 with
    | .recoverable q => some q
    | _ => none)

def piecesOf (ps : List (Addr × Nat × Tr)) : List Piece :=
  ps.filterMap (fun p => match p.2.2 with
    | .ok t => some ⟨.mem, t.pa p.1.toNat, p.2.1⟩
    | _ => none)

def transOf (ps : List (Addr × Nat × Tr)) : List Trans :=
  ps.filterMap (fun p => match p.2.2 with
    | .ok t => some t
    | _ => none)

/-- Translations used, as an invalidation names them: virtual page and its size (R154). -/
def usedPages (ts : List Trans) : List (Nat × Nat) := ts.map (fun t => (t.vpage, t.shift))

/-! Watchpoints (R463). -/

/-- Classes of access: load, store, atomic, by their bit in ctl. -/
def watchLoad : Nat := 0
def watchStore : Nat := 1
def watchAtomic : Nat := 2

/-- Byte x lies in the range of a watchpoint, modulo 2^56. -/
def Watch.holds (w : Watch) (x : Addr) : Bool := decide ((x - w.base).toNat < w.len.toNat)

/-- Mask of the watchpoints that an access of a context matches. -/
def watchMask (s : State) (k : Block) (t : Thread) (va : Addr) (w cls : Nat) : Nat :=
  if t.unwatched then 0
  else
    match s.ctx? k.part k.stack k.job with
    | none => 0
    | some c => (((upto 4).zip c.wps).map (fun p =>
        if p.2.ctl.getLsbD cls && (upto w).any (fun j => p.2.holds (va + BitVec.ofNat 56 j))
        then 2 ^ p.1 else 0)).sum

/-! Classes (R147) and the parts that are performed by themselves (R151). -/

/-- Scope code of an acquire or release: the one written, or the default (R150). -/
def scopeOr (default : Nat) (written : BitVec 3) : Nat := if written = 0 then default else written.toNat

/-- The class of a part, from the instruction's class and scope and the page's ordering attribute. Scope thread orders
nothing (R150). -/
def effClass (vol acq rel load : Bool) (scope attr : Nat) : Eff :=
  match attr with
  | 1 => ⟨true, load, !load, true, 7⟩
  | 2 => ⟨false, false, false, vol, scope⟩
  | _ => ⟨vol, acq && scope != 1, rel && scope != 1, vol, scope⟩

/-- Parts of an access, each as one share or byte by byte, from a place of the access on. -/
def sharesFrom (whole : Bool) (off : Nat) : List (Piece × Eff) → List Share
  | [] => []
  | (p, e) :: ps =>
    (if whole then [⟨off, p, e⟩] else (upto p.len).map (fun j => ⟨off + j, ⟨p.space, p.addr + j, 1⟩, e⟩)) ++
      sharesFrom whole (off + p.len) ps

/-- What is performed by itself of an access: all of an aligned access of one part, by halves where it is of 16 bytes in
host memory, and else each byte (R151, R162). -/
def sharesOf (aligned : Bool) (ps : List (Piece × Eff)) : List Share :=
  match ps with
  | [(p, e)] =>
    if aligned && p.len == 16 && p.space == .mem && region? p.addr == some .host then
      sharesFrom true 0 [(⟨.mem, p.addr, 8⟩, e), (⟨.mem, p.addr + 8, 8⟩, e)]
    else sharesFrom aligned 0 [(p, e)]
  | _ => sharesFrom false 0 ps

/-- Pieces of the parts that have translated, each with the class that its page gives it. -/
def classed (cls : Nat → Eff) (ps : List (Addr × Nat × Tr)) : List (Piece × Eff) :=
  ps.filterMap (fun p => match p.2.2 with
    | .ok t => some (⟨.mem, t.pa p.1.toNat, p.2.1⟩, cls t.ordering)
    | _ => none)

/-! Accesses in flight. -/

/-- Accesses in flight that those of a thread must follow (R236). -/
def behindOf (s : State) (b tid : Nat) : List Nat :=
  match (s.block? b).bind (·.find tid) with
  | none => []
  | some (g, l) => s.still ((s.thread? b g l).elim [] (·.behind))

/-- An access with nothing set but its owner, and what its thread's accesses must follow. -/
def Access.new (s : State) (is : Issue) (batch : Nat) (tid : Nat) (kind : AccKind) : Access where
  id := s.moves
  batch := batch
  after := behindOf s is.blk tid
  blk := is.blk
  grp := is.grp
  tid := tid
  kind := kind
  dst := none
  pieces := []
  vol := false
  acq := false
  rel := false
  waits := []
  va := 0
  pages := []
  remote := false
  l1 := false
  once := false
  scope := 0
  mates := []
  later := []
  off := 0
  got := []
  guess := Config.freeNat s.moves % 3
  passed := []
  cache := 0

/-- The access with the parts that it is performed in. -/
def Access.withShares (a : Access) : List Share → Access
  | [] => a
  | x :: xs => { a with
    pieces := [x.piece]
    off := x.off
    vol := x.eff.vol
    acq := x.eff.acq
    rel := x.eff.rel
    once := x.eff.once
    scope := x.eff.scope
    later := xs }

/-- The part that is performed next. -/
def Access.present (a : Access) : List Share :=
  a.pieces.map (fun p => ⟨a.off, p, ⟨a.vol, a.acq, a.rel, a.once, a.scope⟩⟩)

/-- All that is still to be performed of it. -/
def Access.spans (a : Access) : List Piece := a.pieces ++ a.later.map (·.piece)

/-- Who performs the present part (R213, R219). -/
def Access.who (a : Access) : Who :=
  { parties := (a.tid :: a.mates).map (.thread a.blk)
    acc := a.id
    after := a.after
    acq := if a.acq then some a.scope else none
    rel := if a.rel then some a.scope else none
    vol := a.vol }

/-- Put an access in flight. -/
def State.fly (s : State) (a : Access) : State := { s with accesses := s.accesses ++ [a], moves := s.moves + 1 }

/-- The memory of a piece is not the stack's own DRAM (R161). -/
def remotePiece (stack : Nat) (p : Piece) : Bool :=
  p.space == .mem && (match region? p.addr with
    | some (.near k) | some (.far k) => k != stack
    | _ => true)

/-- Fill the registers of an access's destination, which move with the thread (R109, R469). -/
def fillRegs (s : State) (a : Access) (rs : List Reg) : State :=
  match a.dst with
  | none => s
  | some d =>
    if d.uni then s.mapGroup a.blk d.grp (fun g => g.setSregs d.idx rs)
    else
      match (s.block? a.blk).bind (·.find a.tid) with
      | none => s
      | some (g, l) => s.mapLanes a.blk g [l] (fun _ t => t.setRegs d.idx rs)

/-- The access is complete. -/
def State.done (s : State) (a : Access) : State := { s with accesses := s.accesses.filter (fun b => b.id != a.id) }

/-- Complete an access with register values. -/
def completeWith (s : State) (a : Access) (rs : List Reg) : State := fillRegs (s.done a) a rs

def FillDst.poison (d : FillDst) : List Reg := List.replicate d.n poison0
def FillDst.zeros (d : FillDst) : List Reg := List.replicate d.n (full 0)

def Access.poison (a : Access) : List Reg := (a.dst.elim [] FillDst.poison)

/-! The order of a thread's own accesses (R148, R149, R152, R218). -/

/-- The class of the present part. A load that has still to translate has none: until it has, its thread's accesses take
their order from the class that it would have on a page of a free ordering attribute (R147, R218; entry 95). -/
def Access.eff (a : Access) : Eff :=
  if a.untold then effClass a.vol a.acq false true a.scope a.guess else ⟨a.vol, a.acq, a.rel, a.once, a.scope⟩

def Access.vols (a : Access) : Bool := a.eff.vol || a.later.any (·.eff.vol)
def Access.acqs (a : Access) : Bool := a.eff.acq || a.later.any (·.eff.acq)

/-- The bytes at another module that an access names: module, stack, partition, address, number (R510). -/
def AccKind.far : AccKind → Option ((Nat × Nat × Nat) × Addr × Nat)
  | .fabric m st pt (.store va bs) => some ((m, st, pt), va, bs.length)
  | .fabric m st pt (.fsemInc va _) | .fabric m st pt (.fsemRd va) => some ((m, st, pt), va, 8)
  | _ => none

/-- Two runs of addresses share one, modulo 2^56. -/
def runsMeet (a b : Addr × Nat) : Bool := decide ((b.1 - a.1).toNat < a.2) || decide ((a.1 - b.1).toNat < b.2)

/-- A constant access is of a space of its own and follows no order (R139, R165). -/
def AccKind.constant : AccKind → Bool
  | .const _ _ => true
  | _ => false

/-- Width of the bytes that an access translates. -/
def AccKind.span : AccKind → Nat
  | .load w _ => w.bytes
  | _ => 0

/-- What is left of e shares a byte with the present part of a (R149): of another module by the address there, and by the
virtual address where e has still to translate. -/
def commonByte (e a : Access) : Bool :=
  !e.kind.constant && !a.kind.constant &&
  (e.spans.any (fun p => a.pieces.any p.meets) ||
    (e.untold && a.pieces.any (fun p => p.space == .mem &&
      runsMeet (e.va, e.kind.span) (a.va + BitVec.ofNat 56 a.off, p.len))) ||
    (match e.kind.far, a.kind.far with
      | some x, some y => x.1 == y.1 && runsMeet x.2 y.2
      | _, _ => false))

/-- They are accesses of one thread. -/
def sameThread (e a : Access) : Bool := (e.tid :: e.mates).any (fun t => (a.tid :: a.mates).contains t)

/-- Accesses of a thread still in flight. -/
def accessesOf (s : State) (b tid : Nat) : List Access :=
  s.accesses.filter (fun a => a.blk == b && (a.tid :: a.mates).contains tid)

/-- Accesses of the thread that a read of these bytes at once must follow (R149), or that it would pass as an acquire. -/
def mustFollow (s : State) (b tid : Nat) (ps : List Piece) : List Nat :=
  ((accessesOf s b tid).filter (fun e => e.acqs || e.vols || e.spans.any (fun p => ps.any p.meets))).map (·.id) ++
    behindOf s b tid

/-- The access fills registers from what it reads; the other kinds are performed as a move of their own. -/
def AccKind.fills : AccKind → Bool
  | .load _ _ | .const _ _ | .pixel | .fsemRd | .fsemWait _ _ | .value _ | .accLd _ _ => true
  | _ => false

/-- The present part of an access must follow an earlier access e (R148, R149, R152, R218, R228): one of its threads, or of
a lower lane of its issue. -/
def holdsBack (e a : Access) : Bool :=
  decide (e.id < a.id) && e.blk == a.blk &&
  ((sameThread e a && (commonByte e a || (a.vol && e.vols) || a.rel || e.acqs)) || (e.batch == a.batch && commonByte e a))

/-- The present part of an access can be performed: all that it must follow has been. -/
def mayPerform (s : State) (a : Access) : Bool :=
  a.waits.isEmpty && (s.still a.after).isEmpty && s.accesses.all (fun e => !holdsBack e a)

/-- An access in flight, changed. -/
def State.setAccess (s : State) (a : Access) : State :=
  { s with accesses := s.accesses.map (fun b => if b.id == a.id then a else b) }

/-- The part that is performed next: the first of an access that is volatile in any part, and else a free one (R151). -/
def Access.turn (a : Access) (n : Nat) : Access :=
  let parts := a.present ++ a.later
  if a.later.isEmpty || parts.any (·.eff.once) then a
  else a.withShares (parts.drop (n % parts.length) ++ parts.take (n % parts.length))

/-! The L1 data caches (R22, R26, R179, R182, R217; entry 18). -/

/-- A read that is satisfied at the point of coherence: a volatile one, or an acquire of stack scope or wider (R217). -/
def Access.atPoint (a : Access) : Bool := a.once || a.vol || (a.acq && decide (5 ≤ a.scope))

/-- The line of 128 bytes in which all bytes of an access lie. -/
def oneLine (ps : List Piece) : Option Nat :=
  match ps with
  | [p] => if p.space = .mem ∧ 0 < p.len ∧ (p.addr + p.len - 1) / 128 = p.addr / 128 then some (p.addr / 128) else none
  | _ => none

def linePiece (ln : Nat) : Piece := ⟨.mem, 128 * ln, 128⟩

/-- A core's L1 gives up the lines that pieces touch (R182). -/
def dropLines (s : State) (stack core : Nat) (ps : List Piece) : State :=
  s.mapCore stack core (fun c => { c with l1 := c.l1.filter (fun x => !ps.any (fun p => p.meets (linePiece x.1))) })

/-- A line enters a full L1 in place of the last one: behind all others where it was read with .first, before them where with
.last, and else after those read with .last (R182). -/
def placeLine (x : Nat × Nat × Nat) (l1 : List (Nat × Nat × Nat)) : List (Nat × Nat × Nat) :=
  let rest := (l1.filter (fun y => y.1 != x.1)).take 1023
  match x.2.2 with
  | 1 => rest ++ [x]
  | 2 => x :: rest
  | _ => rest.takeWhile (fun y => y.2.2 == 2) ++ x :: rest.dropWhile (fun y => y.2.2 == 2)

/-- The L1 of 128 KiB may keep a line as it was read, if none of it is poisoned. -/
def keepLine (s0 : State) (stack core ln n cache : Nat) : State :=
  if Config.keepLine s0.moves then
    let s := meetUpsets s0 [linePiece ln]
    if s.poisoned (linePiece ln) then s
    else s.mapCore stack core (fun c => { c with l1 := placeLine (ln, n, cache) c.l1 })
  else s0

/-- Bytes of the present part of a load of a core: at the point of coherence, from a line that the L1 holds, or as of a
free moment, at which the L1 may then keep the line. -/
def readL1 (s : State) (k : Block) (a : Access) : State × Option (List Byte) :=
  if a.atPoint then readBytes s k.stack a.who .point a.pieces
  else
    let n := lookAt s false ((a.pieces.map (s.order.floor a.who)).foldl max 0) 0
    match (if a.l1 then oneLine a.pieces else none) with
    | none => readBytes s k.stack a.who (.asOf n) a.pieces
    | some ln =>
      match ((s.core k.stack k.core).l1.find? (fun x => x.1 == ln)).filter (fun _ => Config.hitLine s.moves) with
      | some x =>
        if a.pieces.any s.poisoned then (s, none)
        else
          let r := s.readAs a.who (.asOf x.2.1) a.pieces
          (r.1.draw, some r.2)
      | none =>
        let r := readBytes s k.stack a.who (.asOf n) a.pieces
        ((if r.2.isSome then keepLine r.1 k.stack k.core ln n a.cache else r.1).draw, r.2)

/-! Loads (R173, R175, R181). -/

/-- Registers of a loaded value (R173). -/
def loadRegs (w : LdW) (bs : List Byte) : List Reg :=
  match w with
  | .i8 => [full ((BitVec.ofNat 8 (leNat bs)).signExtend 32)]
  | .i16 => [full ((BitVec.ofNat 16 (leNat bs)).signExtend 32)]
  | .n8 | .n16 | .b32 => [full (BitVec.ofNat 32 (leNat bs))]
  | .b64 => (wordsOfBytes bs 2).map full
  | .b128 => (wordsOfBytes bs 4).map full

/-- The thread marks its destination empty and continues (R173). -/
def issueLoad (s : State) (is : Issue) (l idx n : Nat) : State :=
  s.mapLanes is.blk is.grp [l] (fun _ t => { t.next with regs := markEmpty t.regs idx n })

/-- The base address of an access in global space (R140). -/
def globalAddr (g : Group) (t : Thread) (a : Src) (off : BitVec 64) : Addr :=
  regAddr (g.vregsAt t a.f 2) + off.setWidth 56

/-- A load that has translated: what it is performed in, and the translations that it used. -/
def Access.translated (a : Access) (stack : Nat) (cls : Nat → Eff) (aligned : Bool) (ps : List (Addr × Nat × Tr)) : Access :=
  { a.withShares (sharesOf aligned (classed cls ps)) with
    pages := usedPages (transOf ps)
    remote := (piecesOf ps).any (remotePiece stack) }

/-- A load of one lane from global space (R174, R175, R181). -/
def loadLane (d : Fld) (a : Src) (i : BitVec 6) (w : LdW) (o : LdOrd) (nf : Bool) (batch : Nat)
    (is : Issue) (k : Block) (g : Group) (l : Nat) (t : Thread) (s : State) : State × List Trap :=
  match poisonIn (g.vregsAt t a.f 2) with
  | some (kind, v) => (s, [⟨l, kind, v, 0⟩])
  | none =>
    let va := globalAddr g t a (offE is.hints i w.bytes)
    let wm := watchMask s k t va w.bytes watchLoad
    if wm ≠ 0 then (s, [⟨l, kWatchpoint, BitVec.ofNat 32 wm, va⟩])
    else
      let r := xlateAll (fun s v => xlateLane s k g.cluster l .load v) (issueLoad s is l (g.vi d) w.regs) (partsOf va w.bytes)
      let dst : FillDst := ⟨false, is.grp, l, g.vi d, w.regs⟩
      let m := hintMods is.hints
      let vol := o == LdOrd.vol
      let acq := o == LdOrd.acq
      let scope := scopeOr 6 m.scope
      let acc := { Access.new r.1 is batch t.tid (.load w nf) with
        dst := some dst, va := va, l1 := m.cache != 3, cache := m.cache.toNat }
      let bad := badCause r.2
      let pgs := pagesOf r.2
      if nf && (bad.isSome || !pgs.isEmpty) then (r.1.fly { acc with kind := .value dst.zeros }, [])
      else if bad.isSome then (r.1.fly { acc with kind := .value dst.poison }, [])
      else if !pgs.isEmpty then
        ((countPages r.1 is.blk pgs).fly { acc with waits := pgs, vol := vol, acq := acq, scope := scope }, [])
      else (r.1.fly (acc.translated k.stack (effClass vol acq false true scope) (decide (va.toNat % w.bytes = 0)) r.2), [])

/-- ld.g and st.g accept a scope only with acquire or release (R60). -/
def Accepts.memory (sc : Bool) : Accepts := ⟨true, false, false, false, sc, true⟩

def execLdG (d : Fld) (a : Src) (i : BitVec 6) (w : LdW) (o : LdOrd) (s : State) : Out :=
  withForm ⟨[vDst d w.regs, vSrc 1 a 2], Accepts.memory (o == .acq), .any⟩
    (unlessSwept (fun is s => eachLane (loadLane d a i w o false s.moves) is s)) s

def loadNf (w : LdW) (d : Fld) (a : Src) (i : BitVec 6) (s : State) : Out :=
  withForm (Form.imm [vDst d w.regs, vSrc 1 a 2])
    (unlessSwept (fun is s => eachLane (loadLane d a i w .ord true s.moves) is s)) s

def execLdNfB32 (d : Fld) (a : Src) (i : BitVec 6) (s : State) : Out := loadNf .b32 d a i s
def execLdNfB64 (d : Fld) (a : Src) (i : BitVec 6) (s : State) : Out := loadNf .b64 d a i s
def execLdNfB128 (d : Fld) (a : Src) (i : BitVec 6) (s : State) : Out := loadNf .b128 d a i s

/-! Stores (R156, R159, R176, R509, R510). -/

/-- The thread blocks at the word until pages are served (R156). -/
def blockOnPages (s : State) (is : Issue) (l : Nat) (pgs : List Addr) : State :=
  (countPages s is.blk pgs).blockLanes is.blk is.grp [l] (fun _ => .pages pgs true)

/-- The row of an address in the fabric window. -/
def fabricRowOf (s : State) (part : Nat) (va : Addr) : BitVec 128 :=
  (s.part part).fabric.getD (va.toNat / 2 ^ 35 % 4096) 0

def rowModule (r : BitVec 128) : Nat := r.toNat / 2 ^ 116
def rowValid (r : BitVec 128) : Bool := r.getLsbD 115
def rowWrite (r : BitVec 128) : Bool := r.getLsbD 114
def rowStack (r : BitVec 128) : Nat := r.toNat / 2 ^ 113 % 2
def rowPart (r : BitVec 128) : Nat := r.toNat / 2 ^ 108 % 32
def rowAddr (r : BitVec 128) (va : Addr) : Addr := r.setWidth 56 + BitVec.ofNat 56 (va.toNat % 2 ^ 35)

/-- The outcome of a write to the fabric window: an invalid row is a missing mapping, one without write a permission
error (R510). -/
def windowBad (s : State) (part : Nat) (va : Addr) : Option Nat :=
  let r := fabricRowOf s part va
  if !rowValid r then some 3 else if !rowWrite r then some 4 else none

/-- The accesses of a store: its parts in memory as one, and each part in the fabric window, whose page counts as
release-consistent (R151, R509, R510). -/
def storeParts (s : State) (is : Issue) (k : Block) (batch tid : Nat) (va : Addr) (data : List Byte)
    (o : StOrd) (m : Mods) (ps : List (Addr × Nat × Tr)) (win : List (Addr × Nat)) : State :=
  let slice (x : Addr) (n : Nat) : List Byte := (data.drop ((x - va).toNat)).take n
  let cls (attr : Nat) : Eff := effClass (o == .vol) false (o == .rel) false (scopeOr 6 m.scope) attr
  let e := cls 0
  let s1 :=
    if ps.isEmpty then s
    else
      let data : List Byte := ps.flatMap (fun p => slice p.1 p.2.1)
      s.fly (({ Access.new s is batch tid (.store data) with va := va, cache := m.cache.toNat }).translated k.stack cls (win.isEmpty && decide (va.toNat % data.length = 0)) ps)
  win.foldl (fun s p =>
    let r := fabricRowOf s k.part p.1
    s.fly { Access.new s is batch tid
        (.fabric (rowModule r) (rowStack r) (rowPart r) (.store (rowAddr r p.1) (slice p.1 p.2))) with
      vol := e.vol
      rel := e.rel
      once := e.once
      scope := e.scope
      va := p.1
      remote := true }) s1

/-- A store of one lane to global space (R174, R176). -/
def storeLane (i : BitVec 6) (a b : Src) (w : StW) (o : StOrd) (batch : Nat)
    (is : Issue) (k : Block) (g : Group) (l : Nat) (t : Thread) (s : State) : State × List Trap :=
  let dat := g.vregsAt t b.f w.regs
  match poisonIn (g.vregsAt t a.f 2 ++ dat) with
  | some (kind, v) => (s, [⟨l, kind, v, 0⟩])
  | none =>
    let va := globalAddr g t a (offE is.hints i w.bytes)
    let wm := watchMask s k t va w.bytes watchStore
    if wm ≠ 0 then (s, [⟨l, kWatchpoint, BitVec.ofNat 32 wm, va⟩])
    else
      let ps := partsOf va w.bytes
      let win := ps.filter (fun p => inWindow p.1)
      let r := xlateAll (fun s v => xlateLane s k g.cluster l .store v) s (ps.filter (fun p => !inWindow p.1))
      match (badCause r.2).or (win.findSome? (fun p => windowBad s k.part p.1)) with
      | some c => (r.1, [⟨l, kProtection, BitVec.ofNat 32 c, va⟩])
      | none =>
        let pgs := pagesOf r.2
        if !pgs.isEmpty then (blockOnPages r.1 is l pgs, [])
        else
          let data := (bytesOfWords (dat.map (·.val))).take w.bytes
          (storeParts (r.1.advance is.blk is.grp [l]) is k batch t.tid va data o (hintMods is.hints) r.2 win, [])

def execStG (i : BitVec 6) (a b : Src) (w : StW) (o : StOrd) (s : State) : Out :=
  withForm ⟨[vSrc 1 a 2, vSrc 2 b w.regs], Accepts.memory (o == .rel), .any⟩
    (unlessSwept (fun is s => eachLane (storeLane i a b w o s.moves) is s)) s

/-! Scratchpad (R162 to R164, R177). -/

/-- Runs of adjacent addresses. -/
def mergeRuns (sp : Space) : List Nat → List Piece
  | [] => []
  | a :: rest =>
    match mergeRuns sp rest with
    | p :: ps => if p.addr = a + 1 then ⟨sp, a, p.len + 1⟩ :: ps else ⟨sp, a, 1⟩ :: p :: ps
    | [] => [⟨sp, a, 1⟩]

/-- Bytes of an access at offset o of a reserve of S bytes (R162). -/
def scratchPieces (blk size o w : Nat) : List Piece :=
  mergeRuns (.scratch blk) ((upto w).map (fun j => (o + j) % size))

/-- The offset of a lane (R162). -/
def scratchOff (g : Group) (t : Thread) (a : Src) (off : BitVec 64) : Nat :=
  ((g.vreg t a.f).val + off.setWidth 32).toNat

/-- Distinct 8-byte words of the lanes' accesses, by bank (R163). -/
def bankWords (size w : Nat) (offs : List Nat) : List Nat :=
  nub (offs.flatMap (fun o => (upto w).map (fun j => (o + j) % size / 8)))

def bankLoad (ws : List Nat) (b : Nat) : Nat := (ws.filter (fun x => x % 32 == b)).length

/-- BANK_CONFLICT_TRACE (R487): at most one record per core in any 256 cycles; its subject and its mask are of the
bundle's threads (R80), at the first hint word of the bundle's word, past which a lane with a false guard has gone already
(R485). -/
def traceConflict (s : State) (is : Issue) (k : Block) (g : Group) (w : Nat) (offs : List Nat) : State :=
  let st := s.stack k.stack
  let ws := bankWords k.scratchSize w offs
  let deg := ((upto 32).map (bankLoad ws)).foldl max 0
  let now := s.now k.stack k.core
  if st.traceConflict && debugPermitted s k.stack k.part && decide (st.traceThreshold ≤ deg) && ((s.core k.stack k.core).conflictAt).elim true (fun c => decide (c + 256 ≤ now)) then
    let low := is.lanes.headD 0
    let x := { subjectOf s k g low (g.thread low) with pc := is.pc - BitVec.ofNat 56 (4 * is.hints.length) }
    let vec := maskOf ((upto 32).filter (fun b => decide (1 < bankLoad ws b)))
    (traceRecord s k.stack (subjectTrace 4 x (st.us.setWidth 32) k.job vec (BitVec.ofNat 32 deg) (maskOf is.lanes))).mapCore
      k.stack k.core (fun c => { c with conflictAt := some now })
  else s

/-- Lanes that request words: those with no poisoned operand, which would trap (R163, R174). -/
def cleanLanes (is : Issue) (rs : Nat → List Reg) : List Nat := is.act.filter (fun l => !(rs l).any Reg.isPoisoned)

def withConflicts (w : Nat) (off : Issue → Group → Thread → Nat) (rs : Group → Thread → List Reg) (body : Body) : Body :=
  fun is s =>
    match s.block? is.blk, s.group? is.blk is.grp with
    | some k, some g => body is (traceConflict s is k g w
        ((cleanLanes is (fun l => rs g (g.thread l))).map (fun l => off is g (g.thread l))))
    | _, _ => (s, [])

/-- The parts of a scratchpad access of w bytes at offset o: the reserve is single-copy atomic as a page is, with block
scope (R150, R162). -/
def scratchShares (blk size o w : Nat) (vol acq rel : Bool) : List Share :=
  sharesOf (decide (o % w = 0)) ((scratchPieces blk size o w).map (fun p => (p, ⟨vol, acq, rel, vol, 3⟩)))

def loadSpLane (d : Fld) (a : Src) (i : BitVec 6) (w : LdW) (o : LdOrd) (batch : Nat)
    (is : Issue) (k : Block) (g : Group) (l : Nat) (t : Thread) (s : State) : State × List Trap :=
  match poisonIn [g.vreg t a.f] with
  | some (kind, v) => (s, [⟨l, kind, v, 0⟩])
  | none =>
    let s1 := issueLoad s is l (g.vi d) w.regs
    (s1.fly (({ Access.new s1 is batch t.tid (.load w false) with
      dst := some ⟨false, is.grp, l, g.vi d, w.regs⟩ }).withShares
        (scratchShares is.blk k.scratchSize (scratchOff g t a (offE is.hints i w.bytes)) w.bytes
          (o == LdOrd.vol) (o == LdOrd.acq) false)), [])

def execLdSp (d : Fld) (a : Src) (i : BitVec 6) (w : LdW) (o : LdOrd) (s : State) : Out :=
  withForm (Form.imm [vDst d w.regs, vSrc 1 a])
    (unlessSwept (withConflicts w.bytes (fun is g t => scratchOff g t a (offE is.hints i w.bytes)) (fun g t => [g.vreg t a.f])
      (fun is s => eachLane (loadSpLane d a i w o s.moves) is s))) s

def storeSpLane (i : BitVec 6) (a b : Src) (w : StW) (o : StOrd) (batch : Nat)
    (is : Issue) (k : Block) (g : Group) (l : Nat) (t : Thread) (s : State) : State × List Trap :=
  let dat := g.vregsAt t b.f w.regs
  match poisonIn (g.vreg t a.f :: dat) with
  | some (kind, v) => (s, [⟨l, kind, v, 0⟩])
  | none =>
    let s1 := s.advance is.blk is.grp [l]
    (s1.fly ((Access.new s1 is batch t.tid (.store ((bytesOfWords (dat.map (·.val))).take w.bytes))).withShares
        (scratchShares is.blk k.scratchSize (scratchOff g t a (offE is.hints i w.bytes)) w.bytes
          (o == StOrd.vol) false (o == StOrd.rel))), [])

def execStSp (i : BitVec 6) (a b : Src) (w : StW) (o : StOrd) (s : State) : Out :=
  withForm (Form.imm [vSrc 1 a, vSrc 2 b w.regs])
    (unlessSwept (withConflicts w.bytes (fun is g t => scratchOff g t a (offE is.hints i w.bytes))
      (fun g t => g.vreg t a.f :: g.vregsAt t b.f w.regs) (fun is s => eachLane (storeSpLane i a b w o s.moves) is s))) s

/-! Constant space (R165, R178). -/

/-- Address and size of the constant image; a trap group's has size 0 (R421, R459). -/
def constImage (s : State) (k : Block) : Addr × Nat :=
  match k.launch.bind (fun n => s.launches[n]?) with
  | none => (0, 0)
  | some l => ((l.words.getD 14 0 ++ l.words.getD 13 0).setWidth 56, (l.words.getD 15 0).toNat)

/-- Byte offsets of a constant access that lie in the image, each with its place in the access. -/
def constIn (size off w : Nat) : List (Nat × Nat) :=
  ((upto w).map (fun j => (j, (off + j) % 2 ^ 32))).filter (fun p => decide (p.2 < size))

/-- The run of the image that an access reads, as one address and length. -/
def constRun (img : Addr × Nat) (off w : Nat) : Addr × Nat :=
  match constIn img.2 off w with
  | [] => (img.1, 0)
  | p :: ps => (img.1 + BitVec.ofNat 56 p.2, ps.length + 1)

/-- Spread the bytes read over the access: 0 outside the image. -/
def constBytes (size off w : Nat) (bs : List Byte) : List Byte :=
  let inn := constIn size off w
  (upto w).map (fun j => match inn.find? (fun p => p.1 == j) with
    | some p => bs.getD (p.1 - ((inn.headD (0, 0)).1)) 0
    | none => 0)

/-- A constant access that has translated: it is performed whole, with the translations that it used (R154, R165). -/
def Access.constant (a : Access) (stack : Nat) (ps : List (Addr × Nat × Tr)) : Access :=
  { a with
    pieces := piecesOf ps
    pages := usedPages (transOf ps)
    remote := (piecesOf ps).any (remotePiece stack) }

def loadConstLane (d : Fld) (a : Src) (i : BitVec 6) (w : LdW) (batch : Nat)
    (is : Issue) (k : Block) (g : Group) (l : Nat) (t : Thread) (s : State) : State × List Trap :=
  match poisonIn [g.vreg t a.f] with
  | some (kind, v) => (s, [⟨l, kind, v, 0⟩])
  | none =>
    let off := scratchOff g t a (offE is.hints i w.bytes)
    let s1 := issueLoad s is l (g.vi d) w.regs
    let run := constRun (constImage s k) off w.bytes
    let r := if run.2 = 0 then (s1, []) else xlateAll (fun s v => xlateCore s k .load v) s1 (partsOf run.1 run.2)
    let pgs := pagesOf r.2
    let acc := { Access.new r.1 is batch t.tid (.const w off) with
      dst := some ⟨false, is.grp, l, g.vi d, w.regs⟩
      va := run.1 }
    if run.2 = 0 then (r.1.fly { acc with kind := .value (List.replicate w.regs (full 0)) }, [])
    else if (badCause r.2).isSome then (r.1.fly { acc with kind := .value acc.poison }, [])
    else if !pgs.isEmpty then ((countPages r.1 is.blk pgs).fly { acc with waits := pgs }, [])
    else (r.1.fly (acc.constant k.stack r.2), [])

def execLdK (d : Fld) (a : Src) (i : BitVec 6) (w : LdW) (s : State) : Out :=
  withForm (Form.imm [vDst d w.regs, vSrc 1 a])
    (unlessSwept (fun is s => eachLane (loadConstLane d a i w s.moves) is s)) s

/-! prefetch and pgprobe (R179, R180). -/

/-- The line of a lane's address is asked for, where the address translates: the lane page register then holds the
translation (R153), and the L1 may keep the line as of a free moment (R179). -/
def askLine (s0 : State) (k : Block) (cluster lane : Nat) (va : Addr) (fill : Bool) (cache : Nat) : State :=
  let r := xlateLane s0 k cluster lane .load va
  match r.2 with
  | .ok t =>
    let ln := t.pa va.toNat / 128
    if r.1.unreachablePA (128 * ln) k.stack || !fill then r.1
    else (keepLine r.1 k.stack k.core ln (lookAt r.1 false 0 0) cache).draw
  | _ => r.1

def prefetchLane (a : Src) (i : BitVec 6) (fill : Bool)
    (is : Issue) (k : Block) (g : Group) (l : Nat) (t : Thread) (s : State) : State × List Trap :=
  match poisonIn (g.vregsAt t a.f 2) with
  | some (kind, v) => (s, [⟨l, kind, v, 0⟩])
  | none =>
    let s1 := s.advance is.blk is.grp [l]
    let cache := (hintMods is.hints).cache.toNat
    (askLine s1 k g.cluster l (globalAddr g t a (offE is.hints i 4)) (fill && cache != 3) cache, [])

def prefetch (a : Src) (i : BitVec 6) (l1 : Bool) (s : State) : Out :=
  withForm ⟨[vSrc 1 a 2], ⟨true, false, false, false, false, true⟩, .any⟩
    (unlessSwept (fun is s => eachLane (prefetchLane a i l1) is s)) s

/-- prefetch.l2 leaves nothing in the L2 that can be seen: every access finds the L2 as it finds memory (R25). -/
def execPrefetchL2 (a : Src) (i : BitVec 6) (s : State) : Out := prefetch a i false s
def execPrefetchL1 (a : Src) (i : BitVec 6) (s : State) : Out := prefetch a i true s

/-- The result of pgprobe (R180). -/
def probeWord (stack : Nat) (f : Found) : Word :=
  match f with
  | .state none => 0
  | .state (some n) => BitVec.ofNat 32 n
  | .page t =>
    let loc := match region? t.frame with
      | some (.near k) => if k = stack then 0 else 2
      | some (.far k) => if k = stack then 1 else 3
      | _ => 4
    let vault := if loc = 0 ∨ loc = 2 then t.frame / 2 ^ 30 % 32 else 0
    let size := match t.shift with
      | 16 => 0
      | 21 => 1
      | _ => 2
    let b (x : Bool) : Nat := if x then 1 else 0
    putBits vault 19 15 ||| putBits loc 14 12 ||| putBits (b t.privileged) 11 11 ||| putBits (b t.shared) 10 10
      ||| putBits (b t.execute) 9 9 ||| putBits (b t.write) 8 8 ||| putBits t.ordering 5 4 ||| putBits size 3 2 ||| 1

def probeLane (d : Fld) (a : Src) (i : BitVec 6) (batch : Nat)
    (is : Issue) (k : Block) (g : Group) (l : Nat) (t : Thread) (s : State) : State × List Trap :=
  match poisonIn (g.vregsAt t a.f 2) with
  | some (kind, v) => (s, [⟨l, kind, v, 0⟩])
  | none =>
    let va := globalAddr g t a (offE is.hints i 4)
    let s0 := issueLoad s is l (g.vi d) 1
    let s1 := missesTlb s0 k.stack k.core k.part va
    let v := probeWord k.stack (coreLookup s0 k.stack k.core k.part va)
    (s1.fly { Access.new s1 is batch t.tid (.value [full v]) with dst := some ⟨false, is.grp, l, g.vi d, 1⟩ }, [])

def execPgprobe (d : Fld) (a : Src) (i : BitVec 6) (s : State) : Out :=
  withForm (Form.imm [vDst d, vSrc 1 a 2])
    (unlessSwept (fun is s => eachLane (probeLane d a i s.moves) is s)) s

/-! Replay and completion (R155, R157, R161, R173). -/

/-- An access that translates would have to be performed before one of its thread that has been performed already: the page
proves to be of an attribute, or at bytes, that the free choice of R218 did not allow for. Such a run takes the load no
further (entry 95). -/
def tooLate (a b : Access) : Bool :=
  let effs := (b.present ++ b.later).map (·.eff)
  b.spans.any (fun p => a.passed.any p.meets) ||
    (!a.passed.isEmpty && ((!a.eff.acq && effs.any (·.acq)) || (!a.eff.vol && effs.any (·.vol))))

/-- LOAD_REPLAY (R155): the access translates again, once the pages it waited for have been served. -/
def replayLoad (s : State) (k : Block) (a : Access) (va : Addr) (len : Nat) : State :=
  let x (s : State) (v : Addr) : State × Tr :=
    match (if a.kind.constant then none else k.find a.tid) with
    | some (g, l) => xlateLane s k ((k.groups[g]?).elim 0 (·.cluster)) l .load v
    | none => xlateCore s k .load v
  let r := xlateAll x s (partsOf va len)
  let pgs := pagesOf r.2
  if (badCause r.2).isSome then completeWith r.1 a a.poison
  else if !pgs.isEmpty then (countPages r.1 a.blk pgs).setAccess { a with waits := pgs }
  else if a.kind.constant then r.1.setAccess (a.constant k.stack r.2)
  else
    let b := a.translated k.stack (effClass a.vol a.acq false true a.scope) (decide (va.toNat % len = 0)) r.2
    if tooLate a b then r.1 else r.1.setAccess b

/-- The present part is over: the next one is present, or the access is complete. -/
def State.dropPart (s : State) (a : Access) : State :=
  if a.later.isEmpty then s.done a else s.setAccess (a.withShares a.later)

/-- Lanes of a block that wait at fsem.wait for the read of an access (R244). -/
def semLanes (k : Block) (a : Access) : List (Nat × Nat) :=
  (k.positions.filter (fun p => (a.tid :: a.mates).contains p.2.2.2.tid && (match p.2.2.2.run with
    | .blocked (.fsem va _) => va == a.va
    | _ => false))).map (fun p => (p.1, p.2.1))

/-- The read of an fsem.wait meets a poisoned granule, or the host completes it with an error: its threads take the poison
trap (R161, R242, R244); a block that is not resident reads again when it is restored. -/
def failSemWait (s : State) (a : Access) (_v w : Word) : State :=
  match s.block? a.blk with
  | none => s
  | some k =>
    if k.phase != .resident then s
    else (nub ((semLanes k a).map (·.1))).foldl (fun s g =>
      let ls := ((semLanes k a).filter (·.1 == g)).map (·.2)
      match s.thread? a.blk g (ls.headD 0) with
      | none => s
      | some t => raise s a.blk g t.pc t.hints.length w (trapAll ls kPoison 0)) s

/-! Service of pages and invalidation (R154, R157). -/

/-- The stack that the module's host port is wired to: no rule names it, and the model takes stack 0, or stack 1 while stack 0 is
absent (DESIGN CHOICE, entry 116). -/
def hostSide (s : State) : Nat := if (s.stack 0).sec == 1 then 0 else 1

/-- One request of the host through BAR2 (R502): translated without privilege by the partition's tables; none while a
page is to be served. Memory across a link that is down is an unrecoverable outcome (R161). -/
def hostTry (s : State) (part : Nat) (r : HostReq) : Option State :=
  let look (use : Use) (va : Addr) (n : Nat) : List (Addr × Nat × Tr) :=
    (partsOf va n).map (fun p => (p.1, p.2, outcome (walk s (hostSide s) part p.1) p.1 use false))
  let far (ps : List (Addr × Nat × Tr)) : Bool := (piecesOf ps).any (fun p => s.unreachablePA p.addr (hostSide s))
  match r with
  | .write va bs =>
    let ps := look .store va bs.length
    if (badCause ps).isSome then some (s.hostError (hostSide s) part 7)
    else if (pagesOf ps).isEmpty then some (if far ps then s.hostError (hostSide s) part 7 else (writeBytes s (Who.of .host s.moves) (piecesOf ps) bs).draw)
    else none
  | .read va n =>
    let ps := look .load va n
    if (badCause ps).isSome then some { s with hostReplies := s.hostReplies ++ [none] }
    else if (pagesOf ps).isEmpty then
      let q := readBytes s (hostSide s) (Who.of .host s.moves) .each (piecesOf ps)
      some { q.1 with hostReplies := q.1.hostReplies ++ [q.2], moves := q.1.moves + 1 }
    else none

/-- The requests of a function in their order: nothing passes a write that waits, and a read that waits holds back no
write (R502). -/
def drainHost (s : State) (part : Nat) : State :=
  let r := (s.part part).hostQueue.foldl (fun (acc : State × List HostReq × Bool) q =>
    if acc.2.2 then (acc.1, acc.2.1 ++ [q], true)
    else
      match hostTry acc.1 part q with
      | some s1 => (s1, acc.2.1, false)
      | none => (acc.1, acc.2.1 ++ [q], match q with
        | .write _ _ => true
        | .read _ _ => false)) (s, [], false)
  r.1.mapPart part (fun p => { p with hostQueue := r.2.1 })

/-- A thread whose last awaited page has been served replays its word from the first hint word (R156). -/
def replayThread (missing : List Addr) (t : Thread) : Thread :=
  match t.run with
  | .blocked (.pages vas true) => if vas.all (fun v => !missing.contains v) then { t.rewind with run := .ready } else t
  | _ => t

/-- Waiting monitors of a partition whose translation was removed are checked (R241). -/
def recheckMonitors (s : State) (part : Nat) : State :=
  (indexes (fun (k : Block) => k.part == part && (k.phase == .resident || k.phase == .evicted)) s.blocks).foldl (fun s b =>
    (((s.block? b).elim [] Block.positions).filter (fun p => p.2.2.2.watchesStale)).foldl
      (fun s p => checkMonitor s b p.1 p.2.1) s) s

/-- The pages that an invalidation covers (R154): all of the partition, or the page that holds an address. -/
def Inval.covers (i : Inval) (vpage shift : Nat) : Bool :=
  match i.va with
  | none => true
  | some v => vpage == v.toNat / 2 ^ shift

/-- A stack on which the partition holds no core has nothing to sweep. -/
def coresOf (s : State) (part stack : Nat) : List Nat :=
  (s.partOn part stack).params.columns.flatMap (fun c => (upto 4).map (fun i => 4 * c + i))

/-- Accesses of the partition on a stack that used a covered translation (R154). -/
def coveredAccesses (s : State) (stack : Nat) (i : Inval) : List Nat :=
  (s.accesses.filter (fun a => (s.block? a.blk).elim false (fun k => k.part == i.part && k.stack == stack) &&
    a.pages.any (fun p => i.covers p.1 p.2))).map (·.id)

/-- The translations that an invalidation covers are removed from the core TLBs of its stack and from the lane page
registers of the partition's cores, and the monitors that hold one translate again (R154, R241). -/
def removeTrans (s : State) (stack : Nat) (i : Inval) : State :=
  let hits (t : Trans) : Bool := t.part == i.part && i.covers t.vpage t.shift
  let cs := coresOf s i.part stack
  let s1 := s.mapStack stack (fun st => { st with
    cores := mapFrom (fun c (k : Core) => { k with
      tlb := k.tlb.filter (fun t => !hits t)
      lprs := if cs.contains c then k.lprs.map (fun o => o.bind (fun t => if hits t then none else some t)) else k.lprs }) 0 st.cores })
  { s1 with blocks := s1.blocks.map (fun (k : Block) =>
    if k.part == i.part && k.stack == stack then
      k.mapThreads (fun _ _ t => { t with monitor := t.monitor.map (fun m =>
        if i.covers (m.va.toNat / 2 ^ m.shift) m.shift then { m with stale := true } else m) })
    else k) }

/-- Begin an invalidation on a stack (R154): what the device holds is removed, and lane page registers are swept in the next
64 cycles of each core of the partition. Until the sweep is over, a walk may still bring old entries back (R146). -/
def beginInval (s : State) (stack part : Nat) (va : Option Addr) (command : Bool) : State × Nat :=
  let i : Inval := ⟨part, va, [], command, false, false, s.order.writes⟩
  let cs := coresOf s part stack
  ((removeTrans s stack i).mapStack stack (fun st => { st with
    cores := mapFrom (fun c (k : Core) =>
      if cs.contains c then { k with sweepTo := max k.sweepTo (k.cycles.toNat + 64) } else k) 0 st.cores
    invals := st.invals ++ [i] }), (s.stack stack).invals.length)

/-- The sweep is over on every core of the partition. -/
def swept (s : State) (stack : Nat) (i : Inval) : Bool :=
  (coresOf s i.part stack).all (fun c => decide ((s.core stack c).sweepTo ≤ s.now stack c))

/-- Nothing is left for an invalidation to wait for (R154): the sweep is over, and no access is in flight that used an entry
which it has removed, or is about to remove. -/
def invalReady (s : State) (stack : Nat) (i : Inval) : Bool :=
  swept s stack i && (if i.removed then i.accs else coveredAccesses s stack i).all (fun a => !s.accesses.any (fun b => b.id == a))

/-- TLB_INVALIDATION_COMPLETE (R154): the invalidation numbered inv of each stack whose sweep is over removes what walks have
brought back meanwhile, and then waits for the accesses that used it; where there are none it completes, and the threads that
wait at k.tlbinv go on. -/
def execTlbInvalidationComplete (inv : Nat) (s : State) : Out :=
  .next ((upto 2).foldl (fun s k =>
    match (s.stack k).invals[inv]? with
    | none => s
    | some i =>
      if i.complete || !swept s k i then s
      else
        let done := invalReady s k i
        (if i.removed then s else removeTrans s k i).mapStack k (fun st => { st with
          invals := modifyAt (fun _ => { i with
            removed := true
            accs := if i.removed then i.accs else coveredAccesses s k i
            complete := done }) inv st.invals
          cmdStatus := if i.command && done then st.cmdStatus ++ [0] else st.cmdStatus })) s)

/-! The vertical bus (R167 to R170). -/

/-- A charge of a lane at a time: charges within 10 ms, this one included, up to 4. -/
def chargesOf (v : Vault) (lane us : Nat) : Nat :=
  min 4 ((v.charges.filter (fun c => c.1 == lane && decide (us < c.2 + 10000))).length + 1)

/-- The transfer error record of R171. -/
def transferRecord (time : Word) (block vault layer lane attempts charges : Nat) (swapped : Bool) (kind : Nat) : BitVec 128 :=
  BitVec.ofNat 128 (time.toNat * 2 ^ 96 + block * 2 ^ 64 + vault * 2 ^ 51 + layer * 2 ^ 48 + lane * 2 ^ 39
    + attempts * 2 ^ 36 + charges * 2 ^ 33 + (if swapped then 16 else 0) + kind)

/-- Spare lanes not yet in use, nor out of service (R167, R169). -/
def freeSpares (v : Vault) : List Nat :=
  (upto 8).map (· + 264) |>.filter (fun l => !v.swaps.any (fun p => p.2 == l || p.1 == l))

/-- Every free spare lane is asked for already (R170). -/
def sparesGone (v : Vault) : Bool := decide ((freeSpares v).length ≤ v.pendingSwaps.length)

/-- A lane that asks for a spare and gets none stays in service, and the vault is reported to the management processor as
degraded (R170). -/
def degradeVault (s : State) (stack vault : Nat) : State :=
  (s.mapVault stack vault (fun v => { v with degraded := true })).report stack 3

/-- LANE_CHARGE and TRANSFER_ERROR_RECORD for one lane: the fourth charge within 10 ms asks for a swap (R169), and a
vault whose free spare lanes are all asked for is reported as degraded (R170). -/
def chargeLane (s : State) (stack vault offset attempts kind lane : Nat) : State :=
  let v := s.vault stack vault
  let us := s.usOf stack
  let n := chargesOf v lane us
  let want := n = 4 && !v.pendingSwaps.contains lane && !v.swaps.any (fun p => p.1 == lane)
  let swap := want && !sparesGone v
  let s1 := s.mapVault stack vault (fun v => { v with
    charges := (lane, us) :: v.charges.filter (fun c => decide (us < c.2 + 10000))
    pendingSwaps := if swap then v.pendingSwaps ++ [lane] else v.pendingSwaps })
  let s2 := if want && !swap then degradeVault s1 stack vault else s1
  s2.mapStack stack (fun st => { st with transferLog := st.transferLog ++
    [transferRecord (st.us.setWidth 32) (offset / 256) vault (offset / 1024 % 8) lane attempts n swap kind] })

/-- The device physical address of an offset in a vault (R144). -/
def vaultAddr (stack vault offset : Nat) : Nat := stack * 2 ^ 35 + vault * 2 ^ 30 + offset

/-- A bit of a transfer that arrives flipped: beat and lane of the bus, as one number below 8 × 272 (R167). -/
def flipBeat (f : Nat) : Nat := f / 272
def flipLane (f : Nat) : Nat := f % 272

/-- The data lane that carries a bit of a byte of a block, in the beat byte / 32 (R167). -/
def dataLane (byte bit : Nat) : Nat := 8 * (byte % 32) + bit % 8

/-- The lane whose place was passed on to a lane, through so many swaps. -/
def roleFrom (v : Vault) : Nat → Nat → Option Nat
  | 0, l => if l < 264 then some l else none
  | n + 1, l =>
    match v.swaps.find? (fun p => p.2 == l) with
    | some p => roleFrom v n p.1
    | none => if l < 264 then some l else none

/-- The lane whose place a lane of the bus holds: a spare lane that of the lane swapped to it, which may be a spare lane
itself, and none where the lane has been swapped out or nothing uses it (R167, R169). -/
def laneRole (v : Vault) (l : Nat) : Option Nat :=
  if v.swaps.any (fun p => p.1 == l) then none else roleFrom v 8 l

/-- The parity lane, less 256, that covers a lane: 256 + k covers data lanes 32k to 32k + 31 (R167). -/
def parityOf (l : Nat) : Nat := if l < 256 then l / 32 else l - 256

/-- Some beat fails parity: of a parity lane and the lanes that it covers an odd number arrives flipped (R167, R168). -/
def parityFails (v : Vault) (flips : List Nat) : Bool :=
  (upto 8).any (fun b => (upto 8).any (fun k =>
    (((nub flips).filter (fun f => flipBeat f == b)).filter (fun f =>
      (laneRole v (flipLane f)).elim false (fun l => parityOf l == k))).length % 2 == 1))

/-- Lanes whose bit differed in some beat between the failed attempt and the good one (R168). -/
def lanesHit (v : Vault) (flips : List Nat) : List Nat :=
  nub ((flips.filter (fun f => decide (f < 8 * 272) && (laneRole v (flipLane f)).isSome)).map flipLane)

/-- PARITY_RETRY (R167, R168, R170): a transfer of an aligned 256-byte block in 8 beats arrives with bits flipped, fails
parity, and is retried attempts times. Each lane that differed is charged; a read that fails 8 times is delivered as
poison to the loads that it serves, and logged as uncorrectable, with no lane where no attempt showed which (entry 96). R170
speaks of reads: a write that fails 8 times or more is logged as uncorrectable for each lane that differed, with no record
where none did, and has no other effect (DESIGN CHOICE, entry 96). -/
def execParityRetry (stack vault offset : Nat) (flips : List Nat) (attempts : Nat) (write : Bool) (s : State) : Out :=
  let v := s.vault stack vault
  let lost := decide (8 ≤ attempts)
  if 2 ≤ stack ∨ 32 ≤ vault ∨ 2 ^ 30 ≤ offset ∨ attempts = 0 ∨ !(lost || parityFails v flips) then .next s
  else
    let base := offset / 256 * 256
    let ls := lanesHit v flips
    let s1 := ls.foldl (fun s l => chargeLane s stack vault base (if lost then 0 else attempts) (if lost then 2 else 1) l) s
    if lost && !write then
      let s2 := if ls.isEmpty then s1.mapStack stack (fun st => { st with transferLog := st.transferLog ++
          [transferRecord (st.us.setWidth 32) (base / 256) vault (base / 1024 % 8) 0 0 0 false 2] }) else s1
      let p : Piece := ⟨.mem, vaultAddr stack vault base, 256⟩
      let served := s2.accesses.filter (fun a => (match a.kind with
        | .load _ _ | .const _ _ => true
        | _ => false) && mayPerform s2 a && a.pieces.any (fun q => q.meets p))
      .next (served.foldl (fun s a => match a.kind with
        | .load _ true => completeWith s a (a.dst.elim [] FillDst.zeros)
        | _ => completeWith s a a.poison) s2)
    else .next s1

/-- LANE_SWAP (R169): the lane passes to the lowest-numbered free spare lane, and the management processor records
the swap. -/
def execLaneSwap (stack vault lane : Nat) (s : State) : Out :=
  let v := s.vault stack vault
  match freeSpares v with
  | [] => .next s
  | sp :: _ =>
    if v.pendingSwaps.contains lane then
      .next ((s.mapVault stack vault (fun v => { v with
        swaps := v.swaps ++ [(lane, sp)], pendingSwaps := v.pendingSwaps.filter (· != lane) })).report stack 4)
    else .next s

end Sys2Proof.Machine
end

