-- ==== Sys2Proof/Machine/Tiles.lean ====
section
/-!
DEFINITION. Surfaces: formats (R314, R315), shape and placement (R316 to R318), table entries and handles (R319 to
R321), residency (R322 to R326), and views (R327, R328).
-/

namespace Sys2Proof.Machine

/-! Formats (R314). -/

def srfFmtOk (f : Nat) : Bool := decide (1 ≤ f) && decide (f ≤ 8)
def srfChannels (f : Nat) : Nat :=
  match f with
  | 4 | 8 => 2
  | 5 | 7 => 1
  | _ => 4

/-- How a channel is stored. -/
inductive Chan where
  | unorm (lo width : Nat) (srgb : Bool)
  | half (lo : Nat)
  | word
  | stencil
  deriving DecidableEq, Repr, Inhabited

def chanOf (f c : Nat) : Chan :=
  match f with
  | 1 => .unorm (8 * c) 8 false
  | 2 => .unorm (8 * c) 8 (decide (c < 3))
  | 3 | 4 => .half (16 * c)
  | 6 => if c < 3 then .unorm (10 * c) 10 false else .unorm 30 2 false
  | 8 => if c = 0 then .unorm 0 24 false else .stencil
  | _ => .word

/-- The greatest r with r^k ≤ n, by its bits from the top. -/
def rootBits (k n r : Nat) : Nat → Nat
  | 0 => r
  | b + 1 => rootBits k n (if (r + 2 ^ b) ^ k ≤ n then r + 2 ^ b else r) b

/-- The exact quotient n / d rounded to nearest even in f32 (R315). -/
def ratF32 (n d : Nat) : Nat := (deliverF .f32 false false .ne (n * 2 ^ 200 % d != 0) (.fin false (n * 2 ^ 200 / d) (-200))).1

/-- The sRGB decoding of u / 255 (R315): the fifth root of the twelfth power of (c + 0.055) / 1.055. -/
def srgbDecode (u : Nat) : Nat :=
  -- c ≤ 0.04045 is u ≤ 10
  if u * 100000 ≤ 4045 * 255 then ratF32 (u * 100) (1292 * 255)
  else
    let n := (u * 1000 + 55 * 255) ^ 12
    let d := (1055 * 255) ^ 12
    let x := n * 2 ^ 500 / d
    let r := rootBits 5 x 0 104
    (deliverF .f32 false false .ne (r ^ 5 * d != n * 2 ^ 500) (.fin false r (-100))).1

/-- x × (2^w − 1) rounded to the nearest integer, ties to even, for x = n / d, with a little more where sticky. -/
def nearest (n d : Nat) (sticky : Bool) : Nat :=
  n / d + (if goesUp .ne false (n % d) d sticky (n / d % 2 = 1) then 1 else 0)

/-- The code of an sRGB channel for l = n / d, between 0 and 1 (R315). -/
def srgbEncode (n d : Nat) : Nat :=
  if n * 10000000 ≤ 31308 * d then nearest (n * 1292 * 255) (100 * d) false
  else
    -- l^(5/12) over 2^128
    let x := n ^ 5 * 2 ^ (12 * 128) / d ^ 5
    let r := rootBits 12 x 0 129
    nearest ((1055 * r - 55 * 2 ^ 128) * 255) (1000 * 2 ^ 128) (r ^ 12 * d ^ 5 != n ^ 5 * 2 ^ (12 * 128))

/-- Encode an unsigned normalised channel of w bits from an exact value (R315). -/
def unormEncode (w : Nat) (srgb : Bool) (v : FV) : Nat :=
  let top := 2 ^ w - 1
  match v with
  | .nan => 0
  | .inf neg => if neg then 0 else top
  | .fin neg m e =>
    if neg ∨ m = 0 then 0
    else
      let n := m * 2 ^ e.toNat
      let d := 2 ^ (-e).toNat
      if d ≤ n then top
      else if srgb then srgbEncode n d
      else nearest (n * top) d false

/-- The value of a channel as a word of f32, or of an integer for the stencil (R314). -/
def chanDecode (c : Chan) (pix : Nat) : Word :=
  match c with
  | .unorm lo w srgb =>
    let u := pix / 2 ^ lo % 2 ^ w
    BitVec.ofNat 32 (if srgb then srgbDecode u else ratF32 u (2 ^ w - 1))
  | .half lo => BitVec.ofNat 32 (deliverF .f32 false false .ne false (decodeF .f16 (pix / 2 ^ lo % 2 ^ 16))).1
  | .word => BitVec.ofNat 32 pix
  | .stencil => BitVec.ofNat 32 (pix / 2 ^ 24)

/-- Replace a field of a pixel. -/
def putField (pix lo w v : Nat) : Nat := pix - pix / 2 ^ lo % 2 ^ w * 2 ^ lo + v % 2 ^ w * 2 ^ lo

/-- Encode an exact value into a channel that holds a real number (R315, R400). -/
def chanPut (c : Chan) (pix : Nat) (v : FV) : Nat :=
  match c with
  | .unorm lo w srgb => putField pix lo w (unormEncode w srgb v)
  | .half lo => putField pix lo 16 (deliverF .f16 false false .ne false v).1
  | .word => (deliverF .f32 false false .ne false v).1
  | .stencil => pix

/-- Write a channel from a register's word (R315). -/
def chanEncode (c : Chan) (pix : Nat) (x : Word) : Nat :=
  match c with
  | .word => x.toNat
  | .stencil => putField pix 24 8 x.toNat
  | _ => chanPut c pix (decodeF .f32 x.toNat)

/-- What sld.fmt delivers. -/
def pixelWords (f pix : Nat) : List Word :=
  (upto 4).map (fun c => if c < srfChannels f then chanDecode (chanOf f c) pix else 0)

/-- The pixel that sst.fmt writes: every channel from its register. -/
def pixelOf (f : Nat) (ws : List Word) : Nat :=
  (upto (srfChannels f)).foldl (fun p c => chanEncode (chanOf f c) p (ws.getD c 0)) 0

/-! Shape and placement (R316 to R318). -/

/-- Tiles that a stack owns. -/
def SrfEntry.ownedBy (e : SrfEntry) (k : Nat) : Nat :=
  if e.home = 2 then ((upto e.tiles).filter (fun t => e.owner t == k)).length
  else if e.home = k then e.tiles else 0

/-- Tiles of a surface at a place of a stack's list. -/
def SrfEntry.tilesAt (e : SrfEntry) (k n o : Nat) : Nat :=
  ((upto e.tiles).filter (fun t => e.owner t == k && e.place n t == o)).length

/-- The condition of R323 at a place of a stack's list: bytes of pinned tiles and the largest unpinned tile. -/
def bankFits (es : List SrfEntry) (k n o : Nat) : Bool :=
  let here := es.filter (fun e => e.kind == 1 && decide (0 < e.tilesAt k n o))
  let pins := ((here.filter (·.pinned)).map (fun e => e.tilesAt k n o * e.tileBytes)).sum
  let big := ((here.filter (fun e => !e.pinned)).map SrfEntry.tileBytes).foldl max 0
  decide (pins + big ≤ 524288)

/-- R323 at every bank of a stack. -/
def stackFits (s : State) (part k : Nat) (es : List SrfEntry) : Bool :=
  let n := (banksOf s part k).length
  (upto n).all (bankFits es k n)

/-! Handles (R321). -/

def srfHandle (e : Nat) (gen : BitVec 16) : Word := BitVec.ofNat 32 (gen.toNat * 65536 + e)
def viewHandle (e : Nat) (gen : BitVec 16) : Word := BitVec.ofNat 32 ((gen.toNat % 15 + 1) * 4096 + e)

/-- The entry of a valid surface handle. -/
def surface? (s : State) (part : Nat) (h : Word) : Option Nat :=
  let e := bits h 11 0
  let x := s.srf part e
  if bits h 15 12 = 0 ∧ x.kind = 1 ∧ !x.freeing ∧ bits h 31 16 = x.gen.toNat then some e else none

/-- The entry of a valid view handle. -/
def view? (s : State) (part : Nat) (h : Word) : Option Nat :=
  let e := bits h 11 0
  let x := s.srf part e
  let p := s.srf part x.parent
  if bits h 31 16 = 0 ∧ x.kind = 2 ∧ bits h 15 12 = x.gen.toNat % 15 + 1 ∧ p.kind = 1 ∧ !p.freeing ∧ p.gen = x.pgen
  then some e else none

/-- The next generation count of an entry (R320). -/
def nextGen (x : SrfEntry) : BitVec 16 := if x.gen = 0xFFFF then 1 else x.gen + 1

/-! Residency (R322 to R326). -/

def setTile (e : SrfEntry) (t : Nat) (st : TileState) : SrfEntry :=
  { e with tileSt := (t, st) :: e.tileSt.filter (fun p => p.1 != t) }

/-- Surfaces of a partition that hold a bank: their entries, with tiles held there. -/
def heldIn (s : State) (part : Nat) (bank : Nat × Nat) : List (Nat × Nat) :=
  ((indexes (fun (e : SrfEntry) => e.kind == 1) (s.part part).srfs).flatMap (fun i =>
    let e := s.srf part i
    (e.tileSt.filter (fun p => p.2.held && tileBank s part e p.1 == bank)).map (fun p => (i, p.1))))

def bankUsed (s : State) (part : Nat) (bank : Nat × Nat) : Nat :=
  ((heldIn s part bank).map (fun p => (s.srf part p.1).tileBytes)).sum

/-- Number of a tile's last access. -/
def lastAccess (e : SrfEntry) (t : Nat) : Nat := ((e.recent.find? (fun p => p.1 == t)).map (·.2)).getD 0

/-- Unpinned tiles of a bank that can be evicted, the least recently accessed first. -/
def victims (s : State) (part : Nat) (bank : Nat × Nat) : List (Nat × Nat) :=
  sortBy (fun a b => decide (lastAccess (s.srf part a.1) a.2 < lastAccess (s.srf part b.1) b.2))
    ((heldIn s part bank).filter (fun p => !(s.srf part p.1).pinned))

/-- Granules of a tile with upset cells (R313, R324). -/
def tileUpsets (s : State) (part e t : Nat) : List Nat :=
  nub ((s.upsets.filter (fun u => u.1 == .srf part e && ((s.srf part e).tilesOf (u.2.1 * 32) 1).contains t)).map (·.2.1))

/-- The engine reads a tile from its bank: it meets the upset cells there, and their marks stay with the tile (R313). -/
def leaveBank (s : State) (part e t : Nat) : State :=
  (tileUpsets s part e t).foldl (fun s g => meetUpset s (.srf part e) g) s

/-- Where a tile's slot of the backing store begins: slots in the order of the ordinals (R324; entry 97). -/
def slotBase (x : SrfEntry) (t : Nat) : Nat := x.backing.toNat + x.ordinal t * (32 * ceilDiv x.tileBytes 1024 + x.tileBytes)

/-- A refetch meets the upset cells of a tile in far DRAM: one flipped bit is corrected and logged; more mark the granule
poisoned (R37, R172, R324). -/
def leaveStore (s : State) (part e t : Nat) : State :=
  (tileUpsets s part e t).foldl (fun s g =>
    let hits := s.upsets.filter (fun u => u.1 == .srf part e && u.2.1 == g)
    let x := s.srf part e
    let at_ := slotBase x t + 32 * ceilDiv x.tileBytes 1024 + 32 * (g % (x.tileBytes / 32))
    let s1 : State := { s with upsets := s.upsets.filter (fun u => !(u.1 == .srf part e && u.2.1 == g)) }
    match hits with
    | [(_, _, bit, false)] => logArray s1 at_ bit 1
    | _ => (logArray s1 at_ 0 2).setPoison (g :: s1.poisonOf (.srf part e)) (.srf part e)) s

/-- A slot filled with zeros holds no upset cell. -/
def dropUpsets (s : State) (part e t : Nat) : State :=
  let gs := tileUpsets s part e t
  { s with upsets := s.upsets.filter (fun u => !(u.1 == .srf part e && gs.contains u.2.1)) }

/-- The entry counts as moving while a tile of it is being moved (R325). -/
def SrfEntry.settleMoves (e : SrfEntry) : SrfEntry := { e with moving := e.tileSt.any (fun p => p.2 == .moving) }

/-- A tile goes to the backing store. -/
def evictTile (s : State) (part e t : Nat) : State :=
  (leaveBank s part e t).mapSrf part e (fun x => (setTile x t .evicted).settleMoves)

/-- Evict the least recently accessed tiles of a bank until a number of bytes fits (R324). -/
def makeRoom (s : State) (part : Nat) (bank : Nat × Nat) (need : Nat) : List (Nat × Nat) → State
  | [] => s
  | v :: vs =>
    if bankUsed s part bank + need ≤ 524288 then s else makeRoom (evictTile s part v.1 v.2) part bank need vs

/-- Room is made in a tile's bank for it. -/
def roomFor (s : State) (part e t : Nat) : State :=
  let x := s.srf part e
  let bank := tileBank s part x t
  makeRoom s part bank x.tileBytes (victims s part bank)

/-- A tile's bytes come to its bank: zeros for an absent tile, the billet's for an evicted one (R322). -/
def enterBank (s : State) (part e t : Nat) : State :=
  let s1 := match (s.srf part e).tileState t with
    | .absent => dropUpsets s part e t
    | .evicted | .fetching => leaveStore s part e t
    | _ => s
  s1.mapSrf part e (fun x => (setTile x t .resident).settleMoves)

/-- The tile is resident: a motion ends first, and room is made for a tile that is not held (R322). -/
def residentTile (s : State) (part e t : Nat) : State :=
  match (s.srf part e).tileState t with
  | .resident => s
  | .absent | .evicted => enterBank (roomFor s part e t) part e t
  | _ => enterBank s part e t

/-- The tile is accessed: it is made resident first, where it is not (R322). -/
def touchTile (s : State) (part e t : Nat) : State :=
  let s1 := residentTile s part e t
  (s1.mapSrf part e (fun x => { x with recent := (t, s1.moves) :: x.recent.filter (fun p => p.1 != t) })).draw

def pieceTiles (s : State) (p : Piece) : List (Nat × Nat × Nat) :=
  match p.space with
  | .srf part e => ((s.srf part e).tilesOf p.addr p.len).map (fun t => (part, e, t))
  | _ => []

/-- A tile of the pieces is peer-owned for an agent of a stack (R326). -/
def peerTiles (s : State) (stack : Nat) (ps : List Piece) : Bool :=
  ps.any (fun p => (pieceTiles s p).any (fun q => (s.srf q.1 q.2.1).owner q.2.2 != stack))

/-- A tile of the pieces is peer-owned for an agent of a stack while the link is failed (R326). -/
def peerLost (s : State) (stack : Nat) (ps : List Piece) : Bool := s.linkDown && peerTiles s stack ps

/-- An access to the other stack waits while the link stalls or retrains (R326, R506). -/
def peerWaits (s : State) (stack : Nat) (ps : List Piece) : Bool :=
  s.linkStalls && (peerTiles s stack ps || ps.any (fun p => p.space == .mem && ownerOf p.addr stack != stack))

/-- Every tile of the pieces is made resident. -/
def touchPieces (s : State) (ps : List Piece) : State :=
  (ps.flatMap (pieceTiles s)).foldl (fun s q => touchTile s q.1 q.2.1 q.2.2) s

/-- The entry is free again; its generation count is kept (R332). -/
def releaseSrf (s : State) (part i : Nat) : State :=
  s.mapSrf part i (fun e => { SrfEntry.reset with gen := e.gen, fresh := e.fresh })

/-- Accesses that passed their check of the handle and are not yet performed. -/
def srfBusy (s : State) (part i : Nat) : Bool := s.accesses.any (fun a => a.spans.any (fun p => p.space == .srf part i))

/-- Surfaces that an access reached go free with it, where they are being freed and it was the last (R332). -/
def freeAfter (s : State) (a : Access) : State :=
  a.spans.foldl (fun s p => match p.space with
    | .srf part e => if (s.srf part e).freeing && !srfBusy s part e then releaseSrf s part e else s
    | _ => s) s

/-- An access in flight needs a tile, or the surface is pinned: what a fetch of the tile serves. -/
def tileWanted (s : State) (part e t : Nat) : Bool :=
  (s.srf part e).pinned || s.accesses.any (fun a => a.spans.any (fun p => (pieceTiles s p).contains (part, e, t)))

/-- TILE_FETCH (R322, R324, R325): a wanted tile that is neither resident nor in motion becomes resident, or is in motion
until the next such event; a refetch or a move that is under way ends. -/
def execTileFetch (part entry tile : Nat) (s : State) : Out :=
  let x := s.srf part entry
  if x.kind = 1 ∧ tile < x.tiles then
    match x.tileState tile with
    | .fetching | .moving => .next (enterBank s part entry tile)
    | .evicted =>
      if !tileWanted s part entry tile then .next s
      else if Config.freeBit s.moves then
        .next ((roomFor s part entry tile).draw.mapSrf part entry (fun x => setTile x tile .fetching))
      else .next (touchTile s part entry tile)
    | .absent => .next (if tileWanted s part entry tile then touchTile s part entry tile else s)
    | _ => .next s
  else .next s

/-- A tile that some srf.evict still waits for (R334). -/
def evictAsked (s : State) (part entry tile : Nat) : Bool :=
  s.blocks.any (fun k => k.part == part && k.groups.any (fun g => g.threads.any (fun t => match t.run with
    | .blocked (.srfEvict e since ts) =>
      e == entry && ts.contains tile && decide (lastAccess (s.srf part entry) tile ≤ since)
    | _ => false)))

/-- A wanted tile does not fit in a bank, and the tile is the next that the engine evicts (R324). -/
def evictNext (s : State) (part entry tile : Nat) : Bool :=
  let bank := tileBank s part (s.srf part entry) tile
  (victims s part bank).head? == some (entry, tile) &&
    (indexes (fun (e : SrfEntry) => e.kind == 1) (s.part part).srfs).any (fun i =>
      let e := s.srf part i
      decide (524288 < bankUsed s part bank + e.tileBytes) &&
      (upto e.tiles).any (fun t => !(e.tileState t).held && tileBank s part e t == bank && tileWanted s part i t))

/-- SAGGER_EVICTION (R322, R324, R334): a resident tile goes to the backing store, or is in motion until the next such
event. -/
def execSaggerEviction (part entry tile : Nat) (s : State) : Out :=
  let x := s.srf part entry
  if x.kind = 1 ∧ x.tileState tile = .evicting then .next (evictTile s part entry tile)
  else if x.kind = 1 ∧ !x.pinned ∧ x.tileState tile = .resident ∧ (evictAsked s part entry tile ∨ evictNext s part entry tile) then
    .next (if Config.freeBit s.moves then s.draw.mapSrf part entry (fun x => setTile x tile .evicting)
      else evictTile s part entry tile)
  else .next s

/-! Views (R327, R328). -/

/-- The format of a view's element code (R278, R328); codes 0 to 3 and 7. -/
def viewFmt (code : Nat) : Fmt :=
  match code with
  | 0 => .bf16
  | 1 => .f16
  | 2 => .e4m3
  | 3 => .e5m2
  | _ => .f32

def viewCodeOk (code : Nat) : Bool := [0, 1, 2, 3, 7].contains code

/-- Channel and piece of the pixel that holds an element, of a surface with one sample (R327). -/
def viewElem (part pe : Nat) (e : SrfEntry) (i : Nat) : Nat × Piece :=
  let x := i % e.width
  let y := i / e.width % e.height
  let c := i / e.width / e.height % srfChannels e.fmt
  let l := i / e.width / e.height / srfChannels e.fmt
  (c, ⟨.srf part pe, e.byteAt l y (x * e.p), e.p⟩)

/-- The bytes of a view's image. -/
def viewSize (e : SrfEntry) (code : Nat) : Nat :=
  e.layers * srfChannels e.fmt * e.height * e.width * (fmtWidth (viewFmt code) / 8)

/-- The value of a channel (R327). -/
def chanValue (c : Chan) (pix : Nat) : FV :=
  match c with
  | .stencil => .fin false (pix / 2 ^ 24) 0
  | _ => decodeF .f32 (chanDecode c pix).toNat

/-- The bytes of an element as the view presents it, from those of its pixel. -/
def elemOf (e : SrfEntry) (code c : Nat) (pix : List Byte) : List Byte :=
  let f := viewFmt code
  leBytes (fmtWidth f / 8) (deliverF f true false .ne false (chanValue (chanOf e.fmt c) (leNat pix))).1

/-- The bytes of an element as it stands. -/
def elemBytes (s : State) (part pe code i : Nat) : List Byte :=
  let e := s.srf part pe
  let q := viewElem part pe e i
  elemOf e code q.1 (s.readPiece q.2)

/-- A pixel with a channel written from an element's bytes: a binary32 channel takes an .f32 element bit for bit (R315,
R328). -/
def putChannel (e : SrfEntry) (code c : Nat) (pix : Nat) (bs : List Byte) : Nat :=
  let v := decodeF (viewFmt code) (leNat bs)
  match chanOf e.fmt c with
  | .stencil => putField pix 24 8 (deliverI 0 255 .ne v).1.toNat
  | .word => if viewFmt code = .f32 then leNat bs else chanPut .word pix v
  | ch => chanPut ch pix v

/-- Write an element's bytes to its channel (R328). -/
def putElem (s : State) (w : Who) (part pe code i : Nat) (bs : List Byte) : State :=
  let e := s.srf part pe
  let q := viewElem part pe e i
  writeBytes s w [q.2] (leBytes e.p (putChannel e code q.1 (leNat (s.readPiece q.2)) bs))

/-- What reading or writing through a view meets. -/
inductive ViewRes where
  /-- invalid handle, an offset outside the image, or a write that is not permitted -/
  | refused
  /-- a peer-owned tile while the link is failed -/
  | lost
  /-- a peer-owned tile while the link stalls -/
  | wait
  | poisoned
  | bytes (bs : List Byte)
  deriving DecidableEq, Repr, Inhabited

/-- The elements of a view that an access of offsets touches, with the parent's entry and the pieces of their pixels;
none where the handle is not valid, an offset lies outside the image, or a write is not permitted (R327, R328). -/
def viewReach (s : State) (part : Nat) (h : Word) (write : Bool) (offs : List Nat) : Option (Nat × Nat × List Nat) :=
  match view? s part h with
  | none => none
  | some v =>
    let x := s.srf part v
    let e := s.srf part x.parent
    if offs.any (fun o => decide (viewSize e x.fmt ≤ o)) || (write && !(x.write && e.viewWrite)) then none
    else some (x.parent, x.fmt, nub (offs.map (· / (fmtWidth (viewFmt x.fmt) / 8))))

def elemPieces (s : State) (part pe : Nat) (els : List Nat) : List Piece :=
  els.map (fun i => (viewElem part pe (s.srf part pe) i).2)

/-- Read bytes of a view's image for an agent of a stack: each element at one moment. -/
def viewRead (s : State) (w : Who) (part stack : Nat) (h : Word) (off len : Nat) : State × ViewRes :=
  match viewReach s part h false ((upto len).map (off + ·)) with
  | none => (s, .refused)
  | some (pe, code, els) =>
    let ps := elemPieces s part pe els
    if peerLost s stack ps then (s, .lost)
    else if peerWaits s stack ps then (s, .wait)
    else
      let r := readBytes (touchPieces s ps) stack w .at_ ps
      match r.2 with
      | none => (r.1, .poisoned)
      | some bs =>
        let e := s.srf part pe
        let z := fmtWidth (viewFmt code) / 8
        let img := ((upto els.length).zip els).flatMap (fun q =>
          elemOf e code (viewElem part pe e q.2).1 ((bs.drop (q.1 * e.p)).take e.p))
        (r.1, .bytes ((img.drop (off % z)).take len))

/-- Write bytes at offsets of a view's image: the bytes of one element together, and an element written in part keeps its
other bytes (R328). -/
def viewWrite (s : State) (w : Who) (part stack : Nat) (h : Word) (bs : List (Nat × Byte)) : State × ViewRes :=
  match viewReach s part h true (bs.map (·.1)) with
  | none => (s, .refused)
  | some (pe, code, els) =>
    let ps := elemPieces s part pe els
    if peerLost s stack ps then (s, .lost)
    else if peerWaits s stack ps then (s, .wait)
    else
      let z := fmtWidth (viewFmt code) / 8
      (els.foldl (fun s i =>
        let old := elemBytes s part pe code i
        putElem s w part pe code i ((upto z).map (fun j =>
          (((bs.filter (fun b => b.1 == i * z + j)).getLast?).map (·.2)).getD (old.getD j 0)))) (touchPieces s ps), .bytes [])

end Sys2Proof.Machine
end

