-- ==== Sys2Proof/Machine/Atomics.lean ====
section
/-!
DEFINITION. Atomics (R216, R227 to R229), and the performance at the point of coherence of what is in flight: stores,
atomics, semaphore increments and operations for another module (R148, R243, R510).
-/

namespace Sys2Proof.Machine

/-! What an atomic writes (R227). -/

/-- A float sum of an atomic: to nearest even, subnormals kept (R227). -/
def atomSum (f : Fmt) (x y : Nat) : Nat := (sumOfProducts f false .ne [] [decodeF f x, decodeF f y]).1

def atomSumHalves (f : Fmt) (x y : Nat) : Nat :=
  atomSum f (x % 65536) (y % 65536) + 65536 * atomSum f (x / 65536 % 65536) (y / 65536 % 65536)

def signedOf (w n : Nat) : Int := if 2 ^ (w - 1) ≤ n then (n : Int) - 2 ^ w else n

/-- The new value from the old value o, the operand y and the comparand c, each of w bits. -/
def atomNew (op : AtomOp) (w o y c : Nat) : Nat :=
  match op with
  | .add => (o + y) % 2 ^ w
  | .minI => if signedOf w y < signedOf w o then y else o
  | .maxI => if signedOf w o < signedOf w y then y else o
  | .minN => min o y
  | .maxN => max o y
  | .and_ => o &&& y
  | .or_ => o ||| y
  | .xor_ => o ^^^ y
  | .xchg => y
  | .cas => if o = c then y else o
  | .addF32 => atomSum .f32 o y
  | .addF16x2 => atomSumHalves .f16 o y
  | .addBf16x2 => atomSumHalves .bf16 o y
  | .addF64 => atomSum .f64 o y

/-- The atomics that PCI Express carries to host memory (R229). -/
def hostAtomic (op : AtomOp) (red : Bool) : Bool :=
  match op with
  | .add => true
  | .xchg | .cas => !red
  | _ => false

/-! Issue (R228). -/

/-- The class of an atomic on a page (R229). -/
def atomClass (acq rel : Bool) (scope attr : Nat) : Eff :=
  match attr with
  | 1 => ⟨false, true, true, false, 7⟩
  | 2 => ⟨false, false, false, false, scope⟩
  | _ => ⟨false, acq && scope != 1, rel && scope != 1, false, scope⟩

/-- The operand and the comparand in the registers of field b: cas names the comparand first. -/
def atomOperands (op : AtomOp) (w64 : Bool) (rs : List Reg) : DWord × DWord :=
  let n := if w64 then 2 else 1
  let lo := BitVec.ofNat 64 (regsVal (rs.take n))
  let hi := BitVec.ofNat 64 (regsVal (rs.drop n))
  if op = .cas then (hi, lo) else (lo, 0)

/-- One lane's atomic (R228); d names where the old value goes. -/
def atomLane (op : AtomOp) (w64 : Bool) (d : Option Fld) (a b : Src) (acq rel : Bool) (batch : Nat)
    (is : Issue) (k : Block) (g : Group) (l : Nat) (t : Thread) (s : State) : State × List Trap :=
  let n := if w64 then 2 else 1
  let ops := g.vregsAt t b.f (if op = .cas then 2 * n else n)
  match poisonIn (g.vregsAt t a.f 2 ++ ops) with
  | some (kind, v) => (s, [⟨l, kind, v, 0⟩])
  | none =>
    let va := regAddr (g.vregsAt t a.f 2)
    if va.toNat % (4 * n) ≠ 0 then (s, [⟨l, kAlignment, 0, va⟩])
    else
      let wm := watchMask s k t va (4 * n) watchAtomic
      if wm ≠ 0 then (s, [⟨l, kWatchpoint, BitVec.ofNat 32 wm, va⟩])
      else
        let r := xlateLane s k g.cluster l .store va
        match r.2 with
        | .missing => (r.1, [⟨l, kProtection, 3, va⟩])
        | .denied => (r.1, [⟨l, kProtection, 4, va⟩])
        | .recoverable p => (blockOnPages r.1 is l [p], [])
        | .ok tr =>
          let pa := tr.pa va.toNat
          if region? pa = some .host ∧ !hostAtomic op d.isNone then (r.1, [⟨l, kProtection, 4, va⟩])
          else
            let e := atomClass acq rel (scopeOr 6 (hintMods is.hints).scope) tr.ordering
            let y := atomOperands op w64 ops
            let s1 := match d with
              | some f => issueLoad r.1 is l (g.vi f) n
              | none => r.1.advance is.blk is.grp [l]
            let p : Piece := ⟨.mem, pa, 4 * n⟩
            (s1.fly { (Access.new s1 is batch t.tid (.atom op w64 y.1 y.2)).withShares [⟨0, p, e⟩] with
              dst := d.map (fun f => ⟨false, is.grp, l, g.vi f, n⟩)
              va := va
              pages := usedPages [tr]
              remote := remotePiece k.stack p }, [])

def Accepts.atomics : Accepts := ⟨false, false, false, false, true, true⟩

def atom (op : AtomOp) (w64 : Bool) (d : Fld) (a b : Src) (o : AtOrd) (s : State) : Out :=
  let n := if w64 then 2 else 1
  withForm ⟨[vDst d n, vSrc 1 a 2, vSrc 2 b (if op = .cas then 2 * n else n)], Accepts.atomics, .any⟩
    (unlessSwept (fun is s =>
      eachLane (atomLane op w64 (some d) a b (o == .acq || o == .ar) (o == .rel || o == .ar) s.moves) is s)) s

def atomred (op : AtomOp) (w64 : Bool) (a b : Src) (o : RedOrd) (s : State) : Out :=
  withForm ⟨[vSrc 1 a 2, vSrc 2 b (if w64 then 2 else 1)], Accepts.atomics, .any⟩
    (unlessSwept (fun is s => eachLane (atomLane op w64 none a b false (o == .rel) s.moves) is s)) s

def execAtomAdd (w64 : Bool) (d : Fld) (a b : Src) (o : AtOrd) (s : State) : Out := atom .add w64 d a b o s
def execAtomMin (w64 : Bool) (d : Fld) (a b : Src) (o : AtOrd) (s : State) : Out := atom .minI w64 d a b o s
def execAtomMax (w64 : Bool) (d : Fld) (a b : Src) (o : AtOrd) (s : State) : Out := atom .maxI w64 d a b o s
def execAtomAnd (w64 : Bool) (d : Fld) (a b : Src) (o : AtOrd) (s : State) : Out := atom .and_ w64 d a b o s
def execAtomOr (w64 : Bool) (d : Fld) (a b : Src) (o : AtOrd) (s : State) : Out := atom .or_ w64 d a b o s
def execAtomXor (w64 : Bool) (d : Fld) (a b : Src) (o : AtOrd) (s : State) : Out := atom .xor_ w64 d a b o s
def execAtomXchg (w64 : Bool) (d : Fld) (a b : Src) (o : AtOrd) (s : State) : Out := atom .xchg w64 d a b o s
def execAtomCas (w64 : Bool) (d : Fld) (a b : Src) (o : AtOrd) (s : State) : Out := atom .cas w64 d a b o s
def execAtomMinN32 (d : Fld) (a b : Src) (o : AtOrd) (s : State) : Out := atom .minN false d a b o s
def execAtomMaxN32 (d : Fld) (a b : Src) (o : AtOrd) (s : State) : Out := atom .maxN false d a b o s
def execAtomMinN64 (d : Fld) (a b : Src) (o : AtOrd) (s : State) : Out := atom .minN true d a b o s
def execAtomMaxN64 (d : Fld) (a b : Src) (o : AtOrd) (s : State) : Out := atom .maxN true d a b o s
def execAtomAddF32 (d : Fld) (a b : Src) (o : AtOrd) (s : State) : Out := atom .addF32 false d a b o s
def execAtomAddF16x2 (d : Fld) (a b : Src) (o : AtOrd) (s : State) : Out := atom .addF16x2 false d a b o s
def execAtomAddBf16x2 (d : Fld) (a b : Src) (o : AtOrd) (s : State) : Out := atom .addBf16x2 false d a b o s
def execAtomAddF64 (d : Fld) (a b : Src) (o : AtOrd) (s : State) : Out := atom .addF64 true d a b o s
def execAtomredAddI32 (a b : Src) (o : RedOrd) (s : State) : Out := atomred .add false a b o s
def execAtomredMinI32 (a b : Src) (o : RedOrd) (s : State) : Out := atomred .minI false a b o s
def execAtomredMaxI32 (a b : Src) (o : RedOrd) (s : State) : Out := atomred .maxI false a b o s
def execAtomredAndB32 (a b : Src) (o : RedOrd) (s : State) : Out := atomred .and_ false a b o s
def execAtomredOrB32 (a b : Src) (o : RedOrd) (s : State) : Out := atomred .or_ false a b o s
def execAtomredXorB32 (a b : Src) (o : RedOrd) (s : State) : Out := atomred .xor_ false a b o s
def execAtomredAddF32 (a b : Src) (o : RedOrd) (s : State) : Out := atomred .addF32 false a b o s
def execAtomredAddI64 (a b : Src) (o : RedOrd) (s : State) : Out := atomred .add true a b o s

/-! Performance (R148, R216, R228, R243). -/

/-- Report codes: 2 a store to host memory that failed, 5 a store, atomic or increment that could not reach its
memory, 6 an increment of a poisoned granule (R161, R229, R243). -/
def reportLost : Nat := 5
def reportPoisonedSem : Nat := 6

/-! The end of fsem.wait (R244, R246, R486). -/

/-- Identity of a local increment: stack, core, slot and lane in the places that word 0 of a trace record gives them
(R246, R485). -/
def Subject.identity (x : Subject) : Word :=
  putBits x.stack 26 26 ||| putBits x.core 25 19 ||| putBits x.slot 16 13 ||| putBits x.lane 4 0

/-- What ended a wait at a semaphore: its identity, and the thread that incremented it, where that is of this module. -/
structure Increment where
  source : Word
  by_ : Option Subject
  deriving DecidableEq, Repr, Inhabited

/-- fsem.wait ends for lanes of a group: the core keeps its longest waiter with the increment that released it, and the pair
of records is written. A wait that no increment ended has its own thread for last arriver (entry 98); the records of a block
that has been evicted meanwhile name the core that it was resident on (DESIGN CHOICE, entry 114). -/
def endSemWait (s : State) (b g : Nat) (ls : List Nat) (inc : Increment) : State :=
  match s.block? b, s.group? b g with
  | some k, some gr =>
    let s1 := s.advance b g ls
    match longestOf (ls.map (fun l => subjectOf s k gr l (gr.thread l))) with
    | none => s1
    | some x =>
      arrivalTrace (s1.mapCore k.stack k.core (fun c =>
        if (c.fsemLongest.map (·.wait)).any (fun w => decide (x.wait ≤ w)) then c
        else { c with fsemLongest := some x, fsemSource := some inc.source }))
        k.part k.stack k.core k.job 2 0 { inc.by_.getD x with wait := 0 } x inc.source
  | _, _ => s

/-- Threads of a block that wait at fsem.wait on a physical word for no more than a count, and whose read of it may be
performed (R244). -/
def semSatisfied (s : State) (b : Nat) (k : Block) (pa now : Nat) : List (Nat × Nat × Nat) :=
  (k.positions.filter (fun p => match p.2.2.2.run with
    | .blocked (.fsem va v) => decide (v.toNat ≤ now) && !inWindow va &&
        (match outcome (walk s k.stack k.part va) va .load k.priv with
        | .ok tr => tr.pa va.toNat == pa
        | _ => false) && (mustFollow s b p.2.2.2.tid [⟨.mem, pa, 8⟩]).isEmpty
    | _ => false)).map (fun p => (p.1, p.2.1, p.2.2.2.tid))

/-- The read that satisfies a wait is an acquire of its threads at system scope; an increment by a link controller covers
the peer writes before it (R225, R244). -/
def semAcquire (s : State) (b pa : Nat) (tids : List Nat) (peer : Bool) : State :=
  let w : Who := { parties := tids.map (.thread b), acc := s.moves, after := [], acq := some 7, rel := none }
  let s1 := (s.readAs w .point [⟨.mem, pa, 8⟩]).1
  if peer then s1.mapOrder (fun o => tids.foldl (fun o t =>
    o.putChan (.took b t .peer) ((o.past.filter (fun e => e.party == .peer)).map (·.id))) o)
  else s1

/-- The waits that an increment satisfies end with it, whatever the count is later (R244). -/
def releaseWaits (s : State) (pa : Nat) (now : DWord) (inc : Increment) : State :=
  (indexes (fun (k : Block) => k.phase == .resident || k.phase == .evicted) s.blocks).foldl (fun s b =>
    match s.block? b with
    | none => s
    | some k =>
      let hits := semSatisfied s b k pa now.toNat
      if hits.isEmpty then s
      else (nub (hits.map (·.1))).foldl (fun s g =>
        endSemWait s b g ((hits.filter (·.1 == g)).map (·.2.1)) inc)
        (semAcquire s b pa (hits.map (·.2.2)) inc.by_.isNone)) s

/-- A semaphore increment as one step (R243), which passes on what the increments before it released (R219). -/
def semAdd (s : State) (w : Who) (pa : Nat) (amount : Word) (inc : Increment) : State :=
  let p : Piece := ⟨.mem, pa, 8⟩
  let v := s.memDWord pa + amount.zeroExtend 64
  releaseWaits (writeBytes s w [p] (leBytes 8 v.toNat) (s.chainOf p)) pa v inc

/-! Performance (R148, R151, R216, R228, R243). -/

/-- The bytes that the present part of a store writes. -/
def Access.slice (a : Access) (data : List Byte) : List Byte := (data.drop a.off).take (a.pieces.map (·.len)).sum

/-- What the present part reaches is on the other stack, and the link has failed (R161, R326). -/
def lostTo (s : State) (stack : Nat) (ps : List Piece) : Bool :=
  ps.any (fun p => p.space == .mem && s.unreachablePA p.addr stack) || peerLost s stack ps

/-- Perform the present part of an access whose turn has come. An atomic that the failed link keeps from its memory is not
performed there (DESIGN CHOICE, entry 99; R229). -/
def performNow (s : State) (k : Block) (a : Access) : State :=
  let lost := lostTo s k.stack a.pieces
  match a.kind with
  | .store data =>
    if lost then (s.dropPart a).report k.stack reportLost
    else
      let s1 := coverGranules (writeBytes (touchPieces (s.dropPart a) a.pieces) a.who a.pieces (a.slice data)) a.batch a.pieces
      if a.cache = 3 then dropLines s1 k.stack k.core a.pieces else s1
  | .atom op w64 y c =>
    if lost then completeWith (s.report k.stack reportLost) a a.poison
    else
      let w := if w64 then 64 else 32
      let r := readBytes s k.stack a.who .point a.pieces
      match r.2 with
      | none => completeWith r.1 a a.poison
      | some bs =>
        let o := leNat bs
        let s1 := writeBytes r.1 a.who a.pieces (leBytes (w / 8) (atomNew op w o y.toNat c.toNat))
          (a.pieces.flatMap s.chainOf)
        completeWith s1 a ((wordsOfBytes bs (w / 32)).map full)
  | .fsemInc amount by_ =>
    match a.pieces with
    | [p] =>
      if lost then (s.done a).report k.stack reportLost
      else
        let r := readBytes s k.stack a.who .point [p]
        if r.2.isNone then (r.1.done a).report k.stack reportPoisonedSem
        else semAdd (r.1.done a) a.who p.addr amount ⟨by_.identity, some by_⟩
    | _ => s.done a
  | .fabric m st pt op =>
    if s.unreachable.contains m then
      match op with
      | .fsemRd _ => completeWith s a [⟨0xF000_0000, .poisoned⟩]
      | _ => (s.done a).report k.stack reportLost
    else
      let s1 : State := { s.passes a.who [⟨.mem, 0, 0⟩] with fabricOut := s.fabricOut ++ [(m, st, pt, op)] }
      match op with
      | .fsemRd _ => completeWith s1.draw a [if Config.remoteFails s.moves then ⟨0xF000_0000, .poisoned⟩
          else full (BitVec.ofNat 32 (min (Config.freeNat s.moves) (2 ^ 32 - 1)))]
      | _ => s1.done a
  | _ => s

/-- Parts of an access are performed, one or several, where the orders of R148 and R218 let them be and the link does not
stall. -/
def performParts (k : Block) (id : Nat) : Nat → State → State
  | 0, s => s
  | fuel + 1, s =>
    match s.accesses.find? (fun a => a.id == id) with
    | none => s
    | some a0 =>
      let a := a0.turn (Config.freeNat s.moves)
      if a.kind.fills || !mayPerform s a || peerWaits s k.stack a.pieces then s
      else
        let s1 := performNow s k a
        if a.later.isEmpty || Config.pause s.moves then s1 else performParts k id fuel s1.draw

/-- An access in flight that writes is performed. -/
def perform (s : State) (id : Nat) : State :=
  match s.accesses.find? (fun a => a.id == id) with
  | none => s
  | some a =>
    match s.block? a.blk with
    | none => s.done a
    | some k => freeAfter (performParts k id (a.later.length + 1) s) a

end Sys2Proof.Machine
end

