-- ==== Sys2Proof/Machine/Accumulators.lean ====
section
/-!
DEFINITION. Accumulator memory: grants, handles and words (R289 to R291), and the reads of acc.ld (R300).
-/

namespace Sys2Proof.Machine

/-- Fields of a handle (R290). -/
def accSlot (h : Word) : Nat := bits h 3 0
def accCount (h : Word) : Nat := bits h 12 8

/-- The handle of a grant (R290, R299). -/
def accHandle (slot : Nat) (gen : BitVec 16) (banks : Nat) : Word :=
  putBits gen.toNat 31 16 ||| putBits banks 12 8 ||| putBits slot 3 0

/-- The grant that a handle was given, whether or not it has been freed since. -/
def accGrantOf (k : Block) (h : Word) : Option AccGrant :=
  match (k.accs.getD (accSlot h) none) with
  | some g => if h ≠ 0 ∧ h = accHandle (accSlot h) g.gen g.banks then some g else none
  | none => none

/-- A valid handle's grant (R290). -/
def accValid? (k : Block) (h : Word) : Option AccGrant :=
  match accGrantOf k h with
  | some g => if g.freed then none else some g
  | none => none

/-- A word of a grant: what was last written, or a free value (R299). -/
def AccGrant.word (g : AccGrant) (w : Nat) : Word :=
  match g.words.find? (fun p => p.1 == w) with
  | some p => p.2
  | none => if g.zeroed then 0 else Config.bankWord g.ticket w

def AccGrant.setWord (g : AccGrant) (w : Nat) (v : Word) : AccGrant :=
  { g with words := (w, v) :: g.words.filter (fun p => p.1 != w) }

def mapGrant (s : State) (b : Nat) (h : Word) (f : AccGrant → AccGrant) : State :=
  s.mapBlock b (fun k => { k with accs := modifyAt (Option.map f) (accSlot h) k.accs })

/-- Banks that a block holds: those of a freed grant until they return. -/
def banksHeld (k : Block) : Nat := (k.accs.map (fun g => g.elim 0 (·.banks))).sum

/-- Free accumulator banks of a core (R289). -/
def banksFree (s : State) (stack core : Nat) : Nat :=
  16 - ((s.blocks.filter (fun k => k.phase == .resident && k.stack == stack && k.core == core)).map banksHeld).sum

/-- The registers that an acc.ld fills. -/
def accLdRegs (k : Block) (h : Word) (w : Nat) : List Reg :=
  match accGrantOf k h with
  | some g => [full (g.word w)]
  | none => [poison0]

/-- Every acc.ld of a thread reads its word (R291). -/
def readAccs (s : State) (b tid : Nat) : State :=
  match s.block? b with
  | none => s
  | some k => (s.accesses.filter (fun a => a.blk == b && a.tid == tid)).foldl (fun s a => match a.kind with
      | .accLd h w => completeWith s a (accLdRegs k h w)
      | _ => s) s

end Sys2Proof.Machine
end

