-- ==== Sys2Proof/Machine/Sync.lean ====
section
/-!
DEFINITION. Fences, block and numbered barriers, monitors and fabric semaphores (R230 to R246).
-/

namespace Sys2Proof.Machine

/-! Fences (R230, R231, R246). -/

/-- An access that reads memory. -/
def AccKind.reads : AccKind → Bool
  | .load _ _ | .const _ _ | .pixel | .atom _ _ _ _ | .fsemRd => true
  | _ => false

/-- Keep the longest wait of a core's fences (R246), and write the pair of records where the wait was longer than 64
cycles (R486). -/
def noteFence (s : State) (k : Block) (x : Subject) : State :=
  let s1 := s.mapCore k.stack k.core (fun c => { c with
    fenceLongest := if (c.fenceLongest.elim 0 (·.wait)) < x.wait then some x else c.fenceLongest })
  if 64 < x.wait then arrivalTrace s1 k.part k.stack k.core k.job 3 0 x x 0 else s1

/-- A thread at a fence blocks until the accesses it names have been performed, and for a release those that a barrier orders
before its own (R236), and then continues, with the order that the fence makes. -/
def fenceBody (pick : Access → Bool) (behind : Bool) (order : Nat → Nat → State → State) : Body := eachLane (fun is k g l t s =>
  let go (s : State) : State := order is.blk t.tid (s.advance is.blk is.grp [l])
  match t.run with
  | .blocked (.fence _) => (go (noteFence s k (subjectOf s k g l t)), [])
  | _ =>
    match ((accessesOf s is.blk t.tid).filter pick).map (·.id) ++ (if behind then behindOf s is.blk t.tid else []) with
    | [] => (go s, [])
    | as => (s.blockLanes is.blk is.grp [l] (fun _ => .fence as), []))

/-- The order of a fence of a class at a scope (R220, R221). -/
def fenceOrder (c : FenceClass) (scope b tid : Nat) (s : State) : State :=
  match c with
  | .acq => fenceAcquire s (.thread b tid) scope
  | .rel => fenceRelease s (.thread b tid) scope
  | .ar => fenceBoth s (.thread b tid) scope

/-- fence (R230): an acquire fence orders earlier reads, the others order every earlier access. -/
def execFence (sc : Scope) (c : FenceClass) (s : State) : Out :=
  withForm (Form.of []) (fenceBody (fun a => c != .acq || a.kind.reads) (c != .acq) (fenceOrder c sc.code.toNat)) s

/-- fence.x (R225, R231): of the accesses that a set of earlier paths covers only the thread's own on the vector path
can still be in flight. -/
def execFenceX (e l : BitVec 6) (s : State) : Out :=
  withForm (Form.of []) (fenceBody (fun _ => e.getLsbD 0) (e.getLsbD 0) (fun b tid s => fenceCross s b tid e l)) s

/-! Block barriers (R232 to R236). -/

def foldOp (op : FoldOp) (x y : Word) : Word :=
  match op with
  | .addI32 => x + y
  | .andB32 => x &&& y
  | .orB32 => x ||| y
  | .maxI32 => maxI32 x y
where
  maxI32 (x y : Word) : Word := if x.slt y then y else x

/-- The contribution of a gate.fold to a barrier (R235). -/
def Gate.fold (gt : Gate) (op : FoldOp) (payload : Reg) : Gate :=
  match gt.op with
  | none => { gt with op := some op, acc := payload.val, poison := gt.poison || payload.isPoisoned }
  | some o =>
    if o = op then { gt with acc := foldOp op gt.acc payload.val, poison := gt.poison || payload.isPoisoned }
    else { gt with poison := true }

def setBit16 (p : BitVec 16) (n : Nat) : BitVec 16 := p ||| ((1 : BitVec 16) <<< n)

/-- A thread of a lane arrives at barrier n (R233): a release of its accesses in flight and of what they follow, and of
what it has seen (R236). -/
def arriveGate (s : State) (b g l n : Nat) (tid : Nat) (who : Subject) (contrib : Gate → Gate) : State :=
  let ids := (accessesOf s b tid).map (·.id) ++ behindOf s b tid
  ((s.mapLanes b g [l] (fun _ t => { t with
    gatePending := setBit16 t.gatePending n, behind := s.still t.behind })).mapBlock b (fun k => { k with
    gates := modifyAt (fun gt => contrib { gt with
      arrived := gt.arrived ++ [tid], latest := some who, before := gt.before ++ ids }) n k.gates
    bwdog := 0 })).giveChan (.thread b tid) (.gateIn b n)

/-- What a thread does once it has arrived. -/
inductive After where
  | go
  | wait
  | take (dst : Nat)
  deriving DecidableEq, Repr, Inhabited

/-- The arrivals of a bundle at barrier n: a thread whose earlier arrival stands blocks until that phase completes;
the phase completes when every thread not exited has arrived. -/
def gateBody (n : Nat) (after : Group → After) (contrib : Group → Thread → Gate → Gate) : Body := fun is s =>
  let r := eachLane (fun is k g l t s =>
    if t.gatePending.getLsbD n then (s.blockLanes is.blk is.grp [l] (fun _ => .gate n false), [])
    else
      let s1 := arriveGate s is.blk is.grp l n t.tid { subjectOf s k g l t with wait := 0 } (contrib g t)
      match after g with
      | .go => (s1.advance is.blk is.grp [l], [])
      | .wait => (s1.blockLanes is.blk is.grp [l] (fun _ => .gate n true), [])
      | .take d => (s1.blockLanes is.blk is.grp [l] (fun _ => .fold n d), [])) is s
  if (r.1.block? is.blk).elim false (fun k => phaseFull k n) then (completePhase r.1 is.blk n, r.2) else r

def execGateIn (n : BitVec 4) (s : State) : Out :=
  withForm (Form.of []) (gateBody n.toNat (fun _ => .go) (fun _ _ gt => gt)) s

def execGateWait (n : BitVec 4) (s : State) : Out :=
  withForm (Form.of []) (eachLane (fun is k _ l t s =>
    if t.gatePending.getLsbD n.toNat then (s.blockLanes is.blk is.grp [l] (fun _ => .gate n.toNat true), [])
    else ((s.mapLanes is.blk is.grp [l] (fun _ t =>
      (t.after (s.still ((k.gates[n.toNat]?).elim [] (·.ended)))).next)).takeChan (.thread is.blk t.tid)
        (.gateOut is.blk n.toNat), []))) s

def execGatePass (n : BitVec 4) (s : State) : Out :=
  withForm (Form.of []) (gateBody n.toNat (fun _ => .wait) (fun _ _ gt => gt)) s

def execGateFold (d : Fld) (op : FoldOp) (n : BitVec 4) (b : SrcB) (s : State) : Out :=
  withForm (Form.of [vDst d, bSrc b])
    (gateBody n.toNat (fun g => .take (g.vi d)) (fun g t gt => gt.fold op ((g.bRegs t b 1).headD Reg.mk0))) s

/-! Numbered barriers (R237). -/

/-- nbar.arrive (R237): it takes effect after the reads of the thread's earlier acc.ld (R291), and gives the sequencer what a
fence.x has ordered before the matrix path (R225). -/
def execNbarArrive (n : BitVec 4) (s : State) : Out :=
  withForm (Form.of []) (eachLane (fun is k g l t s =>
    ((((readAccs s is.blk t.tid).advance is.blk is.grp [l]).mapBlock is.blk (fun b => { b with
      nbars := modifyAt (fun x => { x with a := x.a + 1, latest := some { subjectOf s k g l t with wait := 0 } })
        n.toNat b.nbars
      bwdog := 0 })).mapOrder (fun o => o.putChan (.toSeq is.blk n.toNat) (o.chan (.gives is.blk t.tid .matrix))), []))) s

def execNbarWait (n : BitVec 4) (s : State) : Out :=
  withForm (Form.of []) (eachLane (fun is k _ l t s =>
    if t.nbarCount.getD n.toNat 0 = (k.nbars[n.toNat]?).elim 0 (·.m) then
      (s.blockLanes is.blk is.grp [l] (fun _ => .nbar n.toNat), [])
    else ((s.mapLanes is.blk is.grp [l] (fun _ t =>
      { t.next with nbarCount := modifyAt (· + 1) n.toNat t.nbarCount })).mapOrder (fun o =>
        o.putChan (.took is.blk t.tid .matrix) (o.chan (.fromSeq is.blk n.toNat))), []))) s

/-! Monitors (R239 to R241). -/

/-- mon.arm (R239): the read is performed as the thread's next access, so that the thread issues nothing before it. A word of
a stack that cannot be reached raises the poison trap as a poisoned granule does (DESIGN CHOICE, entry 100). -/
def armLane (a : Src) (is : Issue) (k : Block) (g : Group) (l : Nat) (t : Thread) (s : State) : State × List Trap :=
  match poisonIn (g.vregsAt t a.f 2) with
  | some (kind, v) => (s, [⟨l, kind, v, 0⟩])
  | none =>
    let va := regAddr (g.vregsAt t a.f 2)
    if va.toNat % 4 ≠ 0 then (s, [⟨l, kAlignment, 0, va⟩])
    else
      let wm := watchMask s k t va 4 watchLoad
      if wm ≠ 0 then (s, [⟨l, kWatchpoint, BitVec.ofNat 32 wm, va⟩])
      else
        let r := xlateLane s k g.cluster l .load va
        match r.2 with
        | .missing => (r.1, [⟨l, kProtection, 3, va⟩])
        | .denied => (r.1, [⟨l, kProtection, 4, va⟩])
        | .recoverable p => (blockOnPages r.1 is l [p], [])
        | .ok tr =>
          let p : Piece := ⟨.mem, tr.pa va.toNat, 4⟩
          if !(mustFollow r.1 is.blk t.tid [p]).isEmpty then (r.1.blockLanes is.blk is.grp [l] (fun _ => .own), [])
          else
            let scope := scopeOr 6 (hintMods is.hints).scope
            let w : Who := { Who.of (.thread is.blk t.tid) r.1.moves with acq := if scope = 1 then none else some scope }
            let q := readBytes r.1 k.stack w .point [p]
            match q.2 with
            | none => (q.1, [⟨l, kPoison, 0, 0⟩])
            | some bs => (q.1.mapLanes is.blk is.grp [l] (fun _ t =>
                { t.next with monitor := some ⟨va, p.addr, tr.shift, BitVec.ofNat 32 (leNat bs), false⟩ }), [])

def execMonArm (a : Src) (s : State) : Out :=
  withForm ⟨[vSrc 1 a 2], ⟨false, false, false, false, true, false⟩, .any⟩ (unlessSwept (eachLane (armLane a))) s

/-- mon.wait (R240): it checks when it issues. -/
def execMonWait (s : State) : Out :=
  withForm (Form.of []) (eachLane (fun is _ _ l t s =>
    match t.monitor with
    | none => (s.advance is.blk is.grp [l], [])
    | some _ => (checkMonitor (s.blockLanes is.blk is.grp [l] (fun _ => .monitor)) is.blk is.grp l, []))) s

/-- MONITOR_POLL (R240, R467): a waiting thread's word is checked. -/
def execMonitorPoll (blk grp lane : Nat) (s : State) : Out :=
  match s.block? blk with
  | none => .next s
  | some k => if k.phase == .resident || k.phase == .evicted then .next (checkMonitor s blk grp lane) else .next s

/-! Fabric semaphores (R242 to R246). -/

/-- The conditions of R242 for a semaphore address: every lane traps, or waits for its page; else the operation goes on, in
memory or at another module. -/
def semPlace (use : Use) (go : Issue → Block → Group → Addr → Trans → State → State × List Trap)
    (far : Issue → Block → Group → Addr → State → State × List Trap)
    (is : Issue) (k : Block) (g : Group) (va : Addr) (s : State) : State × List Trap :=
  if va.toNat % 8 ≠ 0 then (s, trapAll is.act kAlignment 0 va)
  else if inWindow va then
    let r := fabricRowOf s k.part va
    if !rowValid r then (s, trapAll is.act kProtection 3 va)
    else if use == .store && !rowWrite r then (s, trapAll is.act kProtection 4 va)
    else far is k g va s
  else
    let r := xlateCore s k use va
    match r.2 with
    | .missing => (r.1, trapAll is.act kProtection 3 va)
    | .denied => (r.1, trapAll is.act kProtection 4 va)
    | .recoverable p => ((countPages r.1 is.blk [p]).blockLanes is.blk is.grp is.act (fun _ => .pages [p] true), [])
    | .ok tr => go is k g va tr r.1

/-- A semaphore form: a poisoned operand traps every active lane (R242). -/
def semForm (use : Use) (srcs : Group → List Reg) (a : Src)
    (go : Issue → Block → Group → Addr → Trans → State → State × List Trap)
    (far : Issue → Block → Group → Addr → State → State × List Trap) : Body := fun is s =>
  match s.block? is.blk, s.group? is.blk is.grp with
  | some k, some g =>
    match poisonIn (srcs g) with
    | some (kind, v) => (s, trapAll is.act kind v)
    | none => semPlace use go far is k g (regAddr (g.sregsAt a.f 2)) s
  | _, _ => (s, [])

/-- Accesses that an increment of a bundle must follow: every vector access of its threads (R243), and what those follow
(R236). -/
def bundleAccesses (s : State) (is : Issue) (g : Group) : List Nat :=
  is.act.flatMap (fun l => (accessesOf s is.blk (g.thread l).tid).map (·.id) ++ behindOf s is.blk (g.thread l).tid)

/-- The threads of a bundle's active lanes. -/
def bundleTids (is : Issue) (g : Group) : List Nat := is.act.map (fun l => (g.thread l).tid)

/-- Who performs an access of a bundle within its instruction (R89, R218). -/
def bundleWho (s : State) (is : Issue) (g : Group) : Who where
  parties := (bundleTids is g).map (.thread is.blk)
  acc := s.moves
  after := []
  acq := none
  rel := none

/-- An access that a bundle performs once, of each of its threads (R89, R218). -/
def bundleAccess (s : State) (is : Issue) (g : Group) (kind : AccKind) : Access :=
  { Access.new s is s.moves ((bundleTids is g).headD 0) kind with
    mates := (bundleTids is g).drop 1
    after := nub (is.act.flatMap (fun l => behindOf s is.blk (g.thread l).tid)) }

/-- fsem.inc (R243). -/
def execFsemInc (a b : Src) (s : State) : Out :=
  withForm (Form.of [uSrc 1 a 2, uSrc 2 b]) (unlessSwept (semForm .store (fun g => g.sregsAt a.f 2 ++ [g.sreg b.f]) a
    (fun is k g va tr s =>
      let p : Piece := ⟨.mem, tr.pa va.toNat, 8⟩
      let l := is.act.headD 0
      let who := { subjectOf s k g l (g.thread l) with wait := 0 }
      ((s.advance is.blk is.grp is.act).fly
        { (bundleAccess s is g (.fsemInc (g.sreg b.f).val who)).withShares [⟨0, p, ⟨false, false, true, false, 7⟩⟩] with
        after := bundleAccesses s is g
        va := va
        pages := usedPages [tr]
        remote := remotePiece k.stack p }, []))
    (fun is k g va s =>
      let r := fabricRowOf s k.part va
      ((s.advance is.blk is.grp is.act).fly
        { bundleAccess s is g (.fabric (rowModule r) (rowStack r) (rowPart r) (.fsemInc (rowAddr r va) (g.sreg b.f).val)) with
        after := bundleAccesses s is g, rel := true, scope := 7, va := va, remote := true }, [])))) s

/-- A read of fsem.wait for lanes that then wait at an address and a value (R244): at once, or as an access in flight where it
must follow others or the host holds the word. The wait at a semaphore of a stack that cannot be reached goes on (DESIGN
CHOICE, entry 101). -/
def semRead (v : Word) (is : Issue) (k : Block) (g : Group) (va : Addr) (tr : Trans) (s : State) : State × List Trap :=
  let p : Piece := ⟨.mem, tr.pa va.toNat, 8⟩
  let tids := bundleTids is g
  let wait (s : State) : State := s.blockLanes is.blk is.grp is.act (fun _ => .fsem va v)
  let follow := nub (tids.flatMap (fun t => mustFollow s is.blk t [p]))
  if s.unreachablePA p.addr k.stack then (wait s, [])
  else if !follow.isEmpty || region? p.addr == some .host || peerWaits s k.stack [p] then
    ((wait s).fly { (bundleAccess s is g (.fsemWait v is.word)).withShares [⟨0, p, ⟨false, true, false, false, 7⟩⟩] with
      after := follow
      va := va
      pages := usedPages [tr]
      remote := remotePiece k.stack p }, [])
  else
    let q := readBytes s k.stack (bundleWho s is g) .point [p]
    match q.2 with
    | none => (q.1, trapAll is.act kPoison 0)
    | some bs =>
      if v.toNat ≤ leNat bs then
        let back := is.act.filter (fun l => match (g.thread l).run with
          | .blocked (.fsem _ _) => true
          | _ => false)
        let s1 := (semAcquire q.1 is.blk p.addr tids false).advance is.blk is.grp (is.act.filter (fun l => !back.contains l))
        (endSemWait s1 is.blk is.grp back ⟨0, none⟩, [])
      else (wait q.1, [])

def semWaiting : Wait → Bool
  | .fsem _ _ => true
  | _ => false

/-- Lanes that wait at fsem.wait read again, at the address and for the value of the wait (R244). -/
def semAgain : Body := fun is s =>
  match s.block? is.blk, s.group? is.blk is.grp with
  | some k, some g =>
    let at_ (l : Nat) : Option (Addr × Word) := match (g.thread l).run with
      | .blocked (.fsem va v) => some (va, v)
      | _ => none
    (nub (is.act.filterMap at_)).foldl (fun (acc : State × List Trap) w =>
      let r := semPlace .load (semRead w.2) (fun _ _ _ _ s => (s, []))
        { is with act := is.act.filter (fun l => at_ l == some w) } k g w.1 acc.1
      (r.1, acc.2 ++ r.2)) (s, [])
  | _, _ => (s, [])

/-- fsem.wait (R244). -/
def execFsemWait (a b : Src) (s : State) : Out :=
  withForm (Form.of [uSrc 1 a 2, uSrc 2 b]) (unlessSwept (resumeOr semWaiting semAgain
    (semForm .load (fun g => g.sregsAt a.f 2 ++ [g.sreg b.f]) a
      (fun is k g va tr s => semRead (g.sreg b.f).val is k g va tr s)
      (fun is _ g va s => (s.blockLanes is.blk is.grp is.act (fun _ => .fsem va (g.sreg b.f).val), []))))) s

/-- FSEM_RECHECK (R244, R510): a semaphore of another module is read again; its count there is free, and the module's number
is the identity of what raised it. The wait on an unreachable module goes on. -/
def execFsemRecheck (blk grp : Nat) (s : State) : Out :=
  match s.block? blk, s.group? blk grp with
  | some k, some g =>
    let far (l : Nat) : Option Nat := match (g.thread l).run with
      | .blocked (.fsem va _) =>
        let m := rowModule (fabricRowOf s k.part va)
        if inWindow va && (k.phase == .resident || k.phase == .evicted) && !s.unreachable.contains m then some m else none
      | _ => none
    let ls := (upto g.threads.length).filter (fun l => (far l).isSome)
    if ls.isEmpty then .next s
    else if Config.freeBit s.moves then
      let peers := (s.order.past.filter (fun e => e.party == .peer)).map (·.id)
      let s1 := (ls.map (fun l => (g.thread l).tid)).foldl (fun s t =>
        (s.orders (.thread blk t) peers).mapOrder (fun o => o.putChan (.took blk t .peer) peers)) s.draw
      .next ((nub (ls.filterMap far)).foldl (fun s m =>
        endSemWait s blk grp (ls.filter (fun l => far l == some m)) ⟨BitVec.ofNat 32 m, none⟩) s1)
    else .next s.draw
  | _, _ => .next s

/-- fsem.rd (R245): a long-latency producer of a uniform register. -/
def execFsemRd (d : Fld) (a : Src) (s : State) : Out :=
  withForm (Form.of [uDst d, uSrc 1 a 2]) (unlessSwept (semForm .load (fun g => g.sregsAt a.f 2) a
    (fun is k g va tr s =>
      let p : Piece := ⟨.mem, tr.pa va.toNat, 8⟩
      let s1 := (s.advance is.blk is.grp is.act).mapGroup is.blk is.grp
        (fun h => { h with sregs := markEmpty h.sregs (g.si d) 1 })
      (s1.fly { bundleAccess s1 is g .fsemRd with
        dst := some ⟨true, is.grp, 0, g.si d, 1⟩
        pieces := [p]
        va := va
        pages := usedPages [tr]
        remote := remotePiece k.stack p }, []))
    (fun is k g va s =>
      let r := fabricRowOf s k.part va
      let s1 := (s.advance is.blk is.grp is.act).mapGroup is.blk is.grp
        (fun h => { h with sregs := markEmpty h.sregs (g.si d) 1 })
      (s1.fly { bundleAccess s1 is g (.fabric (rowModule r) (rowStack r) (rowPart r) (.fsemRd (rowAddr r va))) with
        dst := some ⟨true, is.grp, 0, g.si d, 1⟩
        va := va
        remote := true }, [])))) s

end Sys2Proof.Machine
end

