-- ==== Sys2Proof/Machine/Surfaces.lean ====
section
/-!
DEFINITION. Surface instructions (R329 to R339), and the shapes that uniform instructions with a descriptor or a result
share.
-/

namespace Sys2Proof.Machine

/-! Uniform forms. -/

/-- A form that executes once per bundle on the whole machine: poison of a source traps every active lane. -/
def uniBody (srcs : Group → List Reg) (f : Issue → Block → Group → State → State × List Trap) : Body := fun is s =>
  match s.block? is.blk, s.group? is.blk is.grp with
  | some k, some g =>
    match poisonIn (srcs g) with
    | some (kind, v) => (s, trapAll is.act kind v)
    | none => f is k g s
  | _, _ => (s, [])

/-- Write one uniform register, and go on. -/
def answerU (s : State) (is : Issue) (g : Group) (d : Fld) (v : Word) : State × List Trap :=
  ((s.mapGroup is.blk is.grp (fun h => h.setSregs (g.si d) [full v])).advance is.blk is.grp is.act, [])

/-- What reading a descriptor gives: its words, or the state and traps in which the bundle stops (R330, R443, R253). -/
inductive Desc where
  | words (ws : List Word)
  | stop (ts : List Trap)
  deriving DecidableEq, Repr, Inhabited

/-- Read a descriptor of n bytes as one ordinary load at device scope that reflects every earlier store of the
bundle's threads (R330): a misaligned address, an unrecoverable outcome and a poisoned granule trap; a page that is
not present blocks. -/
def readDesc (s : State) (is : Issue) (k : Block) (g : Group) (va : Addr) (n align : Nat) : State × Desc :=
  if va.toNat % align ≠ 0 then (s, .stop (trapAll is.act kAlignment 0 va))
  else
    let r := xlateAll (fun s v => xlateCore s k .load v) s (partsOf va n)
    match badCause r.2 with
    | some c => (r.1, .stop (trapAll is.act kProtection (BitVec.ofNat 32 c) va))
    | none =>
      let pgs := pagesOf r.2
      if !pgs.isEmpty then ((countPages r.1 is.blk pgs).blockLanes is.blk is.grp is.act (fun _ => .pages pgs true), .stop [])
      else
        let ps := piecesOf r.2
        let follow := is.act.flatMap (fun l => ((accessesOf s is.blk (g.thread l).tid).filter
          (fun e => e.acqs || e.spans.any (fun p => ps.any p.meets))).map (·.id) ++ behindOf s is.blk (g.thread l).tid)
        if !follow.isEmpty || peerWaits s k.stack ps then (r.1.blockLanes is.blk is.grp is.act (fun _ => .own), .stop [])
        else
          let q := readBytes r.1 k.stack (bundleWho r.1 is g) .one ps
          match q.2 with
          | none => (q.1, .stop (trapAll is.act kPoison 0))
          | some bs => (q.1, .words (wordsOfBytes bs (n / 4)))

/-! srf.alloc and srf.view (R330, R331, R335). -/

/-- The entry that an allocation descriptor asks for, before it is placed; none where R331 gives status 1. -/
def allocEntry (old : SrfEntry) (ws : List Word) : Option SrfEntry :=
  let w0 := ws.getD 0 0
  let w1 := ws.getD 1 0
  let w2 := ws.getD 2 0
  let w3 := ws.getD 3 0
  let e : SrfEntry := { SrfEntry.reset with
    kind := 1
    home := bits w0 29 28
    tile := bits w0 27 26
    samples := bits w0 25 24
    fmt := bits w0 23 16
    gen := nextGen old
    fresh := false
    height := bits w1 31 16 + 1
    width := bits w1 15 0 + 1
    layers := bits w2 10 0 + 1
    viewWrite := bit w3 2
    viewable := bit w3 1
    pinned := bit w3 0 }
  let n := e.tx * e.ty * e.layers
  if bits w0 31 30 ≠ 0 ∨ bits w0 15 0 ≠ 0 ∨ bits w2 31 11 ≠ 0 ∨ bits w3 31 3 ≠ 0 ∨ e.home = 3 ∨ e.tile = 3 ∨
      !srfFmtOk e.fmt ∨ 32768 < e.width ∨ 32768 < e.height ∨ 16777216 < n ∨ 262144 < e.tileBytes
  then none else some { e with tiles := n }

/-- Bytes of backing store that a surface takes on a stack (R324). -/
def backingBytes (e : SrfEntry) (k : Nat) : Nat := e.ownedBy k * (32 * ceilDiv e.tileBytes 1024 + e.tileBytes)

def backingUsed (s : State) (part k : Nat) : Nat :=
  (((s.part part).srfs.filter (fun e => e.kind == 1)).map (fun e => backingBytes e k)).sum

/-- The other surfaces of the table. -/
def others (s : State) (part i : Nat) : List SrfEntry :=
  ((s.part part).srfs.take i ++ (s.part part).srfs.drop (i + 1)).filter (fun e => e.kind == 1)

/-- First banks of a stack with which R323 holds at every bank. -/
def firstChoices (s : State) (part k i : Nat) (e : SrfEntry) : List Nat :=
  (upto (banksOf s part k).length).filter (fun f =>
    stackFits s part k ({ e with first := modifyAt (fun _ => f) k e.first } :: others s part i))

/-- Bytes of far DRAM of a partition on a stack for backing stores: what its encoder slots reserve is taken from it (R324,
R412). -/
def farRoom (s : State) (part k : Nat) : Nat :=
  Config.backingRoom part k - (s.partOn part k).params.encSlots.length * Config.slotStorage

/-- The result of an allocation: a status of R331, or the entry index and the entry. A split surface made while the other
stack cannot be reached is degraded from the start (R320, R326; DEDUCED, entry 86). -/
def allocate (s : State) (part : Nat) (ws : List Word) : Nat ⊕ (Nat × SrfEntry) :=
  let i := ((indexes (fun (e : SrfEntry) => e.kind == 0) (s.part part).srfs).head?)
  match allocEntry (s.srf part (i.getD 0)) ws, i with
  | none, _ => .inl 1
  | some _, none => .inl 2
  | some e0, some i =>
    let ks := (upto 2).filter (fun k => decide (0 < e0.ownedBy k))
    let e1 := { e0 with
      count := (upto 2).map (fun k => min (banksOf s part k).length (e0.ownedBy k))
      backing := Config.backing s.moves
      degraded := e0.home == 2 && s.linkDown }
    if ks.any (fun k => (banksOf s part k).isEmpty) then .inl 3
    else if ks.any (fun k => decide (farRoom s part k < backingUsed s part k + backingBytes e0 k)) then .inl 4
    else
      let ch := ks.map (fun k => (k, firstChoices s part k i e1))
      if ch.any (fun c => c.2.isEmpty) then .inl 5
      else .inr (i, { e1 with first := (upto 2).map (fun k =>
        match ch.find? (fun c => c.1 == k) with
        | some c => c.2.getD (Config.firstBank (s.moves + k) % c.2.length) 0
        | none => 0) })

/-- The pin wait of a thread. -/
def pinWait : Wait → Bool
  | .pin _ => true
  | _ => false

/-- The entry that a lane's wait names. -/
def waitEntry (g : Group) (l : Nat) : Nat :=
  match (g.thread l).run with
  | .blocked (.pin e) => e
  | .blocked (.srfFree e) => e
  | _ => 0

def execSrfAlloc (d : Fld) (a : Src) (s : State) : Out :=
  withForm (Form.of [uDst d, uSrc 1 a 2]) (unlessSwept (resumeOr pinWait
    (uniBody (fun _ => []) (fun is k g s =>
      let e := waitEntry g (is.act.headD 0)
      answerU s is g d (srfHandle e (s.srf k.part e).gen)))
    (uniBody (fun g => g.sregsAt a.f 2) (fun is k g s =>
      let r := readDesc s is k g (regAddr (g.sregsAt a.f 2)) 16 16
      match r.2 with
      | .stop ts => (r.1, ts)
      | .words ws =>
        match allocate r.1 k.part ws with
        | .inl st => answerU r.1 is g d (BitVec.ofNat 32 st)
        | .inr (i, e) =>
          let s1 := (r.1.draw.draw).mapSrf k.part i (fun _ => e)
          if e.pinned then (s1.blockLanes is.blk is.grp is.act (fun _ => .pin i), [])
          else answerU s1 is g d (srfHandle i e.gen))))) s

/-- Bind a view (R335). -/
def bindView (s : State) (part : Nat) (ws : List Word) : Nat ⊕ (Nat × SrfEntry) :=
  let w1 := ws.getD 1 0
  if bits w1 31 5 ≠ 0 ∨ ws.getD 2 0 ≠ 0 ∨ ws.getD 3 0 ≠ 0 ∨ !viewCodeOk (bits w1 3 0) then .inl 1
  else
    match surface? s part (ws.getD 0 0) with
    | none => .inl 6
    | some p =>
      let x := s.srf part p
      if !x.viewable ∨ x.samples ≠ 0 then .inl 6
      else
        match (indexes (fun (e : SrfEntry) => e.kind == 0) (s.part part).srfs).head? with
        | none => .inl 2
        | some i => .inr (i, { SrfEntry.reset with
            kind := 2
            fmt := bits w1 3 0
            gen := nextGen (s.srf part i)
            fresh := false
            write := bit w1 4
            parent := p
            pgen := x.gen })

def execSrfView (d : Fld) (a : Src) (s : State) : Out :=
  withForm ⟨[uDst d, uSrc 1 a 2], Accepts.plain, .priv⟩ (unlessSwept
    (uniBody (fun g => g.sregsAt a.f 2) (fun is k g s =>
      let r := readDesc s is k g (regAddr (g.sregsAt a.f 2)) 16 16
      match r.2 with
      | .stop ts => (r.1, ts)
      | .words ws =>
        match bindView r.1 k.part ws with
        | .inl st => answerU r.1 is g d (BitVec.ofNat 32 st)
        | .inr (i, e) => answerU (r.1.mapSrf k.part i (fun _ => e)) is g d (viewHandle i e.gen)))) s

/-! srf.free (R332, R365). -/

def freeWait : Wait → Bool
  | .srfFree _ => true
  | _ => false

/-- srf.free: the handle's checks fail at once; the threads wait for the accesses that passed theirs, with the last of which
the entry goes free (R332). -/
def execSrfFree (a : Src) (s : State) : Out :=
  withForm (Form.of [uSrc 1 a]) (resumeOr freeWait
    (uniBody (fun _ => []) (fun is _ _ s => (s.advance is.blk is.grp is.act, [])))
    (uniBody (fun g => [g.sreg a.f]) (fun is k g s =>
      let h := (g.sreg a.f).val
      match surface? s k.part h, view? s k.part h with
      | some i, _ =>
        let s1 := (voidMarks s k.part i (fun _ => true)).mapSrf k.part i (fun e => { e with freeing := true })
        if srfBusy s1 k.part i then (s1.blockLanes is.blk is.grp is.act (fun _ => .srfFree i), [])
        else ((releaseSrf s1 k.part i).advance is.blk is.grp is.act, [])
      | none, some i => ((releaseSrf s k.part i).advance is.blk is.grp is.act, [])
      | none, none => (s.advance is.blk is.grp is.act, [])))) s

/-! srf.query (R320, R333). -/

def boolBit (b : Bool) : Nat := if b then 1 else 0

/-- Word n of a table entry (R320, R355). -/
def entryWord (e : SrfEntry) (n : Nat) : Word :=
  let w0 := putBits e.kind 31 30 ||| putBits e.fmt 23 16 ||| BitVec.ofNat 32 e.gen.toNat
  if e.kind = 2 then
    match n with
    | 0 => w0
    | 10 => putBits (boolBit e.write) 20 20 ||| putBits e.parent 11 0
    | _ => 0
  else if e.kind = 1 then
    match n with
    | 0 => w0 ||| putBits e.home 29 28 ||| putBits e.tile 27 26 ||| putBits e.samples 25 24
    | 1 => putBits (e.height - 1) 31 16 ||| putBits (e.width - 1) 15 0
    | 2 => putBits (e.layers - 1) 10 0
    | 3 => putBits (boolBit e.degraded) 7 7 ||| putBits (boolBit e.moving) 6 6 ||| putBits (boolBit e.viewWrite) 5 5
        ||| putBits (boolBit e.viewable) 4 4 ||| putBits (boolBit e.pinned) 3 3
    | 4 => putBits (e.count.getD 0 0) 27 16 ||| putBits (e.first.getD 0 0) 10 0
    | 5 => putBits (e.count.getD 1 0) 27 16 ||| putBits (e.first.getD 1 0) 10 0
    | 6 => BitVec.ofNat 32 e.tiles
    | 7 => BitVec.ofNat 32 (e.tileSt.filter (fun p => p.2 == .resident)).length
    | 8 => e.backing.setWidth 32
    | 9 => (e.backing >>> 32).setWidth 32
    | 12 => putBits e.next 19 0
    | 13 => putBits e.floor 19 0
    | _ => 0
  else if n = 0 then BitVec.ofNat 32 e.gen.toNat
  else 0

def tileCode : TileState → Nat
  | .absent => 0
  | .resident => 1
  | .evicted => 2
  | _ => 3

/-- The value of a selector (R333). -/
def queryValue (s : State) (part : Nat) (h tile : Word) (k : Nat) : Word :=
  match (surface? s part h).or (view? s part h) with
  | none => 0
  | some i =>
    let e := s.srf part i
    if k < 16 then entryWord e k
    else if e.kind ≠ 1 then 0
    else if k = 17 then BitVec.ofNat 32 e.tileBytes
    else if e.tiles ≤ tile.toNat then 0
    else
      let b := tileBank s part e tile.toNat
      putBits (tileCode (e.tileState tile.toNat)) 31 30 ||| putBits b.1 29 29 ||| putBits b.2 10 0

def execSrfQuery (d : Fld) (a : Src) (k : BitVec 6) (s : State) : Out :=
  withForm (Form.of [uDst d, uSrc 1 a 2]) (uniBody (fun g => g.sregsAt a.f 2) (fun is b g s =>
    let rs := g.sregsAt a.f 2
    answerU s is g d (queryValue s b.part (regWord rs) (rs.getD 1 Reg.mk0).val k.toNat))) s

/-! srf.pin and srf.evict (R334). -/

/-- Pinning keeps R323 on both stacks. -/
def pinFits (s : State) (part i : Nat) : Bool :=
  (upto 2).all (fun k => stackFits s part k ({ s.srf part i with pinned := true } :: others s part i))

def execSrfPin (a : Src) (s : State) : Out :=
  withForm (Form.of [uSrc 1 a]) (resumeOr pinWait
    (uniBody (fun _ => []) (fun is _ _ s => (s.advance is.blk is.grp is.act, [])))
    (uniBody (fun g => [g.sreg a.f]) (fun is k g s =>
      match surface? s k.part (g.sreg a.f).val with
      | none => (s.advance is.blk is.grp is.act, [])
      | some i =>
        let e := s.srf k.part i
        if e.pinned || !pinFits s k.part i then (s.advance is.blk is.grp is.act, [])
        else
          let s1 := s.mapSrf k.part i (fun e => { e with pinned := true })
          if (upto e.tiles).all (fun t => e.tileState t == .resident) then (s1.advance is.blk is.grp is.act, [])
          else (s1.blockLanes is.blk is.grp is.act (fun _ => .pin i), [])))) s

def evictWait : Wait → Bool
  | .srfEvict _ _ _ => true
  | _ => false

def execSrfEvict (a : Src) (s : State) : Out :=
  withForm (Form.of [uSrc 1 a]) (resumeOr evictWait
    (uniBody (fun _ => []) (fun is _ _ s => (s.advance is.blk is.grp is.act, [])))
    (uniBody (fun g => [g.sreg a.f]) (fun is k g s =>
      match surface? s k.part (g.sreg a.f).val with
      | none => (s.advance is.blk is.grp is.act, [])
      | some i =>
        let s1 := s.mapSrf k.part i (fun e => { e with pinned := false })
        match ((s.srf k.part i).tileSt.filter (fun p => p.2 == .resident)).map (·.1) with
        | [] => (s1.advance is.blk is.grp is.act, [])
        | ts => (s1.draw.blockLanes is.blk is.grp is.act (fun _ => .srfEvict i s.moves ts), [])))) s

/-! sld and sst (R337 to R339). -/

/-- A pixel sample named by a coordinate pair: x, y, layer, sample (R337). -/
def coordsOf (rs : List Reg) : Nat × Nat × Nat × Nat :=
  let w := regWord rs
  let v := (rs.getD 1 Reg.mk0).val
  (bits w 15 0, bits w 31 16, bits v 10 0, bits v 13 11)

def SrfEntry.inside (e : SrfEntry) (c : Nat × Nat × Nat × Nat) : Bool :=
  decide (c.1 < e.width) && decide (c.2.1 < e.height) && decide (c.2.2.1 < e.layers) && decide (c.2.2.2 < e.S)

/-- The parts of a surface access: whole where its offset in the row is a multiple of its width and its bytes lie in one tile,
or where it is of one pixel sample (R338). -/
def pixelShares (ps : List Piece) (o w : Nat) (fmt vol : Bool) : List Share :=
  sharesOf (fmt || (o % w == 0 && ps.length == 1)) (ps.map (fun p => (p, ⟨vol, false, false, vol, 6⟩)))

/-- The offset of a pixel sample in the raw image of its row (R338). -/
def SrfEntry.sampleOff (e : SrfEntry) (c : Nat × Nat × Nat × Nat) : Nat := (c.1 * e.S + c.2.2.2) * e.p

/-- The bytes that an access of w bytes reaches: from the sample's offset to the end of the row at most (R338). -/
def pixelPieces (part i : Nat) (e : SrfEntry) (c : Nat × Nat × Nat × Nat) (w : Nat) : List Piece :=
  e.runs (.srf part i) c.2.2.1 c.2.1 (e.sampleOff c) (min w (e.rowBytes - e.sampleOff c))

/-- Some of the pieces lie in a tile of the other stack (R326). -/
def SrfEntry.peerPieces (e : SrfEntry) (stack : Nat) (ps : List Piece) : Bool :=
  ps.any (fun p => (e.tilesOf p.addr p.len).any (fun t => e.owner t != stack))

def surfLoad : SurfW → AccKind
  | .b32 => .load .b32 false
  | .b64 => .load .b64 false
  | .b128 => .load .b128 false
  | .fmt => .pixel

def surfBytes (e : SrfEntry) : SurfW → Nat
  | .b32 => 4
  | .b64 => 8
  | .b128 => 16
  | .fmt => e.p

def sldLane (d : Fld) (a b : Src) (w : SurfW) (vol : Bool) (batch : Nat)
    (is : Issue) (k : Block) (g : Group) (l : Nat) (t : Thread) (s : State) : State × List Trap :=
  let rs := g.vregsAt t a.f 2
  match poisonIn (rs ++ [g.sreg b.f]) with
  | some (kind, v) => (s, [⟨l, kind, v, 0⟩])
  | none =>
    let set (v : Reg) : State := s.mapLanes is.blk is.grp [l] (fun _ t => t.next.setRegs (g.vi d) (List.replicate w.regs v))
    match surface? s k.part (g.sreg b.f).val with
    | none => (set poison0, [])
    | some i =>
      let e := s.srf k.part i
      let c := coordsOf rs
      if !e.inside c then (set (full 0), [])
      else
        let s1 := issueLoad s is l (g.vi d) w.regs
        let ps := pixelPieces k.part i e c (surfBytes e w)
        (s1.fly { (Access.new s1 is batch t.tid (surfLoad w)).withShares
            (pixelShares ps (e.sampleOff c) (surfBytes e w) (w == .fmt) vol) with
          dst := some ⟨false, is.grp, l, g.vi d, w.regs⟩
          remote := e.peerPieces k.stack ps }, [])

def execSld (d : Fld) (a b : Src) (w : SurfW) (vol : Bool) (s : State) : Out :=
  withForm (Form.of [vDst d w.regs, vSrc 1 a 2, uSrc 2 b])
    (unlessSwept (fun is s => eachLane (sldLane d a b w vol s.moves) is s)) s

def sstLane (d : Fld) (a b : Src) (w : SurfW) (vol : Bool) (batch : Nat)
    (is : Issue) (k : Block) (g : Group) (l : Nat) (t : Thread) (s : State) : State × List Trap :=
  let rs := g.vregsAt t a.f 2
  let dat := g.vregsAt t b.f w.regs
  match poisonIn ([g.sreg d] ++ rs ++ dat) with
  | some (kind, v) => (s, [⟨l, kind, v, 0⟩])
  | none =>
    match surface? s k.part (g.sreg d).val with
    | none => (s, [⟨l, kProtection, 6, 0⟩])
    | some i =>
      let e := s.srf k.part i
      let c := coordsOf rs
      let s1 := s.advance is.blk is.grp [l]
      if !e.inside c then (s1, [])
      else
        let ws := dat.map (·.val)
        let bs := if w = .fmt then leBytes e.p (pixelOf e.fmt ws) else bytesOfWords ws
        let ps := pixelPieces k.part i e c (surfBytes e w)
        (s1.fly { (Access.new s1 is batch t.tid (.store (bs.take (e.rowBytes - e.sampleOff c)))).withShares
            (pixelShares ps (e.sampleOff c) (surfBytes e w) (w == .fmt) vol) with
          remote := e.peerPieces k.stack ps }, [])

def execSst (d : Fld) (a b : Src) (w : SurfW) (vol : Bool) (s : State) : Out :=
  withForm (Form.of [uRead 0 d, vSrc 1 a 2, vSrc 2 b w.regs])
    (unlessSwept (fun is s => eachLane (sstLane d a b w vol s.moves) is s)) s

end Sys2Proof.Machine
end

