-- ==== Sys2Proof/Machine/Matrix.lean ====
section
/-!
DEFINITION. The matrix array (R274 to R280), operand slots (R281), the sequencer and its stream words (R282 to R288,
R302 to R311), chains (R292 to R294), faults (R295), and the group side of accumulators and sequencer (R298 to R301).
-/

namespace Sys2Proof.Machine

/-! Tile headers (R278, R280). -/

structure Hdr where
  moff : Nat
  soff : Nat
  pitch : Nat
  cols : Nat
  rows : Nat
  res : Nat
  layout : Nat
  scale : Nat
  sparse : Nat
  fmt : Nat
  deriving DecidableEq, Repr, Inhabited

/-- Bits of an element of a format code. -/
def elemBits (f : Nat) : Nat :=
  match f with
  | 0 | 1 => 16
  | 2 | 3 | 5 => 8
  | 4 | 6 => 4
  | _ => 32

def elemFloat (f : Nat) : Bool := decide (f ≤ 4)
def elemFmt (f : Nat) : Fmt :=
  match f with
  | 0 => .bf16
  | 1 => .f16
  | 2 => .e4m3
  | 3 => .e5m2
  | 4 => .e2m1
  | _ => .f32

/-- Columns of a plane by weight format (R274). -/
def planeCols (f : Nat) : Nat :=
  match elemBits f with
  | 16 => 64
  | 8 => 128
  | _ => 256

/-- Bytes of n elements of a format. -/
def elemBytesOf (f n : Nat) : Nat := ceilDiv (n * elemBits f) 8

/-- The fields of a header; rows and cols are counts, and the pitch is in bytes. -/
def Hdr.of (x : BitVec 128) : Hdr :=
  let n := x.toNat
  let cols := n / 2 ^ 32 % 2 ^ 16 + 1
  let rows := n / 2 ^ 16 % 2 ^ 16 + 1
  let layout := n / 2 ^ 8 % 2
  let fmt := n % 16
  let p := n / 2 ^ 48 % 2 ^ 16
  let own := elemBytesOf fmt (if layout = 0 then cols else rows)
  ⟨n / 2 ^ 96, n / 2 ^ 64 % 2 ^ 32, if p = 0 then ceilDiv own 16 * 16 else p * 16, cols, rows, n / 2 ^ 9 % 2 ^ 7, layout,
    n / 2 ^ 6 % 4, n / 2 ^ 4 % 4, fmt⟩

/-- Values that no role accepts (R278). -/
def Hdr.wellFormed (h : Hdr) : Bool := h.res == 0 && decide (h.scale < 2) && decide (h.sparse < 3) && decide (h.fmt < 9)

def Hdr.scaleOk (h : Hdr) : Bool := h.scale == 0 || (decide (2 ≤ h.fmt) && decide (h.fmt ≤ 4))

/-- Limits of R279 for weights. -/
def Hdr.weightsOk (h : Hdr) : Bool :=
  decide (h.fmt < 7) && decide (h.rows ≤ 128) && decide (h.cols ≤ planeCols h.fmt) && h.scaleOk &&
  (match h.sparse with
    | 0 => true
    | 1 => h.rows % 2 == 0
    | _ => h.rows % 4 == 0)

/-- Limits of R279 for activations on a plane of a depth. -/
def Hdr.activationsOk (h : Hdr) (depth : Nat) : Bool :=
  decide (h.fmt < 7) && decide (h.cols ≤ depth) && h.layout == 0 && h.scaleOk && h.sparse == 0

/-- Limits of R279 for a drain destination. -/
def Hdr.drainOk (h : Hdr) : Bool :=
  [0, 1, 7, 8].contains h.fmt && h.layout == 0 && h.scale == 0 && h.sparse == 0

/-- Elements of a line's bytes; those of 4 bits lie two to a byte, the even one lower. -/
def rawElems (f n : Nat) (bs : List Byte) : List Nat :=
  let v := leNat bs
  (upto n).map (fun j => v / 2 ^ (elemBits f * j) % 2 ^ elemBits f)

/-! Slots (R281, R303). -/

/-- The slot of an image of 32 bytes; none where the image is rejected: for reserved values, at mhdr. A header that no role of
R279 accepts is loaded, and is rejected at the word that uses it, as R279 says; R303 has mhdr check under R279 too (DESIGN
CHOICE, entry 115). -/
def slotOf (img : Nat) : Option OpSlot :=
  let h : BitVec 128 := BitVec.ofNat 128 img
  let n := img / 2 ^ 128
  let stride := n / 2 ^ 112 % 2 ^ 16
  let space := n / 2 ^ 96 % 4
  let handle := n / 2 ^ 64 % 2 ^ 32
  let base : Word := BitVec.ofNat 32 n
  let mk (sp : SlotSpace) : OpSlot :=
    ⟨h, sp, BitVec.ofNat 32 handle, stride, n / 2 ^ 98 % 4, BitVec.ofNat 32 (n / 2 ^ 32), base, base, List.replicate 4 base⟩
  if n / 2 ^ 100 % 2 ^ 12 ≠ 0 then none
  else
    match space with
    | 0 => if stride = 0 ∧ handle = 0 ∧ (Hdr.of h).wellFormed then some (mk .scratch) else none
    | 1 => if stride = 0 ∧ handle / 2 ^ 16 = 0 ∧ (Hdr.of h).wellFormed then some (mk .view) else none
    | 2 => if h = 0 then some (mk .acc) else none
    | _ => none

/-- What reading or writing a slot's bytes meets. -/
inductive SlotRes where
  | bytes (bs : List Byte)
  | fault (kind : Nat) (detail : Word)
  /-- a tile of the other stack while the link stalls (R326) -/
  | wait
  deriving DecidableEq, Repr, Inhabited

/-- The outcome of an access through a view (R295); the detail of its protection fault is free (entry 6). R458 gives a
link-fault the consumed value, and a sequencer consumes no register: its detail is 0 (DESIGN CHOICE, entry 115). -/
def viewAnswer (r : State × ViewRes) : State × SlotRes :=
  match r.2 with
  | .refused => (r.1.draw, .fault kProtection (BitVec.ofNat 32 (Config.freeNat r.1.moves)))
  | .lost => (r.1, .fault kLinkFault 0)
  | .wait => (r.1, .wait)
  | .poisoned => (r.1, .fault kPoison 0)
  | .bytes bs => (r.1, .bytes bs)

/-- Read bytes at an offset from a slot's tile base (R281, R162, R252). -/
def slotRead (s : State) (b : Nat) (k : Block) (x : OpSlot) (off len : Nat) : State × SlotRes :=
  match x.space with
  | .view => viewAnswer (viewRead s (Who.of (.seq b) s.moves) k.part k.stack x.handle (x.cur.toNat + off) len)
  | _ =>
    let r := readBytes s k.stack (Who.of (.seq b) s.moves) .each
      (scratchPieces b k.scratchSize ((x.cur.toNat + off) % 2 ^ 32) len)
    match r.2 with
    | some bs => (r.1, .bytes bs)
    | none => (r.1, .fault kPoison 0)

/-- Write bytes at an offset from a slot's tile base. The sequencer's own later words may still read what the bytes held
before, until one that waits for every earlier word to complete stands between (R522). -/
def slotWrite (s : State) (b : Nat) (k : Block) (x : OpSlot) (off : Nat) (bs : List Byte) : State × SlotRes :=
  let w : Who := { Who.of (.seq b) s.moves with loose := true }
  match x.space with
  | .view => viewAnswer (viewWrite s w k.part k.stack x.handle
      ((upto bs.length).map (fun j => (x.cur.toNat + off + j, bs.getD j 0))))
  | _ => (writeBytes s w
      (scratchPieces b k.scratchSize ((x.cur.toNat + off) % 2 ^ 32) bs.length) bs, .bytes [])

/-- What kept a word from reading or writing all its bytes: a fault, or the stalled link, for which it waits. -/
inductive SlotStop where
  | fault (kind : Nat) (detail : Word)
  | wait
  deriving DecidableEq, Repr, Inhabited

/-- Read several runs in order, up to the first that stops. -/
def slotReads (s : State) (b : Nat) (k : Block) (x : OpSlot) : List (Nat × Nat) → State × List (List Byte) × Option SlotStop
  | [] => (s, [], none)
  | p :: ps =>
    let r := slotRead s b k x p.1 p.2
    match r.2 with
    | .fault kind d => (r.1, [], some (.fault kind d))
    | .wait => (r.1, [], some .wait)
    | .bytes bs =>
      let q := slotReads r.1 b k x ps
      (q.1, bs :: q.2.1, q.2.2)

/-! Planes (R275 to R277, R304). -/

/-- The indices of a metadata unit, or none where the unit is invalid (R276, R277). -/
def unitIndexes (sparse : Nat) (md : List Byte) (i : Nat) : Option (List Nat) :=
  if sparse = 1 then
    let nib := (md.getD (i / 2) 0).toNat / (if i % 2 = 0 then 1 else 16) % 16
    if nib % 4 = nib / 4 then none else some [nib % 4, nib / 4]
  else
    let v := (md.getD (2 * i) 0).toNat + 256 * (md.getD (2 * i + 1) 0).toNat
    let is := (upto 4).map (fun k => v / 2 ^ (3 * k) % 8)
    if v / 2 ^ 12 ≠ 0 ∨ nub is ≠ is then none else some is

/-- Stored rows of a metadata unit, and logical positions of its group. -/
def unitRows (sparse : Nat) : Nat := if sparse = 1 then 2 else 4
def unitSpan (sparse : Nat) : Nat := if sparse = 1 then 4 else 8

/-- The runs of bytes of a weight tile: its lines, its scale bytes in columns, and its metadata. -/
def lineRuns (h : Hdr) : List (Nat × Nat) :=
  if h.layout = 0 then (upto h.rows).map (fun i => (i * h.pitch, elemBytesOf h.fmt h.cols))
  else (upto h.cols).map (fun i => (i * h.pitch, elemBytesOf h.fmt h.rows))

def scaleRuns (h : Hdr) : List (Nat × Nat) :=
  if h.scale = 0 then []
  else if h.layout = 0 then (upto (ceilDiv h.rows 32)).map (fun i => (h.soff + i * h.cols, h.cols))
  else (upto h.cols).map (fun i => (h.soff + i * h.pitch, ceilDiv h.rows 32))

def metaRun (h : Hdr) : List (Nat × Nat) :=
  match h.sparse with
  | 0 => []
  | 1 => [(h.moff, ceilDiv (h.rows / 2 * h.cols) 2)]
  | _ => [(h.moff, 2 * (h.rows / 4 * h.cols))]

/-- The plane of a weight tile's bytes; none where a metadata unit is invalid. -/
def planeOf (h : Hdr) (lines scales : List (List Byte)) (md : List Byte) : Option Plane :=
  let els := lines.map (rawElems h.fmt (if h.layout = 0 then h.cols else h.rows))
  let raw (r n : Nat) : Nat := if h.layout = 0 then (els.getD r []).getD n 0 else (els.getD n []).getD r 0
  let scale (r n : Nat) : Option Nat :=
    if h.scale = 0 then none
    else some (if h.layout = 0 then ((scales.getD (r / 32) []).getD n 0).toNat else ((scales.getD n []).getD (r / 32) 0).toNat)
  if h.sparse = 0 then
    some ⟨h.fmt, h.cols, 128, (upto h.cols).map (fun n => (upto 128).map (fun r =>
      if r < h.rows then ⟨r, raw r n, scale r n⟩ else ⟨r, 0, none⟩))⟩
  else
    let u := unitRows h.sparse
    let units := (upto (h.rows / u)).map (fun g => (upto h.cols).map (fun n => unitIndexes h.sparse md (g * h.cols + n)))
    if units.any (fun row => row.any Option.isNone) then none
    else some ⟨h.fmt, h.cols, 256, (upto h.cols).map (fun n => (upto h.rows).map (fun r =>
      let is := ((units.getD (r / u) []).getD n none).getD []
      ⟨unitSpan h.sparse * (r / u) + is.getD (r % u) 0, raw r n, scale r n⟩))⟩

/-! Passes (R188, R206, R288). -/

/-- An element's value with its scale (R188). -/
def scaledF (f : Nat) (raw : Nat) (sc : Option Nat) : FV :=
  match sc, decodeF (elemFmt f) raw with
  | none, v => v
  | some x, v =>
    if x = 255 then .nan
    else
      match v with
      | .fin neg m e => .fin neg m (e + x - 127)
      | v => v

/-- The new accumulator word of one column of a pass. -/
def passWord (row : ActRow) (fmt : Nat) (cells : List PlaneCell) (acc : Word) : Word :=
  let el (i : Nat) : Nat × Option Nat := row.elems.getD i (0, none)
  if elemFloat fmt then
    let ps := cells.map (fun c => (scaledF row.fmt (el c.pos).1 (el c.pos).2, scaledF fmt c.raw c.scale))
    BitVec.ofNat 32 (sumOfProducts .f32 false .ne ps [decodeF .f32 acc.toNat]).1
  else
    let t := (cells.map (fun c => signedOf (elemBits row.fmt) (el c.pos).1 * signedOf (elemBits fmt) c.raw)).sum
    BitVec.ofInt 32 (acc.toInt + t)

/-- ACCUMULATOR_UPDATE (R286, R288): the oldest row in the array updates its accumulator row. -/
def updateRow (s : State) (b : Nat) (r : PendingRow) : State :=
  mapGrant s b r.handle (fun g =>
    ((upto r.plane.cols).zip r.plane.cells).foldl (fun g p =>
      let old : Word := if r.ovw then 0 else g.word (r.word + p.1)
      g.setWord (r.word + p.1) (passWord r.row r.plane.fmt p.2 old)) g)

def execAccumulatorUpdate (blk : Nat) (s : State) : Out :=
  match s.block? blk with
  | none => .next s
  | some k =>
    match k.seq.rows with
    | [] => .next s
    | r :: rest => .next ((updateRow s blk r).mapBlock blk (fun k => { k with seq := { k.seq with rows := rest } }))

/-! Stream words. -/

/-- The meaning of a stream word: a sequencer runs it; threads that reach it trap (R71). -/
def withStream (f : Nat → Block → Addr → Word → State → State) (s : State) : Out :=
  match s.cur with
  | .none | .command => .next s
  | .bundle b g lanes pc hints w => .next (raise s b g pc hints.length w (trapAll lanes kIllegal 0))
  | .seq b pc w =>
    match s.block? b with
    | none => .next s
    | some k => .next (f b k pc w s)

def mapSeq (s : State) (b : Nat) (f : Sequencer → Sequencer) : State := s.mapBlock b (fun k => { k with seq := f k.seq })

/-- The word is over; the stream goes on at an address. -/
def seqGo (s : State) (b : Nat) (pc : Addr) : State := mapSeq s b (fun q => { q with pc := pc, wait := .none })

/-- The sequencer waits at its word. -/
def seqWait (s : State) (b : Nat) (k : Block) (w : SeqWait) (word : Word) : State :=
  if k.seq.wait = w then s
  else mapSeq s b (fun q => { q with wait := w, waitFrom := s.now k.stack k.core, waitWord := word })

def seqIllegal (s : State) (b : Nat) (pc : Addr) (w : Word) : State := seqFault s b kIllegal pc w 0 0

/-- Every earlier word is complete (R285). -/
def Sequencer.drained (q : Sequencer) : Bool := q.streams.isEmpty && q.rows.isEmpty

def seqSlot (k : Block) (i : BitVec 3) : Option OpSlot := k.seq.slots.getD i.toNat none

/-- mhdr (R303). -/
def execMhdr (x : BitVec 3) (off : BitVec 17) (s : State) : Out :=
  withStream (fun b k pc w s =>
    let r := readBytes s k.stack (Who.of (.seq b) s.moves) .each (scratchPieces b k.scratchSize (32 * off.toNat) 32)
    match r.2 with
    | none => seqFault r.1 b kPoison pc w 0 0
    | some bs =>
      match slotOf (leNat bs) with
      | none => seqIllegal r.1 b pc w
      | some sl => seqGo (mapSeq r.1 b (fun q => { q with slots := modifyAt (fun _ => some sl) x.toNat q.slots })) b (pc + 4)) s

/-- mload (R304): one step fills the shadow plane, once no row that entered before the latest mswap is in the array. Where
several of its reads fail, or one fails and the metadata is invalid, R304 gives no order: the model takes the lines first, then
the scales, then the reads of the metadata, then its contents (DESIGN CHOICE, entry 115). -/
def execMload (x : BitVec 3) (s : State) : Out :=
  withStream (fun b k pc w s =>
    if k.seq.rows.any (·.old) then s
    else
      match seqSlot k x with
      | none => seqIllegal s b pc w
      | some sl =>
        let h := Hdr.of sl.header
        if sl.space = .acc ∨ !h.weightsOk then seqIllegal s b pc w
        else
          let ln := slotReads s b k sl (lineRuns h)
          let sc := slotReads ln.1 b k sl (scaleRuns h)
          let md := slotReads sc.1 b k sl (metaRun h)
          match ln.2.2.or (sc.2.2.or md.2.2) with
          | some (.fault kind d) => seqFault md.1 b kind pc w d 0
          | some .wait => s
          | none =>
            match planeOf h ln.2.1 sc.2.1 (md.2.1.headD []) with
            | none => seqFault md.1 b kSparsity pc w 0 0
            | some p => seqGo (mapSeq md.1 b (fun q => { q with shadow := some p })) b (pc + 4)) s

/-- mswap (R305). -/
def execMswap (s : State) : Out :=
  withStream (fun b _ pc _ s => seqGo (mapSeq s b (fun q => { q with
    live := q.shadow
    shadow := q.live
    rows := q.rows.map (fun r => { r with old := true }) })) b (pc + 4)) s

/-- The accumulator rows that a word uses: handle, first word, stride; none where R281, R290 or the range check
rejects them. -/
def accRange (k : Block) (sl : OpSlot) (rows cols : Nat) : Option (Word × Nat × Nat) :=
  let stride := if sl.stride = 0 then k.seq.live.elim 0 (·.cols) else sl.stride
  match accValid? k sl.handle with
  | none => none
  | some g =>
    if sl.space = .acc ∧ stride ≠ 0 ∧ sl.cur.toNat + (rows - 1) * stride + cols ≤ 4096 * g.banks
    then some (sl.handle, sl.cur.toNat, stride) else none

/-- The header and the live plane agree (R279, R288). -/
def rowFits (h : Hdr) (p : Plane) : Bool := h.activationsOk p.depth && elemFloat h.fmt == elemFloat p.fmt

/-- mstream (R306): the checks that stand before any row enters; the rows enter one by one (R286). -/
def execMstream (a c : BitVec 3) (ovw chain : Bool) (s : State) : Out :=
  withStream (fun b k pc w s =>
    match seqSlot k a, seqSlot k c, k.seq.live with
    | some sa, some sc, some p =>
      let h := Hdr.of sa.header
      if sa.space = .acc ∨ !rowFits h p ∨ (chain ∧ (k.seq.chain.isNone ∨ k.seq.broken)) then seqIllegal s b pc w
      else
        match accRange k sc h.rows p.cols with
        | none => seqIllegal s b pc w
        | some (hd, base, stride) =>
          seqGo (mapSeq s b (fun q => { q with
            streams := q.streams ++ [⟨pc, w, sa, hd, base, stride, ovw, chain, 0, h.rows⟩] })) b (pc + 4)
    | _, _, _ => seqIllegal s b pc w) s

/-! Row entry and chains (R286, R292 to R294, R309). -/

/-- The member of the block's chain at a position. -/
def memberAt (s : State) (b p : Nat) : Option Nat :=
  (chainMates s b).find? (fun o => (s.block? o).elim false (fun k => k.seq.pos == p))

/-- The east neighbour of a member that is not the last. -/
def eastOf (s : State) (b : Nat) (k : Block) : Option Nat :=
  match k.seq.chain with
  | some (len, _) => if k.seq.pos + 1 < len then memberAt s b (k.seq.pos + 1) else none
  | none => none

def westLen (s : State) (b : Nat) : Nat := (s.block? b).elim 0 (fun k => k.seq.west.length)

/-- A stream's next row comes from the west. -/
def fromWest (k : Block) (st : Stream) : Bool := st.chain && k.seq.pos != 0

/-- The head stream waits for a forwarded row (R293). -/
def waitsForRow (k : Block) : Bool :=
  k.seq.state == .running && k.seq.west.isEmpty && (k.seq.streams.head?).elim false (fromWest k)

/-- Row r of an activation tile. -/
def readRow (s : State) (b : Nat) (k : Block) (st : Stream) : State × (ActRow ⊕ SlotStop) :=
  let h := Hdr.of st.act.header
  let sb := if h.scale = 0 then [] else [(h.soff + st.row * h.pitch, ceilDiv h.cols 32)]
  let r := slotReads s b k st.act ((st.row * h.pitch, elemBytesOf h.fmt h.cols) :: sb)
  match r.2.2 with
  | some f => (r.1, .inr f)
  | none =>
    let els := rawElems h.fmt h.cols (r.2.1.headD [])
    let scs := r.2.1.getD 1 []
    (r.1, .inl ⟨h.fmt, h.cols, h.scale != 0, ((upto h.cols).zip els).map (fun p =>
      (p.2, if h.scale = 0 then none else some (scs.getD (p.1 / 32) 0).toNat))⟩)

/-- The row enters the live plane, and goes on to the east (R286, R293). -/
def enterRow (s : State) (b : Nat) (st : Stream) (row : ActRow) (p : Plane) (east : Option Nat) : State :=
  let s1 := mapSeq s b (fun q => { q with
    rows := q.rows ++ [⟨st.pc, false, row, p, st.handle, st.base + st.row * st.stride, st.ovw⟩]
    streams := if st.row + 1 < st.rows then { st with row := st.row + 1 } :: q.streams.drop 1 else q.streams.drop 1 })
  match east with
  | some e => if st.chain then mapSeq s1 e (fun q => { q with west := q.west ++ [row] }) else s1
  | none => s1

/-- A member of a broken chain takes rows only for the mstreams that it has started (R294). -/
def canTake (q : Sequencer) : Bool := !q.broken || q.streams.any (·.chain)

/-- The east neighbour, where it can still take rows: a row that no member can take is discarded (R294). -/
def takerOf (s : State) (b : Nat) (k : Block) : Option Nat :=
  (eastOf s b k).filter (fun e => (s.block? e).elim false (fun o => canTake o.seq))

/-- PASS (R286): the next row of the oldest stream enters; a member of a chain waits for its row from the west and
for room in the buffer to the east. A row that finds, after an mswap, a live plane that is empty, of the other kind, too shallow
or too wide for its accumulator range raises the illegal fault (DESIGN CHOICE, entry 36; R306 checks before any row enters). -/
def execPass (blk : Nat) (s : State) : Out :=
  match s.block? blk with
  | none => .next s
  | some k =>
    match k.seq.streams with
    | [] => .next s
    | st :: _ =>
      let east := if st.chain then takerOf s blk k else none
      let fault (s : State) (kind : Nat) (d : Word) : Out := .next (seqFault s blk kind st.pc st.word d st.row)
      if !seqRuns s blk k ∨ (fromWest k st ∧ k.seq.west.isEmpty) ∨ 8 ≤ east.elim 0 (westLen s) then .next s
      else
        let h := Hdr.of st.act.header
        match k.seq.live with
        | none => fault s kIllegal 0
        | some p =>
          let last := st.base + st.row * st.stride + p.cols
          if !rowFits h p ∨ 4096 * accCount st.handle < last then fault s kIllegal 0
          else if fromWest k st then
            match k.seq.west with
            | [] => .next s
            | row :: rest =>
              if row.fmt ≠ h.fmt ∨ row.cols ≠ h.cols ∨ row.scaled ≠ (h.scale != 0) then fault s kIllegal 0
              else
                let s1 := s.mapBlock blk (fun k => { k with seq := { k.seq with west := rest }, bwdog := 0 })
                .next (enterRow s1 blk st row p east)
          else
            let r := readRow s blk k st
            match r.2 with
            | .inr (.fault kind d) => fault r.1 kind d
            | .inr .wait => .next s
            | .inl row => .next (enterRow r.1 blk st row p east)

/-- Every row that a member forwarded has been taken, where a neighbour can still take it (R294, R309). -/
def rowsTaken (s : State) (b : Nat) (k : Block) : Bool :=
  (takerOf s b k).elim true (fun e => westLen s e == 0)

/-- A member leaves its chain without breaking it; rows that its neighbour cannot take any more are discarded (R294). -/
def leaveChain (s : State) (b : Nat) : State :=
  let s1 := match (s.block? b).bind (fun k => eastOf s b k) with
    | some e => mapSeq s e (fun q => if canTake q then q else { q with west := [] })
    | none => s
  mapSeq s1 b (fun q => { q with chain := none, joint := 0, broken := false, west := [] })

/-- Members that wait at a matching mchain, this one included. -/
def joined (s : State) (b : Nat) : List Nat :=
  b :: (chainMates s b).filter (fun o => (s.block? o).elim false (fun k => k.seq.wait == .chain))

/-- A core lies among those that a chain names (R292). -/
def inChain (core : Nat) (c : Nat × Nat) : Bool := decide (c.2 ≤ core % 4) && decide (core % 4 < c.2 + c.1)

/-- Blocks of the launch that wait at an mchain of another chain, where one of the two names the core of the other (R292,
R294, R295). -/
def chainClashes (s : State) (k : Block) (len start : Nat) : List Nat :=
  indexes (fun (o : Block) => o.launch.isSome && o.launch == k.launch && o.stack == k.stack && o.core / 4 == k.core / 4 &&
    o.core != k.core && o.phase == .resident && o.seq.wait == .chain && o.seq.chain != some (len, start) &&
    (inChain o.core (len, start) || o.seq.chain.elim false (inChain k.core))) s.blocks

/-- Every earlier word of the sequencer is complete: it sees what they wrote from now on (R522). -/
def seqOwn (s : State) (b : Nat) : State := s.orders (.seq b) (s.order.covers (.seq b) s.moves)

/-- mchain (R309). A mismatch raises the illegal fault at the word and at those that wait at the other chain (R295). -/
def execMchain (st l : BitVec 2) (s : State) : Out :=
  withStream (fun b k pc w s =>
    let len := l.toNat + 1
    let start := st.toNat
    if !k.seq.drained then s
    else if len = 1 then
      if rowsTaken s b k then seqGo (seqOwn (leaveChain s b) b) b (pc + 4) else seqWait s b k .leave w
    else if k.launch.isNone ∨ !inChain k.core (len, start) ∨ k.seq.broken ∨
        (k.seq.chain.isSome ∧ k.seq.chain ≠ some (len, start)) ∨ !(chainClashes s k len start).isEmpty then
      seqIllegal ((chainClashes s k len start).foldl (fun s o => mapSeq s o (fun q => { q with broken := true })) s) b pc w
    else
      let s1 := seqWait (mapSeq s b (fun q => { q with chain := some (len, start), pos := k.core % 4 - start })) b k .chain w
      let ms := joined s1 b
      if (upto len).all (fun p => ms.any (fun o => (s1.block? o).elim false (fun k => k.seq.pos == p))) then
        ms.foldl (fun s o => seqOwn (mapSeq s o (fun q => { q with pc := q.pc + 4, wait := .none, joint := s1.moves + 1 })) o) s1.draw
      else s1) s

/-! Drain, barriers, loops and the end (R307, R308, R310, R311). -/

/-- A drained element. -/
def drainElem (f : Nat) (v : Word) : List Byte :=
  match f with
  | 0 => leBytes 2 (deliverF .bf16 false false .ne false (decodeF .f32 v.toNat)).1
  | 1 => leBytes 2 (deliverF .f16 false false .ne false (decodeF .f32 v.toNat)).1
  | _ => leBytes 4 v.toNat

/-- Drain rows from r on: the state, and the fault with the rows performed. -/
def drainRows (b : Nat) (k : Block) (sd : OpSlot) (h : Hdr) (hd : Word) (base stride : Nat) (clear : Bool)
    (r : Nat) (s : State) : Nat → State × Option (SlotStop × Nat)
  | 0 => (s, none)
  | n + 1 =>
    let at_ := (upto h.cols).map (fun j => base + r * stride + j)
    let vs := at_.map (fun i => ((s.block? b).bind (fun k => accGrantOf k hd)).elim 0 (fun g => g.word i))
    let q := slotWrite s b k sd (r * h.pitch) (vs.flatMap (drainElem h.fmt))
    match q.2 with
    | .fault kind d => (q.1, some (.fault kind d, r))
    | .wait => (q.1, some (.wait, r))
    | .bytes _ =>
      let s1 := if clear then mapGrant q.1 b hd (fun g => at_.foldl (fun g i => g.setWord i 0) g) else q.1
      drainRows b k sd h hd base stride clear (r + 1) s1 n

/-- mdrain (R307): one step, after every earlier mstream; it begins when the link lets it reach every row. What it writes the
sequencer's own later words may still read as it stood before (R522). -/
def execMdrain (c d : BitVec 3) (clear : Bool) (s : State) : Out :=
  withStream (fun b k pc w s =>
    if !k.seq.drained then s
    else
      match seqSlot k c, seqSlot k d with
      | some sc, some sd =>
        let h := Hdr.of sd.header
        if sd.space = .acc ∨ !h.drainOk then seqIllegal s b pc w
        else
          match accRange k sc h.rows h.cols with
          | none => seqIllegal s b pc w
          | some (hd, base, stride) =>
            let r := drainRows b k sd h hd base stride clear 0 s h.rows
            match r.2 with
            | some (.fault kind det, n) => seqFault r.1 b kind pc w det n
            | some (.wait, _) => s
            | none => seqGo r.1 b (pc + 4)
      | _, _ => seqIllegal s b pc w) s

/-- The sequencer in an arrival record (R246). -/
def seqSubject (s : State) (k : Block) (pc : Addr) (waits : Bool) : Subject :=
  ⟨true, k.stack, k.core, 0, 0, 0, 0, pc, if waits then min (s.now k.stack k.core - k.seq.waitFrom) (2 ^ 32 - 1) else 0⟩

/-- The end of a phase of a numbered barrier: its records, and their pair in the trace (R246, R486). -/
def nbarPhase (s : State) (b : Nat) (k : Block) (n : Nat) (last longest : Subject) : State :=
  arrivalTrace (s.mapBlock b (fun k => { k with
    nbars := modifyAt (fun x => { x with lastArriver := some last, longest := some longest, latest := none }) n k.nbars }))
    k.part k.stack k.core k.job 1 n last longest 0

/-- marrive (R237): the sequencer's accesses so far are covered for those that it releases (R225); every thread's nbar.wait that finds its count behind is over. -/
def execMarrive (n : BitVec 4) (s : State) : Out :=
  withStream (fun b k pc _ s =>
    if !k.seq.drained then s
    else
      let me := seqSubject s k pc false
      let waits := (k.positions.filter (fun p => p.2.2.2.run == .blocked (.nbar n.toNat))).map
        (fun p => subjectOf s k p.2.2.1 p.2.1 p.2.2.2)
      let s1 := s.mapBlock b (fun k => { k with
        nbars := modifyAt (fun x => { x with m := x.m + 1 }) n.toNat k.nbars
        bwdog := 0 }) |>.mapOrder (fun o => o.putChan (.fromSeq b n.toNat) (o.covers (.seq b) s.moves))
      seqGo (nbarPhase (seqOwn s1 b) b k n.toNat me ((longestOf waits).getD me)) b (pc + 4)) s

/-- mwait (R237): what follows comes after what the arrivals' fences ordered before the matrix path (R225). -/
def execMwait (c : BitVec 16) (n : BitVec 4) (s : State) : Out :=
  withStream (fun b k pc w s =>
    match k.nbars[n.toNat]? with
    | none => s
    | some x =>
      if x.a.toNat < c.toNat then seqWait s b k (.mwait n.toNat c.toNat) w
      else
        let me := seqSubject s k pc (k.seq.wait == .mwait n.toNat c.toNat)
        let s1 := s.mapBlock b (fun k => { k with
          nbars := modifyAt (fun x => { x with a := x.a - c.zeroExtend 32 }) n.toNat k.nbars }) |>.takeChan (.seq b) (.toSeq b n.toNat)
        seqGo (nbarPhase s1 b k n.toNat (x.latest.getD (x.lastArriver.getD me)) me) b (pc + 4)) s

/-- A slot of a level at a taken and at a finished mloop (R310). -/
def OpSlot.arm (x : OpSlot) : OpSlot := { x with armed := modifyAt (fun _ => x.cur) x.level x.armed }
def OpSlot.advance (x : OpSlot) : OpSlot := { x with cur := x.cur + x.step }
def OpSlot.rewind (x : OpSlot) : OpSlot := { x with cur := x.armed.getD x.level x.base }

def mapLevel (q : Sequencer) (l : Nat) (f : OpSlot → OpSlot) : Sequencer :=
  { q with slots := q.slots.map (Option.map (fun x => if x.level = l then f x else x)) }

/-- mloop (R310). -/
def loopStep (q : Sequencer) (l c back : Nat) : Sequencer :=
  let st := q.loops.getD l (false, 0)
  let q1 := if st.1 then q else mapLevel q l OpSlot.arm
  let rem := if st.1 then st.2 else c
  let set (v : Bool × Nat) (q : Sequencer) : Sequencer := { q with loops := modifyAt (fun _ => v) l q.loops }
  if 0 < rem then { set (true, rem - 1) (mapLevel q1 l OpSlot.advance) with pc := q.pc - 4 * BitVec.ofNat 56 back, wait := .none }
  else { set (false, 0) (mapLevel q1 l OpSlot.rewind) with pc := q.pc + 4, wait := .none }

def execMloop (l : BitVec 2) (c : BitVec 8) (back : BitVec 10) (s : State) : Out :=
  withStream (fun b _ pc _ s => mapSeq s b (fun q => loopStep { q with pc := pc } l.toNat c.toNat back.toNat)) s

def execMjmp (i : BitVec 20) (s : State) : Out :=
  withStream (fun b _ pc _ s => seqGo s b (pc + 4 * i.signExtend 56)) s

/-- mend (R311). -/
def execMend (s : State) : Out :=
  withStream (fun b k _ _ s =>
    if k.seq.drained && rowsTaken s b k then leaveRunning (seqOwn (leaveChain s b) b) b .idle else s) s

/-! The group side (R298 to R301). -/

/-- The next generation count of a block (R290). -/
def nextAccGen (g : BitVec 16) : BitVec 16 := if g = 0xFFFF then 1 else g + 1

def freeSlot? (k : Block) : Option Nat := (indexes Option.isNone k.accs).head?

/-- The grant is possible for the block at all (R299). -/
def accRoom (k : Block) (n : Nat) : Bool := decide (n + banksHeld k ≤ 16) && (freeSlot? k).isSome

def grantBanks (s : State) (b ticket n : Nat) : State :=
  s.mapBlock b (fun k =>
    let g := nextAccGen k.accGen
    { k with
      accGen := g
      accs := modifyAt (fun _ => some ⟨g, n, false, ticket, false, []⟩) ((freeSlot? k).getD 0) k.accs })

/-- The handle of the grant that answered a request; null where none did. -/
def grantedHandle (k : Block) (ticket : Nat) : Word :=
  (((upto 16).zip k.accs).findSome? (fun p => match p.2 with
    | some g => if g.ticket = ticket ∧ !g.freed then some (accHandle p.1 g.gen g.banks) else none
    | none => none)).getD 0

def accWait : Wait → Bool
  | .accBanks _ _ => true
  | _ => false

/-- The request that a lane's wait names. -/
def waitTicket (g : Group) (l : Nat) : Nat :=
  match (g.thread l).run with
  | .blocked (.accBanks t _) => t
  | _ => 0

/-- acc.alloc (R299). -/
def execAccAlloc (d : Fld) (a : Src) (s : State) : Out :=
  withForm (Form.of [uDst d, uSrc 1 a]) (resumeOr accWait
    (uniBody (fun _ => []) (fun is k g s =>
      (nub (is.act.map (waitTicket g))).foldl (fun (r : State × List Trap) t =>
        answerU r.1 { is with act := is.act.filter (fun l => waitTicket g l == t) } g d (grantedHandle k t)) (s, [])))
    (uniBody (fun g => [g.sreg a.f]) (fun is k g s =>
      let n := (g.sreg a.f).val.toNat
      if n = 0 ∨ 16 < n ∨ !accRoom k n then answerU s is g d 0
      else
        let t := s.moves
        if (s.core k.stack k.core).accQueue.isEmpty && decide (n ≤ banksFree s k.stack k.core) then
          let s1 := (grantBanks s is.blk t n).draw
          answerU s1 is g d ((s1.block? is.blk).elim 0 (fun k => grantedHandle k t))
        else
          ((s.draw.mapCore k.stack k.core (fun c => { c with accQueue := c.accQueue ++ [(t, is.blk, n)] })).blockLanes
            is.blk is.grp is.act (fun _ => .accBanks t n), [])))) s

/-- ACC_GRANT (R299): the oldest request of a core is granted when its banks are free; one that the block has no room
for any more ends without a grant. -/
def execAccGrant (stack core : Nat) (s : State) : Out :=
  match (s.core stack core).accQueue with
  | [] => .next s
  | (t, b, n) :: rest =>
    let s1 := s.mapCore stack core (fun c => { c with accQueue := rest })
    match s.block? b with
    | none => .next s1
    | some k =>
      if !accRoom k n then .next s1
      else if n ≤ banksFree s stack core then .next (grantBanks s1 b t n)
      else .next s

/-- Words in progress, and reads in flight, that use a handle (R300). -/
def handleBusy (s : State) (b : Nat) (k : Block) (h : Word) : Bool :=
  k.seq.streams.any (fun st => st.handle == h) || k.seq.rows.any (fun r => r.handle == h) ||
  s.accesses.any (fun a => a.blk == b && (match a.kind with
    | .accLd g _ => g == h
    | _ => false))

def returnBanks (s : State) (b slot : Nat) : State := s.mapBlock b (fun k => { k with accs := modifyAt (fun _ => none) slot k.accs })

/-- acc.free (R300). -/
def execAccFree (a : Src) (s : State) : Out :=
  withForm (Form.of [uSrc 1 a]) (uniBody (fun g => [g.sreg a.f]) (fun is k g s =>
    let h := (g.sreg a.f).val
    match accValid? k h with
    | none => (s.advance is.blk is.grp is.act, [])
    | some _ =>
      let s1 := if handleBusy s is.blk k h then mapGrant s is.blk h (fun x => { x with freed := true })
        else returnBanks s is.blk (accSlot h)
      (s1.advance is.blk is.grp is.act, []))) s

/-- ACC_BANK_RETURN (R300): the banks of a freed handle return to the core. -/
def execAccBankReturn (blk slot : Nat) (s : State) : Out :=
  match s.block? blk with
  | none => .next s
  | some k =>
    match k.accs.getD slot none with
    | none => .next s
    | some g =>
      if g.freed && !handleBusy s blk k (accHandle slot g.gen g.banks) then .next (returnBanks s blk slot) else .next s

/-- acc.ld of one lane (R300). -/
def accLdLane (d : Fld) (a : Src) (b : SrcB) (batch : Nat)
    (is : Issue) (k : Block) (g : Group) (l : Nat) (t : Thread) (s : State) : State × List Trap :=
  match poisonIn ([g.sreg a.f] ++ g.bRegs t b 1) with
  | some (kind, v) => (s, [⟨l, kind, v, 0⟩])
  | none =>
    let h := (g.sreg a.f).val
    let w := ((regWord (g.bRegs t b 1)) + BitVec.ofNat 32 l).toNat
    let kind : AccKind := match accValid? k h with
      | some x => if w < 4096 * x.banks then .accLd h w else .value [poison0]
      | none => .value [poison0]
    ((issueLoad s is l (g.vi d) 1).fly { Access.new s is batch t.tid kind with
      dst := some ⟨false, is.grp, l, g.vi d, 1⟩ }, [])

def execAccLd (d : Fld) (a : Src) (b : SrcB) (s : State) : Out :=
  withForm (Form.of [vDst d, uSrc 1 a, bSrc b]) (fun is s => eachLane (accLdLane d a b s.moves) is s) s

/-- acc.zero (R300). -/
def execAccZero (a : Src) (s : State) : Out :=
  withForm (Form.of [uSrc 1 a]) (uniBody (fun g => [g.sreg a.f]) (fun is k g s =>
    let h := (g.sreg a.f).val
    let s1 := if (accValid? k h).isSome then mapGrant s is.blk h (fun x => { x with words := [], zeroed := true }) else s
    (s1.advance is.blk is.grp is.act, []))) s

/-- mseq.start (R283, R301): rows still in the array of an earlier stream complete. -/
def execMseqStart (a : Src) (s : State) : Out :=
  withForm (Form.of [uSrc 1 a 2]) (uniBody (fun g => g.sregsAt a.f 2) (fun is k g s =>
    let pc := regAddr (g.sregsAt a.f 2) &&& ~~~(3 : Addr)
    let s1 := if k.seq.state = .idle ∨ k.seq.state = .faulted then
        (mapSeq s is.blk (fun q => { Sequencer.clear .pending pc with rows := q.rows, since := s.moves })).mapCore k.stack k.core
          (fun c => { c with seqQueue := c.seqQueue ++ [is.blk] })
      else s
    (s1.advance is.blk is.grp is.act, []))) s

/-- mseq.stop (R301): every pass is one step, so the sequencer is at a pass boundary. -/
def execMseqStop (s : State) : Out :=
  withForm (Form.of []) (uniBody (fun _ => []) (fun is k _ s =>
    let s1 := match k.seq.state with
      | .running => leaveRunning (breakChain s is.blk) is.blk .idle
      | .pending => leaveRunning s is.blk .idle
      | _ => s
    (s1.advance is.blk is.grp is.act, []))) s

/-- SEQUENCER_GRANT (R283): a free array goes to the sequencer that has been pending longest. -/
def execSequencerGrant (stack core : Nat) (s : State) : Out :=
  let c := s.core stack core
  match c.array, c.seqQueue with
  | none, b :: rest =>
    if (s.block? b).elim false (fun k => k.phase == .resident) then
      .next (mapSeq (s.mapCore stack core (fun c => { c with array := some b, seqQueue := rest })) b
        (fun q => { q with state := .running }))
    else .next s
  | _, _ => .next s

end Sys2Proof.Machine
end

