-- ==== Sys2Proof/Machine/Fills.lean ====
section
/-!
DEFINITION. The completion of accesses that fill registers (R155, R173, R181, R245, R300, R326, R338).
-/

namespace Sys2Proof.Machine

/-- The value of fsem.rd: the count, at most 0xFFFF_FFFF (R245). -/
def semRegs (bs : List Byte) : List Reg := [full (BitVec.ofNat 32 (min (leNat bs) (2 ^ 32 - 1)))]

/-- The surface format of the entry in which a piece lies. -/
def pieceFmt (s : State) (ps : List Piece) : Nat :=
  match ps with
  | p :: _ => (match p.space with
    | .srf part e => (s.srf part e).fmt
    | _ => 0)
  | [] => 0

/-- What the bytes of a load give its registers. -/
def loadedRegs (s : State) (k : Block) (a : Access) (bs : List Byte) : List Reg :=
  match a.kind with
  | .load w _ => loadRegs w bs
  | .const w off => loadRegs w (constBytes (constImage s k).2 off w.bytes bs)
  | .pixel => (pixelWords (pieceFmt s a.pieces) (leNat bs)).map full
  | .fsemRd => semRegs bs
  | _ => a.poison

/-- What a load whose bytes cannot be read gives: ld.nf gives 0 (R158, R181). -/
def Access.failed (a : Access) : List Reg :=
  match a.kind with
  | .load _ true => a.dst.elim [] FillDst.zeros
  | _ => a.poison

/-- The number of writes before which a launch's constant image cannot be read any more (R165). -/
def constFrom (s : State) (k : Block) : Nat := ((k.launch.bind (fun n => s.launches[n]?)).map (·.from_)).getD 0

/-- Pieces cut where 32-byte granules end. -/
def granulePieces (ps : List Piece) : List Piece :=
  ps.flatMap (fun p => p.granules.map (fun g =>
    let lo := max p.addr (g * p.space.granuleSize)
    ⟨p.space, lo, min (p.addr + p.len) ((g + 1) * p.space.granuleSize) - lo⟩))

/-- Read what the present part of a load names: a constant access each granule as of a free moment since the launch and in
no order with others (R165), a surface access at its bank (R339), and a semaphore at the point of coherence (R245). -/
def loadPart (s : State) (k : Block) (a : Access) : State × Option (List Byte) :=
  match a.kind with
  | .const _ _ => readBytes s k.stack { parties := [], acc := a.id, after := [], acq := none, rel := none } .one (granulePieces a.pieces) (constFrom s k)
  | .fsemRd => readBytes s k.stack a.who .point a.pieces
  | _ =>
    if a.pieces.any (fun p => match p.space with
      | .srf _ _ => true
      | _ => false) then readBytes (touchPieces s a.pieces) k.stack a.who .point a.pieces
    else readL1 s k a

/-- The address and length that an access still has to translate: none where it has its pieces. -/
def Access.untranslated (s : State) (k : Block) (a : Access) : Option (Addr × Nat) :=
  if !a.pieces.isEmpty then none
  else
    match a.kind with
    | .load w _ => some (a.va, w.bytes)
    | .const w off =>
      some (a.va, (constRun (constImage s k) off w.bytes).2)
    | _ => none

/-- The bytes that the present part of an ordinary load takes from its thread's own store that still waits (R149): the
latest earlier access that meets it, if that is an ordinary store with a part that holds all of them, where nothing else
keeps the load back and the bytes could be read (R160, R326). -/
def forwarded (s : State) (k : Block) (a : Access) : Option (List Byte) :=
  let mine := s.accesses.filter (fun e => decide (e.id < a.id) && e.blk == a.blk && sameThread e a)
  match a.kind, a.pieces with
  | .load _ _, [p] =>
    if a.atPoint || !a.waits.isEmpty || !(s.still a.after).isEmpty || mine.any (·.acqs) || lostTo s k.stack [p] ||
        s.poisoned p then none
    else
      match (mine.filter (fun e => e.spans.any p.meets)).getLast? with
      | some e =>
        (match e.kind, (e.present ++ e.later).find? (fun x => x.piece.meets p) with
        | .store data, some x =>
          let q := x.piece
          if !x.eff.once && !x.eff.rel && decide (q.addr ≤ p.addr) && decide (p.addr + p.len ≤ q.addr + q.len) then
            some ((data.drop (x.off + (p.addr - q.addr))).take p.len)
          else none
        | _, _ => none)
      | none => none
  | _, _ => none

/-- The bytes of the present part join those that earlier parts have read; after the last part the registers are filled. -/
def gotPart (s : State) (k : Block) (a : Access) (bs : List Byte) : State :=
  let got := a.got ++ (upto bs.length).map (fun j => (a.off + j, bs.getD j 0))
  if a.later.isEmpty then
    let n := (got.map (·.1 + 1)).foldl max 0
    completeWith s a (loadedRegs s k a ((upto n).map (fun j => ((got.find? (fun x => x.1 == j)).map (·.2)).getD 0)))
  else s.setAccess ({ a with got := got }.withShares a.later)

/-- The end of a read of fsem.wait: its threads go on where the count suffices (R244). -/
def semDone (s : State) (k : Block) (a : Access) (v w : Word) : State :=
  match a.pieces with
  | [p] =>
    if lostTo s k.stack [p] then s.done a
    else
      let q := readBytes s k.stack { a.who with acq := none } .point [p]
      match q.2 with
      | none => failSemWait (q.1.done a) a v w
      | some bs =>
        let ls := semLanes k a
        if v.toNat ≤ leNat bs then
          (nub (ls.map (·.1))).foldl (fun s g => endSemWait s a.blk g ((ls.filter (·.1 == g)).map (·.2)) ⟨0, none⟩)
            (semAcquire (q.1.done a) a.blk p.addr (a.tid :: a.mates) false)
        else q.1.done a
  | _ => s.done a

/-- Perform the present part of an access that fills registers. -/
def fillPart (s : State) (k : Block) (a : Access) : State :=
  match a.kind with
  | .value rs => completeWith s a rs
  | .accLd h w => completeWith s a (accLdRegs k h w)
  | .fsemWait v w => semDone s k a v w
  | _ =>
    if peerLost s k.stack a.pieces then completeWith s a a.failed
    else
      let r := loadPart s k a
      match r.2 with
      | none => completeWith r.1 a a.failed
      | some bs => gotPart r.1 k a bs

/-- Parts of a load are performed, one or several, or its address translates again, while its block is resident, once its
pages have been served (R155, R157). -/
def loadParts (k : Block) (id : Nat) : Nat → State → State
  | 0, s => s
  | fuel + 1, s =>
    match s.accesses.find? (fun a => a.id == id) with
    | none => s
    | some a0 =>
      let a := a0.turn (Config.freeNat s.moves)
      let next (s : State) : State := if a.later.isEmpty || Config.pause s.moves then s else loadParts k id fuel s.draw
      if !mayPerform s a then
        match forwarded s k a with
        | some bs => next (gotPart s k a bs)
        | none => s
      else
        match a.untranslated s k with
        | some (va, len) => if k.phase == .resident then replayLoad s k a va len else s
        | none => if peerWaits s k.stack a.pieces then s else next (fillPart s k a)

/-- LOAD_COMPLETION (R173): the access is performed and its registers become full, or poisoned. -/
def execLoadCompletion (acc : Nat) (s : State) : Out :=
  match s.accesses.find? (fun a => a.id == acc) with
  | none => .next s
  | some a =>
    match s.block? a.blk with
    | none => .next (s.done a)
    | some k => .next (if a.kind.fills then freeAfter (loadParts k acc (a.later.length + 1) s) a else s)

end Sys2Proof.Machine
end

