-- ==== Sys2Proof/Machine/Copies.lean ====
section
/-!
DEFINITION. The copy engine (R248 to R273): descriptors and their limits, transforms, billets, chunks and completion.
-/

namespace Sys2Proof.Machine

/-! Descriptors (R251 to R254). -/

/-- A descriptor's fields, and what its transform makes of its parameter. -/
structure CopyDesc where
  srcLo : Word
  srcHi : Word
  dstLo : Word
  dstHi : Word
  len : Nat
  param : Nat
  rows : Nat
  sstride : Int
  dstride : Int
  dword : Word
  deriving DecidableEq, Repr, Inhabited

def CopyDesc.of (ws : List Word) : CopyDesc :=
  ⟨ws.getD 0 0, ws.getD 1 0, ws.getD 2 0, ws.getD 3 0, (ws.getD 4 0).toNat, bits (ws.getD 5 0) 31 16,
    bits (ws.getD 5 0) 15 0 + 1, (ws.getD 6 0).toInt, (ws.getD 7 0).toInt, ws.getD 7 0⟩

def spaceOf (hi : Word) : Nat := bits hi 31 30

/-- A side's space word is well formed (R251). -/
def sideOk (hi : Word) : Bool :=
  bits hi 29 24 == 0 && (match spaceOf hi with
    | 0 => true
    | 1 => bits hi 23 0 == 0
    | 2 => bits hi 23 16 == 0
    | _ => false)

/-- A side's first byte, as written. -/
def sideBase (lo hi : Word) : Int := if spaceOf hi = 0 then (bits hi 23 0 * 2 ^ 32 + lo.toNat : Nat) else (lo.toNat : Nat)

/-- Formats of a conversion (R258). -/
def fcvFmt (c : Nat) : Fmt :=
  match c with
  | 0 => .f32
  | 1 => .f64
  | 2 => .f16
  | 3 => .bf16
  | 4 => .e4m3
  | 5 => .e5m2
  | _ => .e2m1

def smallFmt : Fmt → Bool
  | .e4m3 | .e5m2 | .e2m1 => true
  | _ => false

structure Fcv where
  src : Fmt
  dst : Fmt
  mode : Mode
  sat : Bool
  mx : Bool
  /-- elements of a row -/
  n : Nat
  deriving DecidableEq, Repr, Inhabited

def CopyDesc.fcv (d : CopyDesc) : Fcv :=
  let sf := fcvFmt (d.param % 8)
  ⟨sf, fcvFmt (d.param / 8 % 8),
    (match d.param / 64 % 4 with
      | 0 => .ne
      | 1 => .tz
      | 2 => .up
      | _ => .dn),
    d.param / 256 % 2 = 1, d.param / 512 % 2 = 1, 8 * d.len / fmtWidth sf⟩

/-- The copy carries a billet in its memory form (R263). -/
def CopyDesc.billet (d : CopyDesc) (x : Xform) : Bool := x == .none && d.param % 2 == 1
/-- Blocks of a billet, its header area, and its size at most (R261). -/
def CopyDesc.blocks (d : CopyDesc) : Nat := d.rows * d.len / 256
def billetHead (n : Nat) : Nat := 32 * ceilDiv (8 * n) 32
def CopyDesc.billetSize (d : CopyDesc) : Nat := billetHead d.blocks + 256 * d.blocks

/-- Bytes of a row on each side of a conversion (R259). -/
def Fcv.rowBytes (f : Fcv) (t : Fmt) : Nat := f.n * fmtWidth t / 8 + (if f.mx && smallFmt t then ceilDiv f.n 32 else 0)

def CopyDesc.srcRow (d : CopyDesc) (x : Xform) : Nat := if x = .fcv then d.fcv.rowBytes d.fcv.src else d.len

/-- Rows of the destination and their length (R253, R254). -/
def CopyDesc.dstRows (d : CopyDesc) (x : Xform) : Nat × Nat :=
  match x with
  | .tr => (d.len / 2 ^ (d.param % 4), d.rows * 2 ^ (d.param % 4))
  | .fcv => (d.rows, d.fcv.rowBytes d.fcv.dst)
  | _ => (d.rows, d.len)

/-- The parameter has no reserved bit, and the shape keeps the limits of R254, R258 and R259. -/
def shapeOk (d : CopyDesc) (x : Xform) : Bool :=
  let whole := d.len % 256 == 0
  let al (w : Word) : Bool := w.toNat % 32 == 0
  match x with
  | .none => decide (d.param < 2) && (d.param == 0 || (d.rows == 1 && whole && al d.srcLo && al d.dstLo))
  | .tr => decide (d.param < 4) && d.len % 2 ^ d.param == 0 && decide (d.len / 2 ^ d.param ≤ 65536)
  | .benc => d.param == 0 && whole && al d.dstLo && d.dstride == 0
  | .bdec => d.param == 0 && whole && al d.srcLo && d.sstride == 0
  | .gath => d.param == 0
  | .swz => decide (d.param ≤ 5) && d.len % (8 * 2 ^ d.param) == 0
  | .fcv =>
    let f := d.fcv
    let tiny := f.src == .e2m1 || f.dst == .e2m1
    decide (d.param < 1024) && d.param % 8 != 7 && d.param / 8 % 8 != 7 && f.src != f.dst &&
      8 * d.len % fmtWidth f.src == 0 && (!tiny || f.n % 2 == 0) && (f.dst != .e2m1 || f.sat) &&
      (!f.mx || smallFmt f.src != smallFmt f.dst)

/-- Lowest and highest byte of rows at offsets from a base (R253). -/
def spanOf (base : Int) (offs : List Int) (n : Nat) : Int × Int :=
  (base + offs.foldl min (offs.headD 0), base + offs.foldl max (offs.headD 0) + n - 1)

/-- Offsets of the first and the last of n rows, between which the others lie. -/
def rowEnds (n : Nat) (stride : Int) : List Int := [0, (n - 1 : Nat) * stride]

def srcSpan (d : CopyDesc) (x : Xform) (idx : List Nat) : Int × Int :=
  let b := sideBase d.srcLo d.srcHi
  if d.billet x ∨ x = .bdec then spanOf b [0] d.billetSize
  else if x = .gath then spanOf b (idx.map (fun i => (i : Int) * d.sstride)) d.len
  else spanOf b (rowEnds d.rows d.sstride) (d.srcRow x)

def dstBytes (d : CopyDesc) (x : Xform) : Nat :=
  if d.billet x ∨ x = .benc then d.billetSize else (d.dstRows x).1 * (d.dstRows x).2

def dstSpan (d : CopyDesc) (x : Xform) : Int × Int :=
  let b := sideBase d.dstLo d.dstHi
  if d.billet x ∨ x = .benc ∨ x = .gath then spanOf b [0] (dstBytes d x)
  else spanOf b (rowEnds (d.dstRows x).1 d.dstride) (d.dstRows x).2

/-- The destination rows overlap one another (R253). -/
def rowsOverlap (d : CopyDesc) (x : Xform) : Bool :=
  !(x == .gath || x == .benc || d.billet x) && decide (1 < (d.dstRows x).1) && decide (d.dstride.natAbs < (d.dstRows x).2)

/-- Source and destination lie in one space, and their spans meet. -/
def sidesMeet (d : CopyDesc) (x : Xform) (idx : List Nat) : Bool :=
  let a := srcSpan d x idx
  let b := dstSpan d x
  spaceOf d.srcHi == spaceOf d.dstHi && (spaceOf d.srcHi != 2 || bits d.srcHi 15 0 == bits d.dstHi 15 0) &&
    decide (a.1 ≤ b.2) && decide (b.1 ≤ a.2)

/-- The engine accepts the copy (R253). -/
def copyOk (d : CopyDesc) (x : Xform) (idx : List Nat) : Bool :=
  sideOk d.srcHi && sideOk d.dstHi && decide (1 ≤ d.len) && decide (d.len ≤ 16777216) && shapeOk d x &&
    !rowsOverlap d x && !sidesMeet d x idx && decide (dstBytes d x ≤ 268435456)

/-! Locations (R252). -/

/-- A byte of a copy: global, of the block's scratchpad, or of a view's image. -/
inductive Loc where
  | glob (va : Addr)
  | scr (o : Nat)
  | view (h : Word) (o : Int)
  deriving DecidableEq, Repr, Inhabited

def locOf (lo hi : Word) (off : Int) : Loc :=
  match spaceOf hi with
  | 0 => .glob (BitVec.ofInt 56 (sideBase lo hi + off))
  | 1 => .scr ((BitVec.ofInt 32 (lo.toNat + off)).toNat)
  | _ => .view (BitVec.ofNat 32 (bits hi 15 0)) (lo.toNat + off)

def CopyDesc.src (d : CopyDesc) (off : Int) : Loc := locOf d.srcLo d.srcHi off
def CopyDesc.dst (d : CopyDesc) (off : Int) : Loc := locOf d.dstLo d.dstHi off

/-- What a chunk meets: what it asked for, pages to wait for, or a status of R265. -/
inductive CopyRes (α : Type) where
  | ok (a : α)
  | wait (pages : List Addr)
  | fail (status : Nat)
  deriving DecidableEq, Repr, Inhabited

def CopyRes.bind {α β : Type} (x : CopyRes α) (f : α → CopyRes β) : CopyRes β :=
  match x with
  | .ok a => f a
  | .wait p => .wait p
  | .fail n => .fail n

/-- The piece of a global or scratchpad byte: in the fabric window a destination has none, and its bytes may meet an
unrecoverable outcome at the other module, which only that module's state decides (R267, R510; entry 90). -/
def locPiece (s : State) (k : Block) (b : Nat) (use : Use) (l : Loc) : CopyRes (List Piece) :=
  match l with
  | .scr o => .ok [⟨.scratch b, o % k.scratchSize, 1⟩]
  | .view _ _ => .ok []
  | .glob va =>
    if inWindow va ∧ use = .store then
      match windowBad s k.part va with
      | some _ => .fail 3
      | none =>
        if s.unreachable.contains (rowModule (fabricRowOf s k.part va)) || Config.remoteFails s.moves then .fail 5 else .ok []
    else
      match outcome (coreLookup s k.stack k.core k.part va) va use k.priv with
      | .ok t => .ok [⟨.mem, t.pa va.toNat, 1⟩]
      | .recoverable p => .wait [p]
      | .missing | .denied => .fail 3

/-- What keeps bytes of a view's image from being read or written now: the link may have failed, or stall (R326, R327). -/
def viewBars (s : State) (k : Block) (h : Word) (write : Bool) (offs : List Int) : CopyRes Unit :=
  if offs.any (· < 0) then .fail 3
  else
    match viewReach s k.part h write (offs.map Int.toNat) with
    | none => .fail 3
    | some (pe, _, els) =>
      let ps := elemPieces s k.part pe els
      if peerLost s k.stack ps then .fail 5 else if peerWaits s k.stack ps then .wait [] else .ok ()

/-- Read one byte. -/
def readLoc (s : State) (w : Who) (k : Block) (b : Nat) (l : Loc) : State × CopyRes Byte :=
  match l with
  | .view h o =>
    match viewBars s k h false [o] with
    | .fail n => (s, .fail n)
    | .wait p => (s, .wait p)
    | .ok _ =>
      let r := viewRead s w k.part k.stack h o.toNat 1
      match r.2 with
      | .refused => (s, .fail 3)
      | .lost => (s, .fail 5)
      | .wait => (s, .wait [])
      | .poisoned => (r.1, .fail 4)
      | .bytes bs => (r.1, .ok (bs.headD 0))
  | _ =>
    match locPiece s k b .load l with
    | .wait p => (s, .wait p)
    | .fail n => (s, .fail n)
    | .ok ps =>
      if ps.any (fun p => p.space == .mem && s.unreachablePA p.addr k.stack) then (s, .fail 5)
      else if peerWaits s k.stack ps then (s, .wait [])
      else
        let r := readBytes s k.stack w .each ps
        match r.2 with
        | none => (r.1, .fail (if ps.any s.hostFails then 5 else 4))
        | some bs => (r.1, .ok (bs.headD 0))

/-- Read bytes in order, up to the first that fails; pages that are awaited are all named. -/
def readLocs (s : State) (w : Who) (k : Block) (b : Nat) : List Loc → State × CopyRes (List Byte)
  | [] => (s, .ok [])
  | l :: ls =>
    let r := readLoc s w k b l
    match r.2 with
    | .fail n => (r.1, .fail n)
    | .wait p =>
      let q := readLocs r.1 w k b ls
      (q.1, match q.2 with
        | .wait p2 => .wait (p ++ p2)
        | .fail n => .fail n
        | .ok _ => .wait p)
    | .ok v =>
      let q := readLocs r.1 w k b ls
      (q.1, q.2.bind (fun vs => .ok (v :: vs)))

/-- The core TLB holds the translations of the pages of global locations (R146, R249). -/
def holdLocs (s : State) (k : Block) (use : Use) (ls : List Loc) : State :=
  (nub (ls.filterMap (fun l => match l with
    | .glob va => if inWindow va then none else some (pageOf va)
    | _ => none))).foldl (fun s va => (xlateCore s k use va).1) s

/-! Billets (R260 to R263). -/

/-- A billet block: mode, base, and the bytes of its used sectors. -/
structure BilletBlock where
  mode : Nat
  base : Nat
  data : List Byte
  deriving DecidableEq, Repr, Inhabited

def sectorsUsed (mode : Nat) : Nat :=
  match mode with
  | 0 => 8
  | 1 => 0
  | 2 => 2
  | _ => 4

/-- Encode 256 bytes (R262). -/
def billetEncode (bs : List Byte) : BilletBlock :=
  let ws := wordsOfBytes bs 64
  let w0 := ws.headD 0
  let ds := ws.map (fun w => (w - w0).toInt)
  if ds.all (· == 0) then ⟨1, w0.toNat, []⟩
  else if ds.all (fun d => decide (-128 ≤ d) && decide (d ≤ 127)) then ⟨2, w0.toNat, ds.map (fun d => BitVec.ofInt 8 d)⟩
  else if ds.all (fun d => decide (-32768 ≤ d) && decide (d ≤ 32767)) then
    ⟨3, w0.toNat, ds.flatMap (fun d => leBytes 2 (BitVec.ofInt 16 d).toNat)⟩
  else ⟨0, 0, bs⟩

def billetHeader (x : BilletBlock) : List Byte := leBytes 8 (x.mode * 2 ^ 60 + x.base)

/-- Mode and base of a header; none where R262 rejects it. -/
def headerOf (bs : List Byte) : Option (Nat × Nat) :=
  let n := leNat bs
  let mode := n / 2 ^ 60
  let base := n % 2 ^ 32
  if 3 < mode ∨ n / 2 ^ 32 % 2 ^ 28 ≠ 0 ∨ (mode = 0 ∧ base ≠ 0) then none else some (mode, base)

/-- Decode a block from its mode, base and used sectors (R260). -/
def billetDecode (mode base : Nat) (data : List Byte) : List Byte :=
  match mode with
  | 0 => data
  | 1 => (upto 64).flatMap (fun _ => leBytes 4 base)
  | 2 => (data.take 64).flatMap (fun d => leBytes 4 (BitVec.ofNat 32 base + d.signExtend 32).toNat)
  | _ => (upto 64).flatMap (fun i =>
      leBytes 4 (BitVec.ofNat 32 base + (BitVec.ofNat 16 (leNat ((data.drop (2 * i)).take 2))).signExtend 32).toNat)

/-! Units: the pieces of work that a chunk is made of, and what each writes. -/

/-- Number of units of a copy. -/
def unitCount (d : CopyDesc) (x : Xform) : Nat :=
  match x with
  | .none => if d.param % 2 = 1 then d.blocks else d.rows * d.len
  | .tr => d.rows * (d.len / 2 ^ (d.param % 4))
  | .benc | .bdec => d.blocks
  | .gath => d.rows * d.len
  | .swz => d.rows * (d.len / 8)
  | .fcv =>
    let f := d.fcv
    d.rows * (if f.mx then ceilDiv f.n 32 else if f.src = .e2m1 ∨ f.dst = .e2m1 then f.n / 2 else f.n)

/-- Destination bytes of a unit at most. -/
def unitBytes (d : CopyDesc) (x : Xform) : Nat :=
  match x with
  | .none => if d.param % 2 = 1 then 288 else 1
  | .tr => 2 ^ (d.param % 4)
  | .benc => 288
  | .bdec => 256
  | .gath => 1
  | .swz => 8
  | .fcv => if d.fcv.mx then 257 else 16

/-- Where a unit's destination begins. -/
def unitHead (d : CopyDesc) (x : Xform) (u : Nat) : Loc :=
  match x with
  | .none => if d.param % 2 = 1 then d.dst (8 * u) else d.dst ((u / d.len : Nat) * d.dstride + (u % d.len : Nat))
  | .tr =>
    let e := 2 ^ (d.param % 4)
    d.dst ((u / d.rows : Nat) * d.dstride + (u % d.rows * e : Nat))
  | .benc => d.dst (8 * u)
  | .bdec => d.dst ((256 * u / d.len : Nat) * d.dstride + (256 * u % d.len : Nat))
  | .gath => d.dst u
  | .swz =>
    let n := d.len / 8
    d.dst ((u / n : Nat) * d.dstride + (8 * (u % n) : Nat))
  | .fcv =>
    let f := d.fcv
    let g := if f.mx then 32 else if f.src = .e2m1 ∨ f.dst = .e2m1 then 2 else 1
    let per := max 1 (ceilDiv f.n g)
    d.dst ((u / per : Nat) * d.dstride + (u % per * g * fmtWidth f.dst / 8 : Nat))

/-- A run of destination bytes. -/
def runTo (d : CopyDesc) (off : Int) (bs : List Byte) : List (Loc × Byte) :=
  ((upto bs.length).zip bs).map (fun p => (d.dst (off + p.1), p.2))

def srcRun (d : CopyDesc) (off : Int) (n : Nat) : List Loc := (upto n).map (fun j => d.src (off + j))

/-- Elements of a run of bytes. -/
def fmtElems (f : Fmt) (n : Nat) (bs : List Byte) : List Nat :=
  let v := leNat bs
  (upto n).map (fun j => v / 2 ^ (fmtWidth f * j) % 2 ^ fmtWidth f)

def packElems (f : Fmt) (es : List Nat) : List Byte :=
  leBytes (es.length * fmtWidth f / 8)
    (((upto es.length).zip es).map (fun p => p.2 * 2 ^ (fmtWidth f * p.1))).sum

/-- A value times a power of two. -/
def FV.scale (v : FV) (n : Int) : FV :=
  match v with
  | .fin neg m e => .fin neg m (e + n)
  | v => v

/-- The scale of a block of values for a small destination (R259). -/
def blockScale (f : Fmt) (vs : List FV) : Nat :=
  let emax : Int := match f with
    | .e4m3 => 8
    | .e5m2 => 15
    | _ => 2
  if vs.any (fun v => match v with
    | .fin _ _ _ => false
    | _ => true) then 255
  else
    let logs := vs.filterMap (fun v => match v with
      | .fin _ m e => if m = 0 then none else some ((Nat.log2 m : Int) + e)
      | _ => none)
    match logs with
    | [] => 0
    | l :: ls => (max 0 (min 254 (127 + ls.foldl max l - emax))).toNat

/-- Convert elements without scales. -/
def convElems (f : Fcv) (vs : List FV) : List Nat := vs.map (fun v => (deliverF f.dst f.sat false f.mode false v).1)

/-- The access of a copy at this moment, as its own party (R249). -/
def Copy.who (c : Copy) (s : State) : Who := Who.of (.copy c.id) s.moves

/-- What unit u of a copy writes: it reads what it needs first, by the one access of its step, to which each element of a view
stands at one moment (R328). A carried billet's headers have been read before. -/
def unitWrites (s : State) (w : Who) (k : Block) (b : Nat) (c : Copy) (u : Nat) : State × CopyRes (List (Loc × Byte)) :=
  let d := CopyDesc.of c.desc
  let get (s : State) (reads : List Loc) : State × CopyRes (List Byte) :=
    readLocs (holdLocs s k .load reads) w k b reads
  let simple (reads : List Loc) (f : List Byte → List (Loc × Byte)) : State × CopyRes (List (Loc × Byte)) :=
    let r := get s reads
    (r.1, r.2.bind (fun bs => .ok (f bs)))
  let head := billetHead d.blocks
  let pad := if u + 1 = d.blocks then head - 8 * d.blocks else 0
  match c.xf with
  | .none =>
    if d.param % 2 = 1 then
      let hb := (c.heads.drop (8 * u)).take 8
      let n := 32 * (headerOf hb).elim 0 (fun h => sectorsUsed h.1)
      simple (srcRun d (head + 256 * u : Nat) n ++ srcRun d (8 * d.blocks : Nat) pad) (fun bs =>
        runTo d (8 * u : Nat) hb ++ runTo d (head + 256 * u : Nat) (bs.take n) ++ runTo d (8 * d.blocks : Nat) (bs.drop n))
    else
      let r := u / d.len
      let j := u % d.len
      simple [d.src (r * d.sstride + j)] (fun bs => runTo d (r * d.dstride + j) bs)
  | .tr =>
    let e := 2 ^ (d.param % 4)
    let col := u / d.rows
    let row := u % d.rows
    simple (srcRun d (row * d.sstride + (col * e : Nat)) e) (fun bs => runTo d (col * d.dstride + (row * e : Nat)) bs)
  | .gath =>
    let r := u / d.len
    let j := u % d.len
    simple [d.src ((c.idx.getD r 0 : Nat) * d.sstride + j)] (fun bs => runTo d u bs)
  | .swz =>
    let n := d.len / 8
    let r := u / n
    let j := u % n
    simple (srcRun d (r * d.sstride + (8 * j : Nat)) 8)
      (fun bs => runTo d (r * d.dstride + (8 * (j ^^^ (r % 2 ^ d.param)) : Nat)) bs)
  | .benc =>
    let r := 256 * u / d.len
    simple (srcRun d (r * d.sstride + (256 * u % d.len : Nat)) 256) (fun bs =>
      let x := billetEncode bs
      runTo d (8 * u : Nat) (billetHeader x) ++ runTo d (head + 256 * u : Nat) x.data ++
        runTo d (8 * d.blocks : Nat) (List.replicate pad 0))
  | .bdec =>
    let hd := get s (srcRun d (8 * u) 8)
    match hd.2 with
    | .ok hb =>
      match headerOf hb with
      | none => (hd.1, .fail 4)
      | some (mode, base) =>
        let r := get hd.1 (srcRun d (head + 256 * u : Nat) (32 * sectorsUsed mode))
        (r.1, r.2.bind (fun bs =>
          .ok (runTo d ((256 * u / d.len : Nat) * d.dstride + (256 * u % d.len : Nat)) (billetDecode mode base bs))))
    | .wait p => (hd.1, .wait p)
    | .fail n => (hd.1, .fail n)
  | .fcv =>
    let f := d.fcv
    let sw := fmtWidth f.src
    let g := if f.mx then 32 else if f.src = .e2m1 ∨ f.dst = .e2m1 then 2 else 1
    let per := max 1 (ceilDiv f.n g)
    let r := u / per
    let i := u % per
    let n := min g (f.n - i * g)
    let so : Int := r * d.sstride
    let dso : Int := r * d.dstride
    let els := srcRun d (so + (i * g * sw / 8 : Nat)) (n * sw / 8)
    let at_ : Int := dso + (i * g * fmtWidth f.dst / 8 : Nat)
    let vals (bs : List Byte) : List FV := (fmtElems f.src n bs).map (decodeF f.src)
    if !f.mx then simple els (fun bs => runTo d at_ (packElems f.dst (convElems f (vals bs))))
    else if smallFmt f.src then
      simple (els ++ [d.src (so + d.len + i)]) (fun bs =>
        let x := (bs.getLastD 0).toNat
        let vs := (vals (bs.take (n * sw / 8))).map (fun v => if x = 255 then FV.nan else v.scale (x - 127))
        runTo d at_ (packElems f.dst (convElems f vs)))
    else
      simple els (fun bs =>
        let vs := vals bs
        let x := blockScale f.dst vs
        runTo d at_ (packElems f.dst (convElems f (vs.map (fun v => v.scale (127 - x))))) ++
          runTo d (dso + (f.n * fmtWidth f.dst / 8 + i : Nat)) [BitVec.ofNat 8 x])

/-! Chunks (R266 to R269). -/

/-- The destination page of a location. -/
def locPage : Loc → Nat
  | .glob va => va.toNat / 65536
  | _ => 0

/-- A unit may begin a step where no element of a view has been written in part before it. -/
def wholeAt : Loc → Bool
  | .view _ o => o % 4 == 0
  | _ => true

/-- Units that are performed in one step from unit u on: how a copy is cut into chunks is free (R266). A view's elements
are written whole where they can be. -/
def chunkLen (c : Copy) (u : Nat) : Nat :=
  let d := CopyDesc.of c.desc
  let most := min (unitCount d c.xf - u) (max 1 (4096 / unitBytes d c.xf))
  let want := 1 + Config.chunkLength c.id u % max 1 most
  let len := want + ((upto (most - want)).find? (fun i => wholeAt (unitHead d c.xf (u + want + i)))).getD (most - want)
  let pg := locPage (unitHead d c.xf u)
  max 1 (((upto len).takeWhile (fun i => locPage (unitHead d c.xf (u + i)) == pg)).length)

/-- First unit of chunk n. -/
def chunkStart (c : Copy) : Nat → Nat
  | 0 => 0
  | n + 1 => chunkStart c n + chunkLen c (chunkStart c n)

/-- The headers of a billet that is carried are read once, and checked, before any of it is copied (R250, R263). -/
def readHeads (s : State) (k : Block) (c : Copy) : State × CopyRes (List Byte) :=
  let d := CopyDesc.of c.desc
  if d.billet c.xf && c.heads.isEmpty then
    let ls := srcRun d 0 (8 * d.blocks)
    let r := readLocs (holdLocs s k .load ls) (c.who s) k c.blk ls
    (r.1, r.2.bind (fun bs =>
      if (upto d.blocks).all (fun n => (headerOf ((bs.drop (8 * n)).take 8)).isSome) then .ok bs else .fail 4))
  else (s, .ok c.heads)

/-- Everything that units from u on write. -/
def chunkWrites (s : State) (w : Who) (k : Block) (b : Nat) (c : Copy) (u : Nat) : Nat → State × CopyRes (List (Loc × Byte))
  | 0 => (s, .ok [])
  | n + 1 =>
    let r := unitWrites s w k b c u
    match r.2 with
    | .fail st => (r.1, .fail st)
    | .wait p =>
      let q := chunkWrites r.1 w k b c (u + 1) n
      (q.1, match q.2 with
        | .wait p2 => .wait (p ++ p2)
        | .fail st => .fail st
        | .ok _ => .wait p)
    | .ok ws =>
      let q := chunkWrites r.1 w k b c (u + 1) n
      (q.1, q.2.bind (fun vs => .ok (ws ++ vs)))

/-- Join pieces that follow one another. -/
def joinPieces : List (Piece × Byte) → List (Piece × List Byte)
  | [] => []
  | (p, v) :: rest =>
    match joinPieces rest with
    | (q, vs) :: more =>
      if p.space = q.space ∧ p.addr + p.len = q.addr then (⟨p.space, p.addr, p.len + q.len⟩, v :: vs) :: more
      else (p, [v]) :: (q, vs) :: more
    | [] => [(p, [v])]

/-- Bytes for another module, joined into runs of rising addresses (R508, R510). -/
def windowRuns : List (Addr × Byte) → List (Addr × List Byte)
  | [] => []
  | (a, v) :: rest =>
    match windowRuns rest with
    | (x, vs) :: more => if a + 1 = x ∧ a.toNat % 2 ^ 35 + 1 < 2 ^ 35 then (a, v :: vs) :: more else (a, [v]) :: (x, vs) :: more
    | [] => [(a, [v])]

/-- Where the bytes of a chunk go: pieces, bytes of views, and bytes of the fabric window. -/
def placeWrites (s : State) (k : Block) (b : Nat) : List (Loc × Byte) → CopyRes (List (Piece × Byte))
  | [] => .ok []
  | (l, v) :: ws =>
    match locPiece s k b .store l with
    | .fail n => .fail n
    | .wait p =>
      (match placeWrites s k b ws with
        | .wait q => .wait (p ++ q)
        | .fail n => .fail n
        | .ok _ => .wait p)
    | .ok ps =>
      if ps.any (fun p => p.space == .mem && s.unreachablePA p.addr k.stack) then .fail 5
      else (placeWrites s k b ws).bind (fun vs => .ok (ps.map (fun p => (p, v)) ++ vs))

/-- The view whose bytes a chunk writes, with their offsets. -/
def viewBytes (ws : List (Loc × Byte)) : Option (Word × List (Int × Byte)) :=
  let vs := ws.filterMap (fun w => match w.1 with
    | .view h o => some (h, o, w.2)
    | _ => none)
  vs.head?.map (fun v => (v.1, vs.map (·.2)))

/-- What a chunk's destination meets, before anything of it is written. -/
def chunkPlaces (s : State) (k : Block) (b : Nat) (ws : List (Loc × Byte)) : CopyRes (List (Piece × Byte)) :=
  match viewBytes ws with
  | some v => (viewBars s k v.1 true (v.2.map (·.1))).bind (fun _ => .ok [])
  | none => (placeWrites s k b ws).bind (fun ps => if peerWaits s k.stack (ps.map (·.1)) then .wait [] else .ok ps)

/-- The port by which a module is reached does not carry billets: its neighbour has advertised no capability (R264). The
port is free. -/
def expands (s : State) : Bool :=
  (s.ports[Config.freeNat s.moves % 4]?).elim true (fun p => !(p.session && p.billets))

/-- The unused sector bytes in a destination page that an expanding hop sends with the blocks of a step, whose used ones are in
ws (R264). -/
def unusedBytes (s : State) (d : CopyDesc) (u len page : Nat) (ws : List (Loc × Byte)) : List (Loc × Byte) :=
  ((upto (256 * len)).map (fun j => d.dst (billetHead d.blocks + 256 * u + j : Nat))).filterMap (fun l =>
    match l with
    | .glob va => if locPage l != page || ws.any (·.1 == l) then none else some (l, Config.sectorByte s.moves (va.toNat % 2 ^ 35))
    | _ => none)

/-- The fabric-window bytes of a chunk leave for their modules. -/
def sendWindow (s : State) (k : Block) (billet : Bool) (ws : List (Loc × Byte)) : State :=
  let win := ws.filterMap (fun w => match w.1 with
    | .glob va => if inWindow va then some (va, w.2) else none
    | _ => none)
  (windowRuns win).foldl (fun s p =>
    let r := fabricRowOf s k.part p.1
    let op : FabricOp := if billet then .billet (rowAddr r p.1) [(0, p.2)] else .copy (rowAddr r p.1) p.2
    { s with fabricOut := s.fabricOut ++ [(rowModule r, rowStack r, rowPart r, op)] }) s

/-- Write a chunk whose places have been found: what units u on write in one destination page, of all that they write. -/
def writeChunk (s : State) (k : Block) (c : Copy) (u len : Nat) (all ws : List (Loc × Byte)) (ps : List (Piece × Byte)) : State :=
  let d := CopyDesc.of c.desc
  match viewBytes ws with
  | some v => (viewWrite s (c.who s) k.part k.stack v.1 (v.2.map (fun x => (x.1.toNat, x.2)))).1
  | none =>
    let j := joinPieces ps
    let s1 := if j.isEmpty then s else writeBytes s (c.who s) (j.map (·.1)) (j.flatMap (·.2))
    let billet := d.billet c.xf || c.xf == .benc
    if billet && expands s then sendWindow s1 k false (ws ++ (if ws.any (fun w => match w.1 with
      | .glob va => inWindow va
      | _ => false) then unusedBytes s d u len ((ws.head?).elim 0 (fun w => locPage w.1)) all else []))
    else sendWindow s1 k billet ws

def mapCopy (s : State) (id : Nat) (f : Copy → Copy) : State :=
  { s with copies := s.copies.map (fun c => if c.id == id then f c else c) }

/-- A copy starts chunks while it has met no failure and no cancel, and its context is not stopped (R266 to R271). -/
def copyRuns (s : State) (c : Copy) : Bool :=
  c.status == 0 && !c.cancelled && c.slot &&
    (s.block? c.blk).elim false (fun k => (k.phase == .resident || k.phase == .evicted) && ctxFree s k) &&
    clockRuns s c.stack c.core

/-- Perform the units of a step. Its bytes in each destination page are a chunk, performed whole or not at all; where one of
them cannot be started, a free bit says whether the others had been (R266, R267). The bytes of a step are read and written at
one moment, which R249 and R250 leave open (DESIGN CHOICE, entry 109). R266 has a chunk lie in one destination page and each
block of a billet in one chunk, which cannot both hold of a block that lies in two pages: the model cuts such a block at the
page (DESIGN CHOICE, entry 115). -/
def performChunk (s : State) (k : Block) (c : Copy) (n : Nat) : State :=
  let u := chunkStart c n
  let len := chunkLen c u
  let fail (s : State) (st : Nat) : State := mapCopy s c.id (fun c => { c with status := st })
  let wait (s : State) (vas : List Addr) : State := mapCopy (countPages s c.blk vas) c.id (fun c => { c with
    waits := c.waits.filter (fun x => x.1 != n) ++ vas.map (fun va => (n, va)) })
  let h := readHeads s k c
  match h.2 with
  | .fail st => fail h.1 st
  | .wait p => wait h.1 p
  | .ok hb =>
    let s0 := mapCopy h.1 c.id (fun c => { c with heads := hb })
    let r := chunkWrites s0 (c.who s0) k c.blk { c with heads := hb } u len
    match r.2 with
    | .fail st => fail r.1 st
    | .wait p => wait r.1 p
    | .ok ws =>
      let s1 := holdLocs r.1 k .store (ws.map (·.1))
      let parts := (nub (ws.map (fun w => locPage w.1))).map (fun pg =>
        let xs := ws.filter (fun w => locPage w.1 == pg)
        (xs, chunkPlaces s1 k c.blk xs))
      let waits := parts.filterMap (fun p => match p.2 with
        | .wait vas => some vas
        | _ => none)
      if !waits.isEmpty then wait s1 waits.flatten
      else
        let bad := parts.findSome? (fun p => match p.2 with
          | .fail st => some st
          | _ => none)
        let good := if bad.isSome && !Config.freeBit s1.moves then [] else parts
        let s2 := good.foldl (fun s p => match p.2 with
          | .ok ps => mapCopy (writeChunk s k c u len ws p.1 ps) c.id (fun c => { c with bytes := c.bytes + p.1.length })
          | _ => s) s1
        match bad with
        | some st => fail s2.draw st
        | none => mapCopy s2.draw c.id (fun c => { c with done := c.done ++ [n], units := c.units + len })

/-- A chunk that met a page to be served starts when its service completes (R267). -/
def chunkServed (k : Block) (c : Copy) (n : Nat) : Bool := c.waits.all (fun x => x.1 != n || !k.missing.contains x.2)

/-- COPY_CHUNK (R266, R267). -/
def execCopyChunk (copy chunk : Nat) (s : State) : Out :=
  match s.copies.find? (fun c => c.id == copy) with
  | none => .next s
  | some c =>
    match s.block? c.blk with
    | none => .next s
    | some k =>
      if copyRuns s c && chunkServed k c chunk && !c.done.contains chunk && decide (chunkStart c chunk < unitCount (CopyDesc.of c.desc) c.xf) then
        .next (performChunk s k c chunk)
      else .next s

/-- The completion word (R265, R271). -/
def completionWord (status bytes : Nat) : Word := putBits status 31 29 ||| BitVec.ofNat 32 bytes

/-- COPY_COMPLETION (R265, R269): the copy has performed every chunk, or starts none any more; not during a step (R484). -/
def execCopyCompletion (copy : Nat) (s : State) : Out :=
  match s.copies.find? (fun c => c.id == copy) with
  | none => .next s
  | some c =>
    let all := decide (unitCount (CopyDesc.of c.desc) c.xf ≤ c.units)
    let lets := (s.block? c.blk).elim false (fun k => (k.phase == .resident || k.phase == .evicted) &&
      (s.ctx? k.part k.stack k.job).elim true (·.step.isNone))
    if c.slot && lets && (all || c.cancelled || c.status != 0) then
      let st := if c.status ≠ 0 then c.status else if all then 0 else 1
      let s1 : State := { s with copies := s.copies.filter (fun d => d.id != copy) }
      .next ((s1.mapGroup c.blk c.grp (fun g => g.setSregs c.tok [full (completionWord st c.bytes)])).mapOrder (fun o =>
        o.putChan (.token c.blk c.grp c.tok) (o.covers (.copy copy) s.moves)))
    else .next s

/-- Where the rows of a side lie, with their length (R252 to R263). -/
def sideRuns (c : Copy) (dst : Bool) : List (Int × Nat) :=
  let d := CopyDesc.of c.desc
  let b := if dst then sideBase d.dstLo d.dstHi else sideBase d.srcLo d.srcHi
  let rows (n : Nat) (stride : Int) (len : Nat) : List (Int × Nat) := (upto n).map (fun i => (b + i * stride, len))
  if dst then
    if d.billet c.xf ∨ c.xf = .benc ∨ c.xf = .gath then [(b, dstBytes d c.xf)]
    else rows (d.dstRows c.xf).1 d.dstride (d.dstRows c.xf).2
  else if d.billet c.xf ∨ c.xf = .bdec then [(b, d.billetSize)]
  else if c.xf = .gath then c.idx.map (fun i => (b + i * d.sstride, d.len))
  else rows d.rows d.sstride (d.srcRow c.xf)

/-- The 64 KiB pages of a run of bytes. -/
def pagesOver (va : Addr) (n : Nat) : List Addr :=
  (upto (ceilDiv (va.toNat % 65536 + n) 65536)).map (fun i => pageOf va + BitVec.ofNat 56 (65536 * i))

/-- A side of the copy is in host memory: a page of it translates there. -/
def hostSideOf (s : State) (k : Block) (c : Copy) (dst : Bool) : Bool :=
  let d := CopyDesc.of c.desc
  spaceOf (if dst then d.dstHi else d.srcHi) == 0 &&
  (sideRuns c dst).any (fun r => (pagesOver (BitVec.ofInt 56 r.1) r.2).any (fun p =>
    match outcome (coreLookup s k.stack k.core k.part p) p (if dst then .store else .load) k.priv with
    | .ok t => region? (t.pa p.toNat) == some .host
    | _ => false))

/-- HOST_COMPLETION_ERROR (R161, R265, R503): the host completes a request of the partition's function with an error: of the
access, or of the copy with a side in host memory, that is named. A read that no access in flight makes meets it through an
upset granule of host memory. -/
def execHostCompletionError (acc : Nat) (s : State) : Out :=
  match s.accesses.find? (fun a => a.id == acc) with
  | none => .next { s with copies := s.copies.map (fun (c : Copy) =>
      if c.id == acc && c.status == 0 && copyRuns s c &&
        (s.block? c.blk).elim false (fun k => hostSideOf s k c false || hostSideOf s k c true)
      then { c with status := 5 } else c) }
  | some a =>
    let k := (s.block? a.blk).getD default
    if mayPerform s a && a.pieces.any (fun p => p.space == .mem && region? p.addr == some .host) then
      match a.kind with
      | .load _ true => .next (completeWith s a (a.dst.elim [] FillDst.zeros))
      | .store _ | .fsemInc _ _ => .next (((s.dropPart a).report k.stack 2).hostError k.stack k.part 2)
      | .fsemWait v w => .next (failSemWait (s.done a) a v w)
      | _ => .next (completeWith s a a.poison)
    else .next s

/-! Instructions (R270 to R273). -/

/-- The row indexes of a gather, read on the copy path (R256); none where a word of the table cannot be read: the copy
then ends with status 4 and no byte, whatever its spans (DESIGN CHOICE, entry 102). -/
def gatherIndexes (s : State) (w : Who) (b : Nat) (k : Block) (d : CopyDesc) : State × Option (List Nat) :=
  (upto d.rows).foldl (fun (r : State × Option (List Nat)) i =>
    match r.2 with
    | none => r
    | some xs =>
      let q := readBytes r.1 k.stack w .each (scratchPieces b k.scratchSize ((d.dword.toNat + 4 * i) % 2 ^ 32) 4)
      (q.1, q.2.map (fun bs => xs ++ [leNat bs]))) (s, some [])

/-- The place of a bundle among those of its core that want a copy slot: since it first issued, or now (R248). -/
def slotTicket (s : State) (g : Group) (act : List Nat) : Nat :=
  ((act.filterMap (fun l => match (g.thread l).run with
    | .blocked (.copySlot t) => some t
    | _ => none)).head?).getD s.moves

/-- xcopy (R248, R270): the copy follows what its threads give to the copy path (R225). -/
def execXcopy (x : Xform) (d : Fld) (a : Src) (s : State) : Out :=
  withForm (Form.of [uDst d, uSrc 1 a 8]) (uniBody (fun g => g.sregsAt a.f 8) (fun is k g s =>
    let t := slotTicket s g is.act
    if !slotFor s k.stack k.core t then (s.draw.blockLanes is.blk is.grp is.act (fun _ => .copySlot t), [])
    else
      let s0 := (is.act.map (fun l => (g.thread l).tid)).foldl (fun s tid =>
        s.takeChan (.copy s.moves) (.gives is.blk tid .copy)) s
      let ws := (g.sregsAt a.f 8).map (·.val)
      let ds := CopyDesc.of ws
      let gi := if x = .gath then gatherIndexes s0 (Who.of (.copy s.moves) s.moves) is.blk k ds else (s0, some [])
      if !copyOk ds x (gi.2.getD []) then answerU gi.1.draw is g d 0x4000_0000
      else
        let c : Copy := ⟨s.moves, k.stack, k.core, is.blk, is.grp, g.si d, x, ws, gi.2.getD [], [], [], 0, 0,
          if gi.2.isSome then 0 else 4, false, true, []⟩
        let s1 := (gi.1.draw.mapGroup is.blk is.grp (fun h => { h with sregs := markEmpty h.sregs (g.si d) 1 })).advance
          is.blk is.grp is.act
        ({ s1 with copies := s1.copies ++ [c] }, []))) s

/-- The copy tied to a register of a group. -/
def tiedTo (b g tok : Nat) (c : Copy) : Bool := c.blk == b && c.grp == g && c.tok == tok

/-- xcopy.cancel (R271). -/
def execXcopyCancel (a : Fld) (s : State) : Out :=
  withForm (Form.of [uName 1 a]) (uniBody (fun _ => []) (fun is _ g s =>
    (({ s with copies := s.copies.map (fun c => if tiedTo is.blk is.grp (g.si a) c then { c with cancelled := true } else c) } : State).advance
      is.blk is.grp is.act, []))) s

/-- xcopy.stat (R272). -/
def execXcopyStat (d a : Fld) (s : State) : Out :=
  withForm (Form.of [uDst d, uName 1 a]) (uniBody (fun _ => []) (fun is _ g s =>
    answerU s is g d (match s.copies.find? (tiedTo is.blk is.grp (g.si a)) with
      | some c => 0xC000_0000 + BitVec.ofNat 32 c.bytes
      | none => 0xE000_0000))) s

end Sys2Proof.Machine
end

