-- ==== Sys2Proof/Machine/Queues.lean ====
section
/-!
DEFINITION. Queue registers and hallmarks (R340 to R378, R524): binding, call and return records, the checks that a
call meets on its way to its unit, order domains, and the delivery of returns.
-/

namespace Sys2Proof.Machine

/-! Bindings (R341, R373). -/

/-- The binding that a unit descriptor asks for; none leaves the queue unbound. -/
def bindingOf (s : State) (k : Block) (desc : Word) : Option Binding :=
  let type := bits desc 31 29
  let inst := bits desc 15 8
  let slots := (s.partOn k.part k.stack).params.encSlots
  let ok : Bool := match type with
    | 0 => decide (inst < 16) || inst == 255
    | 1 | 2 => inst == 255
    | 3 => decide (inst < 8) || inst == 255
    | 4 => if inst = 255 then !slots.isEmpty else slots.contains inst
    | _ => false
  if bits desc 28 16 = 0 ∧ bits desc 7 0 = 0 ∧ ok then some ⟨type, inst⟩ else none

def mapQueue (s : State) (b g q : Nat) (f : Queue → Queue) : State :=
  s.mapGroup b g (fun k => { k with queues := modifyAt f q k.queues })

/-- The registers that an unfilled claim receives when a drain begins (R347, R373). -/
def endedClaim (k : Nat) : List Reg :=
  let st : Word := 0xD100_00E0 + BitVec.ofNat 32 (k - 1)
  full st :: List.replicate (k - 1) ⟨st, .poisoned⟩

/-- A drain begins: returns are discarded, and every unfilled claim ends. -/
def beginDrain (s : State) (b g q : Nat) : State :=
  let claims := ((s.group? b g).bind (fun k => k.queues[q]?)).elim [] (·.claims)
  claims.foldl (fun s c => s.mapLanes b g [c.lane] (fun _ t => t.setRegs c.dst (endedClaim c.k)))
    (mapQueue s b g q (fun u => { u with draining := true, returns := [], claims := [] }))

def drainWait : Wait → Bool
  | .drain _ _ => true
  | _ => false

/-- The descriptor that a lane's qbind read before it waited. -/
def waitDesc (g : Group) (l : Nat) : Word :=
  match (g.thread l).run with
  | .blocked (.drain _ d) => d
  | _ => 0

/-- Lanes that drain a queue. -/
def drainers (g : Group) (q : Nat) : List Nat :=
  indexes (fun (t : Thread) => match t.run with
    | .blocked (.drain n _) => n == q
    | _ => false) g.threads

/-- The drain is over: the queue is bound anew. It drains on while another qbind waits for its drain. -/
def finishBind (s : State) (is : Issue) (k : Block) (g : Group) (q : Nat) (desc : Word) : State :=
  (mapQueue s is.blk is.grp q (fun u => { u with
    binding := bindingOf s k desc
    draining := (drainers g q).any (fun l => !is.act.contains l) })).advance is.blk is.grp is.act

/-- qbind (R373): each of the waiting bundles binds the descriptor that it read. -/
def execQbind (q : BitVec 4) (a : Src) (s : State) : Out :=
  withForm (Form.of [uSrc 1 a]) (resumeOr drainWait
    (uniBody (fun _ => []) (fun is k g s =>
      ((nub (is.act.map (waitDesc g))).foldl (fun s d =>
        finishBind s { is with act := is.act.filter (fun l => waitDesc g l == d) } k
          ((s.group? is.blk is.grp).getD g) q.toNat d) s, [])))
    (uniBody (fun g => [g.sreg a.f]) (fun is k g s =>
      let s1 := beginDrain s is.blk is.grp q.toNat
      if (g.queues[q.toNat]?).elim false (queueBusy s is.blk is.grp q.toNat) then
        (s1.blockLanes is.blk is.grp is.act (fun _ => .drain q.toNat (g.sreg a.f).val), [])
      else (finishBind s1 is k g q.toNat (g.sreg a.f).val, [])))) s

/-! Pushes (R349, R374). -/

/-- What happens before the accesses of the calls that threads push: what they have handed to the call path, and the calls
whose returns they have popped (R225, R364). -/
def callGives (s : State) (b : Nat) (g : Group) (ls : List Nat) : List Nat :=
  nub (ls.flatMap (fun l =>
    let t := (g.thread l).tid
    s.order.chan (.gives b t .call) ++ s.order.chan (.took b t .call)))

/-- A record enters the call buffer whole, or the lanes block. -/
def pushRecord (s : State) (is : Issue) (g : Group) (ls : List Nat) (q : Nat) (lane : Option Nat) (ws : List Word) : State :=
  let room := ((s.group? is.blk is.grp).bind (fun g => g.queues[q]?)).elim false
    (fun u => !u.draining && decide (ws.length ≤ u.free))
  if room then
    (mapQueue s is.blk is.grp q (fun u => { u with
      calls := u.calls ++ [⟨ws, lane, s.moves, callGives s is.blk g ls⟩] })).advance is.blk is.grp ls
  else s.blockLanes is.blk is.grp ls (fun _ => .room q ws.length)

def execQpush (q : BitVec 4) (a : Src) (k : BitVec 5) (s : State) : Out :=
  withForm (Form.of [vSrc 1 a (k.toNat + 1)]) (eachLane (fun is _ g l t s =>
    let rs := g.vregsAt t a.f (k.toNat + 1)
    match poisonIn rs with
    | some (kind, v) => (s, [⟨l, kind, v, 0⟩])
    | none => (pushRecord s is g [l] q.toNat (some l) (rs.map (·.val)), []))) s

def execQpushS (q : BitVec 4) (a : Src) (k : BitVec 5) (s : State) : Out :=
  withForm (Form.of [uSrc 1 a (k.toNat + 1)]) (uniBody (fun g => g.sregsAt a.f (k.toNat + 1)) (fun is _ g s =>
    (pushRecord s is g is.act q.toNat none ((g.sregsAt a.f (k.toNat + 1)).map (·.val)), []))) s

/-! Pops (R351, R352, R375). -/

/-- The lane's oldest record that it has not taken. -/
def nextRecord (u : Queue) (lane : Nat) : Option ReturnRec := u.returns.find? (fun r => r.lanes.contains lane)

/-- A lane has taken its oldest record; one that no lane still waits for leaves the buffer. -/
def takeRecord (u : Queue) (lane : Nat) : Queue :=
  let i := (indexes (fun (r : ReturnRec) => r.lanes.contains lane) u.returns).headD u.returns.length
  let rs := modifyAt (fun (r : ReturnRec) => { r with lanes := r.lanes.filter (· != lane) }) i u.returns
  { u with returns := rs.filter (fun r => !r.lanes.isEmpty) }

/-- One lane's claim; it fills at once where its record has arrived. -/
def claimLane (d : Fld) (q n : Nat) (peek : Bool)
    (is : Issue) (_k : Block) (g : Group) (l : Nat) (_t : Thread) (s : State) : State × List Trap :=
  match (s.group? is.blk is.grp).bind (fun k => k.queues[q]?) with
  | none => (s, [])
  | some u =>
    let mine := u.claims.filter (fun c => c.lane == l)
    if 8 ≤ mine.length then (s.blockLanes is.blk is.grp [l] (fun _ => .claim q), [])
    else
      let s1 := issueLoad s is l (g.vi d) n
      let c : Claim := ⟨l, g.vi d, n, peek⟩
      match (if mine.isEmpty then nextRecord u l else none) with
      | some rec =>
        let s2 := fillClaim s1 is.blk is.grp c rec.words
        (if peek then s2 else tookCall (mapQueue s2 is.blk is.grp q (fun v => takeRecord v l)) is.blk g l rec.seen, [])
      | none => (mapQueue s1 is.blk is.grp q (fun u => { u with claims := u.claims ++ [c] }), [])

def execQpop (d : Fld) (q : BitVec 4) (k : BitVec 5) (s : State) : Out :=
  withForm (Form.of [vDst d (k.toNat + 1)]) (eachLane (claimLane d q.toNat (k.toNat + 1) false)) s

def execQpeek (d : Fld) (q : BitVec 4) (k : BitVec 5) (s : State) : Out :=
  withForm (Form.of [vDst d (k.toNat + 1)]) (eachLane (claimLane d q.toNat (k.toNat + 1) true)) s

/-! The state of a queue (R350, R376). -/

/-- Words of the largest return record of an opcode (R350). -/
def largestReturn (type op : Nat) : Nat :=
  match type, op with
  | 0, 0 => 23
  | 0, 1 => 5
  | 1, 0 => 2
  | 2, 0 => 17
  | 3, 0 | 3, 1 => 31
  | 4, 0 => 2
  | 4, 1 | 4, 2 => 3
  | _, _ => 1

def Call.largest (c : Call) : Nat := largestReturn c.unitType (hdrOp (c.words.getD 0 0))

/-- Live calls of a queue. -/
def callsOf (s : State) (b g q : Nat) : List Call := s.calls.filter (fun c => c.blk == b && c.grp == g && c.q == q)

/-- Words of the return buffer held or reserved. -/
def returnsUsed (s : State) (b g q : Nat) (u : Queue) : Nat :=
  (u.returns.map (·.words.length)).sum + (((callsOf s b g q).filter (·.reserved)).map Call.largest).sum

/-- The result of qstat. -/
def qstatWord (s : State) (b g q : Nat) (u : Queue) : Word :=
  putBits (u.binding.elim 7 (·.type)) 31 29 ||| putBits (boolBit u.binding.isSome) 28 28 ||| putBits (boolBit u.draining) 27 27
    ||| putBits u.free 26 20 ||| putBits (returnsUsed s b g q u) 19 12
    ||| putBits (min 4095 (u.calls.length + (callsOf s b g q).length)) 11 0

def execQstat (d : Fld) (q : BitVec 4) (s : State) : Out :=
  withForm (Form.of [uDst d]) (uniBody (fun _ => []) (fun is _ g s =>
    answerU s is g d ((g.queues[q.toNat]?).elim 0 (qstatWord s is.blk is.grp q.toNat)))) s

/-! Hallmarks (R355 to R362, R377, R378). -/

/-- Write one uniform register with its state, and go on. -/
def answerReg (s : State) (is : Issue) (g : Group) (d : Fld) (r : Reg) : State × List Trap :=
  ((s.mapGroup is.blk is.grp (fun h => h.setSregs (g.si d) [r])).advance is.blk is.grp is.act, [])

/-- A new hallmark of a domain (R377). -/
def drawMark (s : State) (part i : Nat) (holder : Word × Nat) (blk : Nat) : State :=
  s.mapSrf part i (fun e => { e with
    next := (e.next + 1) % 2 ^ 20
    marks := e.marks ++ [⟨e.next, .drawn, holder, blk, [], false⟩] })

/-- hmark.get of a domain writes a uniform register by its physical index, or the lanes wait with the register empty: at a full
window, and while the link to the domain stalls (R367, R368, R377). -/
def getMark (s : State) (is : Issue) (k : Block) (i since dst : Nat) : State :=
  let put (s : State) (r : Reg) : State :=
    (s.mapGroup is.blk is.grp (fun h => h.setSregs dst [r])).advance is.blk is.grp is.act
  let e := s.srf k.part i
  if s.linkDown && e.domainStack != k.stack then put s ⟨0xF000_0000, .poisoned⟩
  else if e.kind ≠ 1 then put s poison0
  else if e.marks.length = 65536 ∨ (s.linkStalls ∧ e.domainStack ≠ k.stack) then
    (s.draw.mapGroup is.blk is.grp (fun h => { h with sregs := markEmpty h.sregs dst 1 })).blockLanes is.blk is.grp is.act
      (fun _ => .hmark i since dst)
  else put (drawMark s k.part i (k.job, k.stack) is.blk) (full (BitVec.ofNat 32 (i * 2 ^ 20 + e.next)))

def markWait : Wait → Bool
  | .hmark _ _ _ => true
  | _ => false

/-- The domain, the moment and the destination of a lane's hmark.get that waits. -/
def waitMark (g : Group) (l : Nat) : Nat × Nat × Nat :=
  match (g.thread l).run with
  | .blocked (.hmark e n d) => (e, n, d)
  | _ => (0, 0, 0)

/-- hmark.get (R377, R368). One that waited goes on with the domain it found; where the surface has been freed since, it
gives what an invalid handle does (DESIGN CHOICE, entry 103). -/
def execHmarkGet (d : Fld) (a : Src) (s : State) : Out :=
  withForm (Form.of [uDst d, uSrc 1 a]) (resumeOr markWait
    (uniBody (fun _ => []) (fun is k g s =>
      ((nub (is.act.map (waitMark g))).foldl (fun s w =>
        getMark s { is with act := is.act.filter (fun l => waitMark g l == w) } k w.1 w.2.1 w.2.2) s, [])))
    (uniBody (fun g => [g.sreg a.f]) (fun is k g s =>
      match surface? s k.part (g.sreg a.f).val with
      | none => answerReg s is g d poison0
      | some i => (getMark s is k i s.moves (g.si d), [])))) s

/-- The domain of a hallmark lies across a link that carries nothing (R367, R368). -/
def markFar (s : State) (part stack : Nat) (h : Word) : Bool :=
  s.linkHeld && (s.srf part (markEntry h)).domainStack != stack

/-- The close of a hallmark takes effect; one that is only drawn behaves as voided (R357, R362). -/
def closeMark (s : State) (part : Nat) (h : Word) : State :=
  match s.mark? part h with
  | none => s
  | some m =>
    match m.state with
    | .drawn => voidMark s part h
    | .registering | .registered => settle (s.mapMark part h (fun m => { m with state := .closed })) part (markEntry h)
    | _ => s

/-- Calls that carry the hallmark and that the group pushed before its close have not all reached their units (R362). -/
def closeHeld (s : State) (op : MarkOp) : Bool :=
  (s.group? op.blk op.grp).elim false (fun k => k.queues.any (fun q => q.calls.any (fun c =>
    recMark c.words == some op.mark && decide (c.pushed ≤ op.at_)))) ||
  s.calls.any (fun c => c.blk == op.blk && c.grp == op.grp && c.at_ == .mesh && recMark c.words == some op.mark &&
    decide (c.pushed ≤ op.at_))

/-- An hmark.get of a group that began at a moment still waits. -/
def getWaits (s : State) (b g since : Nat) : Bool :=
  (s.block? b).elim false (fun k => k.phase != .complete && k.phase != .cancelled) &&
  (s.group? b g).elim false (fun x => x.threads.any (fun t => match t.run with
    | .blocked (.hmark _ n _) => n == since
    | _ => false))

/-- Two operations of one group on one domain, whose effects follow the order of their issue (R378). -/
def MarkOp.sameOrder (a b : MarkOp) : Bool :=
  a.part == b.part && markEntry a.mark == markEntry b.mark && a.blk == b.blk && a.grp == b.grp

/-- A void or close can take effect after those that are kept back: the link lets it, what it follows has had its effect,
and the calls before a close have reached their units (R361, R362, R368, R378). -/
def markOpReady (s : State) (kept : List LateOp) (op : MarkOp) : Bool :=
  !markFar s op.part ((s.block? op.blk).elim 0 (·.stack)) op.mark &&
  !kept.any (fun o => match o with
    | .mark p => p.sameOrder op
    | _ => false) &&
  !op.gets.any (getWaits s op.blk op.grp) && !(op.close && closeHeld s op)

def runMarkOp (s : State) (op : MarkOp) : State :=
  if op.close then closeMark s op.part op.mark else voidMark s op.part op.mark

/-- The voids and closes that can now take effect do. -/
def runMarkOps (s : State) : State :=
  let r := s.late.foldl (fun (r : State × List LateOp) o => match o with
    | .mark op => if markOpReady r.1 r.2 op then (runMarkOp r.1 op, r.2) else (r.1, r.2 ++ [o])
    | _ => (r.1, r.2 ++ [o])) (s, [])
  { r.1 with late := r.2 }

/-- hmark.void and hmark.close: at once where nothing keeps them back, or else when it no longer does (R361, R362, R378). -/
def markForm (close : Bool) (a : Src) (s : State) : Out :=
  withForm (Form.of [uSrc 1 a]) (uniBody (fun g => [g.sreg a.f]) (fun is k g s =>
    let h := (g.sreg a.f).val
    let gets := nub (g.threads.filterMap (fun t => match t.run with
      | .blocked (.hmark e n _) => if e = markEntry h then some n else none
      | _ => none))
    let op : MarkOp := ⟨close, k.part, h, is.blk, is.grp, s.moves, gets⟩
    let s1 : State := if markOpReady s s.late op then runMarkOp s op else { s with late := s.late ++ [.mark op], moves := s.moves + 1 }
    (s1.advance is.blk is.grp is.act, []))) s

def execHmarkVoid (a : Src) (s : State) : Out := markForm false a s
def execHmarkClose (a : Src) (s : State) : Out := markForm true a s

/-- CLOSE_EFFECT (R362): what a waiting close, or a void behind it, follows has come. -/
def execCloseEffect (part : Nat) (h : Word) (s : State) : Out :=
  .next (if s.late.any (fun o => match o with
    | .mark op => op.part == part && op.mark == h
    | _ => false) then runMarkOps s else s)

/-! Records (R343, R344, R379, R524). -/

/-- A check of one payload word. -/
abbrev WordOk := Word → Bool

def anyWord : WordOk := fun _ => true
/-- Bits [hi:lo] are reserved. -/
def zeroBits (hi lo : Nat) : WordOk := fun w => bits w hi lo == 0

/-- The surface that a payload word names, where its handle is valid. -/
def namedSurface (s : State) (part : Nat) (h : Word) : Option SrfEntry := (surface? s part h).map (s.srf part)

/-- Reserved bits of a sample mask, for a surface whose handle is valid (R380). -/
def maskOk (e : Option SrfEntry) : WordOk := fun w => e.elim true (fun e => decide (w.toNat < 2 ^ (4 * e.S)))

/-- The state word of a blend call (R399). -/
def blendWordOk : WordOk := fun w =>
  !bit w 16 && bits w 4 0 == 0 && decide (bits w 27 24 ≤ 10) && decide (bits w 23 20 ≤ 10) && decide (bits w 15 12 ≤ 10) &&
    decide (bits w 11 8 ≤ 10) && decide (bits w 19 17 ≤ 4) && decide (bits w 7 5 ≤ 4)

/-- The sampler word of a texture call (R403). -/
def samplerOk : WordOk := fun w =>
  bits w 31 10 == 0 && decide (bits w 8 6 ≤ 3) && decide (bits w 5 3 ≤ 3) && decide (bits w 1 0 ≤ 1)

/-- The payload checks of an opcode, in the order of the words; none where the opcode is reserved. The payload words that
the length depends on are given. -/
def payloadOf (s : State) (part type op : Nat) (p0 : Word) : Option (List WordOk) :=
  let e := namedSurface s part p0
  match type, op with
  | 0, 0 => some ([zeroBits 31 5, fun w => zeroBits 31 28 w && zeroBits 15 11 w, zeroBits 1 0, zeroBits 31 24, anyWord, anyWord]
      ++ List.replicate (bits p0 1 0 + 1) anyWord)
  | 0, 1 => some [zeroBits 5 0, zeroBits 31 24, anyWord, anyWord, anyWord, anyWord, anyWord, anyWord, anyWord, anyWord,
      zeroBits 31 3]
  | 1, 0 => some [anyWord, zeroBits 3 0, zeroBits 31 11, maskOk e, anyWord, zeroBits 31 9, anyWord, anyWord, anyWord]
  | 1, 1 => some ([anyWord, zeroBits 3 0, zeroBits 31 11, maskOk e, blendWordOk] ++ List.replicate 8 anyWord)
  | 1, 2 => some [anyWord, zeroBits 31 11, anyWord, anyWord, anyWord, fun w => e.elim true (fun e => e.p != 4 || w == 0)]
  | 2, 0 => some ([zeroBits 4 0, zeroBits 31 24, samplerOk] ++ List.replicate 9 anyWord)
  | 3, 0 => some [zeroBits 31 6]
  | 3, 1 => some [fun w => zeroBits 31 14 w && zeroBits 7 6 w]
  | 4, 0 => some [anyWord, zeroBits 31 10, zeroBits 7 0, zeroBits 31 24, anyWord]
  | 4, 1 => some [zeroBits 31 6]
  | 4, 2 => some []
  | _, _ => none

/-- The index of the first word that breaks the definition (R379). -/
def malformed (s : State) (part : Nat) (ws : List Word) : Option Nat :=
  let hd := ws.getD 0 0
  let h := boolBit (hdrH hd)
  match payloadOf s part (hdrType hd) (hdrOp hd) (ws.getD (1 + h) 0) with
  | none => some 0
  | some checks =>
    if bits hd 8 0 ≠ 0 ∨ hdrLen hd ≠ ws.length ∨ (hdrH hd ∧ hdrType hd = 0 ∧ hdrOp hd = 1) then some 0
    else
      let pay := ws.drop (1 + h)
      -- the words that both lengths hold, in order
      match (((upto (min pay.length checks.length)).zip (pay.zip checks)).find? (fun p => !(p.2.2 p.2.1))) with
      | some p => some (p.1 + 1 + h)
      | none =>
        if ws.length < 1 + h then some ws.length
        else if pay.length ≠ checks.length then some (1 + h + min pay.length checks.length)
        else none

/-- Word index of payload word k. -/
def payIndex (ws : List Word) (k : Nat) : Nat := k + 1 + boolBit (hdrH (ws.getD 0 0))
def payWord (ws : List Word) (k : Nat) : Word := ws.getD (payIndex ws k) 0

/-- What a call meets at the domain of its hallmark (R362, R524). -/
def markCode (s : State) (part type : Nat) (ws : List Word) : Option (Nat × Nat) :=
  match recMark ws with
  | none => none
  | some h =>
    match s.mark? part h with
    | none => some (0x15, 0)
    | some m =>
      if m.state == .closed || m.state == .voided || m.state == .retired then some (0x14, 0)
      else if type = 0 ∧ (m.state ≠ .drawn ∨ m.draw) then some (0x16, 0)
      else none

/-- The conditions of R524 up to the unit's own checks: code and detail. -/
def earlyCode (s : State) (part : Nat) (b : Option Binding) (ws : List Word) : Option (Nat × Nat) :=
  let hd := ws.getD 0 0
  match b with
  | none => some (0x11, 0)
  | some bd =>
    if bd.type ≠ hdrType hd then some (0x11, 0)
    else
      match malformed s part ws with
      | some i => some (0x10, i)
      | none => markCode s part (hdrType hd) ws

/-! Departure and returns (R349, R350, R358). -/

/-- The instance that serves a call (R342): the one named, or a free choice. -/
def instanceFor (s : State) (part stack cluster : Nat) (bd : Binding) : Nat :=
  if bd.inst ≠ 255 then bd.inst
  else
    let c := Config.unitChoice s.moves
    match bd.type with
    | 0 => c % 16
    | 2 => cluster
    | 3 => c % 8
    | 4 =>
      let l := (s.partOn part stack).params.encSlots
      l.getD (c % max 1 l.length) 0
    | _ => 0

/-- Every earlier hallmark of a domain is registered, closed or voided, and has no walk to end (R358). -/
def nextToRegister (s : State) (part : Nat) (h : Word) : Bool :=
  ((s.srf part (markEntry h)).marks.takeWhile (fun m => m.seq != markSeq h)).all (fun m =>
    (match m.state with
      | .drawn | .registering => false
      | _ => true) &&
    !s.calls.any (fun c => c.part == part && c.unitType == 0 && c.at_ == .unit &&
      recMark c.words == some (BitVec.ofNat 32 (markEntry h * 2 ^ 20 + m.seq))))

/-- Draws in the reorder window of a visibility unit. -/
def windowLoad (s : State) (stack inst : Nat) : Nat :=
  (s.calls.filter (fun c => c.stack == stack && c.unitType == 0 && c.inst == inst && c.at_ == .window)).length

/-- A draw with a hallmark finds an entry of the window: the last one is kept for the next to register. -/
def windowRoom (s : State) (part stack inst : Nat) (h : Word) : Bool :=
  decide (windowLoad s stack inst < 63) || (nextToRegister s part h && decide (windowLoad s stack inst < 64))

def mapCall (s : State) (id : Nat) (f : Call → Call) : State :=
  { s with calls := s.calls.map (fun c => if c.id == id then f c else c) }

/-- The domain of a call's hallmark looks again at what can retire. -/
def settleCall (s : State) (c : Call) : State :=
  match recMark c.words with
  | some h => settle s c.part (markEntry h)
  | none => s

/-- What a call's accesses have done happens before the calls that its hallmark orders after it (R364). -/
def markGives (s : State) (c : Call) : State :=
  match recMark c.words with
  | some h => s.mapOrder (fun o => o.putChan (.mark c.part (s.srf c.part (markEntry h)).gen h) (o.covers (.unit c.id) (s.moves + 1)))
  | none => s

/-- A call performed under R360 follows every access of the calls whose hallmarks of its domain have retired (R364). -/
def markTakes (s : State) (c : Call) : State :=
  match recMark c.words with
  | some h => s.orders (.unit c.id) (nub (s.order.chans.flatMap (fun x => match x.1 with
      | .mark p n g => if p == c.part && n == (s.srf p (markEntry h)).gen && markEntry g == markEntry h && g != h && (s.mark? p g).elim true (fun m => m.state == .retired)
          then x.2 else []
      | _ => [])))
  | none => s

/-- A unit has performed a call: its return records follow. -/
def performed (s : State) (c : Call) (recs : List (List Word)) : State :=
  settleCall (mapCall (markGives s c) c.id (fun c => { c with at_ := .performed, out := recs })) c

/-- A unit answers a call with a code and a detail. -/
def answered (s : State) (c : Call) (code detail : Nat) : State :=
  performed s c [answerWords c.unitType c.words code detail]

/-- A single return record of code 0x00 with payload words. -/
def doneRecord (c : Call) (detail : Nat) (ws : List Word) : List Word :=
  statusWord 0 (hdrTag (c.words.getD 0 0)) detail c.unitType (ws.length + 1) true :: ws

/-- RETURN_ARRIVAL (R350): the next return record of a call is sent, where the return buffer has room for it. -/
def execReturnArrival (call : Nat) (s : State) : Out :=
  match s.calls.find? (fun c => c.id == call) with
  | none => .next s
  | some c =>
    match c.out with
    | [] => .next s
    | r :: rest =>
      let u := (s.group? c.blk c.grp).bind (fun g => g.queues[c.q]?)
      let used := u.elim 0 (returnsUsed s c.blk c.grp c.q)
      if !c.reserved ∧ 128 < used + r.length then .next s
      else if rest.isEmpty then
        .next (settleCall (deliver { s with calls := s.calls.filter (fun d => d.id != call) } c.blk c.grp c.q c.lane r
          (s.callSeen call)) c)
      else .next (deliver (mapCall s call (fun c => { c with out := rest, reserved := false })) c.blk c.grp c.q c.lane r
        (s.callSeen call))

/-- Every hallmark of the domain before a call's own has retired (R360); a call without a hallmark does not wait. -/
def turnCome (s : State) (c : Call) : Bool :=
  match recMark c.words with
  | none => true
  | some h => (s.srf c.part (markEntry h)).floor == markSeq h

end Sys2Proof.Machine
end

