-- ==== Sys2Proof/Machine/Visibility.lean ====
section
/-!
DEFINITION. The visibility unit: draws (R380 to R388) and ray queries (R389 to R394), in exact arithmetic.
-/

namespace Sys2Proof.Machine

/-! Memory as a unit reaches it (R354, R368, R379). -/

/-- What a unit's work meets: a result, pages to wait for, or a code with its detail. -/
inductive UnitRes (α : Type) where
  | ok (a : α)
  | wait (pages : List Addr)
  | code (n detail : Nat)
  deriving DecidableEq, Repr, Inhabited

def UnitRes.bind {α β : Type} (x : UnitRes α) (f : α → UnitRes β) : UnitRes β :=
  match x with
  | .ok a => f a
  | .wait p => .wait p
  | .code n d => .code n d

/-- The pieces of a unit's access: by the partition's tables, without privilege. -/
def unitPieces (s : State) (c : Call) (use : Use) (va : Addr) (n : Nat) : UnitRes (List Piece) :=
  let ps := (partsOf va n).map (fun p => (p.1, p.2, outcome (walk s c.stack c.part p.1) p.1 use false))
  if (badCause ps).isSome then .code 0x21 0
  else if !(pagesOf ps).isEmpty then .wait (pagesOf ps)
  else if (piecesOf ps).any (fun p => s.unreachablePA p.addr c.stack) then .code 0x30 0
  else if peerWaits s c.stack (piecesOf ps) then .wait []
  else .ok (piecesOf ps)

/-- An access of a call at this moment: each call is a party (R364). -/
def Call.who (c : Call) (s : State) : Who := Who.of (.unit c.id) s.moves

def unitRead (s : State) (c : Call) (va : Addr) (n : Nat) : State × UnitRes (List Byte) :=
  let s1 := meetWalk s c.stack c.part va
  match unitPieces s c .load va n with
  | .wait p => (s1, .wait p)
  | .code k d => (s1, .code k d)
  | .ok ps =>
    let r := readBytes s1 c.stack (c.who s1) .each ps
    (r.1, match r.2 with
      | some bs => .ok bs
      | none => .code 0x22 0)

/-- The call waits for pages, which count once in the block that pushed it (R354). -/
def unitWaits (s : State) (c : Call) (pages : List Addr) : State := countPages s c.blk pages

/-! Exact numbers. -/

/-- The exact value of an f32 word; none where it is not finite. -/
def ratOf (w : Word) : Option ℚ :=
  match decodeF .f32 w.toNat with
  | .fin neg m e =>
    let x : ℚ := if 0 ≤ e then (m : ℚ) * 2 ^ e.toNat else (m : ℚ) / 2 ^ (-e).toNat
    some (if neg then -x else x)
  | _ => none

/-- Round an exact value once to nearest even in f32. -/
def ratRound (q : ℚ) : Word :=
  let n := q.num.natAbs * 2 ^ 300
  BitVec.ofNat 32 (deliverF .f32 false false .ne (n % q.den != 0) (.fin (decide (q < 0)) (n / q.den) (-300))).1

/-- Sample offsets in sixteenths of a pixel (R380). -/
def sampleOffsets (S : Nat) : List (Nat × Nat) :=
  match S with
  | 1 => [(8, 8)]
  | 2 => [(4, 4), (12, 12)]
  | 4 => [(6, 2), (14, 6), (2, 10), (10, 14)]
  | _ => [(9, 5), (7, 11), (13, 9), (5, 3), (3, 13), (1, 7), (11, 15), (15, 1)]

/-! Draws (R381 to R387). -/

/-- A vertex: x, y and q as stored. -/
structure Vertex where
  x : Word
  y : Word
  q : Word
  deriving DecidableEq, Repr, Inhabited

/-- Fields of a draw call (R381). -/
structure DrawCall where
  persp : Bool
  cullFront : Bool
  cullBack : Bool
  count : Nat
  layer : Nat
  vaddr : Addr
  x0 : Nat
  y0 : Nat
  x1 : Nat
  y1 : Nat
  targets : List Word
  deriving DecidableEq, Repr, Inhabited

def drawOf (ws : List Word) : DrawCall :=
  let p := payWord ws
  ⟨bit (p 0) 4, bit (p 0) 3, bit (p 0) 2, bits (p 1) 27 16 + 1, bits (p 1) 10 0, (p 3 ++ p 2).setWidth 56,
    bits (p 4) 15 0, bits (p 4) 31 16, bits (p 5) 15 0, bits (p 5) 31 16,
    (upto (bits (p 0) 1 0 + 1)).map (fun i => p (6 + i))⟩

/-- The checks of R382: the entries of the targets, or a code with the word that fails. -/
def drawCheck (s : State) (c : Call) : UnitRes (List Nat) :=
  let d := drawOf c.words
  let es := d.targets.map (surface? s c.part)
  match (indexes Option.isNone es).head? with
  | some i => .code 0x12 (payIndex c.words (6 + i))
  | none =>
    let ids := es.filterMap id
    let shape (i : Nat) : Nat × Nat × Nat × Nat × Nat × Nat :=
      let e := s.srf c.part i
      (e.width, e.height, e.layers, e.tile, e.samples, e.home)
    let first := ids.headD 0
    let bad := (match recMark c.words with
        | some h => if ids.contains (markEntry h) then [] else [1]
        | none => []) ++
      (if (s.srf c.part first).layers ≤ d.layer then [payIndex c.words 1] else []) ++
      ((indexes (fun i => shape i != shape first) ids).map (fun i => payIndex c.words (6 + i)))
    match bad with
    | w :: _ => .code 0x23 w
    | [] => .ok ids

/-- An exact point. -/
abbrev Pt := ℚ × ℚ

/-- Twice the signed area of a, b, p. -/
def edgeFn (a b p : Pt) : ℚ := (b.1 - a.1) * (p.2 - a.2) - (b.2 - a.2) * (p.1 - a.1)

/-- With the interior where the edge function is positive, the edge from a to b is a top or a left edge (R383). -/
def topLeft (a b : Pt) : Bool := if a.2 = b.2 then decide (a.1 < b.1) else decide (b.2 < a.2)

/-- A point is covered by an edge's side. -/
def sideCovers (a b p : Pt) : Bool :=
  let e := edgeFn a b p
  decide (0 < e) || (decide (e = 0) && topLeft a b)

/-- Coverage of a point by a triangle of positive area (R383). -/
def covers (a b c p : Pt) : Bool := sideCovers a b p && sideCovers b c p && sideCovers c a p

/-- A triangle of a draw with finite coordinates. -/
structure Tri where
  v : List Pt
  q : List ℚ
  area : ℚ
  deriving DecidableEq

/-- The triangle of three vertices, or none where it is invalid (R384). -/
def triOf (persp : Bool) (vs : List Vertex) : Option Tri :=
  let xs := vs.map (fun v => ratOf v.x)
  let ys := vs.map (fun v => ratOf v.y)
  let qs := vs.map (fun v => ratOf v.q)
  let inRange (o : Option ℚ) : Bool := o.elim false (fun x => decide (-(2 ^ 24) ≤ x) && decide (x ≤ 2 ^ 24))
  let positive (o : Option ℚ) : Bool := o.elim false (fun x => decide (0 < x))
  if !(xs ++ ys).all inRange || (persp && !qs.all positive) then none
  else
    let pts := (xs.zip ys).map (fun p => (p.1.getD 0, p.2.getD 0))
    some ⟨pts, qs.map (fun o => o.getD 0), edgeFn (pts.getD 0 (0, 0)) (pts.getD 1 (0, 0)) (pts.getD 2 (0, 0))⟩

def Tri.pt (t : Tri) (i : Nat) : Pt := t.v.getD i (0, 0)

/-- The triangle covers a point. -/
def Tri.covers (t : Tri) (p : Pt) : Bool :=
  if 0 < t.area then Machine.covers (t.pt 0) (t.pt 1) (t.pt 2) p else Machine.covers (t.pt 0) (t.pt 2) (t.pt 1) p

/-- b1 and b2 at a point (R385). -/
def Tri.bary (t : Tri) (persp : Bool) (p : Pt) : List Word :=
  let l1 := edgeFn (t.pt 2) (t.pt 0) p / t.area
  let l2 := edgeFn (t.pt 0) (t.pt 1) p / t.area
  if !persp then [ratRound l1, ratRound l2]
  else
    let q (i : Nat) : ℚ := t.q.getD i 0
    let den := (1 - l1 - l2) * q 0 + l1 * q 1 + l2 * q 2
    if den = 0 then [0x7FC0_0000, 0x7FC0_0000] else [ratRound (l1 * q 1 / den), ratRound (l2 * q 2 / den)]

/-- A quad of a draw: its words, and its tile. -/
structure Quad where
  words : List Word
  tile : Nat
  deriving DecidableEq, Repr, Inhabited

/-- The sample mask of a quad (R380, R383). -/
def quadMask (e : SrfEntry) (d : DrawCall) (t : Tri) (qx qy : Nat) : Word :=
  let offs := sampleOffsets e.S
  ((upto 4).flatMap (fun p => (upto e.S).map (fun i => (p, i)))).foldl (fun (m : Word) q =>
    let x := 2 * qx + q.1 % 2
    let y := 2 * qy + q.1 / 2
    let o := offs.getD q.2 (8, 8)
    let pt : Pt := ((x : ℚ) + (o.1 : ℚ) / 16, (y : ℚ) + (o.2 : ℚ) / 16)
    if x < e.width ∧ y < e.height ∧ d.x0 ≤ x ∧ x < d.x1 ∧ d.y0 ≤ y ∧ y < d.y1 ∧ t.covers pt
    then m ||| ((1 : Word) <<< (q.1 * e.S + q.2)) else m) 0

/-- Tile of a pixel of a layer (R317). -/
def SrfEntry.tileAt (e : SrfEntry) (layer x y : Nat) : Nat := (layer * e.ty + y / e.edge) * e.tx + x / e.edge

/-- Quads of one triangle, in ascending (qy, qx) (R387). -/
def triQuads (e : SrfEntry) (d : DrawCall) (t : Tri) (index : Nat) : List Quad :=
  let xs := t.v.map (·.1)
  let ys := t.v.map (·.2)
  let lo (l : List ℚ) : Nat := (⌊l.foldl min (l.headD 0)⌋).toNat
  let hi (l : List ℚ) : Nat := (⌊l.foldl max (l.headD 0)⌋ + 1).toNat
  let ax := max d.x0 (lo xs)
  let ay := max d.y0 (lo ys)
  let bx := min (min d.x1 e.width) (hi xs)
  let bY := min (min d.y1 e.height) (hi ys)
  let nx := (bx + 1) / 2 - ax / 2
  let ny := (bY + 1) / 2 - ay / 2
  (upto ny).flatMap (fun j => (upto nx).filterMap (fun i =>
    let qx := ax / 2 + i
    let qy := ay / 2 + j
    let m := quadMask e d t qx qy
    if m = 0 then none
    else
      let bs := (upto 4).flatMap (fun p =>
        t.bary d.persp (((2 * qx + p % 2 : Nat) : ℚ) + 1 / 2, ((2 * qy + p / 2 : Nat) : ℚ) + 1 / 2))
      some ⟨[putBits qy 31 18 ||| putBits qx 17 4, m, BitVec.ofNat 32 index] ++ bs, e.tileAt d.layer (2 * qx) (2 * qy)⟩))

/-- What a walk has found: quads, culled and skipped triangles. -/
structure Walked where
  quads : List Quad
  culled : Nat
  skipped : Nat
  deriving DecidableEq, Repr, Inhabited

/-- One triangle of a walk (R384, R387). -/
def walkTri (e : SrfEntry) (d : DrawCall) (i : Nat) (vs : List Vertex) (w : Walked) : Walked :=
  match triOf d.persp vs with
  | none => { w with skipped := w.skipped + 1 }
  | some t =>
    if t.area = 0 ∨ (d.cullFront ∧ 0 < t.area) ∨ (d.cullBack ∧ t.area < 0) then { w with culled := w.culled + 1 }
    else { w with quads := w.quads ++ triQuads e d t i }

def vertexOf (bs : List Byte) : Vertex :=
  let ws := wordsOfBytes bs 3
  ⟨ws.getD 0 0, ws.getD 1 0, ws.getD 2 0⟩

/-- Triangles from i on, up to the first that cannot be read. -/
def walkFromTri (c : Call) (e : SrfEntry) (d : DrawCall) (i : Nat) (w : Walked) (s : State) :
    Nat → State × Walked × UnitRes Unit
  | 0 => (s, w, .ok ())
  | n + 1 =>
    let r := unitRead s c (d.vaddr + BitVec.ofNat 56 (36 * i)) 36
    match r.2 with
    | .ok bs => walkFromTri c e d (i + 1)
        (walkTri e d i [vertexOf bs, vertexOf (bs.drop 12), vertexOf (bs.drop 24)] w) r.1 n
    | .wait p => (r.1, w, .wait p)
    | .code k x => (r.1, w, .code k x)

/-- Quad records of a draw: one or two quads in each, as a free choice says (R387). -/
def quadRecords (tag moves : Nat) : List Quad → List (List Word)
  | [] => []
  | [q] => [statusWord 3 tag 1 0 12 false :: q.words]
  | q :: r :: rest =>
    if Config.twoQuads moves then (statusWord 3 tag 2 0 23 false :: (q.words ++ r.words)) :: quadRecords tag (moves + 1) rest
    else (statusWord 3 tag 1 0 12 false :: q.words) :: quadRecords tag (moves + 1) (r :: rest)

/-- Banks of the tiles of quads, for every target (R386). -/
def quadBanks (s : State) (part : Nat) (ids : List Nat) (qs : List Quad) : List (Nat × Nat) :=
  nub (ids.flatMap (fun i => (nub (qs.map (·.tile))).map (fun t => tileBank s part (s.srf part i) t)))

/-- A draw ends its walk: its returns follow, and its hallmark is registered where the intents stand (R357, R358). -/
def drawDone (s : State) (c : Call) (recs : List (List Word)) (banks : List (Nat × Nat)) : State :=
  let s1 := mapCall (markGives s c) c.id (fun c => { c with at_ := .walked, out := recs })
  match recMark c.words with
  | none => s1
  | some h => s1.mapMark c.part h (fun m => { m with
      intents := nub (m.intents ++ banks)
      state := if m.state = .registering then .registered else m.state })

/-- The walk of an accepted draw (R382 to R388). One with quads of the peer waits while the link stalls. While the link is
failed, and where it has failed since the draw was accepted, the peer's part counts as complete, its quads are not returned,
and the final record carries code 0x30. -/
def walkDraw (s : State) (c : Call) : State :=
  let d := drawOf c.words
  let tag := hdrTag (c.words.getD 0 0)
  match drawCheck s c with
  | .wait _ => s
  | .code n x => drawDone s c [answerWords 0 c.words n x] []
  | .ok ids =>
    let e := s.srf c.part (ids.headD 0)
    let r := walkFromTri c e d 0 ⟨[], 0, 0⟩ s d.count
    match r.2.2 with
    | .wait p => unitWaits r.1 c p
    | res =>
      let lost := c.cut || (s.linkDown && (e.home == 2 || e.home != c.stack))
      if s.linkStalls && r.2.1.quads.any (fun q => e.owner q.tile != c.stack) then s
      else
      let qs := if lost then r.2.1.quads.filter (fun q => e.owner q.tile == c.stack) else r.2.1.quads
      let final := match res with
        | .code n x => answerWords 0 c.words n x
        | _ =>
          if lost then answerWords 0 c.words 0x30 0
          else doneRecord c 0 [BitVec.ofNat 32 qs.length, putBits r.2.1.skipped 31 16 ||| putBits r.2.1.culled 15 0]
      drawDone r.1.draw c (quadRecords tag s.moves qs ++ [final]) (quadBanks s c.part ids qs)

def isDraw (c : Call) : Bool := c.unitType == 0 && hdrOp (c.words.getD 0 0) == 0

/-- The quads of a record that lie in tiles of the receiving stack (R388). -/
def ownQuads (e : SrfEntry) (layer stack : Nat) (r : List Word) : List (List Word) :=
  ((upto (bits (r.getD 0 0) 15 8)).map (fun i => (r.drop (1 + 11 * i)).take 11)).filter (fun q =>
    e.owner (e.tileAt layer (2 * bits (q.getD 0 0) 17 4) (2 * bits (q.getD 0 0) 31 18)) == stack)

/-- The records of a draw that are still to be sent when its targets become degraded: the peer's quads are not returned,
and the final record carries code 0x30 (R388). -/
def cutDraw (s : State) (c : Call) : Call :=
  let d := drawOf c.words
  match drawCheck s c with
  | .ok (i :: _) =>
    let e := s.srf c.part i
    if isDraw c && c.at_ == .unit && (e.home == 2 || e.home != c.stack) then { c with cut := true }
    else if isDraw c && c.at_ == .walked && (e.home == 2 || e.home != c.stack) then
      { c with out := c.out.flatMap (fun r =>
          let st := r.getD 0 0
          if bits st 29 24 = 3 then
            let qs := ownQuads e d.layer c.stack r
            if qs.isEmpty then [] else [statusWord 3 (bits st 23 16) qs.length 0 (1 + 11 * qs.length) false :: qs.flatten]
          else if bits st 29 24 = 0 then [answerWords 0 c.words 0x30 0] else [r]) }
    else c
  | _ => c

/-- DRAW_ACCEPT (R358, R386): a draw with a hallmark leaves the reorder window, and its walk begins; a draw without one
is walked. -/
def execDrawAccept (call : Nat) (s : State) : Out :=
  match s.calls.find? (fun c => c.id == call) with
  | none => .next s
  | some c =>
    match recMark c.words with
    | none => .next (if isDraw c && c.at_ == .unit then walkDraw s c else s)
    | some h =>
      if c.at_ == .window && nextToRegister s c.part h then
        .next ((mapCall s call (fun c => { c with at_ := .unit })).mapMark c.part h (fun m => { m with state := .registering }))
      else .next s

/-- REGISTRATION_COMPLETE (R357): the draw of a hallmark is walked. -/
def execRegistrationComplete (part : Nat) (h : Word) (s : State) : Out :=
  match s.calls.find? (fun c => c.part == part && isDraw c && c.at_ == .unit && recMark c.words == some h) with
  | none => .next s
  | some c => .next (walkDraw s c)

/-! Ray queries (R389 to R393). -/

abbrev V3 := ℚ × ℚ × ℚ

def V3.sub (a b : V3) : V3 := (a.1 - b.1, a.2.1 - b.2.1, a.2.2 - b.2.2)
def V3.dot (a b : V3) : ℚ := a.1 * b.1 + a.2.1 * b.2.1 + a.2.2 * b.2.2
def V3.cross (a b : V3) : V3 :=
  (a.2.1 * b.2.2 - a.2.2 * b.2.1, a.2.2 * b.1 - a.1 * b.2.2, a.1 * b.2.1 - a.2.1 * b.1)
def V3.at (o d : V3) (t : ℚ) : V3 := (o.1 + t * d.1, o.2.1 + t * d.2.1, o.2.2 + t * d.2.2)

/-- A vector of three f32 words; none where a component is not finite. -/
def v3Of (ws : List Word) : Option V3 :=
  match ratOf (ws.getD 0 0), ratOf (ws.getD 1 0), ratOf (ws.getD 2 0) with
  | some x, some y, some z => some (x, y, z)
  | _, _, _ => none

structure Ray where
  o : V3
  d : V3
  tmin : ℚ
  tmax : ℚ
  cullFront : Bool
  cullBack : Bool
  anyHit : Bool
  deriving DecidableEq

/-- The ray of a query; none for the inputs that miss (R392). -/
def rayOf (ws : List Word) : Option Ray :=
  let p := payWord ws
  match v3Of [p 2, p 3, p 4], v3Of [p 6, p 7, p 8], ratOf (p 5), ratOf (p 9) with
  | some o, some d, some a, some b =>
    if d = (0, 0, 0) ∨ b < a then none else some ⟨o, d, a, b, bit (p 10) 2, bit (p 10) 1, bit (p 10) 0⟩
  | _, _, _, _ => none

/-- A hit: the parameter, the barycentrics, the identifier and the address of its triangle, and its face. -/
structure Hit where
  t : ℚ
  b1 : ℚ
  b2 : ℚ
  prim : Nat
  addr : Nat
  front : Bool
  deriving DecidableEq

/-- The range of t in which one coordinate lies between two bounds, from a range; an infinite bound on its own side
does not limit. -/
def axisRange (o d : ℚ) (lo hi : Word) (r : Option (ℚ × ℚ)) : Option (ℚ × ℚ) :=
  let bound (w : Word) (low : Bool) : Option (Option ℚ) :=
    match decodeF .f32 w.toNat with
    | .nan => none
    | .inf neg => if neg = low then some none else none
    | _ => some (ratOf w)
  match r, bound lo true, bound hi false with
  | some (a, b), some l, some h =>
    if d = 0 then
      if l.elim true (fun x => decide (x ≤ o)) && h.elim true (fun x => decide (o ≤ x)) then some (a, b) else none
    else
      let e := l.map (fun x => (x - o) / d)
      let x := h.map (fun y => (y - o) / d)
      let en := if 0 < d then e else x
      let ex := if 0 < d then x else e
      let a1 := en.elim a (max a)
      let b1 := ex.elim b (min b)
      if b1 < a1 then none else some (a1, b1)
  | _, _, _ => none

/-- A box of six words is hit within [tmin, tbest] (R390, R392); one with a minimum above its maximum never is. -/
def boxHit (r : Ray) (tbest : ℚ) (ws : List Word) : Bool :=
  let w (i : Nat) : Word := ws.getD i 0
  let above (i : Nat) : Bool := cmpF (decodeF .f32 (w i).toNat) (decodeF .f32 (w (i + 3)).toNat) == some .gt
  !(above 0 || above 1 || above 2) &&
    (axisRange r.o.2.2 r.d.2.2 (w 2) (w 5) (axisRange r.o.2.1 r.d.2.1 (w 1) (w 4)
      (axisRange r.o.1 r.d.1 (w 0) (w 3) (some (r.tmin, tbest))))).isSome

/-- The hit of a triangle record (R391, R392). -/
def triHit (r : Ray) (tbest : ℚ) (ws : List Word) (addr : Nat) : Option Hit :=
  match v3Of ws, v3Of (ws.drop 3), v3Of (ws.drop 6) with
  | some v0, some v1, some v2 =>
    let e1 := v1.sub v0
    let e2 := v2.sub v0
    let n := V3.cross e1 e2
    let dn := V3.dot r.d n
    if n = (0, 0, 0) ∨ dn = 0 then none
    else
      let t := V3.dot (v0.sub r.o) n / dn
      let w := (V3.at r.o r.d t).sub v0
      let nn := V3.dot n n
      let b1 := V3.dot (V3.cross w e2) n / nn
      let b2 := V3.dot (V3.cross e1 w) n / nn
      let front := decide (dn < 0)
      let noCull := (ws.getD 10 0).getLsbD 0
      let culled := !noCull && (if front then r.cullFront else r.cullBack)
      if r.tmin ≤ t ∧ t ≤ tbest ∧ 0 ≤ b1 ∧ 0 ≤ b2 ∧ b1 + b2 ≤ 1 ∧ ¬ culled then
        some ⟨t, b1, b2, (ws.getD 9 0).toNat, addr, front⟩
      else none
  | _, _, _ => none

/-- The closer of two hits; a tie goes to the lower identifier, and then to the lower address (R392). -/
def closer (best : Option Hit) (h : Hit) : Hit :=
  match best with
  | none => h
  | some b =>
    if h.t < b.t ∨ (h.t = b.t ∧ (h.prim < b.prim ∨ (h.prim = b.prim ∧ h.addr < b.addr))) then h else b

/-- A child reference (R390). -/
structure Ref where
  kind : Nat
  count : Nat
  addr : Nat
  deriving DecidableEq, Repr, Inhabited

/-- A reference, or none where R394 makes it a fault. -/
def refOf (n : Nat) : Option Ref :=
  let kind := n / 2 ^ 62
  let count := n / 2 ^ 58 % 16
  let addr := n % 2 ^ 56
  if kind = 3 ∨ n / 2 ^ 56 % 4 ≠ 0 ∨ (kind ≠ 2 ∧ count ≠ 0) ∨ (kind = 1 ∧ addr % 64 ≠ 0) ∨ (kind = 2 ∧ addr % 16 ≠ 0)
  then none else some ⟨kind, count + 1, addr⟩

/-- The triangles of a leaf. -/
def leafHits (r : Ray) (c : Call) (addr : Nat) (best : Option Hit) (s : State) : Nat → State × UnitRes (Option Hit)
  | 0 => (s, .ok best)
  | n + 1 =>
    if r.anyHit && best.isSome then (s, .ok best)
    else
      let q := unitRead s c (BitVec.ofNat 56 addr) 48
      match q.2 with
      | .wait p => (q.1, .wait p)
      | .code k d => (q.1, .code k d)
      | .ok bs =>
        let ws := wordsOfBytes bs 12
        if bits (ws.getD 10 0) 31 1 ≠ 0 ∨ ws.getD 11 0 ≠ 0 then (q.1, .code 0x26 1)
        else
          let b := match triHit r (best.elim r.tmax (·.t)) ws addr with
            | some h => some (closer best h)
            | none => best
          leafHits r c (addr + 48) b q.1 n

/-- One child of a pair: node pairs to visit, and the best hit. -/
def visitChild (r : Ray) (c : Call) (box : List Word) (ref : Ref) (best : Option Hit) (s : State) :
    State × UnitRes (List Nat × Option Hit) :=
  if ref.kind = 0 ∨ !boxHit r (best.elim r.tmax (·.t)) box then (s, .ok ([], best))
  else if ref.kind = 1 then (s, .ok ([ref.addr], best))
  else
    let q := leafHits r c ref.addr best s ref.count
    (q.1, q.2.bind (fun b => .ok ([], b)))

/-- Fetch node pairs together: their boxes, each with its reference. -/
def fetchPairs (c : Call) (s : State) : List Nat → State × UnitRes (List (List (List Word × Ref)))
  | [] => (s, .ok [])
  | a :: as =>
    let q := unitRead s c (BitVec.ofNat 56 a) 64
    match q.2 with
    | .wait p => (q.1, .wait p)
    | .code k d => (q.1, .code k d)
    | .ok bs =>
      let ws := wordsOfBytes bs 16
      match refOf (leNat ((bs.drop 48).take 8)), refOf (leNat (bs.drop 56)) with
      | some ra, some rb =>
        let r := fetchPairs c q.1 as
        (r.1, r.2.bind (fun l => .ok ([(ws, ra), (ws.drop 6, rb)] :: l)))
      | _, _ => (q.1, .code 0x26 0)

/-- Test the children of a pair in order: its hit internal children, and the best hit. -/
def visitPair (r : Ray) (c : Call) (s : State) (best : Option Hit) :
    List (List Word × Ref) → State × UnitRes (List Nat × Option Hit)
  | [] => (s, .ok ([], best))
  | x :: xs =>
    let q := visitChild r c x.1 x.2 best s
    match q.2 with
    | .wait p => (q.1, .wait p)
    | .code k d => (q.1, .code k d)
    | .ok (l, b) =>
      let t := visitPair r c q.1 b xs
      (t.1, t.2.bind (fun y => .ok (l ++ y.1, y.2)))

/-- Test the pairs of a step, up to four boxes: for each pair, the pairs that are fetched together next. -/
def visitPairs (r : Ray) (c : Call) (s : State) (best : Option Hit) :
    List (List (List Word × Ref)) → State × UnitRes (List (List Nat) × Option Hit)
  | [] => (s, .ok ([], best))
  | p :: ps =>
    let q := visitPair r c s best (if Config.freeBit (s.moves + ps.length) then p else p.reverse)
    match q.2 with
    | .wait w => (q.1, .wait w)
    | .code k d => (q.1, .code k d)
    | .ok (l, b) =>
      let t := visitPairs r c q.1 b ps
      (t.1, t.2.bind (fun y => .ok (if l.isEmpty then y.1 else l :: y.1, y.2)))

/-- The steps of a query (R392): each takes pending pairs that are fetched together, the children of one pair. done is the
number of pairs fetched so far; the order of the visits is free. -/
def rayLoop (r : Ray) (c : Call) (done : Nat) (pending : List (List Nat)) (best : Option Hit) (s : State) :
    Nat → State × UnitRes (Option Hit)
  | 0 => (s, .code 0x25 0)
  | fuel + 1 =>
    match pending with
    | [] => (s, .ok best)
    | g :: rest =>
      if r.anyHit && best.isSome then (s, .ok best)
      else if 65536 < done + g.length then (s, .code 0x25 0)
      else
        let q := fetchPairs c s g
        match q.2 with
        | .wait p => (q.1, .wait p)
        | .code k d => (q.1, .code k d)
        | .ok ps =>
          let x := visitPairs r c q.1 best (if Config.freeBit (q.1.moves + fuel) then ps else ps.reverse)
          match x.2 with
          | .wait p => (x.1, .wait p)
          | .code k d => (x.1, .code k d)
          | .ok (next, b) =>
            let all := next ++ rest
            if 64 < (all.map List.length).sum then (x.1, .code 0x24 0)
            else rayLoop r c (done + g.length) all b x.1 fuel

/-- The record of a ray query (R393). -/
def rayRecord (c : Call) : Option Hit → List Word
  | none => doneRecord c 0 [0, 0, 0, 0]
  | some h => doneRecord c (if h.front then 3 else 1) [ratRound h.t, ratRound h.b1, ratRound h.b2, BitVec.ofNat 32 h.prim]

/-- RAY_QUERY (R389 to R394). -/
def execRayQuery (call : Nat) (s : State) : Out :=
  match s.calls.find? (fun c => c.id == call) with
  | none => .next s
  | some c =>
    if c.unitType = 0 ∧ hdrOp (c.words.getD 0 0) = 1 ∧ c.at_ = .unit then
      match rayOf c.words with
      | none => .next (performed s c [rayRecord c none])
      | some r =>
        let root := ((payWord c.words 1 ++ payWord c.words 0).setWidth 56 : Addr)
        let q := rayLoop r c 0 [[root.toNat]] none s 65537
        match q.2 with
        | .wait p => .next (unitWaits q.1 c p)
        | .code n d => .next (answered q.1.draw c n d)
        | .ok b => .next (performed q.1.draw c [rayRecord c b])
    else .next s

end Sys2Proof.Machine
end

