-- ==== Sys2Proof/Machine/Banks.lean ====
section
/-!
DEFINITION. The bank operator: order at a bank (R359), and depth, blend and clear calls (R395 to R401), each performed in
one step.
-/

namespace Sys2Proof.Machine

/-! Targets and order (R342, R359, R395). -/

/-- The entry, tile and layer words of a bank call; the quad word or the start of the rectangle is payload word k. -/
def tileCheck (s : State) (c : Call) (layerWord k : Nat) (inside : SrfEntry → Bool) (x y : Nat) : UnitRes (Nat × Nat) :=
  match surface? s c.part (payWord c.words 0) with
  | none => .code 0x12 (payIndex c.words 0)
  | some i =>
    let e := s.srf c.part i
    let layer := bits (payWord c.words layerWord) 10 0
    if e.layers ≤ layer then .code 0x24 (payIndex c.words layerWord)
    else if !inside e then .code 0x24 (payIndex c.words k)
    else .ok (i, e.tileAt layer x y)

/-- The checks of a quad call: its handle, layer and quad word, and then its own check on the surface (R524). -/
def quadCheck (s : State) (c : Call) (own : SrfEntry → Option Nat) : UnitRes (Nat × Nat) :=
  let qw := payWord c.words 1
  let x := 2 * bits qw 17 4
  let y := 2 * bits qw 31 18
  (tileCheck s c 2 1 (fun e => decide (x < e.width) && decide (y < e.height)) x y).bind (fun r =>
    match own (s.srf c.part r.1) with
    | some k => .code 0x23 (payIndex c.words k)
    | none => .ok r)

/-- R396: a depth format, and no stencil on d32f. -/
def depthCheck (s : State) (c : Call) : UnitRes (Nat × Nat) :=
  quadCheck s c (fun e =>
    if e.fmt ≠ 7 ∧ e.fmt ≠ 8 then some 0
    else if e.fmt = 7 ∧ bit (payWord c.words 4) 4 then some 4
    else none)

/-- R399: a colour format. -/
def blendCheck (s : State) (c : Call) : UnitRes (Nat × Nat) :=
  quadCheck s c (fun e => if e.fmt = 7 ∨ e.fmt = 8 then some 0 else none)

/-- R401: a rectangle that is not empty, in one tile and in the surface. -/
def clearCheck (s : State) (c : Call) : UnitRes (Nat × Nat) :=
  let a := payWord c.words 2
  let b := payWord c.words 3
  let x0 := bits a 15 0
  let y0 := bits a 31 16
  let x1 := bits b 15 0
  let y1 := bits b 31 16
  tileCheck s c 1 2 (fun e => decide (x0 < x1) && decide (y0 < y1) && decide (x1 ≤ e.width) && decide (y1 ≤ e.height) &&
    (x1 - 1) / e.edge == x0 / e.edge && (y1 - 1) / e.edge == y0 / e.edge) x0 y0

/-- The tile of a bank call, by its opcode. -/
def bankTarget (s : State) (c : Call) : UnitRes (Nat × Nat) :=
  match hdrOp (c.words.getD 0 0) with
  | 0 => depthCheck s c
  | 1 => blendCheck s c
  | _ => clearCheck s c

/-- The bank at which a call is served, where its checks pass. -/
def callBank (s : State) (c : Call) : Option (Nat × Nat) :=
  match bankTarget s c with
  | .ok (e, t) => some (tileBank s c.part (s.srf c.part e) t)
  | _ => none

/-- Bank calls of a partition that wait at a bank with a hallmark, or with none. -/
def callsAt (s : State) (part : Nat) (bank : Nat × Nat) (h : Option Word) : List Call :=
  s.calls.filter (fun d => d.part == part && d.unitType == 1 && d.at_ == .unit && recMark d.words == h &&
    callBank s d == some bank)

/-- The draw of a hallmark is being walked. -/
def walking (s : State) (part : Nat) (h : Word) : Bool :=
  s.calls.any (fun d => d.part == part && isDraw d && d.at_ == .unit && recMark d.words == some h)

/-- What becomes of a bank call now (R359). -/
inductive BankTurn where
  | go | hold | unregistered
  deriving DecidableEq, Repr, Inhabited

/-- An intent at a bank has retired there: its hallmark is closed, and no call that carries it waits there. -/
def intentGone (s : State) (part entry : Nat) (bank : Nat × Nat) (m : Mark) : Bool :=
  !m.intents.contains bank ||
    (m.state == .closed && (callsAt s part bank (some (BitVec.ofNat 32 (entry * 2 ^ 20 + m.seq)))).isEmpty)

def bankTurn (s : State) (c : Call) (bank : Nat × Nat) : BankTurn :=
  match recMark c.words with
  | none => if (callsAt s c.part bank none).any (fun d => decide (d.id < c.id)) then .hold else .go
  | some h =>
    match s.mark? c.part h with
    | none => .hold
    | some m =>
      let ms := (s.srf c.part (markEntry h)).marks
      let before := ms.takeWhile (fun g => g.seq != m.seq)
      let after := (ms.dropWhile (fun g => g.seq != m.seq)).drop 1
      if m.intents.contains bank then
        if before.all (intentGone s c.part (markEntry h) bank) &&
            !(callsAt s c.part bank (some h)).any (fun d => decide (d.id < c.id)) then .go else .hold
      else if walking s c.part h then .hold
      else if m.state == .closed then .unregistered
      else if m.state == .registered && after.any (fun g => g.draw && g.state != .drawn) then .unregistered
      else .hold

/-- The hallmark of a call is the oldest intent of its domain at a bank that has not retired there (R359). -/
def oldestIntent (s : State) (c : Call) (bank : Nat × Nat) : Bool :=
  match recMark c.words with
  | none => false
  | some h => (s.mark? c.part h).elim false (fun m => m.intents.contains bank &&
      ((s.srf c.part (markEntry h)).marks.takeWhile (fun g => g.seq != m.seq)).all (intentGone s c.part (markEntry h) bank))

/-- Calls that wait at a bank. -/
def bankCrowd (s : State) (bank : Nat × Nat) : Nat :=
  (s.calls.filter (fun d => d.unitType == 1 && d.at_ == .unit && callBank s d == some bank)).length

/-- A bank call finds a place at its bank: one of the 64 is kept for calls of the oldest intent of any domain, and calls
enter in their order (R359). One that no bank serves needs none. -/
def canEnter (s : State) (c : Call) : Bool :=
  match callBank s c with
  | none => true
  | some bank =>
    let old := oldestIntent s c bank
    decide (bankCrowd s bank < if old then 64 else 63) &&
      !s.calls.any (fun d => d.unitType == 1 && d.at_ == .mesh && decide (d.id < c.id) && callBank s d == some bank &&
        (!old || recMark d.words == recMark c.words))

/-- A call reaches its bank from the mesh: it meets the state that its hallmark then has (R362). -/
def reachBank (s : State) (c : Call) : State :=
  if canEnter s c then
    match markCode s c.part 1 c.words with
    | some (n, d) => answered s c n d
    | none => mapCall s c.id (fun c => { c with at_ := .unit })
  else s

/-- CALL_DEPART (R350): the oldest record of a queue leaves its call buffer, is checked, and reaches its unit or is
answered; a bank call that finds no place at its bank waits in the glaze mesh or in its buffer (R359), as a free bit says.
The record's own header says of which type and length the answer of code 0x11 is (R345, R379; DEDUCED, entry 85). -/
def execCallDepart (blk grp queue : Nat) (s : State) : Out :=
  match s.block? blk, (s.group? blk grp).bind (fun g => (g.queues[queue]?).map (fun u => (g, u))) with
  | some k, some (g, u) =>
    match u.calls with
    | [] => .next s
    | r :: rest =>
      let hd := r.words.getD 0 0
      let n := largestReturn (hdrType hd) (hdrOp hd)
      if 128 < returnsUsed s blk grp queue u + n ∨ !(k.phase == .resident || k.phase == .evicted) ∨ !ctxFree s k then .next s
      else
        let type := hdrType hd
        let inst := u.binding.elim 0 (instanceFor s k.part k.stack g.cluster)
        let c : Call := ⟨s.moves, k.stack, k.part, blk, grp, queue, r.lane, r.words, type, inst, .unit, true, [], r.pushed, false⟩
        let s1 := (mapQueue s.draw blk grp queue (fun u => { u with calls := rest })).orders (.unit c.id) r.gives
        match earlyCode s k.part u.binding r.words with
        | some (code, detail) =>
          .next { s1 with calls := s1.calls ++ [{ c with at_ := .performed, out := [answerWords type r.words code detail] }] }
        | none =>
          if type = 1 ∧ !canEnter s c then
            if Config.freeBit s.moves then .next { s1 with calls := s1.calls ++ [{ c with at_ := .mesh }] } else .next s.draw
          else
          match recMark r.words with
          | some h =>
            if type = 0 then
              if windowRoom s k.part k.stack inst h then
                .next (({ s1 with calls := s1.calls ++ [{ c with at_ := .window }] } : State).mapMark k.part h
                  (fun m => { m with draw := true }))
              else .next s
            else .next { s1 with calls := s1.calls ++ [c] }
          | none => .next { s1 with calls := s1.calls ++ [c] }
  | _, _ => .next s

/-- The part of a bank call that acts: it answers the state, and the return record. -/
abbrev BankAct := State → Call → Nat → State × List Word

/-- A bank call of an opcode: it is checked, held, answered or performed (R395, R359, R368). -/
def bankCall (op : Nat) (act : BankAct) (call : Nat) (s : State) : Out :=
  match s.calls.find? (fun c => c.id == call) with
  | none => .next s
  | some c =>
    if c.unitType = 1 ∧ hdrOp (c.words.getD 0 0) = op ∧ c.at_ = .mesh then .next (reachBank s c)
    else if c.unitType = 1 ∧ hdrOp (c.words.getD 0 0) = op ∧ c.at_ = .unit then
      match bankTarget s c with
      | .wait _ => .next s
      | .code n d => .next (answered s c n d)
      | .ok (i, t) =>
        if s.linkDown && (s.srf c.part i).owner t != c.stack then .next (answered s c 0x30 0)
        else if s.linkStalls && (s.srf c.part i).owner t != c.stack then .next s
        else
          match bankTurn s c (tileBank s c.part (s.srf c.part i) t) with
          | .hold => .next s
          | .unregistered => .next (answered s c 0x13 0)
          | .go =>
            let r := act s c i
            .next (performed r.1 c [r.2])
    else .next s

/-! Samples (R380, R395). -/

/-- A sample of a quad: its pixel, its number and its bytes. -/
structure Sample where
  pix : Nat
  num : Nat
  piece : Piece
  deriving DecidableEq, Repr, Inhabited

/-- The bytes of a sample of a pixel (R338). -/
def samplePiece (part i : Nat) (e : SrfEntry) (layer x y n : Nat) : Piece :=
  ⟨.srf part i, e.byteAt layer y ((x * e.S + n) * e.p), e.p⟩

/-- The samples that a quad call names, within the surface. -/
def quadSamples (s : State) (c : Call) (i : Nat) : List Sample :=
  let e := s.srf c.part i
  let qw := payWord c.words 1
  let layer := bits (payWord c.words 2) 10 0
  let m := payWord c.words 3
  ((upto 4).flatMap (fun p => (upto e.S).map (fun n => (p, n)))).filterMap (fun q =>
    let x := 2 * bits qw 17 4 + q.1 % 2
    let y := 2 * bits qw 31 18 + q.1 / 2
    if m.getLsbD (q.1 * e.S + q.2) ∧ x < e.width ∧ y < e.height then
      some ⟨q.1, q.2, samplePiece c.part i e layer x y q.2⟩
    else none)

/-- Samples are read before any is written: where one is poisoned, the call is answered and writes none (R346). -/
def withSamples (s : State) (c : Call) (i : Nat) (f : State → List Sample → State × List Word) : State × List Word :=
  let xs := quadSamples s c i
  let s1 := meetUpsets (touchPieces s (xs.map (·.piece))) (xs.map (·.piece))
  if xs.any (fun x => s1.poisoned x.piece) then (s1, answerWords c.unitType c.words 0x22 0)
  else f s1 xs

/-! Depth calls (R396 to R398). -/

/-- The function codes of R396 on a comparison; a NaN fails every function but always. -/
def depthHolds (fn : Nat) (o : Option Ordering) : Bool :=
  match fn, o with
  | 7, _ => true
  | 1, some .lt | 2, some .eq | 3, some .lt | 3, some .eq | 4, some .gt | 5, some .lt | 5, some .gt
  | 6, some .gt | 6, some .eq => true
  | _, _ => false

/-- The stencil operations of R396. -/
def stencilOp (op ref st : Nat) : Nat :=
  match op with
  | 0 => st
  | 1 => 0
  | 2 => ref
  | 3 => min (st + 1) 255
  | 4 => st - 1
  | 5 => 255 - st
  | 6 => (st + 1) % 256
  | _ => (st + 255) % 256

/-- The depth of a sample: the plane at its place, rounded once (R397). -/
def planeDepth (c : Call) (S : Nat) (x : Sample) : Nat :=
  let o := (sampleOffsets S).getD x.num (8, 8)
  let f (k : Nat) : FV := decodeF .f32 (payWord c.words k).toNat
  (sumOfProducts .f32 false .ne
    [(f 7, .fin false (16 * (x.pix % 2) + o.1) (-4)), (f 8, .fin false (16 * (x.pix / 2) + o.2) (-4))] [f 6]).1

/-- A sample after a depth call, from its stored bits: its new bits, and whether it passed (R397). -/
def depthSample (fmt : Nat) (state ops : Word) (z old : Nat) : Nat × Bool :=
  let zv := decodeF .f32 z
  let d24 := fmt == 8
  let zi := if d24 then unormEncode 24 false zv else z
  let zs := if d24 then old % 2 ^ 24 else old
  let st := old / 2 ^ 24
  let ref := bits state 31 24
  let rm := bits state 23 16
  let wm := bits state 15 8
  let sen := bit state 4
  let cmp : Option Ordering :=
    if d24 then (if zv.isNaN then none else some (compare zi zs)) else cmpF zv (decodeF .f32 zs)
  let sOk := !sen || depthHolds (bits state 7 5) (some (compare (ref &&& rm) (st &&& rm)))
  let zOk := depthHolds (bits state 2 0) cmp
  let passed := sOk && zOk
  let op := if !sOk then bits ops 2 0 else if !zOk then bits ops 5 3 else bits ops 8 6
  let zn := if passed && bit state 3 then zi else zs
  let s1 := stencilOp op ref st
  let sn := if sen then (st &&& (255 - wm)) ||| (s1 &&& wm) else st
  (if d24 then zn + sn * 2 ^ 24 else zn, passed)

/-- A depth call on its samples. -/
def depthAct : BankAct := fun s c i =>
  withSamples s c i (fun s xs =>
    let e := s.srf c.part i
    let r := xs.foldl (fun (a : State × Word) x =>
      let q := depthSample e.fmt (payWord c.words 4) (payWord c.words 5) (planeDepth c e.S x) (leNat (a.1.readPiece x.piece))
      (writeBytes a.1 (c.who a.1) [x.piece] (leBytes 4 q.1),
        if q.2 then a.2 ||| ((1 : Word) <<< (x.pix * e.S + x.num)) else a.2)) (s, 0)
    let n := ((upto 32).filter (fun j => r.2.getLsbD j)).length
    (r.1, doneRecord c n [r.2]))

/-- DEPTH_CALL (R396). -/
def execDepthCall (call : Nat) (s : State) : Out := bankCall 0 depthAct call s

/-! Blend calls (R399, R400). -/

def oneLess (x : FV) : FV := (sumF false [oneF, x.flip]).1

/-- The lesser or the greater of two values; −0 is less than +0, and a NaN gives a NaN. -/
def extreme (big : Bool) (x y : FV) : FV :=
  match cmpF x y with
  | none => .nan
  | some .lt => if big then y else x
  | some .gt => if big then x else y
  | some .eq => if (x.neg && !y.neg) != big then x else y

/-- A factor of R399 for a channel. -/
def blendFactor (code : Nat) (alpha : Bool) (s as d ad : FV) : FV :=
  match code with
  | 0 => .fin false 0 0
  | 1 => oneF
  | 2 => s
  | 3 => oneLess s
  | 4 => as
  | 5 => oneLess as
  | 6 => d
  | 7 => oneLess d
  | 8 => ad
  | 9 => oneLess ad
  | _ => if alpha then oneF else extreme false as (oneLess ad)

/-- An equation of R399. -/
def blendEq (eq : Nat) (s fs d fd : FV) : FV :=
  let x := (mulF s fs).1
  let y := (mulF d fd).1
  match eq with
  | 0 => (sumF false [x, y]).1
  | 1 => (sumF false [x, y.flip]).1
  | 2 => (sumF false [y, x.flip]).1
  | 3 => extreme false s d
  | _ => extreme true s d

/-- The source colour of a pixel: its four f16 channels. -/
def blendSource (c : Call) (pix k : Nat) : FV :=
  let w := payWord c.words (5 + 2 * pix + k / 2)
  decodeF .f16 (if k % 2 = 0 then bits w 15 0 else bits w 31 16)

/-- A sample's pixel value after a blend call (R400). -/
def blendSample (fmt : Nat) (c : Call) (pix old : Nat) : Nat :=
  let w := payWord c.words 4
  let n := srfChannels fmt
  let as := blendSource c pix 3
  let ad := if n = 4 then chanValue (chanOf fmt 3) old else oneF
  (upto n).foldl (fun acc k =>
    if bit w (28 + k) then
      let a := k == 3
      let sv := blendSource c pix k
      let dv := chanValue (chanOf fmt k) old
      let fs := blendFactor (if a then bits w 23 20 else bits w 11 8) a sv as dv ad
      let fd := blendFactor (if a then bits w 27 24 else bits w 15 12) a sv as dv ad
      chanPut (chanOf fmt k) acc (blendEq (if a then bits w 19 17 else bits w 7 5) sv fs dv fd)
    else acc) old

def blendAct : BankAct := fun s c i =>
  withSamples s c i (fun s xs =>
    let e := s.srf c.part i
    (xs.foldl (fun s x =>
      writeBytes s (c.who s) [x.piece] (leBytes e.p (blendSample e.fmt c x.pix (leNat (s.readPiece x.piece))))) s, doneRecord c 0 []))

/-- BLEND_CALL (R399). -/
def execBlendCall (call : Nat) (s : State) : Out := bankCall 1 blendAct call s

/-! Clear calls (R401). -/

def clearAct : BankAct := fun s c i =>
  let e := s.srf c.part i
  let a := payWord c.words 2
  let b := payWord c.words 3
  let layer := bits (payWord c.words 1) 10 0
  let x0 := bits a 15 0
  let n := (bits b 15 0 - x0) * e.S
  let data := ((upto n).map (fun _ => (bytesOfWords [payWord c.words 4, payWord c.words 5]).take e.p)).flatten
  let rows := (upto (bits b 31 16 - bits a 31 16)).map (fun j =>
    ({ samplePiece c.part i e layer x0 (bits a 31 16 + j) 0 with len := n * e.p } : Piece))
  let s1 := touchPieces s (rows.take 1)
  (rows.foldl (fun s p => writeBytes s (c.who s) [p] data) s1, doneRecord c 0 [])

/-- CLEAR_CALL (R401). -/
def execClearCall (call : Nat) (s : State) : Out := bankCall 2 clearAct call s

end Sys2Proof.Machine
end

