-- ==== Sys2Proof/Machine/Filters.lean ====
section
/-!
DEFINITION. The texture filter (R403 to R407), the tessellator (R408 to R411) and the encoder (R412 to R419).
-/

namespace Sys2Proof.Machine

/-- A call of a unit and opcode that may be performed: it is with its unit, and its turn has come (R360). -/
def servedCall (s : State) (type op call : Nat) : Option Call :=
  (s.calls.find? (fun c => c.id == call)).filter (fun c =>
    c.unitType == type && hdrOp (c.words.getD 0 0) == op && c.at_ == .unit && turnCome s c)

/-- A unit's work on a call: pages are awaited, a code is answered, and records are returned. -/
def unitEnd (c : Call) (r : State × UnitRes (List (List Word))) : Out :=
  match r.2 with
  | .wait p => .next (unitWaits r.1 c p)
  | .code n d => .next (answered r.1 c n d)
  | .ok recs => .next (performed r.1 c recs)

/-! Textures. -/

/-- A texture descriptor (R404). -/
structure TexDesc where
  base : Addr
  fmt : Nat
  w : Nat
  h : Nat
  levels : Nat
  deriving DecidableEq, Repr, Inhabited

def texDesc (ws : List Word) : Option TexDesc :=
  let w (i : Nat) : Word := ws.getD i 0
  let d : TexDesc := ⟨(w 1 ++ w 0).setWidth 56, bits (w 1) 31 24, bits (w 2) 13 0 + 1, bits (w 2) 29 16 + 1, bits (w 3) 3 0 + 1⟩
  if bits (w 0) 7 0 = 0 ∧ 1 ≤ d.fmt ∧ d.fmt ≤ 6 ∧ bits (w 2) 31 30 = 0 ∧ bits (w 2) 15 14 = 0 ∧ bits (w 3) 31 4 = 0 ∧
      d.levels - 1 ≤ Nat.log2 (max d.w d.h) ∧ w 4 = 0 ∧ w 5 = 0 ∧ w 6 = 0 ∧ w 7 = 0 then some d else none

def TexDesc.wl (d : TexDesc) (l : Nat) : Nat := max 1 (d.w / 2 ^ l)
def TexDesc.hl (d : TexDesc) (l : Nat) : Nat := max 1 (d.h / 2 ^ l)
def TexDesc.pitch (d : TexDesc) (l : Nat) : Nat := 256 * ceilDiv (d.wl l * srfFmtBytes d.fmt) 256
def TexDesc.offset (d : TexDesc) (l : Nat) : Nat := ((upto l).map (fun i => d.pitch i * d.hl i)).sum

/-- Round to the nearest integer, ties to even. -/
def roundEven (q : ℚ) : Int :=
  let f := ⌊q⌋
  let r := q - f
  if 1 / 2 < r ∨ (r = 1 / 2 ∧ f % 2 = 1) then f + 1 else f

/-- The index that a wrap mode uses on an extent of n; none for the border (R405). -/
def wrapIndex (mode n : Nat) (i : Int) : Option Nat :=
  match mode with
  | 0 => some (i % n).toNat
  | 1 => some (min (max i 0) (n - 1)).toNat
  | 2 =>
    let m := (i % (2 * n)).toNat
    some (if m < n then m else 2 * n - 1 - m)
  | _ => if 0 ≤ i ∧ i < n then some i.toNat else none

/-- The indexes used along one axis, with their weights over 256 (R405). -/
def axisTexels (linear : Bool) (mode n : Nat) (u : ℚ) : List (Option Nat × Nat) :=
  if linear then
    let x := u * n - 1 / 2
    let i := ⌊x⌋
    let a := (roundEven ((x - i) * 256)).toNat
    [(wrapIndex mode n i, 256 - a), (wrapIndex mode n (i + 1), a)]
  else [(wrapIndex mode n ⌊u * n⌋, 256)]

/-- The levels used for a level of detail, with their weights over 256 (R406). -/
def levelsFor (mip : Bool) (top : Nat) (lambda : ℚ) : List (Nat × Nat) :=
  let x := min (max lambda 0) top
  if mip then
    let l := ⌊x⌋.toNat
    let f := (roundEven ((x - l) * 256)).toNat
    if l < top then [(l, 256 - f), (l + 1, f)] else [(l, 256)]
  else [(⌊x + 1 / 2⌋.toNat, 256)]

/-- Levels for half the logarithm of a positive square, plus a bias: exact for a power of two, and else by brackets that
both ends decide alike (entry 7). -/
def levelsLog (mip : Bool) (top : Nat) (sq bias : ℚ) (free : Bool) : List (Nat × Nat) :=
  let n := sq.num.natAbs
  if n = 2 ^ Nat.log2 n ∧ sq.den = 2 ^ Nat.log2 sq.den then
    levelsFor mip top (((Nat.log2 n : ℚ) - (Nat.log2 sq.den : ℚ)) / 2 + bias)
  else
    let ends (P : Nat) : List (Nat × Nat) × List (Nat × Nat) :=
      let a := log2Fix P n 0
      let b := log2Fix P sq.den 0
      let at_ (x : Int) : List (Nat × Nat) := levelsFor mip top ((x : ℚ) / 2 ^ (P + 1) + bias)
      (at_ (a.lo - b.hi), at_ (a.hi - b.lo))
    ([128, 256, 512, 1024].findSome? (fun P => if (ends P).1 = (ends P).2 then some (ends P).1 else none)).getD
      (if free then (ends 1024).1 else (ends 1024).2)

/-- A coordinate; one that is not finite is 0 (R405). -/
def texCoord (w : Word) : ℚ := (ratOf w).getD 0

/-- The levels of a quad (R406). -/
def quadLevels (d : TexDesc) (ws : List Word) (free : Bool) : List (Nat × Nat) :=
  let p := payWord ws
  let mip := bit (p 2) 2
  let top := d.levels - 1
  let u (k : Nat) : ℚ := texCoord (p (4 + 2 * k))
  let v (k : Nat) : ℚ := texCoord (p (5 + 2 * k))
  let sq (k : Nat) : ℚ := ((u k - u 0) * d.w) ^ 2 + ((v k - v 0) * d.h) ^ 2
  let rho2 := max (sq 1) (sq 2)
  let given := bit (p 2) 9
  match decodeF .f32 (p 3).toNat with
  | .nan => levelsFor mip top 0
  | .inf neg => levelsFor mip top (if neg ∨ (!given ∧ rho2 = 0) then 0 else top)
  | _ =>
    let b := texCoord (p 3)
    if given then levelsFor mip top b
    else if rho2 = 0 then levelsFor mip top 0
    else levelsLog mip top rho2 b free

/-- A texel that a pixel uses: its level, its place or none for the border, and its weight over 2^24. -/
structure Texel where
  level : Nat
  at_ : Option (Nat × Nat)
  weight : Nat
  deriving DecidableEq, Repr, Inhabited

/-- The texels of a pixel of the quad (R405, R406). -/
def pixelTexels (d : TexDesc) (ws : List Word) (levels : List (Nat × Nat)) (k : Nat) : List Texel :=
  let p := payWord ws
  let sm := p 2
  let linear := bits sm 1 0 == 1
  levels.flatMap (fun l =>
    (axisTexels linear (bits sm 8 6) (d.hl l.1) (texCoord (p (5 + 2 * k)))).flatMap (fun y =>
      (axisTexels linear (bits sm 5 3) (d.wl l.1) (texCoord (p (4 + 2 * k)))).map (fun x =>
        ⟨l.1, (match x.1, y.1 with
          | some i, some j => some (i, j)
          | _, _ => none), l.2 * y.2 * x.2⟩)))

/-- The four channels of a texel. -/
def texelValue (s : State) (c : Call) (d : TexDesc) (t : Texel) : State × UnitRes (List FV) :=
  match t.at_ with
  | none => (s, .ok (List.replicate 4 (.fin false 0 0)))
  | some (i, j) =>
    let p := srfFmtBytes d.fmt
    let r := unitRead s c (d.base + BitVec.ofNat 56 (d.offset t.level + j * d.pitch t.level + i * p)) p
    (r.1, r.2.bind (fun bs => .ok ((upto 4).map (fun k =>
      if k < srfChannels d.fmt then chanValue (chanOf d.fmt k) (leNat bs)
      else if k = 3 then oneF else .fin false 0 0))))

/-- The texels in order, up to the first that cannot be read. -/
def texelValues (c : Call) (d : TexDesc) : List Texel → State → State × UnitRes (List (List FV × Nat))
  | [], s => (s, .ok [])
  | t :: ts, s =>
    let r := texelValue s c d t
    match r.2 with
    | .wait p => (r.1, .wait p)
    | .code n x => (r.1, .code n x)
    | .ok v =>
      let q := texelValues c d ts r.1
      (q.1, q.2.bind (fun vs => .ok ((v, t.weight) :: vs)))

/-- The words of a pixel: the weighted sums, each rounded once. -/
def pixelResult (vs : List (List FV × Nat)) : List Word :=
  (upto 4).map (fun k => BitVec.ofNat 32
    (sumOfProducts .f32 false .ne (vs.map (fun v => (v.1.getD k .nan, .fin false v.2 (-24)))) []).1)

/-- Pixels k and on. -/
def texPixels (c : Call) (d : TexDesc) (levels : List (Nat × Nat)) : List Nat → State → State × UnitRes (List Word)
  | [], s => (s, .ok [])
  | k :: ks, s =>
    let r := texelValues c d (pixelTexels d c.words levels k) s
    match r.2 with
    | .wait p => (r.1, .wait p)
    | .code n x => (r.1, .code n x)
    | .ok vs =>
      let q := texPixels c d levels ks r.1
      (q.1, q.2.bind (fun ws => .ok (pixelResult vs ++ ws)))

/-- TEXTURE_CALL (R403 to R407). -/
def execTextureCall (call : Nat) (s : State) : Out :=
  match servedCall s 2 0 call with
  | none => .next s
  | some c =>
    let r := unitRead (markTakes s c) c ((payWord c.words 1 ++ payWord c.words 0).setWidth 56) 32
    match r.2 with
    | .wait p => .next (unitWaits r.1 c p)
    | .code n x => .next (answered r.1 c n x)
    | .ok bs =>
      match texDesc (wordsOfBytes bs 8) with
      | none => .next (answered r.1 c 0x23 0)
      | some d =>
        let q := texPixels c d (quadLevels d c.words (Config.freeBit s.moves)) (upto 4) r.1.draw
        unitEnd c (q.1, q.2.bind (fun ws => .ok [doneRecord c 0 ws]))

/-! The tessellator. -/

/-- A list in runs of 15. -/
def by15 {α : Type} (as : List α) : List (List α) :=
  (upto (ceilDiv as.length 15)).map (fun i => (as.drop (15 * i)).take 15)

/-- The points and triangles of a call as records (R411). -/
def tessRecords (c : Call) (points : List (ℚ × ℚ)) (tris : List (Nat × Nat × Nat)) : List (List Word) :=
  let tag := hdrTag (c.words.getD 0 0)
  let ps := (by15 points).map (fun l =>
    statusWord 3 tag l.length 3 (1 + 2 * l.length) false :: l.flatMap (fun p => [ratRound p.1, ratRound p.2]))
  let ts := by15 tris
  ps ++ ((upto ts.length).zip ts).map (fun q =>
    statusWord 4 tag q.2.length 3 (1 + 2 * q.2.length) (q.1 + 1 == ts.length) ::
      q.2.flatMap (fun t => [putBits t.2.1 31 16 ||| putBits t.1 15 0, putBits t.2.2 15 0]))

/-- Index of P(i, j) in the triangle domain (R410). -/
def triIndex (f i j : Nat) : Nat := ((upto j).map (fun k => f + 1 - k)).sum + i

def triPoints (f : Nat) : List (ℚ × ℚ) :=
  (upto (f + 1)).flatMap (fun j => (upto (f + 1 - j)).map (fun i => ((i : ℚ) / f, (j : ℚ) / f)))

def triTris (f : Nat) : List (Nat × Nat × Nat) :=
  (upto f).flatMap (fun j => (upto (f - j)).flatMap (fun i =>
    (triIndex f i j, triIndex f (i + 1) j, triIndex f i (j + 1)) ::
      (if i < f - 1 - j then [(triIndex f (i + 1) j, triIndex f (i + 1) (j + 1), triIndex f i (j + 1))] else [])))

/-- TESSELLATE_TRIANGLE (R408, R410). -/
def execTessellateTriangle (call : Nat) (s : State) : Out :=
  match servedCall s 3 0 call with
  | none => .next s
  | some c =>
    let f := bits (payWord c.words 0) 5 0 + 1
    .next (performed s c (tessRecords c (triPoints f) (triTris f)))

def quadPoints (f g : Nat) : List (ℚ × ℚ) :=
  (upto (g + 1)).flatMap (fun j => (upto (f + 1)).map (fun i => ((i : ℚ) / f, (j : ℚ) / g)))

def quadTris (f g : Nat) : List (Nat × Nat × Nat) :=
  let p (i j : Nat) : Nat := j * (f + 1) + i
  (upto g).flatMap (fun j => (upto f).flatMap (fun i =>
    [(p i j, p (i + 1) j, p (i + 1) (j + 1)), (p i j, p (i + 1) (j + 1), p i (j + 1))]))

/-- TESSELLATE_QUAD (R408, R409). -/
def execTessellateQuad (call : Nat) (s : State) : Out :=
  match servedCall s 3 1 call with
  | none => .next s
  | some c =>
    let f := bits (payWord c.words 0) 5 0 + 1
    let g := bits (payWord c.words 0) 13 8 + 1
    .next (performed s c (tessRecords c (quadPoints f g) (quadTris f g)))

/-! The encoder. -/

def encOf (s : State) (c : Call) : EncSlot := (s.stack c.stack).encs.getD c.inst EncSlot.reset
def mapEnc (s : State) (c : Call) (f : EncSlot → EncSlot) : State :=
  s.mapStack c.stack (fun t => { t with encs := modifyAt f c.inst t.encs })

/-- The state of a slot in a detail field (R412). -/
def encDetail (e : EncSlot) : Nat := 128 * boolBit e.open_ + e.band

/-- A call on an encoder slot: the partition must still hold it, and its state must accept the call (R412, R419). -/
def encCall (op : Nat) (accepts : Call → EncSlot → Bool) (act : Call → EncSlot → State → State × UnitRes (List (List Word)))
    (call : Nat) (s : State) : Out :=
  match servedCall s 4 op call with
  | none => .next s
  | some c =>
    let e := encOf s c
    if !(s.partOn c.part c.stack).params.encSlots.contains c.inst then .next (answered s c 0x11 0)
    else if !accepts c e then .next (answered s c 0x23 (encDetail e))
    else unitEnd c (act c e (markTakes s c))

/-- An AV1 unit: its header with a size field, the size in groups of seven bits, and its payload. The framing is that of the
AV1 specification, which R416 names (PRESUMED, entry 104). -/
def leb128 : Nat → Nat → List Byte
  | 0, _ => []
  | fuel + 1, n => if n < 128 then [BitVec.ofNat 8 n] else BitVec.ofNat 8 (128 + n % 128) :: leb128 fuel (n / 128)

def obu (type : Nat) (payload : List Byte) : List Byte :=
  BitVec.ofNat 8 (8 * type + 2) :: leb128 8 payload.length ++ payload

def EncSlot.bands (e : EncSlot) : Nat := ceilDiv e.size.2 64
/-- The frame to which the present one may refer (R416). -/
def EncSlot.reference (e : EncSlot) : List Nat := if e.key then [] else e.ref
/-- The stream from its last key frame on, with the present frame as far as it is coded. -/
def EncSlot.decodes (e : EncSlot) : List Byte := (if e.key then [] else e.stream) ++ e.coded

/-- A field of a header: w bits, the highest first. -/
def fieldBits (w v : Nat) : List Bool := (upto w).map (fun i => v.testBit (w - 1 - i))

/-- Bits packed into bytes, the first the highest, the last byte filled with zeros. -/
def packBits (bs : List Bool) : List Byte :=
  (upto (ceilDiv bs.length 8)).map (fun i =>
    BitVec.ofNat 8 ((upto 8).map (fun j => if bs.getD (8 * i + j) false then 2 ^ (7 - j) else 0)).sum)

/-- What fixed fields and free bits make of a header: a one bit follows, and zeros to a whole byte. -/
def headerBytes (bs : List Bool) : List Byte := packBits (bs ++ [true])

/-- Bits that number so many tile rows. -/
def EncSlot.rowBits (e : EncSlot) : Nat := if e.bands ≤ 1 then 0 else Nat.log2 (e.bands - 1) + 1

/-- The sequence header's fields in their order (R416): the Main profile, the size in 12 bits a side, superblocks of 64 × 64,
and in the colour configuration 8 or 10 bits and three planes, which the Main profile has at 4:2:0. -/
def sequenceBits (n : Nat) (e : EncSlot) : List Bool :=
  let free := Config.obuBits n 1
  fieldBits 3 0 ++ free 0 ++ fieldBits 4 11 ++ fieldBits 4 11 ++ fieldBits 12 (e.size.1 - 1) ++ fieldBits 12 (e.size.2 - 1) ++
    free 1 ++ [false] ++ free 2 ++ [e.tenBit, false] ++ free 3

/-- The frame header's fields in their order (R416): a frame that is shown, of key or inter type; uniform tiles, one column
and as many rows as superblocks are high; and the base quantiser index. -/
def frameBits (n : Nat) (e : EncSlot) : List Bool :=
  let free := Config.obuBits n 3
  [false] ++ fieldBits 2 (boolBit (!e.key)) ++ [true] ++ free 0 ++
    [true] ++ (if 64 < e.size.1 then [false] else []) ++ List.replicate e.rowBits true ++
    (if e.rowBits = 0 then [] else (upto (e.rowBits + 2)).map (fun i => (free 1).getD i false)) ++ fieldBits 8 e.baseQ ++ free 2

/-- The bytes that begin a frame (R413): a temporal delimiter, for a key frame a sequence header, and a frame header. -/
def frameUnits (n : Nat) (e : EncSlot) : List Byte :=
  obu 2 [] ++ (if e.key then obu 1 (headerBytes (sequenceBits n e)) else []) ++ obu 3 (headerBytes (frameBits n e))

/-- A band is one tile group with its one tile (R414, R416): of several tiles, the group names its first and its last. -/
def bandUnit (n : Nat) (e : EncSlot) (samples : List Nat) : List Byte :=
  obu 4 (packBits (if e.rowBits = 0 then [] else [true] ++ fieldBits e.rowBits e.band ++ fieldBits e.rowBits e.band) ++
    Config.tileData n e.band samples e.reference)

/-- Append coded bytes to the output (R413, R414): a frame whose output would pass its size is abandoned. -/
def encWrite (c : Call) (e : EncSlot) (s : State) (bs : List Byte) (rec : List Word) : State × UnitRes (List (List Word)) :=
  if e.outSize < e.written + bs.length then (mapEnc s.draw c (fun x => { x with open_ := false, band := 0 }), .code 0x24 0)
  else
    match unitPieces s c .store (e.out + BitVec.ofNat 56 e.written) bs.length with
    | .wait p => (s, .wait p)
    | .code n d => (s, .code n d)
    | .ok ps => (mapEnc (writeBytes s (c.who s) ps bs).draw c (fun _ => { e with
          written := e.written + bs.length
          coded := e.coded ++ bs }),
        .ok [doneRecord c 0 rec])

/-- The source of a frame meets R413; else the word that names what fails. R419 says only that the detail is the word index: the
model names p0 for the surface's samples, size or format, and p1 where a frame that is not a key frame follows no completed frame
of the size (DESIGN CHOICE, entry 115). -/
def sourceCheck (x : SrfEntry) (slot : EncSlot) (key tenBit : Bool) : Option Nat :=
  if x.S ≠ 1 ∨ x.width % 2 = 1 ∨ 4096 < x.width ∨ x.height % 2 = 1 ∨ 2304 < x.height ∨
      !(if tenBit then x.fmt == 6 else x.fmt == 1 || x.fmt == 2) then some 0
  else if !key ∧ slot.lastSize ≠ some (x.width, x.height) then some 1
  else none

/-- FRAME_BEGIN (R413). -/
def execFrameBegin (call : Nat) (s : State) : Out :=
  encCall 0 (fun _ e => !e.open_) (fun c e s =>
    let p := payWord c.words
    match surface? s c.part (p 0) with
    | none => (s, .code 0x12 (payIndex c.words 0))
    | some i =>
      let x := s.srf c.part i
      match sourceCheck x e (bit (p 1) 8) (bit (p 1) 9) with
      | some k => (s, .code 0x25 (payIndex c.words k))
      | none =>
        let e1 : EncSlot := { e with
          open_ := true, band := 0, part := c.part, surface := p 0, size := (x.width, x.height), key := bit (p 1) 8
          tenBit := bit (p 1) 9, out := (p 3 ++ p 2).setWidth 56, outSize := (p 4).toNat, written := 0
          baseQ := bits (p 1) 7 0, recon := [], coded := [] }
        let bs := frameUnits s.moves e1
        encWrite c e1 s bs [BitVec.ofNat 32 bs.length]) call s

/-! Colour (R417). -/

/-- R′, G′ and B′ of a pixel as fractions of the greatest code; no sRGB decoding takes place. -/
def rgbOf (tenBit : Bool) (pix : Nat) : ℚ × ℚ × ℚ :=
  let n := if tenBit then 10 else 8
  let ch (k : Nat) : ℚ := ((pix / 2 ^ (n * k) % 2 ^ n : Nat) : ℚ) / ((2 ^ n - 1 : Nat) : ℚ)
  (ch 0, ch 1, ch 2)

def lumaE (p : ℚ × ℚ × ℚ) : ℚ := (2126 * p.1 + 7152 * p.2.1 + 722 * p.2.2) / 10000
def blueE (p : ℚ × ℚ × ℚ) : ℚ := (p.2.2 - lumaE p) / (18556 / 10000)
def redE (p : ℚ × ℚ × ℚ) : ℚ := (p.1 - lumaE p) / (15748 / 10000)

/-- Y of a pixel: BT.709, narrow range, rounded to nearest with ties to even. -/
def lumaCode (tenBit : Bool) (p : ℚ × ℚ × ℚ) : Nat := (roundEven ((if tenBit then 4 else 1) * (16 + 219 * lumaE p))).toNat

/-- Cb or Cr of a 2 × 2 block, from the values of its four pixels. -/
def chromaCode (tenBit : Bool) (es : List ℚ) : Nat :=
  (roundEven ((if tenBit then 4 else 1) * (128 + 224 * (es.sum / 4)))).toNat

/-- The samples of a band of w columns: every Y, and then Cb and Cr of every block of 2 × 2 pixels, in raster order. -/
def bandSamples (tenBit : Bool) (w : Nat) (pix : List Nat) : List Nat :=
  let ps := pix.map (rgbOf tenBit)
  let blocks := (upto (pix.length / (2 * w))).flatMap (fun j => (upto (w / 2)).map (fun i =>
    let at_ (y x : Nat) : ℚ × ℚ × ℚ := ps.getD ((2 * j + y) * w + 2 * i + x) (0, 0, 0)
    [at_ 0 0, at_ 0 1, at_ 1 0, at_ 1 1]))
  ps.map (lumaCode tenBit) ++ blocks.map (fun b => chromaCode tenBit (b.map blueE)) ++
    blocks.map (fun b => chromaCode tenBit (b.map redE))

/-- The rows of a band (R414). -/
def bandPieces (s : State) (part i k : Nat) : List Piece :=
  let x := s.srf part i
  (upto (min (64 * k + 64) x.height - 64 * k)).flatMap (fun r => x.runs (.srf part i) 0 (64 * k + r) 0 x.rowBytes)

/-- BAND_ENCODE (R414). -/
def execBandEncode (call : Nat) (s : State) : Out :=
  encCall 1 (fun c e => e.open_ && bits (payWord c.words 0) 5 0 == e.band) (fun c e s =>
    match surface? s c.part e.surface with
    | none => (s, .code 0x12 0)
    | some i =>
      let ps := bandPieces s c.part i e.band
      if peerLost s c.stack ps then (s, .code 0x30 0)
      else if peerWaits s c.stack ps then (s, .wait [])
      else
        let r := readBytes (touchPieces s ps) c.stack (c.who s) .point ps
        match r.2 with
        | none => (r.1, .code 0x22 0)
        | some rows =>
          let xs := bandSamples e.tenBit e.size.1 ((upto (rows.length / 4)).map (fun j => leNat ((rows.drop (4 * j)).take 4)))
          let bs := bandUnit s.moves e xs
          let q := encWrite c e r.1 bs [BitVec.ofNat 32 e.written, BitVec.ofNat 32 bs.length]
          (match q.2 with
            | .ok _ => mapEnc q.1 c (fun x => { x with
                band := x.band + 1
                recon := Config.reconstruction x.decodes })
            | _ => q.1, q.2)) call s

/-- FRAME_END (R415, R416): the filtered reconstruction, which every decoder makes of the stream, becomes the slot's reference. -/
def execFrameEnd (call : Nat) (s : State) : Out :=
  encCall 2 (fun _ e => e.open_ && e.band == e.bands) (fun c e s =>
    let n := if e.key then 0 else e.sinceKey + 1
    ((mapEnc s c (fun x => { x with
        open_ := false, band := 0, lastSize := some e.size, sinceKey := n, recon := []
        ref := Config.filtered e.decodes, stream := e.decodes, coded := [] })).draw,
      .ok [doneRecord c 0 [BitVec.ofNat 32 e.written, BitVec.ofNat 32 n]])) call s

/-! Errors inside a unit (R346). -/

/-- A unit meets an uncorrectable error inside it while it serves a call: the call ends with code 0x20, and a draw keeps
the intents that it has registered (R358). -/
def unitError (s : State) (call : Nat) : State :=
  match s.calls.find? (fun c => c.id == call) with
  | none => s
  | some c =>
    if c.at_ ≠ .unit then s
    else if isDraw c then drawDone s c [answerWords 0 c.words 0x20 0] []
    else answered s c 0x20 0

end Sys2Proof.Machine
end

