-- ==== Sys2Proof/Machine/Uniform.lean ====
section
/-!
DEFINITION. Hint words (R54 to R61), branches, calls, exit, windows, conv and regroup (R96 to R111), and uniform
arithmetic (R90 to R95); what the fetch of no valid word does (R70, R99).
-/

namespace Sys2Proof.Machine

/-! Hint words. -/

/-- A hint word takes a slot and is pending from then on (R54). A sequence of more than five has a reserved or a repeated
kind, and its park record has no room for a sixth: it is illegal at that word (R56, R457; DESIGN CHOICE, entry 12). -/
def hintStep (h : Hint) (s : State) : Out :=
  match s.cur with
  | .none | .command => .next s
  | .seq b pc w => .next (seqFault s b kIllegal pc w 0 0)
  | .bundle b g lanes pc hints word =>
    match s.block? b with
    | none => .next s
    | some k =>
      if 5 ≤ hints.length then
        .next (raise (noteIssue s ⟨b, g, lanes, lanes, pc, hints, word⟩ k lanes true) b g pc hints.length word
          (trapAll lanes kIllegal 0))
      else
        .next ((noteIssue s ⟨b, g, lanes, lanes, pc, [], word⟩ k lanes true).mapLanes b g lanes
          (fun _ t => { t with pc := t.pc + 4, hints := t.hints ++ [h], run := .ready }))

def execHintImm (p : BitVec 22) (s : State) : Out := hintStep (.imm p) s
def execHintGrd (sense : Bool) (p : BitVec 3) (s : State) : Out := hintStep (.grd sense p) s
def execHintMod (m : Mods) (s : State) : Out := hintStep (.mod m) s
def execHintYield (s : State) : Out := hintStep .yield s
def execHintSched (v : BitVec 22) (s : State) : Out := hintStep (.sched v) s

/-- The word is a hint word (R55, R62). -/
def isHintWord (w : Word) : Bool := bits w 31 26 == 0x3F

/-- ILLEGAL_ENCODING (R70): every thread of the bundle traps, whatever its guard; a sequencer faults (R71). A hint word
that breaks R55 makes its whole sequence illegal, which traps at the target (R56). -/
def execIllegalEncoding (w : Word) (s : State) : Out :=
  if isHintWord w then hintStep (.bad w) s
  else match s.cur with
  | .none | .command => .next s
  | .seq b pc _ => .next (seqFault s b kIllegal pc w 0 0)
  | .bundle b g lanes pc hints _ =>
    match s.block? b with
    | none => .next s
    | some k => .next (raise (noteIssue s ⟨b, g, lanes, lanes, pc, hints, w⟩ k lanes true) b g pc hints.length w
        (trapAll lanes kIllegal 0))

/-- FETCH_FAULT (R99, R284): the threads have no word to execute and take the protection trap with cause 5. -/
def execFetchFault (_cause : BitVec 2) (s : State) : Out :=
  match s.cur with
  | .none | .command => .next s
  | .seq b pc _ => .next (seqFault s b kProtection pc 0 5 0)
  | .bundle b g lanes pc hints _ => .next (raise s b g pc hints.length 0 (trapAll lanes kProtection 5 pc))

/-! Control transfers. -/

/-- A control target: reduced to 56 bits, bits [1:0] taken as 0 (R96). -/
def reduceTarget (x : Addr) : Addr := x &&& ~~~(3 : Addr)

/-- The target of a displacement counted in words from the word itself (R53). -/
def relTarget (pc : Addr) (disp : BitVec 64) : Addr := reduceTarget (pc + 4 * disp.setWidth 56)

def execBra (i : BitVec 20) (s : State) : Out :=
  withForm (Form.imm []) (perLane (fun is _ _ _ t => .jump t (relTarget is.pc (immD is.hints i)))) s

def execBr (sense : Bool) (p : BitVec 3) (i : BitVec 20) (s : State) : Out :=
  withForm (Form.imm []) (perLane (fun is _ _ _ t =>
    if t.pred p != sense then .jump t (relTarget is.pc (immD is.hints i)) else .ok t)) s

def execBru (sense : Bool) (sp : BitVec 2) (i : BitVec 20) (s : State) : Out :=
  withForm (Form.imm []) (perLane (fun is _ g _ t =>
    if g.spred sp != sense then .jump t (relTarget is.pc (immD is.hints i)) else .ok t)) s

/-- The return address in a pair: bits [55:32] zero-extended in the odd register (R98). -/
def linkRegs (pc : Addr) : List Reg := [full ((pc + 4).setWidth 32), full (((pc + 4) >>> 32).setWidth 32)]

def execCall (d : Fld) (i : BitVec 20) (s : State) : Out :=
  withForm (Form.imm [vDst d 2]) (perLane (fun is _ g _ t =>
    .jump (t.setRegs (g.vi d) (linkRegs is.pc)) (relTarget is.pc (immD is.hints i)))) s

def execCallx (d : Fld) (a : Src) (s : State) : Out :=
  withForm (Form.of [vDst d 2, vSrc 1 a 2]) (perLane (fun is _ g _ t =>
    let r := g.vregsAt t a.f 2
    match poisonIn r with
    | some (kind, v) => .trap kind v 0
    | none => .jump (t.setRegs (g.vi d) (linkRegs is.pc)) (reduceTarget (regAddr r)))) s

def execRet (a : Src) (s : State) : Out :=
  withForm (Form.of [vSrc 1 a 2]) (perLane (fun _ _ g _ t =>
    let r := g.vregsAt t a.f 2
    match poisonIn r with
    | some (kind, v) => .trap kind v 0
    | none => .jump t (reduceTarget (regAddr r)))) s

/-- exit (R100). -/
def execExit (s : State) : Out :=
  withForm (Form.of []) (fun is s => (leaveLanes s is.blk is.grp is.act .exited, [])) s

def execNop (s : State) : Out := withForm (Form.of []) (perLane (fun _ _ _ _ t => .ok t)) s

/-! Windows (R102, R103). -/

/-- The detail of a window instruction's register-bound trap (R458). -/
def winDetail (uni : Bool) (w : Int) : Word :=
  putBits (if uni then 1 else 0) 10 10 ||| putBits (if w < 0 then 1023 else min (8 * w.toNat) 1023) 9 0

/-- The effect of a window write of w. -/
def winSet (uni : Bool) (w : Int) (k : Block) (g : Group) : GroupRes :=
  let lim : Int := if uni then 63 else 31
  let allot : Int := if uni then k.sregs else k.vregs
  if w < 0 ∨ lim < w ∨ allot ≤ 8 * w then .trap kRegisterBound (winDetail uni w) 0
  else if uni then .ok { g with ws := BitVec.ofNat 6 w.toNat }
  else .ok { g with wv := BitVec.ofNat 5 w.toNat }

def winReg (uni : Bool) (b : Src) (s : State) : Out :=
  withForm (Form.of [uSrc 2 b]) (perBundle (fun _ k g =>
    match poisonIn [g.sreg b.f] with
    | some (kind, v) => .trap kind v 0
    | none => winSet uni (g.sreg b.f).val.toNat k g)) s

def winImm (uni : Bool) (i : BitVec 11) (s : State) : Out :=
  withForm (Form.imm []) (perBundle (fun is k g => winSet uni (immC is.hints i).toInt k g)) s

def execWinVReg (b : Src) (s : State) : Out := winReg false b s
def execWinSReg (b : Src) (s : State) : Out := winReg true b s
def execWinVImm (i : BitVec 11) (s : State) : Out := winImm false i s
def execWinSImm (i : BitVec 11) (s : State) : Out := winImm true i s

/-! conv (R104). -/

/-- A lane begins to wait at a conv word; where no other thread of the group waits there, an episode begins. -/
def beginConv (s : State) (b g : Nat) (ls : List Nat) (pc : Addr) (hints : List Hint) (mask : Word) : State :=
  match s.block? b, s.group? b g with
  | some k, some gr =>
    let others := gr.threads.any (convAt pc hints)
    let s1 := s.blockLanes b g ls (fun _ => .conv mask)
    let s2 := if others then s1
      else s1.mapBlock b (fun k' => { k' with
        convs := ⟨g, pc, hints, s.now k.stack k.core⟩ ::
          k'.convs.filter (fun e => !(e.grp == g && e.pc == pc && e.hints == hints)) })
    releaseConv s2 b g
  | _, _ => s

def execConv (b : Src) (s : State) : Out :=
  withForm (Form.of [uSrc 2 b]) (fun is s =>
    match s.group? is.blk is.grp with
    | none => (s, [])
    | some g =>
      match poisonIn [g.sreg b.f] with
      | some (kind, v) => (s, trapAll is.act kind v)
      | none => (beginConv s is.blk is.grp is.act is.pc is.hints (g.sreg b.f).val, [])) s

/-- CONV_EPISODE_END (R104): 256 cycles after the episode began all waits at the word end together; a stop leaves the threads
at the word, and a step of another thread holds them there (R484). -/
def execConvEpisodeEnd (blk grp : Nat) (pc : Addr) (s : State) : Out :=
  match s.block? blk with
  | none => .next s
  | some k =>
    match k.convs.find? (fun e => e.grp == grp && e.pc == pc && decide (e.began + 256 ≤ s.now k.stack k.core)) with
    | none => .next s
    | some e =>
      if !ctxFree s k then .next s
      else .next ((s.mapGroup blk grp (fun g => { g with
        threads := g.threads.map (fun t => if convAt e.pc e.hints t then t.next else t) })).mapBlock blk
          (fun k => { k with convs := k.convs.filter (· != e) }))

/-! regroup (R105 to R110). -/

/-- A thread of a lane arrives at the compaction unit with its key (R106, R107). -/
def arriveRegroup (s : State) (b g l : Nat) (key : Word) : State :=
  match s.block? b with
  | none => s
  | some k =>
    (s.mapLanes b g [l] (fun _ t => { t with run := .blocked .regroupWindow, rwdog := 0 })).mapBlock b (fun k' =>
      { k' with window := some (match k'.window with
        | none => ⟨s.now k.stack k.core, [(g, l, key)]⟩
        | some w => { w with arrived := w.arrived ++ [(g, l, key)] }) })

def execRegroup (a : Src) (s : State) : Out :=
  withForm (Form.of [if a.chk then vSrc 1 a else ⟨1, false, a.f, 1, false, false, false⟩]) (fun is s =>
    match s.group? is.blk is.grp with
    | none => (s, [])
    | some g =>
      let bad := is.act.filterMap (fun l => (poisonIn [g.vreg (g.thread l) a.f]).map (fun p => (⟨l, p.1, p.2, 0⟩ : Trap)))
      let good := is.act.filter (fun l => !(bad.any (fun t => t.lane == l)))
      let wait := good.filter (fun l => (g.thread l).regs.any Reg.isEmpty)
      let go := good.filter (fun l => !wait.contains l)
      let s1 := s.blockLanes is.blk is.grp wait (fun _ => .regroupRegs)
      (go.foldl (fun s l => arriveRegroup s is.blk is.grp l (g.vreg (g.thread l) a.f).val) s1, bad)) s

/-- The key that a waiting thread's regroup word names (R105); one that is poisoned is met when the word issues again. -/
def regroupKey (s : State) (k : Block) (g : Group) (t : Thread) : Option Word :=
  match outcome (walk s k.stack k.part t.pc) t.pc .fetch k.priv with
  | .ok tr => match decodeWord (s.memWord (tr.pa t.pc.toNat)) with
    | .ok (.regroup a) => if (g.vreg t a.f).isPoisoned then none else some (g.vreg t a.f).val
    | _ => none
  | _ => none

/-- REGROUP_ARRIVAL (R106): a thread that waited for its registers arrives when none is empty. -/
def execRegroupArrival (blk grp lane : Nat) (s : State) : Out :=
  match s.block? blk, s.group? blk grp, s.thread? blk grp lane with
  | some k, some g, some t =>
    if t.run = .blocked .regroupRegs ∧ k.phase = .resident ∧ ctxFree s k ∧ !t.regs.any Reg.isEmpty then
      match regroupKey s k g t with
      | some key => .next (arriveRegroup s blk grp lane key)
      | none => .next s
    else .next s
  | _, _, _ => .next s

/-- Every thread of the block that is neither exited nor parked has arrived (R107). -/
def allArrived (k : Block) : Bool :=
  k.allThreads.all (fun t => !t.live || t.run == .parked || t.run == .blocked .regroupWindow)

/-- A thread that stays with the position of an exited lane (R28, R108). -/
def exitedAt (t : Thread) : Thread := { t with run := .exited, hints := [], monitor := none }

/-- A mover as repacking sorts it: target, key, old group, old lane, and the thread (R108). -/
abbrev Mover := Addr × Word × Nat × Nat × Thread

def moverLt (a b : Mover) : Bool :=
  decide (a.1.toNat < b.1.toNat) || (a.1 == b.1 && (decide (a.2.1.toNat < b.2.1.toNat) ||
    (a.2.1 == b.2.1 && (decide (a.2.2.1 < b.2.2.1) || (a.2.2.1 == b.2.2.1 && decide (a.2.2.2.1 < b.2.2.2.1))))))

/-- REPACK (R108, R109): movers take the pool's positions in order; positions left over hold exited lanes. The turns of yield
that remain of R87, which the table of R109 does not name, move with the thread (DESIGN CHOICE, entry 107). -/
def repack (k : Block) (w : RegroupWindow) : Block :=
  let at_ (g l : Nat) : Thread := (k.groups[g]?).elim default (fun gr => gr.thread l)
  let movers := sortBy moverLt (w.arrived.map (fun p =>
    let t := at_ p.1 p.2.1
    ((t.pc + 4, p.2.2, p.1, p.2.1, t) : Mover)))
  let inPool (g l : Nat) (t : Thread) : Bool :=
    w.arrived.any (fun p => p.1 == g && p.2.1 == l) || (!t.live && w.arrived.any (fun p => p.1 == g))
  let pool := (k.positions.filter (fun p => inPool p.1 p.2.1 p.2.2.2)).map (fun p => (p.1, p.2.1, p.2.2.2))
  let dead := pool.filterMap (fun p => if p.2.2.live then none else some p.2.2)
  let moved := movers.map (fun m => { m.2.2.2.2.goto m.1 with starv := 0, rwdog := 0 })
  let seats := (pool.map (fun p => (p.1, p.2.1))).zip (moved ++ dead.map exitedAt)
  k.mapThreads (fun g l t => ((seats.find? (fun p => p.1 == (g, l))).map (·.2)).getD t)

/-- REGROUP_WINDOW_CLOSE (R107): 256 cycles after it opened, or when every thread has arrived. A lane that repacking leaves
exited holds back no wait at conv any more (R104). A window that is open when a stop begins does not close (R110). -/
def execRegroupWindowClose (blk : Nat) (s : State) : Out :=
  match s.block? blk with
  | none => .next s
  | some k =>
    match k.window with
    | none => .next s
    | some w =>
      if ctxFree s k ∧ (w.opened + 256 ≤ s.now k.stack k.core ∨ allArrived k) then
        .next ((upto k.groups.length).foldl (fun s g => releaseConv s blk g)
          (s.mapBlock blk (fun k => { (repack k w) with window := none })))
      else .next s

/-! Uniform arithmetic (R90 to R95). -/

/-- A two-operand form on words (R90). -/
def uBin (op : Word → Word → Word) (d : Fld) (a b : Src) (s : State) : Out :=
  withForm (Form.of [uDst d, uSrc 1 a, uSrc 2 b]) (perBundle (fun _ _ g =>
    let x := g.sreg a.f
    let y := g.sreg b.f
    .ok (g.setSregs (g.si d) (carry [x, y] 1 [full (op x.val y.val)])))) s

/-- A form with an immediate (R90). -/
def uImm (op : Word → Word → Word) (d : Fld) (a : Src) (i : BitVec 11) (s : State) : Out :=
  withForm (Form.imm [uDst d, uSrc 1 a]) (perBundle (fun is _ g =>
    let x := g.sreg a.f
    .ok (g.setSregs (g.si d) (carry [x] 1 [full (op x.val ((immC is.hints i).setWidth 32))])))) s

/-- Shifts: a count is all of y read as unsigned (R90, R116). -/
def shl32 (x y : Word) : Word := if 32 ≤ y.toNat then 0 else x <<< y.toNat
def shr32 (x y : Word) : Word := if 32 ≤ y.toNat then 0 else x >>> y.toNat
def sra32 (x y : Word) : Word := if 32 ≤ y.toNat then (if x.msb then 0xFFFF_FFFF else 0) else x.sshiftRight y.toNat
def minI (x y : Word) : Word := if y.slt x then y else x
def maxI (x y : Word) : Word := if x.slt y then y else x
def minN (x y : Word) : Word := if y.ult x then y else x
def maxN (x y : Word) : Word := if x.ult y then y else x

def execSaddI32 (d : Fld) (a b : Src) (s : State) : Out := uBin (fun x y => x + y) d a b s
def execSsubI32 (d : Fld) (a b : Src) (s : State) : Out := uBin (fun x y => x - y) d a b s
def execSmulI32 (d : Fld) (a b : Src) (s : State) : Out := uBin (fun x y => x * y) d a b s
def execSandB32 (d : Fld) (a b : Src) (s : State) : Out := uBin (fun x y => x &&& y) d a b s
def execSorB32 (d : Fld) (a b : Src) (s : State) : Out := uBin (fun x y => x ||| y) d a b s
def execSxorB32 (d : Fld) (a b : Src) (s : State) : Out := uBin (fun x y => x ^^^ y) d a b s
def execSshlB32 (d : Fld) (a b : Src) (s : State) : Out := uBin shl32 d a b s
def execSshrN32 (d : Fld) (a b : Src) (s : State) : Out := uBin shr32 d a b s
def execSsraI32 (d : Fld) (a b : Src) (s : State) : Out := uBin sra32 d a b s
def execSminI32 (d : Fld) (a b : Src) (s : State) : Out := uBin minI d a b s
def execSminN32 (d : Fld) (a b : Src) (s : State) : Out := uBin minN d a b s
def execSmaxI32 (d : Fld) (a b : Src) (s : State) : Out := uBin maxI d a b s
def execSmaxN32 (d : Fld) (a b : Src) (s : State) : Out := uBin maxN d a b s

/-- A two-operand form on pairs (R91). -/
def uPair (op : DWord → DWord → DWord) (d : Fld) (a b : Src) (s : State) : Out :=
  withForm (Form.of [uDst d 2, uSrc 1 a 2, uSrc 2 b 2]) (perBundle (fun _ _ g =>
    let x := g.sregsAt a.f 2
    let y := g.sregsAt b.f 2
    .ok (g.setSregs (g.si d) (carry (x ++ y) 2 (pairRegs (op (regPair x) (regPair y))))))) s

def execSaddI64 (d : Fld) (a b : Src) (s : State) : Out := uPair (fun x y => x + y) d a b s
def execSsubI64 (d : Fld) (a b : Src) (s : State) : Out := uPair (fun x y => x - y) d a b s

def execSmovB32 (d : Fld) (a : Src) (s : State) : Out :=
  withForm (Form.of [uDst d, uSrc 1 a]) (perBundle (fun _ _ g =>
    let x := g.sreg a.f
    .ok (g.setSregs (g.si d) (carry [x] 1 [full x.val])))) s

def execSaddI32Imm (d : Fld) (a : Src) (i : BitVec 11) (s : State) : Out := uImm (fun x y => x + y) d a i s
def execSandB32Imm (d : Fld) (a : Src) (i : BitVec 11) (s : State) : Out := uImm (fun x y => x &&& y) d a i s
def execSorB32Imm (d : Fld) (a : Src) (i : BitVec 11) (s : State) : Out := uImm (fun x y => x ||| y) d a i s
def execSxorB32Imm (d : Fld) (a : Src) (i : BitVec 11) (s : State) : Out := uImm (fun x y => x ^^^ y) d a i s

def execSmovi (d : Fld) (i : BitVec 20) (s : State) : Out :=
  withForm (Form.imm [uDst d]) (perBundle (fun is _ g =>
    .ok (g.setSregs (g.si d) [full ((immD is.hints i).setWidth 32)]))) s

def execScmp (sp : BitVec 2) (c : ICond) (a b : Src) (s : State) : Out :=
  withForm (Form.of [uSrc 1 a, uSrc 2 b]) (perBundle (fun _ _ g =>
    let x := g.sreg a.f
    let y := g.sreg b.f
    match poisonIn [x, y] with
    | some (kind, v) => .trap kind v 0
    | none => .ok (g.setSpred sp (icondHolds c x.val y.val)))) s

def execSsel (d : Fld) (sp : BitVec 2) (a b : Src) (s : State) : Out :=
  withForm (Form.of [uDst d, uSrc 1 a, uSrc 2 b]) (perBundle (fun _ _ g =>
    .ok (g.setSregs (g.si d) [if g.spred sp then g.sreg a.f else g.sreg b.f]))) s

/-- Grid dimensions; a trap group reads 1 for each (R459). -/
def gridOf (s : State) (k : Block) : Nat × Nat × Nat :=
  match s.launchOf k with
  | some l => ((l.words.getD 2 0).toNat + 1, (l.words.getD 3 0).toNat + 1, (l.words.getD 4 0).toNat + 1)
  | none => (1, 1, 1)

/-- Special values of R95. A grid dimension of 2^32 does not fit sd, which then receives 0 (DESIGN CHOICE, entry 106). -/
def special (s : State) (is : Issue) (k : Block) (g : Group) (n : Nat) : Nat :=
  let gd := gridOf s k
  match n with
  | 0 => g.num
  | 1 => k.groups.length
  | 2 => k.lin % gd.1
  | 3 => k.lin / gd.1 % gd.2.1
  | 4 => k.lin / (gd.1 * gd.2.1)
  | 5 => gd.1
  | 6 => gd.2.1
  | 7 => gd.2.2
  | 8 => k.core
  | 9 => g.cluster
  | 10 => g.slot
  | 11 => k.stack
  | 12 => k.part
  | 13 => (maskOf is.act).toNat
  | 14 => (maskOf (indexes Thread.live g.threads)).toNat
  | 15 => g.wv.toNat
  | 16 => g.ws.toNat
  | 17 => k.vregs
  | 18 => k.sregs
  | 19 => k.scratchSize
  | 20 => k.shape.1 * k.shape.2.1 * k.shape.2.2
  | 21 => k.shape.1
  | 22 => k.shape.2.1
  | _ => k.shape.2.2

def execSrdsp (d : Fld) (n : BitVec 6) (s : State) : Out :=
  withForm (Form.of [uDst d]) (perBundle (fun is k g =>
    .ok (g.setSregs (g.si d) [full (BitVec.ofNat 32 (special s is k g n.toNat))]))) s

end Sys2Proof.Machine
end

