-- ==== Sys2Proof/Machine/Placement.lean ====
section
/-!
DEFINITION. Placing blocks on cores: residency (R29, R30), the start-up state of threads (R33, R197), priority (R431),
the vault check and deferral (R432 to R436), restore (R473), readings and the refresh charge (R434, R437).
-/

namespace Sys2Proof.Machine

/-! Residency (R29, R30). -/

/-- What a block needs of a core. -/
structure Needs where
  groups : Nat
  vregs : Nat
  sregs : Nat
  scratch : Nat
  deriving DecidableEq, Repr, Inhabited

def residentOn (s : State) (stack core : Nat) : List Block :=
  s.blocks.filter (fun k => k.phase == .resident && k.stack == stack && k.core == core)

/-- Group slots in use on a lane cluster. -/
def slotsUsed (ks : List Block) (cl : Nat) : List Nat :=
  ks.flatMap (fun k => (k.groups.filter (fun g => g.cluster == cl)).map (·.slot))

/-- Vector registers of each lane in use on a lane cluster (R24). -/
def vregsUsed (ks : List Block) (cl : Nat) : Nat :=
  (ks.map (fun k => (k.groups.filter (fun g => g.cluster == cl)).length * k.vregs)).sum

/-- Groups of n that rotation from a lane cluster deals to its j-th. -/
def dealt (n j : Nat) : Nat := (n + 3 - j) / 4

def rotationFits (ks : List Block) (z : Needs) (start : Nat) : Bool :=
  (upto 4).all (fun j =>
    let cl := (start + j) % 4
    decide ((slotsUsed ks cl).length + dealt z.groups j ≤ 16) &&
    decide (vregsUsed ks cl + dealt z.groups j * z.vregs ≤ 1024))

/-- The lane cluster with the most free vector registers, the lowest on a tie (R30). -/
def freest (ks : List Block) : Nat :=
  (upto 4).foldl (fun b c => if vregsUsed ks c < vregsUsed ks b then c else b) 0

/-- The lane cluster of group 0, where the block fits the core (R29, R30). -/
def dealStart (ks : List Block) (z : Needs) : Option Nat :=
  let sum (f : Block → Nat) : Nat := (ks.map f).sum
  if sum (fun k => k.groups.length * k.sregs) + z.groups * z.sregs ≤ 8192 ∧
      sum (·.scratchSize) + z.scratch ≤ 393216 then
    ((upto 4).map (fun j => (freest ks + j) % 4)).find? (rotationFits ks z)
  else none

def Block.needs (k : Block) : Needs := ⟨k.groups.length, k.vregs, k.sregs, k.scratchSize⟩

/-- The scratchpad reserve of a declared size (R29). -/
def reserveOf (declared : Nat) : Nat :=
  if 262144 < declared then 393216
  else if declared ≤ 1024 then 1024
  else 2 ^ (Nat.log2 (declared - 1) + 1)

/-- A thread at start-up (R33); its generator is set when it is placed (R197). -/
def Thread.fresh (tid : Nat) (pc : Addr) (vregs : Nat) (live : Bool) : Thread where
  tid := tid
  pc := pc
  hints := []
  run := if live then .ready else .exited
  preds := 0
  regs := List.replicate vregs Reg.mk0
  fmode := 0
  gen := 0
  starv := 0
  yieldTurns := 0
  monitor := none
  gatePending := 0
  nbarCount := List.replicate 16 0
  unwatched := false
  bpSkip := 0
  rwdog := 0
  waitFrom := 0
  behind := []
  held := none

def Queue.fresh : Queue := ⟨none, false, [], [], []⟩

/-- Barriers of a new block (R33, R232, R237). -/
def Gate.fresh : Gate := ⟨false, [], 0, none, false, none, none, none, [], []⟩
def NBar.fresh : NBar := ⟨0, 0, none, none, none⟩

/-- A group at start-up: lanes past the shape are exited (R28, R33). -/
def Group.fresh (num threads : Nat) (pc : Addr) (vregs sregs : Nat) : Group where
  num := num
  cluster := 0
  slot := 0
  threads := (upto 32).map (fun l => Thread.fresh (32 * num + l) pc vregs (decide (32 * num + l < threads)))
  sregs := List.replicate sregs Reg.mk0
  spreds := 0
  wv := 0
  ws := 0
  queues := List.replicate 16 Queue.fresh
  deferred := none
  cycleHi := 0
  evgrp := false

/-- A block that waits for its first placement (R430). -/
def Block.fresh (launch : Option Nat) (lin stack part : Nat) (job : Word) (trap priv : Bool) (shape : Nat × Nat × Nat)
    (vregs sregs scratch : Nat) (entry : Addr) (order : Nat) : Block where
  launch := launch
  lin := lin
  stack := stack
  core := 0
  part := part
  job := job
  trapGroup := trap
  priv := priv
  phase := .waiting
  saved := false
  shape := shape
  vregs := vregs
  sregs := sregs
  scratchSize := scratch
  entry := entry
  order := order
  groups :=
    let n := shape.1 * shape.2.1 * shape.2.2
    (upto (ceilDiv n 32)).map (fun g => Group.fresh g n entry vregs sregs)
  scratch := []
  scratchPoison := []
  gates := List.replicate 16 Gate.fresh
  nbars := List.replicate 16 NBar.fresh
  seq := Sequencer.clear .idle 0
  accs := List.replicate 16 none
  accGen := 0
  window := none
  convs := []
  missing := []
  charge := (0, 1)
  unread := false
  deferredFrom := none
  heldCol := none
  issued := 0
  bwdog := 0
  evictableFrom := none
  snap := ⟨0, 0, 0, 0, 0⟩
  snapDue := []
  snapLatched := []

/-! Launch records (R421). -/

def recEntry (ws : List Word) : Addr := (ws.getD 1 0 ++ ws.getD 0 0).setWidth 56
def recShape (ws : List Word) : Nat × Nat × Nat :=
  let w := ws.getD 5 0
  (bits w 9 0 + 1, bits w 19 10 + 1, bits w 29 20 + 1)
def recVregs (ws : List Word) : Nat := 8 * (bits (ws.getD 6 0) 4 0 + 1)
def recSregs (ws : List Word) : Nat := 8 * (bits (ws.getD 6 0) 13 8 + 1)
def recScratch (ws : List Word) : Nat := reserveOf (bits (ws.getD 7 0) 18 0)
/-- Blocks placed together: 1 without chains. -/
def recChain (ws : List Word) : Nat := bits (ws.getD 8 0) 25 24 + 1
def recClass (ws : List Word) : Nat := bits (ws.getD 8 0) 11 8
def recPrio (ws : List Word) : Nat := bits (ws.getD 8 0) 5 0
def recJob (ws : List Word) : Word := ws.getD 12 0

/-- The page of an entry point is present and privileged (R451). -/
def privPage (s : State) (stack part : Nat) (entry : Addr) : Bool :=
  match walk s stack part entry with
  | .page t => t.privileged
  | _ => false

/-- The next block of a launch, waiting for its first placement. -/
def launchBlock (s : State) (n lin : Nat) (l : Launch) : Block :=
  let ws := l.words
  Block.fresh (some n) lin l.stack (recPart ws) (recJob ws) false (l.dispatcher || l.priv && privPage s l.stack (recPart ws) (recEntry ws))
    (recShape ws) (recVregs ws) (recSregs ws) (recScratch ws) (recEntry ws) n

/-- The next block, or chain, of a launch begins to wait (R430). -/
def queueNext (s : State) (n : Nat) : State :=
  match s.launches[n]? with
  | none => s
  | some l =>
    if l.cancelled ∨ l.blocks ≤ l.next then s
    else { s with blocks := s.blocks ++ (upto (recChain l.words)).map (fun i => launchBlock s n (l.next + i) l) }

/-! Heat and bandwidth (R433 to R435): temperatures in tenths of a degree, bandwidth in hundredths of GB/s. -/

def classHeat (c : Nat) : Nat := [1, 2, 4, 6, 8, 12, 16, 20].getD c 0
def classTraffic (c : Nat) : Nat := [4, 8, 16, 64, 32, 48, 48, 128].getD c 0
/-- The forecast rise of a block is half a degree for each unit of heat. -/
def classRise (c : Nat) : Nat := 5 * classHeat c

def temperLevel (t : Nat) : Nat :=
  if t ≤ 850 then 0 else if t ≤ 950 then 1 else if t ≤ 1050 then 2 else if t ≤ 1150 then 3 else 4

/-- The refresh fraction in hundredths. -/
def refreshFraction (level : Nat) : Nat := [3, 6, 12, 24, 48].getD level 48
/-- 256 GB/s × (1 − r). -/
def usableBandwidth (level : Nat) : Nat := 256 * (100 - refreshFraction level)

/-- The class of a block: its launch's, or 0 for a trap group (R459). -/
def blockClass (s : State) (k : Block) : Nat := (s.launchOf k).elim 0 (fun l => recClass l.words)

/-- The floors owed at a vault. -/
def floorsAt (s : State) (stack vault : Nat) : Nat :=
  ((s.parts.filter (·.live)).map (fun p =>
    (((p.on.getD stack PartStack.reset).params.floors.filter (fun f => f.1 == vault)).map (·.2)).sum)).sum

def inColumn (s : State) (stack col : Nat) : List Block :=
  s.blocks.filter (fun k => k.phase == .resident && k.stack == stack && k.core / 4 == col)

def columnTraffic (s : State) (stack col : Nat) : Nat :=
  ((inColumn s stack col).map (fun k => classTraffic (blockClass s k))).sum

/-- The vault check on a forecast (R435). -/
def vaultAdmits (s : State) (stack col forecast : Nat) : Bool :=
  decide (forecast ≤ 1150) && decide (floorsAt s stack col ≤ usableBandwidth (temperLevel forecast))

/-! Candidates (R431, R432, R436). -/

/-- The columns that a partition holds on a stack. -/
def columnsOf (s : State) (part stack : Nat) : List Nat := (s.partOn part stack).params.columns

/-- Members placed together with a block: its chain before the first placement, and the members of a saved chain
(R296, R432). -/
def placedWith (s : State) (b : Nat) : List Nat :=
  match s.block? b with
  | none => []
  | some k =>
    if k.saved then
      if k.seq.chain.isSome then
        indexes (fun (o : Block) => o.launch == k.launch && o.stack == k.stack && o.core / 4 == k.core / 4 &&
          o.saved && (o.phase == .waiting || o.phase == .deferred || o.phase == .stopped) && o.seq.chain == k.seq.chain) s.blocks
      else [b]
    else
      match s.launchOf k with
      | none => [b]
      | some l =>
        let n := recChain l.words
        indexes (fun (o : Block) => o.launch == k.launch && !o.saved && (o.phase == .waiting || o.phase == .deferred) &&
          o.lin / n == k.lin / n) s.blocks

/-- The core of a column that a member of several takes: its place in its chain (R292, R432). -/
def memberCore (s : State) (k : Block) (col : Nat) : Nat :=
  match k.seq.chain, s.launchOf k with
  | some (_, start), _ => 4 * col + start + k.seq.pos
  | none, some l => 4 * col + k.lin % recChain l.words
  | none, none => 4 * col

/-- Copies of a saved block (R268). -/
def savedCopies (s : State) (b : Nat) : Nat := (s.copies.filter (fun c => c.blk == b)).length

/-- Banks that saved grants need (R296). -/
def savedBanks (k : Block) : Nat := ((k.accs.filterMap id).map (·.banks)).sum

/-- What a core must offer a saved block besides room (R268, R296). -/
def restoreFits (s : State) (b : Nat) (k : Block) (core : Nat) : Bool :=
  !k.saved || (decide (savedCopies s b + copiesOn s k.stack core ≤ 256) &&
    decide (savedBanks k ≤ banksFree s k.stack core) &&
    (k.seq.state != .running || (s.core k.stack core).array.isNone))

/-- A core admits a block. -/
def coreAdmits (s : State) (b : Nat) (k : Block) (core : Nat) : Bool :=
  (dealStart (residentOn s k.stack core) k.needs).isSome && restoreFits s b k core

/-- A column is held for another block (R436). -/
def heldFor (s : State) (stack col : Nat) : Option Nat :=
  (indexes (fun (k : Block) => k.stack == stack && k.heldCol == some col &&
    (k.phase == .waiting || k.phase == .deferred)) s.blocks).head?

/-- A place for a block: the cores of its members. -/
abbrev Place := List (Nat × Nat)

/-- A block that goes on any core of its column: it belongs to no chain (R292, R296, R432). -/
def unchained (s : State) (k : Block) : Bool :=
  if k.saved then k.seq.chain.isNone else (s.launchOf k).elim true (fun l => recChain l.words == 1)

/-- The places with room, each with its column (R29, R432). -/
def placesOf (s : State) (b : Nat) : List (Nat × Place) :=
  match s.block? b with
  | none => []
  | some k =>
    let cols := (columnsOf s k.part k.stack).filter (fun c => k.trapGroup ||
      (match heldFor s k.stack c with
        | some h => (placedWith s h).contains b
        | none => true))
    if unchained s k then cols.flatMap (fun c => ((upto 4).map (fun i => 4 * c + i)).filterMap (fun core =>
      if coreAdmits s b k core then some (c, [(b, core)]) else none))
    else cols.filterMap (fun c =>
      let pl := (placedWith s b).filterMap (fun m => (s.block? m).map (fun o => (m, memberCore s o c)))
      if !pl.isEmpty && pl.all (fun p => p.2 / 4 == c &&
          (s.block? p.1).elim false (fun o => coreAdmits s p.1 o p.2)) then some (c, pl) else none)

/-- The forecast of a vault with the members of a place added (R434). -/
def forecastWith (s : State) (stack col : Nat) (pl : Place) : Nat :=
  (s.vault stack col).forecast + (pl.map (fun p => (s.block? p.1).elim 0 (fun k => classRise (blockClass s k)))).sum

/-- The places that pass the vault check, which a trap group does not meet (R459). -/
def goodPlaces (s : State) (b : Nat) : List (Nat × Place) :=
  match s.block? b with
  | none => []
  | some k => (placesOf s b).filter (fun p => k.trapGroup || vaultAdmits s k.stack p.1 (forecastWith s k.stack p.1 p.2))

/-- The choice of R432: forecast level, declared traffic, core number. -/
def choosePlace (s : State) (b : Nat) : Option Place :=
  let stack := (s.block? b).elim 0 (·.stack)
  let key (p : Nat × Place) : Nat × Nat × Nat :=
    (temperLevel (forecastWith s stack p.1 p.2), columnTraffic s stack p.1, (p.2.headD (0, 0)).2)
  let lt (p q : Nat × Place) : Bool :=
    let a := key p
    let c := key q
    decide (a.1 < c.1) || (a.1 == c.1 && (decide (a.2.1 < c.2.1) || (a.2.1 == c.2.1 && decide (a.2.2 < c.2.2))))
  ((sortBy lt (goodPlaces s b)).head?).map (·.2)

/-- The wait of some thread of an evicted block has ended, as that of one that arrived in a regroup window has (R110), or
its sequencer's mwait is satisfied, or nothing of it is left to wait for; and it counts no missing page any more (R157, R467;
entry 61). -/
def wakes (s : State) (b : Nat) (k : Block) : Bool :=
  k.missing.isEmpty &&
  (k.positions.any (fun p => match p.2.2.2.run with
    | .ready | .blocked .regroupWindow | .blocked (.pages _ _) => true
    | .blocked w => waitOver s b p.1 k p.2.2.1 p.2.1 p.2.2.2 w
    | _ => false) ||
  s.accesses.any (fun a => a.blk == b && a.atReplay) ||
  (match k.seq.wait with
    | .mwait n c => k.seq.state == .running && decide (c ≤ (k.nbars.getD n NBar.fresh).a.toNat)
    | _ => false) ||
  (k.allThreads.all (fun t => !t.live) && !s.copies.any (fun c => c.blk == b) && !s.calls.any (fun c => c.blk == b)))

/-- The context of a block is not stopped (R468). -/
def ctxRuns (s : State) (k : Block) : Bool := (s.ctx? k.part k.stack k.job).elim true (fun c => c.stop == .running)

/-- Accesses of a block that can only be performed after its return: loads at their replay, and what must follow one
(R157). -/
def heldToReturn (s : State) (b : Nat) : List Nat :=
  ((s.accesses.filter (fun a => a.blk == b)).foldl (fun held a =>
    if a.atReplay || held.any (fun e => holdsBack e a || a.after.contains e.id) then held ++ [a] else held) []).map (·.id)

/-- Fills that must arrive before a saved block is restored (R469). -/
def fillsDue (s : State) (b : Nat) : Bool := (pendingFills s b).any (fun a => !(heldToReturn s b).contains a.id)

/-- A block that asks for a place: one that waits, or an evicted one whose wake condition holds and whose copies have
ended (R269, R430, R467, R469). -/
def asks (s : State) (b : Nat) (k : Block) : Bool :=
  ctxRuns s k &&
  (match k.phase with
    | .waiting | .deferred => !k.saved || !fillsDue s b
    | .evicted => wakes s b k && !s.copies.any (fun c => c.blk == b && c.slot) && !fillsDue s b
    | _ => false)

/-- The effective priority of a block (R431, R459). -/
def effPrio (s : State) (k : Block) : Nat :=
  if k.trapGroup then 47
  else
    let d := match k.deferredFrom with
      | some t => (s.usOf k.stack - t) / 10000
      | none => 0
    min (((s.launchOf k).elim 0 (·.prio)) + d) (s.partOn k.part k.stack).params.ceiling

/-- The order of R431; a trap group comes before every other block. -/
def placedBefore (s : State) (j k : Block) : Bool :=
  if j.trapGroup != k.trapGroup then j.trapGroup
  else
    let p := effPrio s j
    let q := effPrio s k
    decide (q < p) || (p == q && ((j.saved && !k.saved) || (j.saved == k.saved && decide (j.order < k.order))))

/-- Every block that is placed together with a block asks for a place. -/
def allAsk (s : State) (b : Nat) : Bool := (placedWith s b).all (fun m => (s.block? m).elim false (asks s m))

/-- No block of the partition on the stack that comes earlier has a place. -/
def firstToPlace (s : State) (b : Nat) (k : Block) : Bool :=
  ((upto s.blocks.length).zip s.blocks).all (fun p =>
    p.1 == b || (placedWith s b).contains p.1 ||
      !(p.2.part == k.part && p.2.stack == k.stack && asks s p.1 p.2 && allAsk s p.1 && placedBefore s p.2 k) ||
      (choosePlace s p.1).isNone)

/-! Placing (R30, R33, R473). -/

/-- Cluster and slot of each group of n, dealt from a lane cluster: the lowest free slots in order (entry 4). -/
def dealGroups (ks : List Block) (start n : Nat) : List (Nat × Nat) :=
  (upto n).map (fun g =>
    let cl := (start + g) % 4
    let free := (upto 16).filter (fun i => !(slotsUsed ks cl).contains i)
    (cl, free.getD (g / 4) 0))

/-- The generator of a lane (R197). -/
def startGen (lane slot cluster core stack : Nat) : DWord :=
  BitVec.ofNat 64 (1 + lane + 32 * slot + 512 * cluster + 2048 * core + 2 ^ 18 * stack)

/-- A core is given the first block of a launch: its instruction cache is invalidated (R73). -/
def freshLaunch (s : State) (stack core : Nat) (launch : Option Nat) : State :=
  match launch with
  | none => s
  | some n =>
    if (s.core stack core).icacheLaunch.contains n then s
    else s.mapCore stack core (fun c => { c with
      icache := []
      icacheLaunch := n :: c.icacheLaunch
      icacheFrom := s.order.writes })

/-- The first instruction of each thread of a launch is an acquire of what its launch released (R428). -/
def launchAcquire (s : State) (b : Nat) (k : Block) : State :=
  match k.launch, k.saved with
  | some n, false => k.allThreads.foldl (fun s t => s.takeChan (.thread b t.tid) (.launch n)) s
  | _, _ => s

/-- Lane clusters with no resident group are in no mode when a block comes to the core (R495). -/
def wakeClusters (s : State) (stack core : Nat) : State :=
  s.mapCore stack core (fun c => { c with clusters := mapFrom (fun i (cl : Cluster) =>
    if (groupsOn s stack core i).isEmpty then { cl with near := false, streak := 0 } else cl) 0 c.clusters })

/-- A block becomes resident on a core: its groups are dealt; a first residency sets the generators (R30, R73, R197,
R428). -/
def settleOn (s : State) (b core : Nat) : State :=
  match s.block? b with
  | none => s
  | some k =>
    let ks := residentOn s k.stack core
    let seats := dealGroups ks ((dealStart ks k.needs).getD 0) k.groups.length
    let now := s.now k.stack core
    (launchAcquire (freshLaunch (wakeClusters s k.stack core) k.stack core k.launch) b k).mapBlock b (fun k => { k with
      core := core
      phase := .resident
      deferredFrom := none
      heldCol := none
      unread := true
      evictableFrom := none
      groups := mapFrom (fun g (gr : Group) =>
        let p := seats.getD g (0, 0)
        { gr with
          cluster := p.1
          slot := p.2
          threads := mapFrom (fun l (t : Thread) => { t with
            gen := if k.saved then t.gen else startGen l p.2 p.1 core k.stack
            waitFrom := now }) 0 gr.threads }) 0 k.groups })

/-- A thread at its restore: a wait at conv or regroup begins afresh at the word, and a monitor is translated again (R104,
R110, R241). -/
def Thread.restore (t : Thread) : Thread :=
  { t with
    run := match t.run with
      | .blocked (.conv _) | .blocked .regroupWindow | .blocked .regroupRegs => .ready
      | r => r
    monitor := t.monitor.map (fun m => { m with stale := true }) }

/-- Requests for accumulator banks that a block still makes, the earliest first: one that has been granted is over (R299). -/
def bankRequests (b : Nat) (k : Block) : List (Nat × Nat × Nat) :=
  sortBy (fun x y => decide (x.1 < y.1)) (nub (k.allThreads.filterMap (fun t => match t.run with
    | .blocked (.accBanks t n) => if k.accs.any (fun g => g.any (·.ticket == t)) then none else some (t, b, n)
    | _ => none)))

/-- Pending sequencers of a core are granted its array in the order in which they entered that state (R283). -/
def queueSeq (s : State) (b : Nat) (q : List Nat) : List Nat :=
  let since (i : Nat) : Nat := (s.block? i).elim 0 (·.seq.since)
  insertBy (fun x y => decide (since x < since y)) b q

/-- What a restore reinstates on its core (R268, R283, R296, R299, R371, R473): copies take slots, the array and the queues
of the core are taken again, texture bindings are as the new clusters give them, and monitors are checked. -/
def reinstate (s : State) (b : Nat) : State :=
  match s.block? b with
  | none => s
  | some k =>
    let s1 : State := { s with copies := s.copies.map (fun (c : Copy) =>
      if c.blk == b then { c with slot := true, core := k.core } else c) }
    let s2 := s1.mapCore k.stack k.core (fun c => { c with
      array := if k.seq.state == .running then some b else c.array
      seqQueue := if k.seq.state == .pending then queueSeq s b c.seqQueue else c.seqQueue
      accQueue := c.accQueue ++ bankRequests b k })
    let s3 := s2.mapBlock b (fun k => k.mapThreads (fun _ _ t => t.restore))
    k.positions.foldl (fun s p => checkMonitor s b p.1 p.2.1) s3

/-- Blocks take a place: the vault's forecast rises, and the next block of a launch begins to wait. -/
def takePlace (s : State) (pl : Place) : State :=
  pl.foldl (fun s p =>
    match s.block? p.1 with
    | none => s
    | some k =>
      let s1 := (settleOn s p.1 p.2).mapVault k.stack (p.2 / 4) (fun v => { v with
        forecast := v.forecast + classRise (blockClass s k) })
      let s2 := if k.saved then reinstate s1 p.1 else s1
      let s3 := if k.phase = .deferred then markDeferred s2 k else s2
      match k.launch, k.saved with
      | some n, false =>
        let s4 : State := { s3 with launches := modifyAt (fun l => { l with next := l.next + 1 }) n s3.launches }
        let left := ((s4.launches[n]?).elim 0 (·.next)) % ((s4.launches[n]?).elim 1 (fun l => recChain l.words))
        if left = 0 then queueNext s4 n else s4
      | _, _ => s3) s

/-- A block with no place that passes the vault check: deferred where some core has room, and else waiting (R430,
R435). -/
def waitOrDefer (s : State) (b : Nat) : State :=
  let ms := placedWith s b
  let room := !(placesOf s b).isEmpty
  ms.foldl (fun s m =>
    match s.block? m with
    | none => s
    | some k =>
      let s1 := s.mapBlock m (fun k => { k with
        phase := if room then .deferred else .waiting
        deferredFrom := if room then some (k.deferredFrom.getD (s.usOf k.stack)) else none })
      markDeferred s1 k) s

/-- A block asks for a place, and is placed where its turn has come. -/
def tryPlace (s : State) (b : Nat) : State :=
  match s.block? b with
  | none => s
  | some k =>
    if !asks s b k || !allAsk s b then s
    else
      match choosePlace s b with
      | some pl => if firstToPlace s b k then takePlace s pl else s
      | none => if k.trapGroup then s else waitOrDefer s b

/-- BLOCK_PLACEMENT (R430 to R435): a block that waits for its first placement. -/
def execBlockPlacement (blk : Nat) (s : State) : Out :=
  .next (if (s.block? blk).elim true (·.saved) then s else tryPlace s blk)

/-- BLOCK_RESTORE (R467, R473): a saved block that waits, or an evicted one that wakes. -/
def execBlockRestore (blk : Nat) (s : State) : Out :=
  match s.block? blk with
  | none => .next s
  | some k =>
    if !k.saved || !asks s blk k then .next s
    else .next (tryPlace (s.mapBlock blk (fun k => { k with phase := if k.phase == .evicted then .waiting else k.phase })) blk)

/-! Holding a column (R436). -/

/-- A column of a stack as it would be without its blocks, their copies and what they hold of its cores. -/
def bareColumn (s : State) (stack col : Nat) : State :=
  let s1 : State := { s with
    blocks := s.blocks.map (fun (k : Block) =>
      if k.phase == .resident && k.stack == stack && k.core / 4 == col then { k with phase := .stopped } else k)
    copies := s.copies.filter (fun c => !(c.stack == stack && c.core / 4 == col && c.slot)) }
  (upto 4).foldl (fun s i => s.mapCore stack (4 * col + i) (fun c => { c with array := none })) s1

/-- The column admits the members of a block when it holds no other. -/
def columnAdmitsEmpty (s : State) (b : Nat) (col : Nat) : Bool :=
  (placesOf (bareColumn s ((s.block? b).elim 0 (·.stack)) col) b).any (fun p => p.1 == col)

/-- The column of the partition with the lowest reading that admits the block when empty. -/
def columnToHold (s : State) (b : Nat) (k : Block) : Option Nat :=
  (sortBy (fun a c => decide ((s.vault k.stack a).reading < (s.vault k.stack c).reading) ||
      ((s.vault k.stack a).reading == (s.vault k.stack c).reading && decide (a < c)))
    ((columnsOf s k.part k.stack).filter (columnAdmitsEmpty s b))).head?

/-- Deferred for 100 ms without a break, and not yet held. -/
def mayHold (s : State) (k : Block) : Bool :=
  k.phase == .deferred && k.heldCol.isNone && k.deferredFrom.elim false (fun t => decide (t + 100000 ≤ s.usOf k.stack))

/-- DEFERRAL_HOLD (R436): one block of a partition at a time, in the order of R431. -/
def execDeferralHold (blk : Nat) (s : State) : Out :=
  match s.block? blk with
  | none => .next s
  | some k =>
    let ours := s.blocks.filter (fun o => o.part == k.part)
    if mayHold s k && !ours.any (fun o => (o.phase == .deferred || o.phase == .waiting) && o.heldCol.isSome) &&
        !ours.any (fun o => mayHold s o && placedBefore s o k) then
      .next (s.mapBlock blk (fun o => { o with heldCol := columnToHold s blk k }))
    else .next s

/-! Readings and charges (R434, R437). -/

/-- Exact sum of two fractions. -/
def addFrac (a b : Nat × Nat) : Nat × Nat :=
  let n := a.1 * b.2 + b.1 * a.2
  let d := a.2 * b.2
  (n / Nat.gcd n d, d / Nat.gcd n d)

/-- The charge of one interval of 10 µs: 8,500 × r × h / H vault-cycles. -/
def chargeStep (s : State) (k : Block) : Nat × Nat :=
  let h := classHeat (blockClass s k)
  let all := ((inColumn s k.stack (k.core / 4)).map (fun o => classHeat (blockClass s o))).sum
  let v := s.vault k.stack (k.core / 4)
  (85 * refreshFraction (temperLevel (if k.unread then v.forecast else v.reading)) * h, max 1 all)

/-- REFRESH_CHARGE (R437): every resident block of a stack accrues its share. -/
def execRefreshCharge (stack : Nat) (s : State) : Out :=
  .next { s with blocks := s.blocks.map (fun (k : Block) =>
    if k.phase == .resident && k.stack == stack then { k with charge := addFrac k.charge (chargeStep s k) } else k) }

/-- k.charge: units of 256 vault-cycles, rounded down and saturating. -/
def chargeWord (k : Block) : Word := BitVec.ofNat 32 (min (k.charge.1 / k.charge.2 / 256) (2 ^ 32 - 1))

end Sys2Proof.Machine
end

