-- ==== Sys2Proof/Machine/Stops.lean ====
section
/-!
DEFINITION. Stopping a context (R468 to R473, R268, R296, R369), eviction (R465 to R467) and time slices (R438, R439).
-/

namespace Sys2Proof.Machine

/-! Saving (R57, R104, R110, R469, R471). -/

/-- A wait that its instruction begins anew when it issues again, at its first hint word. -/
def Wait.restarts : Wait → Bool
  | .regs _ | .pages _ _ | .nbar _ | .room _ _ | .claim _ | .fsem _ _ | .counter _ | .copySlot _ | .launch _ _
  | .fence _ | .own | .sweep | .link _ | .saveFills _ | .conv _ | .regroupRegs | .regroupWindow => true
  | _ => false

/-- A thread as it is saved: before its first hint word, with the wait that it is in (R57, R471). -/
def Thread.save (t : Thread) : Thread :=
  match t.run with
  | .ready => t.rewind
  | .blocked w => if w.restarts then t.rewind else t
  | _ => t

/-- A block leaves its core with its state kept (R466, R468). -/
def saveBlock (s : State) (b : Nat) (ph : Phase) : State :=
  (dropCoreClaims s b).mapBlock b (fun k => { (k.mapThreads (fun _ _ t => t.save)) with
    phase := ph
    saved := true
    window := none
    convs := []
    evictableFrom := none
    groups := k.groups.map (fun g => { g with deferred := none, threads := g.threads.map Thread.save }) })

/-! Stop. -/

/-- What asking for a stop makes of a context's stop state. -/
def stopAsked (debug : Bool) : StopState → StopState
  | .running => .stopping debug
  | .stopping d => .stopping (d || debug)
  | .stopped d => .stopped (d || debug)

/-- A stop is asked of a context; one for the debugger or halt lasts until it is resumed (R468, R481, R482). -/
def requestStop (s : State) (part stack : Nat) (job : Word) (debug : Bool) : State :=
  s.mapCtx part stack job (fun c => { c with stop := stopAsked debug c.stop })

/-- Blocks of a context by phase. -/
def ctxBlocks (s : State) (part stack : Nat) (job : Word) (p : Phase → Bool) : List Nat :=
  indexes (fun (k : Block) => k.part == part && k.stack == stack && k.job == job && p k.phase) s.blocks

/-- Resident and evicted blocks, which a stop saves. -/
def onDevice (p : Phase) : Bool := p == .resident || p == .evicted

/-- A call that waits in a reorder window, at or before a bank, or under R360 (R369). -/
def callWaits (s : State) (c : Call) : Bool :=
  match c.at_ with
  | .window | .mesh => true
  | .unit => (recMark c.words).isSome && (c.unitType == 1 || (c.unitType != 0 && !turnCome s c))
  | _ => false

/-- The waiting calls of a block go back to the front of their call buffers in their order of entry (R369). -/
def withdrawCalls (s : State) (b : Nat) : State :=
  let gone := s.calls.filter (fun c => c.blk == b && callWaits s c)
  let s1 : State := { s with calls := s.calls.filter (fun c => !(gone.any (fun d => d.id == c.id))) }
  let back (g q : Nat) : List CallRec :=
    (gone.filter (fun c => c.grp == g && c.q == q)).map (fun c => ⟨c.words, c.lane, c.pushed, s.callSeen c.id⟩)
  let refill (g : Nat) (gr : Group) : Group :=
    { gr with queues := mapFrom (fun q (qu : Queue) => { qu with calls := back g q ++ qu.calls }) 0 gr.queues }
  let s2 := s1.mapBlock b (fun k => { k with groups := mapFrom refill 0 k.groups })
  let s3 := gone.foldl (fun s c => match recMark c.words with
    | some h => if c.unitType = 0 then s.mapMark c.part h (fun m => { m with draw := false }) else s
    | none => s) s2
  (nub (gone.filterMap (fun c => (recMark c.words).map (fun h => (c.part, markEntry h))))).foldl
    (fun s p => settle s p.1 p.2) s3

/-- CONTEXT_STOP (R468): issue has ended; the waiting calls are withdrawn. -/
def execContextStop (part stack : Nat) (job : Word) (s : State) : Out :=
  match s.ctx? part stack job with
  | none => .next s
  | some c =>
    match c.stop with
    | .stopping _ => .next ((ctxBlocks s part stack job onDevice).foldl withdrawCalls s)
    | _ => .next s

/-- Nothing of a block remains in any unit, and its rows have left the array (R296, R369). -/
def quiet (s : State) (b : Nat) (k : Block) : Bool :=
  k.seq.rows.isEmpty && !s.calls.any (fun c => c.blk == b && (c.at_ == .unit || c.at_ == .window || c.at_ == .mesh))

/-- The return records of a block that are still to be sent go to its image, whatever their number (R369). -/
def flushReturns (s : State) (b : Nat) : State :=
  (s.calls.filter (fun c => c.blk == b)).foldl (fun s c =>
    settleCall (c.out.foldl (fun s1 r => deliver s1 c.blk c.grp c.q c.lane r (s.callSeen c.id))
      { s with calls := s.calls.filter (fun d => d.id != c.id) }) c) s

/-- Stopped blocks wait for a place again (R430). -/
def restartCtx (s : State) (part stack : Nat) (job : Word) : State :=
  ((ctxBlocks s part stack job (fun p => p == .stopped)).foldl (fun s b => s.mapBlock b (fun k => { k with phase := .waiting })) s).mapCtx
    part stack job (fun c => { c with stop := .running })

/-- Jobs of a partition that have a context on a stack. -/
def partJobs (s : State) (part stack : Nat) : List Word :=
  (s.ctxs.filter (fun c => c.part == part && c.stack == stack && !c.terminated)).map (·.job)

/-! Parameters of a partition (R325, R440, R441). -/

/-- A stack completes a command with a status (R504). -/
def answerCmd (s : State) (stack code : Nat) : State :=
  s.mapStack stack (fun k => { k with cmdStatus := k.cmdStatus ++ [code] })

/-- The surfaces of a partition that own tiles on a stack. -/
def surfacesOn (s : State) (part stack : Nat) : List (Nat × SrfEntry) :=
  ((upto (s.part part).srfs.length).zip (s.part part).srfs).filter (fun p => p.2.kind == 1 && decide (0 < p.2.ownedBy stack))

/-- Counts and first banks of surfaces on n banks of a stack, so that R323 holds at every bank; none where a surface finds no
first bank beside those before it (R318, R325; entry 110). -/
def refit (m n stack : Nat) : List SrfEntry → List (Nat × SrfEntry) → Option (List (Nat × SrfEntry))
  | _, [] => some []
  | fixed, (i, e) :: rest =>
    let at_ (f : Nat) : SrfEntry := { e with
      count := modifyAt (fun _ => min n (e.ownedBy stack)) stack e.count
      first := modifyAt (fun _ => f) stack e.first }
    match (upto n).filter (fun f => (upto n).all (bankFits (at_ f :: fixed) stack n)) with
    | [] => none
    | f :: fs =>
      let x := at_ ((f :: fs).getD (Config.firstBank (m + i) % (fs.length + 1)) f)
      (refit m n stack (x :: fixed) rest).map ((i, x) :: ·)

/-- A surface's place on a stack changes: its resident tiles whose bank is another leave theirs and are in motion until they
have reached the new one (R322, R325). -/
def moveSurface (s : State) (part stack : Nat) (bs : List Nat) (i : Nat) (e : SrfEntry) : State :=
  let x := s.srf part i
  let ts := (x.tileSt.filter (fun q => q.2 == .resident && x.owner q.1 == stack &&
    (tileBank s part x q.1).2 != bs.getD (e.place bs.length q.1) 0)).map (·.1)
  (ts.foldl (fun s t => leaveBank s part i t) s).mapSrf part i (fun x =>
    (ts.foldl (fun x t => setTile x t .moving) { x with first := e.first, count := e.count }).settleMoves)

/-- Unpinned tiles are evicted from the banks of surfaces until what each bank holds fits (R313, R324). -/
def settleBanks (s : State) (part stack : Nat) (plan : List (Nat × SrfEntry)) : State :=
  (nub ((plan.flatMap (fun p => (s.srf part p.1).tileSt.map (fun q => tileBank s part (s.srf part p.1) q.1))).filter
    (fun b => b.1 == stack))).foldl (fun s b => makeRoom s part b 0 (victims s part b)) s

/-- Encoder slots that a partition is granted are idle and hold no frames (R412). -/
def grantSlots (s : State) (stack : Nat) (slots : List Nat) : State :=
  s.mapStack stack (fun t => { t with encs := mapAt slots (fun _ _ => EncSlot.reset) t.encs })

/-- The parameters of a partition change on a stack; where its banks do, its surfaces are moved (R325, R440, R441). -/
def installParams (s : State) (part stack : Nat) (p : PartParams) : Option State :=
  let old := (s.partOn part stack).params
  let set (s : State) : State := grantSlots (s.mapPartOn part stack (fun q => { q with
    params := p, floorEff := p.powerFloor, pending := none })) stack (p.encSlots.filter (fun e => !old.encSlots.contains e))
  let bs := bankList p
  if bs = bankList old then some (set s)
  else (refit s.moves bs.length stack [] (surfacesOn s part stack)).map (fun plan =>
    settleBanks (set (plan.foldl (fun s q => moveSurface s part stack bs q.1 q.2) s.draw)) part stack plan)

/-- A resize that waits on a stack takes effect, and its command completes, when every context of the partition there is
stopped; the blocks then wait for a place again. Where the surfaces no longer fit the new banks it changes nothing (R441,
R504; entry 110). -/
def settleResize (s : State) (part stack : Nat) : State :=
  match (s.partOn part stack).pending with
  | none => s
  | some p =>
    let jobs := partJobs s part stack
    if jobs.all (fun j => (s.ctx? part stack j).elim true (fun c => match c.stop with
        | .stopped _ => true
        | _ => false)) then
      let s1 := match installParams s part stack p with
        | some s1 => answerCmd s1 stack 0
        | none => answerCmd (s.mapPartOn part stack (fun q => { q with pending := none })) stack 2
      jobs.foldl (fun s j => if (s.ctx? part stack j).elim false (fun c => c.stop == .stopped false) then restartCtx s part stack j else s) s1
    else s

/-- STOP_COMPLETE (R468): every block image is recorded. -/
def execStopComplete (part stack : Nat) (job : Word) (s : State) : Out :=
  match s.ctx? part stack job with
  | none => .next s
  | some c =>
    match c.stop with
    | .stopping debug =>
      let bs := ctxBlocks s part stack job onDevice
      if bs.all (fun b => (s.block? b).elim true (quiet s b)) then
        let s1 := bs.foldl (fun s b =>
          let s1 := saveBlock (flushReturns s b) b .stopped
          { s1 with copies := s1.copies.map (fun (c : Copy) => if c.blk == b then { c with slot := false } else c) }) s
        let held := debug || (s.partOn c.part stack).pending.isSome
        let s2 := s1.mapCtx part stack job (fun c => { c with stop := .stopped debug })
        .next (settleResize (if held then s2 else restartCtx s2 part stack job) c.part stack)
      else .next s
    | _ => .next s

/-! Eviction. -/

/-- A register is to be filled by a call's return, by a host or peer access, or by a copy; or a page is awaited (R465). -/
def fillEvicts (s : State) (b gi lane : Nat) (g : Group) (uni : Bool) (i : Nat) : Bool :=
  let acc := s.accesses.any (fun a => a.blk == b && (a.remote || a.atReplay && !a.waits.isEmpty) && (match a.dst with
    | some d => d.uni == uni && d.grp == gi && (uni || d.lane == lane) && decide (d.idx ≤ i) && decide (i < d.idx + d.n)
    | none => false))
  acc || (if uni then s.copies.any (fun c => c.blk == b && c.grp == gi && c.tok == i)
    else g.queues.any (fun q => q.claims.any (fun c => c.lane == lane && decide (c.dst ≤ i) && decide (i < c.dst + c.k))))

/-- An eviction point (R465). -/
def evictPoint (s : State) (b gi lane : Nat) (g : Group) : Wait → Bool
  | .gate _ _ | .fold _ _ | .nbar _ | .room _ _ | .claim _ | .drain _ _ | .monitor | .fsem _ _ | .counter _ | .pages _ _
  | .copySlot _ | .accBanks _ _ | .pin _ | .hmark _ _ _ | .launch _ _ | .regroupWindow => true
  | .regs rs =>
    let es := rs.filter (fun r => (regAt g (g.thread lane) r).isEmpty)
    !es.isEmpty && es.all (fun r => fillEvicts s b gi lane g r.1 r.2)
  | _ => false

/-- Every thread that is neither exited, killed nor parked waits at an eviction point, and the sequencer meets R297
(R466). -/
def evictable (s : State) (b : Nat) (k : Block) : Bool :=
  k.phase == .resident && ctxFree s k &&
  k.positions.all (fun p => match p.2.2.2.run with
    | .exited | .killed | .parked => true
    | .ready => false
    | .blocked w => evictPoint s b p.1 p.2.1 p.2.2.1 w && !waitOver s b p.1 k p.2.2.1 p.2.1 p.2.2.2 w) &&
  (match k.seq.state with
    | .running => k.seq.chain.isNone && k.seq.rows.isEmpty && (match k.seq.wait with
      | .mwait n c => decide ((k.nbars.getD n NBar.fresh).a.toNat < c)
      | _ => false)
    | _ => true)

/-- A block of the partition on the stack waits for want of room (R466). -/
def roomWanted (s : State) (part stack : Nat) : Bool :=
  ((upto s.blocks.length).zip s.blocks).any (fun p =>
    p.2.part == part && p.2.stack == stack && p.2.phase != .deferred && asks s p.1 p.2 && (placesOf s p.1).isEmpty)

/-- The block has been evictable for 4,096 cycles, as long as any of the partition on the stack. -/
def longestIdle (s : State) (k : Block) : Bool :=
  let idle (o : Block) : Nat := match o.evictableFrom with
    | some t => s.now o.stack o.core - t
    | none => 0
  decide (4096 ≤ idle k) && s.blocks.all (fun o =>
    !(o.part == k.part && o.stack == k.stack && o.phase == .resident) || decide (idle o ≤ idle k))

/-- BLOCK_EVICTION (R157, R466). -/
def execBlockEviction (blk : Nat) (s : State) : Out :=
  match s.block? blk with
  | none => .next s
  | some k =>
    if evictable s blk k && (!k.missing.isEmpty || (longestIdle s k && roomWanted s k.part k.stack)) then
      .next (saveBlock s blk .evicted)
    else .next s

/-! Time slices. -/

/-- The priority of a context: the highest of its resident and waiting blocks (R439). -/
def ctxPrio (s : State) (part stack : Nat) (job : Word) : Nat :=
  ((s.blocks.filter (fun k => k.part == part && k.stack == stack && k.job == job && (k.phase == .resident || k.phase == .waiting))).map
    (effPrio s)).foldl max 0

/-- A block counts as waiting for want of room at the slice expiry of a context: with its priority, or as a held block or
a trap group with 47 (R436, R439, R459). -/
def waitsFor (s : State) (part stack : Nat) (job : Word) (b : Nat) (k : Block) : Bool :=
  let prio := ctxPrio s part stack job
  let held := k.heldCol.elim false (fun c => s.blocks.any (fun o =>
    o.part == part && o.stack == stack && o.job == job && o.phase == .resident && o.core / 4 == c))
  k.part == part && k.stack == stack && k.job != job &&
  ((asks s b k && k.phase != .deferred && (placesOf s b).isEmpty && decide (prio ≤ effPrio s k)) ||
    ((k.phase == .waiting || k.phase == .deferred) && held && decide (prio ≤ 47)))

/-- SLICE_EXPIRY (R438, R439): the slice has ended, and a new one begins at once or after the stop. -/
def execSliceExpiry (part stack : Nat) (job : Word) (s : State) : Out :=
  match s.ctx? part stack job with
  | none => .next s
  | some c =>
    if c.slice < (s.partOn c.part stack).params.sliceLen ∨ c.stop ≠ .running then .next s
    else
      let other := ((upto s.blocks.length).zip s.blocks).any (fun p => waitsFor s part stack job p.1 p.2)
      let s1 := s.mapCtx part stack job (fun c => { c with slice := 0 })
      .next (if other then requestStop s1 part stack job false else s1)

end Sys2Proof.Machine
end

