-- ==== Sys2Proof/Machine/Work.lean ====
section
/-!
DEFINITION. Major 0x3C and the completion of blocks: launches (R421, R422, R426, R443), completion counters (R424 to
R428, R444 to R447), cancellation (R448), priority and slices (R449, R450).
-/

namespace Sys2Proof.Machine

/-! Launch records (R421, R422). -/

/-- Reserved fields are zero, and the entry point and the constant image are aligned. -/
def recReserved (ws : List Word) : Bool :=
  let w (n : Nat) : Word := ws.getD n 0
  bits (w 0) 1 0 == 0 && bits (w 1) 31 24 == 0 && bits (w 5) 31 30 == 0 && bits (w 6) 31 14 == 0 && bits (w 6) 7 5 == 0 &&
  bits (w 7) 31 19 == 0 && bits (w 8) 31 26 == 0 && bits (w 8) 23 21 == 0 && bits (w 8) 15 12 == 0 &&
  bits (w 8) 7 6 == 0 && bits (w 13) 4 0 == 0 && bits (w 14) 31 24 == 0 && bits (w 15) 31 17 == 0

/-- Blocks of the grid, and threads of a block. -/
def recBlocks (ws : List Word) : Nat :=
  ((ws.getD 2 0).toNat + 1) * ((ws.getD 3 0).toNat + 1) * ((ws.getD 4 0).toNat + 1)
def recThreads (ws : List Word) : Nat :=
  let b := recShape ws
  b.1 * b.2.1 * b.2.2

/-- The sizes and codes are within their limits. -/
def recLimits (ws : List Word) : Bool :=
  decide (recBlocks ws ≤ 2 ^ 32) && decide (recThreads ws ≤ 1024) && decide (bits (ws.getD 7 0) 18 0 ≤ 393216) &&
  decide (recPrio ws ≤ 47) && decide (recClass ws < 8) && recBlocks ws % recChain ws == 0 &&
  decide (bits (ws.getD 15 0) 16 0 ≤ 65536)

def recNeeds (ws : List Word) : Needs := ⟨ceilDiv (recThreads ws) 32, recVregs ws, recSregs ws, recScratch ws⟩

/-- A core with nothing resident admits a block; a column of empty cores then admits a chain (R29, R432). -/
def recFits (ws : List Word) : Bool := (dealStart [] (recNeeds ws)).isSome

/-- The nearest non-null counter that the record names above its n-th (R426). -/
def recParent (ws : List Word) (n : Nat) : Option Word := (((recCounters ws).drop (n + 1)).find? (· != 0))

/-- A counter field is null, or names an open counter of its level whose parent is not fixed to another (R422). -/
def recCounterOk (s : State) (part : Nat) (ws : List Word) (n : Nat) : Bool :=
  let id := (recCounters ws).getD n 0
  id == 0 || (ctrLevel id == n && (match s.counter? part id with
    | none => false
    | some c => c.state == .open && (!c.fixed || c.parent == recParent ws n)))

/-- The record passes R422; part is the partition it names. -/
def recordOk (s : State) (k : Block) (ws : List Word) : Bool :=
  let part := recPart ws
  recReserved ws && recLimits ws && (part == k.part || k.priv) && !(columnsOf s part k.stack).isEmpty && recFits ws &&
  recJob ws != 0 && (upto 4).all (recCounterOk s part ws)

/-- The partition whose counters the record's fields name (R424). -/
def recOwner (k : Block) (ws : List Word) : Nat := if k.priv then recPart ws else k.part

/-- A rejected record cancels the lowest-level open counter that it names validly, and flags it; where none qualifies
the management processor is told (R422). -/
def rejectRecord (s : State) (k : Block) (ws : List Word) : State :=
  let part := recOwner k ws
  let named := ((upto 4).zip (recCounters ws)).filter (fun p => ctrLevel p.2 == p.1 &&
    (s.counter? part p.2).elim false (fun c => c.state == .open))
  match named with
  | [] => s.report k.stack 8
  | p :: _ => (cancelOpen s part p.2).mapCounter part p.2 (fun c => { c with rejected := true })

/-- A context as its job's first work on a stack finds it (R429, R454, R490). -/
def Ctx.fresh (job : Word) (stack part : Nat) : Ctx where
  job := job
  stack := stack
  part := part
  tentry := 0
  tentryPriv := false
  talloc := 0
  tact := 0
  tpc := 0
  wps := List.replicate 4 ⟨0, 0, 0⟩
  evw := 0
  park := []
  held := []
  slice := 0
  stop := .running
  step := none
  stepped := false
  terminated := false

/-- The context of a job on a stack, made where there is none. -/
def openCtx (s : State) (job : Word) (stack part : Nat) : State :=
  match s.ctx? part stack job with
  | none => { s with ctxs := s.ctxs ++ [Ctx.fresh job stack part] }
  | some c => if c.terminated then s.mapCtx part stack job (fun _ => Ctx.fresh job stack part) else s

/-- An accepted record: its counters' parents are fixed, its context exists, and its first block waits (R426, R429,
R430). -/
def acceptRecord (s : State) (stack : Nat) (ws : List Word) (priv dispatcher : Bool) : State :=
  let part := recPart ws
  let s1 := (upto 4).foldl (fun s n =>
    let id := (recCounters ws).getD n 0
    if id = 0 then s
    else s.mapCounter part id (fun c => if c.fixed then c else { c with fixed := true, parent := recParent ws n })) s
  let s2 := openCtx s1 (recJob ws) stack part
  let s3 : State := { s2 with launches := s2.launches ++ [⟨stack, ws, priv, dispatcher, recPrio ws, 0, 0, false, false, s.order.writes⟩] }
  queueNext s3 s2.launches.length

/-- The threads of a bundle hand on what they have seen, as a release (R428). -/
def bundleGives (s : State) (is : Issue) (g : Group) (c : Handed) : State :=
  (bundleTids is g).foldl (fun s t => s.giveChan (.thread is.blk t) c) s

/-- They take what a counter's releases hand on, as an acquire (R428). -/
def bundleTakes (s : State) (is : Issue) (g : Group) (c : Handed) : State :=
  (bundleTids is g).foldl (fun s t => s.takeChan (.thread is.blk t) c) s

/-- Submit a record that has been read: a release of its bundle's threads, whose accesses in flight are performed first, for
the launch that is accepted (R428, R443). -/
def submit (s : State) (is : Issue) (k : Block) (g : Group) (ws : List Word) : State × List Trap :=
  let wait (w : Wait) : State × List Trap := (s.blockLanes is.blk is.grp is.act (fun _ => w), [])
  let waits := bundleAccesses s is g
  let far := (recCounters ws).any (fun id => id != 0 && ctrStack id != k.stack)
  if 4096 ≤ launchesOpen s k.stack ∨ (far ∧ s.linkHeld) ∨ waits ≠ [] then wait (.launch far waits)
  else
    let s1 := s.advance is.blk is.grp is.act
    (if recordOk s k ws then acceptRecord (bundleGives s1 is g (.launch s.launches.length)) k.stack ws k.priv false
     else rejectRecord s1 k ws, [])

/-- launch (R443). -/
def execLaunch (a : Src) (s : State) : Out :=
  withForm (Form.of [uSrc 1 a 2]) (unlessSwept (uniBody (fun g => g.sregsAt a.f 2) (fun is k g s =>
    let r := readDesc s is k g (regAddr (g.sregsAt a.f 2)) 64 64
    match r.2 with
    | .stop ts => (r.1, ts)
    | .words ws => submit r.1 is k g ws))) s

/-! Counters (R444 to R447). -/

/-- A uniform register is to receive a value: it is empty until the value arrives (R444, R447). -/
def produceU (s : State) (is : Issue) (g : Group) (d : Fld) (r : Reg) : State × List Trap :=
  let s1 := (s.advance is.blk is.grp is.act).mapGroup is.blk is.grp
    (fun h => { h with sregs := markEmpty h.sregs (g.si d) 1 })
  (s1.fly { bundleAccess s1 is g (.value [r]) with dst := some ⟨true, is.grp, 0, g.si d, 1⟩ }, [])

/-- The next generation of a counter (R424). -/
def nextCtrGen (g : BitVec 16) : BitVec 16 := if g = 0xFFFF then 1 else g + 1

/-- The identifier of a counter (R424). -/
def ctrId (level stack : Nat) (gen : BitVec 16) (index : Nat) : Word :=
  putBits level 31 30 ||| putBits stack 29 29 ||| putBits gen.toNat 25 10 ||| putBits index 9 0

/-- Create a counter on a stack: its identifier, or null (R444). -/
def newCounter (s : State) (part stack level total : Nat) : State × Word :=
  match (indexes (fun (c : Counter) => !c.used) (s.partOn part stack).counters).head? with
  | none => (s, 0)
  | some i =>
    if total = 0 then (s, 0)
    else
      let gen := nextCtrGen ((s.partOn part stack).counters.getD i Counter.reset).gen
      (s.mapPartOn part stack (fun p => { p with
        counters := modifyAt (fun _ => { Counter.reset with used := true, gen := gen, level := BitVec.ofNat 2 level, total := total })
          i p.counters }), ctrId level stack gen i)

/-- ctr.new (R444). -/
def execCtrNew (d : Fld) (a : Src) (s : State) : Out :=
  withForm (Form.of [uDst d, uSrc 1 a]) (uniBody (fun g => [g.sreg a.f]) (fun is k g s =>
    let w := (g.sreg a.f).val
    let r := newCounter s k.part k.stack (bits w 31 30) (bits w 29 0)
    produceU r.1 is g d (full r.2))) s

/-- An operation on a counter waits while the link that it crosses carries nothing (R424). -/
def atCounter (s : State) (is : Issue) (k : Block) (id : Word) (f : State → State) : State × List Trap :=
  if counterFar s k.stack id then (s.blockLanes is.blk is.grp is.act (fun _ => .link false), [])
  else (f (s.advance is.blk is.grp is.act), [])

/-- The effect of ctr.raise: an amount of 0 changes nothing (R445). -/
def raiseCounter (s : State) (part : Nat) (id amount : Word) : State :=
  match s.counter? part id with
  | none => s
  | some c =>
    if amount = 0 then s
    else match c.state with
    | .open =>
      if c.total + amount.toNat < 2 ^ 32 then s.mapCounter part id (fun c => { c with total := c.total + amount.toNat })
      else s.mapCounter part id (fun c => { c with misuse := true })
    | .complete => s.mapCounter part id (fun c => { c with misuse := true })
    | .cancelled => s

def execCtrRaise (a b : Src) (s : State) : Out :=
  withForm (Form.of [uSrc 1 a, uSrc 2 b]) (uniBody (fun g => [g.sreg a.f, g.sreg b.f]) (fun is k g s =>
    atCounter s is k (g.sreg a.f).val (fun s => raiseCounter s k.part (g.sreg a.f).val (g.sreg b.f).val))) s

/-- ctr.post (R445): it acts as a release of its bundle's threads (R428). -/
def execCtrPost (a : Src) (s : State) : Out :=
  withForm (Form.of [uSrc 1 a]) (uniBody (fun g => [g.sreg a.f]) (fun is k g s =>
    let id := (g.sreg a.f).val
    let waits := bundleAccesses s is g
    if !waits.isEmpty then (s.blockLanes is.blk is.grp is.act (fun _ => .fence waits), [])
    else atCounter s is k id (fun s => post (bundleGives s is g (.counter k.part id)) k.part k.stack id))) s

/-- ctr.wait (R446): its end is an acquire (R428). -/
def execCtrWait (a : Src) (s : State) : Out :=
  withForm (Form.of [uSrc 1 a]) (uniBody (fun g => [g.sreg a.f]) (fun is k g s =>
    let id := (g.sreg a.f).val
    if !counterFar s k.stack id && counterOver s k.part id then
      (bundleTakes (s.advance is.blk is.grp is.act) is g (.counter k.part id), [])
    else (s.blockLanes is.blk is.grp is.act (fun _ => .counter id), []))) s

/-- What ctr.rd reads (R447). -/
def counterWord (s : State) (stack part : Nat) (id : Word) : Reg :=
  if s.linkDown && counterFar s stack id then ⟨0xF000_0000, .poisoned⟩
  else
    match s.counter? part id with
    | none => full 0xC000_0000
    | some c =>
      let st := match c.state with
        | .open => 0
        | .complete => 1
        | .cancelled => 2
      full (putBits st 31 30 ||| putBits (boolBit c.rejected) 29 29 ||| putBits (boolBit c.misuse) 28 28
        ||| putBits (boolBit (c.deferred && deferredNames s part id)) 27 27 ||| putBits (min (c.total - c.posted) (2 ^ 27 - 1)) 26 0)

/-- ctr.rd (R447): a read of the state complete is an acquire (R428). It waits while the link stalls (R424). -/
def execCtrRd (d : Fld) (a : Src) (s : State) : Out :=
  withForm (Form.of [uDst d, uSrc 1 a]) (uniBody (fun g => [g.sreg a.f]) (fun is k g s =>
    if s.linkStalls && counterFar s k.stack (g.sreg a.f).val then (s.blockLanes is.blk is.grp is.act (fun _ => .link true), [])
    else
    let done := (s.counter? k.part (g.sreg a.f).val).elim false (fun c => c.state == .complete)
    produceU (if done then bundleTakes s is g (.counter k.part (g.sreg a.f).val) else s) is g d
      (counterWord s k.stack k.part (g.sreg a.f).val))) s

/-! Cancellation, priority, slices (R448 to R450). -/

/-- cancel (R448): it does not wait. -/
def execCancel (a : Src) (s : State) : Out :=
  withForm (Form.of [uSrc 1 a]) (uniBody (fun g => [g.sreg a.f]) (fun is k g s =>
    (cancelFrom (s.advance is.blk is.grp is.act) k.part k.stack (g.sreg a.f).val, []))) s

/-- prio (R449); a trap group has no launch (R459). -/
def execPrio (a : Src) (s : State) : Out :=
  withForm (Form.of [uSrc 1 a]) (uniBody (fun g => [g.sreg a.f]) (fun is k g s =>
    let p := min (min (g.sreg a.f).val.toNat 47) (s.partOn k.part k.stack).params.ceiling
    let s1 := s.advance is.blk is.grp is.act
    match k.launch with
    | none => (s1, [])
    | some n => ({ s1 with launches := modifyAt (fun l => { l with prio := p }) n s1.launches }, []))) s

/-- slice.rd (R450). -/
def execSliceRd (d : Fld) (s : State) : Out :=
  withForm (Form.of [uDst d]) (uniBody (fun _ => []) (fun is k g s =>
    let left := (s.partOn k.part k.stack).params.sliceLen - (s.ctx? k.part k.stack k.job).elim 0 (·.slice)
    answerU s is g d (BitVec.ofNat 32 (min left (2 ^ 32 - 1))))) s

/-! Completion (R427, R428). -/

/-- A block is complete: its threads have ended, its sequencer is idle or faulted, and no copy, call or access of it is
left. -/
def blockDone (s : State) (b : Nat) (k : Block) : Bool :=
  k.phase == .resident && k.allThreads.all (fun t => !t.live) && (k.seq.state == .idle || k.seq.state == .faulted) &&
  k.seq.rows.isEmpty && !s.copies.any (fun c => c.blk == b) && !s.calls.any (fun c => c.blk == b) &&
  k.groups.all (fun g => g.queues.all (fun q => q.calls.isEmpty)) && !s.accesses.any (fun a => a.blk == b)

/-- The room of a completed block is free, and its queues are unbound. -/
def freeBlock (s : State) (b : Nat) : State :=
  (releaseBlock s b .complete).mapBlock b (fun k => { k with
    groups := k.groups.map (fun g => { g with queues := List.replicate 16 Queue.fresh }) })

/-- The completion of a block is a release of its threads, which the post for its launch carries (R428). -/
def blockGives (s : State) (b : Nat) (k : Block) (n : Nat) : State :=
  k.allThreads.foldl (fun s t => s.giveChan (.thread b t.tid) (.done n)) s

/-- One more block of a launch is complete; the last posts to the lowest counter that the record names, with every release
that contributed (R426 to R428). -/
def launchDone (s : State) (n : Nat) : State :=
  match s.launches[n]? with
  | none => s
  | some l =>
    let last := l.done + 1 = l.blocks && !l.cancelled
    let s1 : State := { s with launches := modifyAt (fun l => { l with done := l.done + 1, posted := l.posted || last }) n s.launches }
    if last then
      match (recCounters l.words).find? (· != 0) with
      | some id =>
        let part := recPart l.words
        post (s1.mapOrder (fun o => o.putChan (.counter part id) (o.chan (.done n)))) part l.stack id
      | none => s1
    else s1

/-- BLOCK_COMPLETION (R427). -/
def execBlockCompletion (blk : Nat) (s : State) : Out :=
  match s.block? blk with
  | none => .next s
  | some k =>
    if blockDone s blk k then
      let s1 := freeBlock s blk
      .next (match k.launch with
        | some n => launchDone (blockGives s1 blk k n) n
        | none => s1)
    else .next s

end Sys2Proof.Machine
end

