-- ==== Sys2Proof/Machine/System.lean ====
section
/-!
DEFINITION. System registers (R453, R454, R477, R490), traps and their handler (R459, R461, R478, R479), halt, snap and
the capability list (R481, R488, R517).
-/

namespace Sys2Proof.Machine

/-! System registers. -/

/-- The condition of R452 on a register. -/
def regNeed (n : Nat) : Need :=
  if n = 0x013 ∨ n = 0x014 ∨ n = 0x015 then .handler
  else if (0x040 ≤ n ∧ n ≤ 0x060) ∨ n = 0x120 ∨ n = 0x121 then .priv
  else .any

/-- k.pstate as a lane cluster reads it (R490); a lane cluster with no resident group is never in the mode (R495). -/
def pstateWord (s : State) (stack core : Nat) : Word :=
  let c := s.core stack core
  let near := ((upto 4).map (fun i =>
    if (c.clusters.getD i Cluster.reset).near && !(groupsOn s stack core i).isEmpty then 2 ^ i else 0)).sum
  putBits (gateOf s stack core - 1) 23 18 ||| putBits c.denial 15 12 ||| putBits near 7 4 ||| putBits c.state 2 0

/-- The effective floor and the floor that the host set (R490, R499). -/
def floorWord (p : PartStack) : Word := putBits p.params.powerFloor 31 16 ||| putBits p.floorEff 15 0

def lowAddr (a : Addr) : Word := a.setWidth 32
def highAddr (a : Addr) : Word := (a >>> 32).setWidth 32

/-- A register of a watchpoint (R454). -/
def watchWord (w : Watch) (i : Nat) : Word :=
  match i with
  | 0 => lowAddr w.base
  | 1 => highAddr w.base
  | 2 => w.len
  | _ => w.ctl.zeroExtend 32

/-- What a system register holds, as a thread of a group reads it (R454, R490). -/
def regRead (s : State) (k : Block) (g : Group) (n : Nat) : Word :=
  let c := (s.ctx? k.part k.stack k.job).getD (Ctx.fresh k.job k.stack k.part)
  let p := s.partOn k.part k.stack
  let cl := (s.core k.stack k.core).clusters.getD g.cluster Cluster.reset
  if 0x020 ≤ n ∧ n < 0x030 then watchWord (c.wps.getD ((n - 0x020) / 4) ⟨0, 0, 0⟩) ((n - 0x020) % 4)
  else
    match n with
    | 0x000 => putBits (boolBit k.trapGroup) 1 1 ||| putBits (boolBit k.priv) 0 0
    | 0x001 => k.job
    | 0x002 => if k.trapGroup then 0 else BitVec.ofNat 32 k.lin
    | 0x004 => lowWord (s.core k.stack k.core).cycles
    | 0x005 => g.cycleHi
    | 0x010 => lowAddr c.tentry
    | 0x011 => highAddr c.tentry
    | 0x012 => c.talloc
    | 0x013 => c.tact.zeroExtend 32
    | 0x014 => lowAddr c.tpc
    | 0x015 => highAddr c.tpc
    | 0x016 => BitVec.ofNat 32 (c.park.length + c.held.length)
    | 0x040 => p.bwdog
    | 0x041 => p.rwdog
    | 0x042 => p.hwdog
    | 0x043 => lowAddr p.diag
    | 0x044 => highAddr p.diag
    | 0x045 => p.diagLen
    | 0x050 => lowAddr p.tlbva
    | 0x051 => highAddr p.tlbva
    | 0x060 => BitVec.ofNat 32 (cadenceOf s k.stack k.core)
    | 0x061 => chargeWord k
    | 0x100 => lowAddr c.evw
    | 0x101 => highAddr c.evw
    | 0x102 => if g.evgrp then 1 else 0
    | 0x104 => cl.i
    | 0x105 => cl.m
    | 0x106 => cl.c
    | 0x107 => cl.n
    | 0x110 => pstateWord s k.stack k.core
    | 0x111 => (s.core k.stack k.core).pdeny
    | 0x120 => putBits s.capHost 31 16 ||| putBits s.capEff 15 0
    | 0x121 => floorWord p
    | 0x130 => k.snap.seq
    | 0x131 => lowWord k.snap.cyc
    | 0x132 => highWord k.snap.cyc
    | 0x133 => k.snap.iss
    | 0x134 => k.snap.chg
    | 0x135 => k.snap.us
    | _ => 0

/-- k.rd (R477). A number that is not assigned, or has no read access, is illegal (R453). -/
def execKRd (d : Fld) (n : BitVec 12) (s : State) : Out :=
  let ok := kReadable n.toNat
  withForm ⟨[uDst d], Accepts.plain, if ok then regNeed n.toNat else .any⟩ (uniBody (fun _ => []) (fun is k g s =>
    if ok then answerU s is g d (regRead s k g n.toNat) else (s, trapAll is.act kIllegal 0))) s

/-- k.rd of k.cycle.lo: the read latches the high word for the group (R454). -/
def execKCycleLoRead (d : Fld) (s : State) : Out :=
  withForm (Form.of [uDst d]) (uniBody (fun _ => []) (fun is k g s =>
    let n := (s.core k.stack k.core).cycles
    answerU (s.mapGroup is.blk is.grp (fun h => { h with cycleHi := highWord n })) is g d (lowWord n))) s

/-- The low or the high part of an address register replaced; bits at and above 56 are not there (R454). -/
def setLow (a : Addr) (v : Word) : Addr := (a >>> 32).setWidth 24 ++ v
def setHigh (a : Addr) (v : Word) : Addr := v.setWidth 24 ++ a.setWidth 32

/-- A word whose bits [1:0] are ignored (R453). -/
def noLow2 (v : Word) : Word := v &&& ~~~3

def watchWrite (w : Watch) (i : Nat) (v : Word) : Watch :=
  match i with
  | 0 => { w with base := setLow w.base v }
  | 1 => { w with base := setHigh w.base v }
  | 2 => { w with len := v }
  | _ => { w with ctl := v.setWidth 3 }

/-- A write to a register of context scope (R454, R490). -/
def ctxWrite (priv : Bool) (n : Nat) (v : Word) (c : Ctx) : Ctx :=
  if 0x020 ≤ n ∧ n < 0x030 then { c with wps := modifyAt (fun w => watchWrite w ((n - 0x020) % 4) v) ((n - 0x020) / 4) c.wps }
  else
    match n with
    | 0x010 => { c with tentry := setLow c.tentry (noLow2 v), tentryPriv := priv }
    | 0x011 => { c with tentry := setHigh c.tentry v }
    | 0x012 => { c with talloc := v &&& 0x3F1F }
    | 0x013 => { c with tact := if 6 ≤ bits v 2 0 then 0 else v.setWidth 3 }
    | 0x014 => { c with tpc := setLow c.tpc (noLow2 v) }
    | 0x015 => { c with tpc := setHigh c.tpc v }
    | 0x100 => { c with evw := setLow c.evw (noLow2 v) }
    | 0x101 => { c with evw := setHigh c.evw v }
    | _ => c

/-- A write to a register of partition scope; a period of 0 stores the default (R454). -/
def partWrite (n : Nat) (v : Word) (p : PartStack) : PartStack :=
  match n with
  | 0x040 => { p with bwdog := if v = 0 then 20000 else v }
  | 0x041 => { p with rwdog := if v = 0 then 1000 else v }
  | 0x042 => { p with hwdog := if v = 0 then 10000 else v }
  | 0x043 => { p with diag := setLow p.diag (v &&& ~~~63) }
  | 0x044 => { p with diag := setHigh p.diag v }
  | 0x045 => { p with diagLen := v }
  | 0x050 => { p with tlbva := setLow p.tlbva v }
  | 0x051 => { p with tlbva := setHigh p.tlbva v }
  | _ => p

def invalWait : Wait → Bool
  | .tlbinv _ => true
  | _ => false

/-- A write of k.tlbinv: an invalidation begins, and the threads wait until it is complete (R154, R454). -/
def invalBody (d : Fld) (all : Word → Bool) : Body :=
  resumeOr invalWait (fun is s => (s.advance is.blk is.grp is.act, []))
    (uniBody (fun g => [g.sreg d]) (fun is k g s =>
      let va := if all (g.sreg d).val then none else some (s.partOn k.part k.stack).tlbva
      let r := beginInval s k.stack k.part va false
      (r.1.blockLanes is.blk is.grp is.act (fun _ => .tlbinv r.2), [])))

def execTlbinvPartition (d : Fld) (s : State) : Out :=
  withForm ⟨[uRead 0 d], Accepts.plain, .priv⟩ (invalBody d (fun _ => true)) s

def execTlbinvPage (d : Fld) (s : State) : Out :=
  withForm ⟨[uRead 0 d], Accepts.plain, .priv⟩ (invalBody d (fun _ => false)) s

/-- The effect of a write to a register other than k.tlbinv. -/
def regWrite (s : State) (b g n : Nat) (v : Word) : State :=
  match s.block? b with
  | none => s
  | some k =>
    let s1 := (s.mapCtx k.part k.stack k.job (ctxWrite k.priv n v)).mapPartOn k.part k.stack (partWrite n v)
    if n = 0x102 then s1.mapGroup b g (fun h => { h with evgrp := v.getLsbD 0 }) else s1

/-- A k.wr takes effect for the instructions that issue in later cycles: after what its core still does in this one
(R453). -/
def lateWrite (s : State) (b g n : Nat) (v : Word) : State :=
  if s.agenda.isEmpty then regWrite s b g n v else s.due [.kWrite b g n v]

/-- k.wr (R477). A number that is not assigned, or has no write access, is illegal (R453). -/
def execKWr (d : Fld) (n : BitVec 12) (s : State) : Out :=
  let ok := kWritable n.toNat
  withForm ⟨[uRead 0 d], Accepts.plain, if ok then regNeed n.toNat else .any⟩
    (if n = 0x052 then invalBody d (fun v => v.getLsbD 0)
     else uniBody (fun g => if ok then [g.sreg d] else []) (fun is _ g s =>
      if ok then ((lateWrite s is.blk is.grp n.toNat (g.sreg d).val).advance is.blk is.grp is.act, [])
      else (s, trapAll is.act kIllegal 0))) s

/-! Traps and the handler. -/

/-- trap (R478). -/
def execTrap (c : BitVec 12) (s : State) : Out :=
  withForm (Form.of []) (fun is s => (s, trapAll is.act kSoftware (c.zeroExtend 32))) s

/-- tret (R461, R479). -/
def execTret (s : State) : Out :=
  withForm ⟨[], Accepts.plain, .handler⟩ (uniBody (fun _ => []) (fun is k _ s =>
    (returnFromTrap (s.advance is.blk is.grp is.act) k.part k.stack k.job, []))) s

/-- park.rd (R479). -/
def execParkRd (d : Fld) (a : Src) (s : State) : Out :=
  withForm ⟨[uDst d, uSrc 1 a], Accepts.plain, .handler⟩ (uniBody (fun g => [g.sreg a.f]) (fun is k g s =>
    let v := (g.sreg a.f).val
    let q := (s.ctx? k.part k.stack k.job).elim [] (·.park)
    answerU s is g d ((q[bits v 11 4]?).elim 0 (fun r => r.words.getD (bits v 3 0) 0)))) s

/-- HELD_RECORD_ENTRY (R456): held records enter the queue as it has room. -/
def execHeldRecordEntry (part stack : Nat) (job : Word) (s : State) : Out :=
  .next (s.mapCtx part stack job (fun c => queueRecords c []))

/-- The trap group of a context, where it has one. -/
def hasTrapGroup (s : State) (part stack : Nat) (job : Word) : Bool :=
  s.blocks.any (fun k => k.trapGroup && k.part == part && k.stack == stack && k.job == job && k.phase != .complete && k.phase != .cancelled)

/-- The trap group of a context, waiting for a place (R451, R459). -/
def trapBlock (s : State) (c : Ctx) : Block :=
  Block.fresh none 0 c.stack c.part c.job true (c.tentryPriv && privPage s c.stack c.part c.tentry) (32, 1, 1)
    (8 * (bits c.talloc 4 0 + 1)) (8 * (bits c.talloc 13 8 + 1)) 1024 c.tentry 0

/-- TRAP_GROUP_START (R459): while records are not yet retired. -/
def execTrapGroupStart (part stack : Nat) (job : Word) (s : State) : Out :=
  match s.ctx? part stack job with
  | none => .next s
  | some c =>
    if c.terminated || c.tentry == 0 || (c.park.isEmpty && c.held.isEmpty) || hasTrapGroup s part stack job then .next s
    else .next { (s.mapCtx part stack job (fun c => { c with tact := 0, tpc := 0 })) with blocks := s.blocks ++ [trapBlock s c] }

/-! halt, snap, cap.rd (R481). -/

def execHalt (s : State) : Out :=
  withForm ⟨[], Accepts.plain, .priv⟩ (uniBody (fun _ => []) (fun is k _ s =>
    (requestStop (s.advance is.blk is.grp is.act) k.part k.stack k.job true, []))) s

/-- Blocks that latch a snapshot trigger (R488). -/
def latches (k : Block) : Bool := k.phase == .resident || k.phase == .evicted || k.phase == .stopped

/-- A trigger of this module: it is on its way to the core of every block of both stacks (R488). -/
def raiseSnapshot (s : State) : State :=
  let id : Word := BitVec.ofNat 32 (s.moduleNum * 2 ^ 20 + s.snapCount)
  { s with
    snapCount := (s.snapCount + 1) % 2 ^ 20
    blocks := s.blocks.map (fun (k : Block) => if latches k then { k with snapDue := k.snapDue ++ [id] } else k) }

def execSnap (s : State) : Out :=
  withForm ⟨[], Accepts.plain, .priv⟩ (uniBody (fun _ => []) (fun is _ _ s =>
    (raiseSnapshot (s.advance is.blk is.grp is.act), []))) s

/-- An Ethernet port is up: a session, and a keepalive within the last 100 ms (R517). -/
def Port.up (p : Port) : Bool := p.session && p.heard && decide (p.quiet < 100000)

def maskBits (bs : List Bool) : Nat := (((upto bs.length).zip bs).map (fun p => if p.2 then 2 ^ p.1 else 0)).sum

/-- Word n of the capability list, as seen by a stack for a partition or the physical function (R517). -/
def capWord (s : State) (stack : Nat) (part : Option Nat) (n : Nat) : Word :=
  let slots (p k : Nat) : Nat := ((s.partOn p k).params.encSlots.map (fun e => 2 ^ e)).sum
  match n, part with
  | 0, _ => 0x0100_0006
  | 1, _ => putBits 32 31 24 ||| putBits (maskBits (s.stks.map (fun k => k.sec == 1))) 23 16 ||| putBits 2048 15 0
  | 2, _ => putBits (maskBits (s.ports.map Port.up)) 31 28 ||| putBits (maskBits (s.ports.map (·.billets))) 27 24 ||| 2
      ||| putBits (boolBit (!s.link.failed)) 0 0
  | 3, some p =>
    let cols (k : Nat) : Nat := (s.partOn p k).params.columns.length
    let sl (k : Nat) : Nat := (s.partOn p k).params.slices.length
    putBits 1 31 31 ||| putBits p 30 26 ||| putBits (cols 0) 25 20 ||| putBits (cols 1) 19 14 ||| putBits (sl 0 + sl 1) 13 7
  | 4, _ =>
    let k := s.stack stack
    putBits k.sec 31 24 ||| putBits k.dbg 23 16 ||| k.version.zeroExtend 32
  | 5, _ => putBits (s.stack 0).reserveCores 31 24 ||| putBits (s.stack 1).reserveCores 23 16
      ||| putBits (s.stack 0).reserveBanks 15 8 ||| putBits (s.stack 1).reserveBanks 7 0
  | 6, some p => putBits (slots p 1) 31 16 ||| putBits (slots p 0) 15 0
  | _, _ => 0

def execCapRd (d : Fld) (a : Src) (s : State) : Out :=
  withForm (Form.of [uDst d, uSrc 1 a]) (uniBody (fun g => [g.sreg a.f]) (fun is k g s =>
    answerU s is g d (capWord s k.stack (some k.part) (g.sreg a.f).val.toNat))) s

end Sys2Proof.Machine
end

