-- ==== Sys2Proof/Machine/Debug.lean ====
section
/-!
DEFINITION. Breakpoints and steps (R482 to R484) and snapshots (R488).
-/

namespace Sys2Proof.Machine

/-- BREAKPOINT_MATCH (R483): the thread does not issue the word, a record is traced, and its context takes a debug stop,
which the other threads that match in the cycle belong to: their matches are due next. On resume the word issues once without matching that breakpoint
(R484). -/
def execBreakpointMatch (blk grp lane bp : Nat) (s : State) : Out :=
  match s.block? blk, s.group? blk grp, s.thread? blk grp lane with
  | some k, some g, some t =>
    if k.phase == .resident && t.hints.isEmpty && canIssue s blk grp k g lane t && breakpointFor s k g lane t t.pc == some bp then
      let s1 := traceRecord s k.stack (subjectTrace 1 (subjectOf s k g lane t) ((s.stack k.stack).us.setWidth 32) k.job
        (BitVec.ofNat 32 bp) 0 0)
      let s2 := s1.mapLanes blk grp [lane] (fun _ t => { t with bpSkip := t.bpSkip ||| ((1 : BitVec 8) <<< bp) })
      .next (requestStop s2 k.part k.stack k.job true)
    else .next s
  | _, _, _ => .next s

/-- The thread that a step names, in its resident block. -/
def steppedThread (s : State) (c : Ctx) : Option (Nat × Nat × Nat × Block × Group × Thread) :=
  c.step.bind (fun p =>
    ((indexes (fun (k : Block) => k.part == c.part && k.stack == c.stack && k.job == c.job && !k.trapGroup && k.lin == p.1.toNat &&
        k.phase == .resident) s.blocks).head?).bind (fun b =>
      (s.block? b).bind (fun k =>
        ((indexes (fun (g : Group) => g.num == p.2.1) k.groups).head?).bind (fun gi =>
          (k.groups[gi]?).bind (fun g => (g.threads[p.2.2]?).map (fun t => (b, gi, p.2.2, k, g, t)))))))

/-- The step is over: the thread has completed one instruction, or it cannot issue. -/
def stepOver (s : State) (c : Ctx) : Bool :=
  match steppedThread s c with
  | none => c.stepped
  | some (b, gi, l, k, g, t) => c.stepped || !canIssue s b gi k g l t

/-- DEBUG_STEP_END (R484): the context takes a debug stop again. -/
def execDebugStepEnd (part stack : Nat) (job : Word) (s : State) : Out :=
  match s.ctx? part stack job with
  | none => .next s
  | some c =>
    if c.step.isSome && c.stop == .running && stepOver s c then
      .next (requestStop (s.mapCtx part stack job (fun c => { c with step := none, stepped := false })) part stack job true)
    else .next s

/-! Snapshots (R488). -/

/-- A block latches a trigger: every snapshot register at one instant. -/
def latchSnap (s : State) (b : Nat) (id : Word) : State :=
  s.mapBlock b (fun k => { k with
    snap := ⟨id, if k.phase == .resident then (s.core k.stack k.core).cycles else 0, BitVec.ofNat 32 k.issued, chargeWord k,
      (s.stack k.stack).us.setWidth 32⟩ })

/-- Origin and count of a trigger. -/
def trigOrigin (id : Word) : Nat := bits id 31 20
def trigCount (id : Word) : Nat := bits id 19 0

/-- A trigger of another module comes later than the last one latched from it. -/
def newTrigger (k : Block) (id : Word) : Bool :=
  match k.snapLatched.find? (fun x => trigOrigin x == trigOrigin id) with
  | none => true
  | some x =>
    let d := (trigCount id + 2 ^ 20 - trigCount x) % 2 ^ 20
    decide (0 < d) && decide (d < 2 ^ 19)

/-- SNAPSHOT_TRIGGER (R488): a trigger reaches the core of a block, which latches each once and those of one origin in
their order. A count that this module has not yet used is a trigger that the host raises. -/
def execSnapshotTrigger (blk : Nat) (id : Word) (s : State) : Out :=
  let s0 := if trigOrigin id = s.moduleNum ∧ trigCount id = s.snapCount then raiseSnapshot s else s
  match s0.block? blk with
  | none => .next s
  | some k =>
    if !latches k then .next s
    else if trigOrigin id = s.moduleNum then
      if k.snapDue.head? = some id then
        .next (latchSnap (s0.mapBlock blk (fun k => { k with snapDue := k.snapDue.drop 1 })) blk id)
      else .next s0
    else if newTrigger k id then
      .next (latchSnap (s0.mapBlock blk (fun k => { k with
        snapLatched := id :: k.snapLatched.filter (fun x => trigOrigin x != trigOrigin id) })) blk id)
    else .next s0

/-- The triggers on their way reach the cores of a stack's blocks. -/
def reachSnapshots (s : State) (stack : Nat) : State :=
  (indexes (fun (k : Block) => k.stack == stack && !k.snapDue.isEmpty) s.blocks).foldl (fun s b =>
    ((s.block? b).elim [] (·.snapDue)).foldl (fun s id => match execSnapshotTrigger b id s with
      | .next s1 => s1
      | _ => s) s) s

end Sys2Proof.Machine
end

