-- ==== Sys2Proof/Machine/FloatOps.lean ====
section
/-!
DEFINITION. Floating-point, special-function, conversion, generator and mode instructions (R183 to R212), each on a
thread's own mode register, flags and generator.
-/

namespace Sys2Proof.Machine

/-! Elements of registers (R187). -/

/-- The format of a float type. -/
def ftyFmt : FTy → Fmt
  | .f32 => .f32
  | .f64 => .f64
  | .f16 => .f16
  | .bf16 => .bf16

/-- Elements of a run of registers: words, pairs, or halves with element 0 lowest. -/
def elemsOf (t : FTy) (ws : List Word) : List Nat :=
  match t with
  | .f32 => ws.map (·.toNat)
  | .f64 => (upto (ws.length / 2)).map (fun i => (pairVal (ws.getD (2 * i + 1) 0) (ws.getD (2 * i) 0)).toNat)
  | .f16 | .bf16 => ws.flatMap (fun w => [w.toNat % 65536, w.toNat / 65536])

/-- The registers that hold the elements of a result. -/
def regsOfElems (t : FTy) (es : List Nat) : List Reg :=
  match t with
  | .f32 => es.map (fun e => full (BitVec.ofNat 32 e))
  | .f64 => es.flatMap (fun e => pairRegs (BitVec.ofNat 64 e))
  | .f16 | .bf16 => [full (BitVec.ofNat 32 (es.getD 0 0 + 65536 * es.getD 1 0))]

def vals (rs : List Reg) : List Word := rs.map (·.val)

/-- Invert the sign bit where a modifier asks for it (R199). -/
def negIf (f : Fmt) (b : Bool) (n : Nat) : Nat := if b then n ^^^ 2 ^ (fmtWidth f - 1) else n

/-! The mode (R189, R193). -/

def fzinOf (t : Thread) : Bool := t.fmode.getLsbD 3
def fzoutOf (t : Thread) : Bool := t.fmode.getLsbD 4

/-- Arithmetic rounds to nearest even where the mode is stochastic (R193). -/
def arithMode (t : Thread) : Mode :=
  match bits t.fmode 2 0 with
  | 1 => .tz
  | 2 => .up
  | 3 => .dn
  | _ => .ne

/-- The thread with results in its registers and flags set (R191). -/
def Thread.result (t : Thread) (i : Nat) (rs : List Reg) (flags : Word) : Thread :=
  { t.setRegs i rs with fmode := t.fmode ||| flags }

def orFlags (xs : List (Nat × Word)) : Word := xs.foldl (fun f x => f ||| x.2) 0

/-- A form whose result is computed from the words of its sources: poison is carried through and sets no flag (R115,
R191). -/
def fForm (fm : Form) (d : Fld) (n : Nat) (srcs : Group → Thread → List Reg)
    (res : Issue → Group → Thread → List Reg × Word) (s : State) : Out :=
  withForm fm (perLane (fun is _ g _ t =>
    if (srcs g t).any Reg.isPoisoned then .ok (t.setRegs (g.vi d) (List.replicate n poison0))
    else .ok (t.result (g.vi d) (res is g t).1 (res is g t).2))) s

/-! Arithmetic (R198 to R203). -/

def Accepts.arith : Accepts := ⟨false, true, true, false, false, false⟩
def Accepts.negOnly : Accepts := ⟨false, false, true, false, false, false⟩
def Accepts.fma : Accepts := ⟨false, true, true, true, false, false⟩

/-- sat after rounding and flushing (R199). -/
def satIf (f : Fmt) (b : Bool) (x : Nat × Word) : Nat × Word := if b then (clampF f x.1, x.2) else x

/-- A sum of two values rounded once, with flags. -/
def addF (f : Fmt) (fzout : Bool) (mode : Mode) (x y : FV) : Nat × Word := sumOfProducts f fzout mode [] [x, y]

/-- A two-operand form on each element. -/
def fBin (op : Fmt → Bool → Mode → FV → FV → Nat × Word) (t : FTy) (d : Fld) (a : Src) (b : SrcB) (s : State) : Out :=
  let n := t.regs
  let f := (ftyFmt t)
  fForm ⟨[vDst d n, vSrc 1 a n, bSrc b n], Accepts.arith, .any⟩ d n
    (fun g th => g.vregsAt th a.f n ++ g.bRegs th b n)
    (fun is g th =>
      let m := hintMods is.hints
      let xs := (elemsOf t (vals (g.vregsAt th a.f n))).map (negIf f m.nega)
      let ys := (elemsOf t (vals (g.bRegs th b n))).map (negIf f m.negb)
      let rs := (xs.zip ys).map (fun p => satIf f m.sat
        (op f (fzoutOf th) (arithMode th) (readF f (fzinOf th) p.1) (readF f (fzinOf th) p.2)))
      (regsOfElems t (rs.map (·.1)), orFlags rs)) s

def execFloatAdd (t : FTy) (d : Fld) (a : Src) (b : SrcB) (s : State) : Out := fBin addF t d a b s
def execFloatSub (t : FTy) (d : Fld) (a : Src) (b : SrcB) (s : State) : Out :=
  fBin (fun f z m x y => addF f z m x y.flip) t d a b s
def execFloatMul (t : FTy) (d : Fld) (a : Src) (b : SrcB) (s : State) : Out :=
  fBin (fun f z m x y => sumOfProducts f z m [(x, y)] []) t d a b s

/-- min and max (R200). -/
def fPick (big : Bool) (t : FTy) (d : Fld) (a : Src) (b : SrcB) (s : State) : Out :=
  let n := t.regs
  let f := (ftyFmt t)
  fForm ⟨[vDst d n, vSrc 1 a n, bSrc b n], Accepts.negOnly, .any⟩ d n
    (fun g th => g.vregsAt th a.f n ++ g.bRegs th b n)
    (fun is g th =>
      let m := hintMods is.hints
      let xs := (elemsOf t (vals (g.vregsAt th a.f n))).map (negIf f m.nega)
      let ys := (elemsOf t (vals (g.bRegs th b n))).map (negIf f m.negb)
      (regsOfElems t ((xs.zip ys).map (fun p => pickF f big (fzinOf th) (fzoutOf th) p.1 p.2)), 0)) s

def execFloatMin (t : FTy) (d : Fld) (a : Src) (b : SrcB) (s : State) : Out := fPick false t d a b s
def execFloatMax (t : FTy) (d : Fld) (a : Src) (b : SrcB) (s : State) : Out := fPick true t d a b s

/-- fclass (R201): one mask for each element, 16 bits each, in one register. -/
def execFclass (t : FTy) (d : Fld) (a : Src) (s : State) : Out :=
  fForm (Form.of [vDst d, vSrc 1 a t.regs]) d 1 (fun g th => g.vregsAt th a.f t.regs)
    (fun _ g th =>
      let cs := (elemsOf t (vals (g.vregsAt th a.f t.regs))).map (classF (ftyFmt t))
      ([full (BitVec.ofNat 32 (cs.getD 0 0 + 65536 * cs.getD 1 0))], 0)) s

/-- The result format of a dot form: f32, or f64 (R202). -/
def dotOut : FTy → FTy
  | .f64 => .f64
  | _ => .f32

def fDot (four : Bool) (t : FTy) (d : Fld) (a : Src) (b : SrcB) (s : State) : Out :=
  let n := dotSrcRegs t four
  let o := dotOut t
  fForm ⟨[vDst d o.regs, vSrc 1 a n, bSrc b n], Accepts.arith, .any⟩ d o.regs
    (fun g th => g.vregsAt th a.f n ++ g.bRegs th b n)
    (fun is g th =>
      let m := hintMods is.hints
      let xs := (elemsOf t (vals (g.vregsAt th a.f n))).map (fun x => readF (ftyFmt t) (fzinOf th) (negIf (ftyFmt t) m.nega x))
      let ys := (elemsOf t (vals (g.bRegs th b n))).map (fun y => readF (ftyFmt t) (fzinOf th) (negIf (ftyFmt t) m.negb y))
      let r := satIf (ftyFmt o) m.sat (sumOfProducts (ftyFmt o) (fzoutOf th) (arithMode th) (xs.zip ys) [])
      (regsOfElems o [r.1], r.2)) s

def execDot2 (t : FTy) (d : Fld) (a : Src) (b : SrcB) (s : State) : Out := fDot false t d a b s
def execDot4 (t : FTy) (d : Fld) (a : Src) (b : SrcB) (s : State) : Out := fDot true t d a b s

/-- fma (R203). -/
def execFma (t : FTy) (d : Fld) (a b : Src) (c : Fld) (s : State) : Out :=
  let n := t.regs
  let f := (ftyFmt t)
  fForm ⟨[vDst d n, vSrc 1 a n, vSrc 2 b n, vRead 3 c n], Accepts.fma, .any⟩ d n
    (fun g th => g.vregsAt th a.f n ++ g.vregsAt th b.f n ++ g.vregsAt th c n)
    (fun is g th =>
      let m := hintMods is.hints
      let z := fzinOf th
      let xs := (elemsOf t (vals (g.vregsAt th a.f n))).map (fun x => readF f z (negIf f m.nega x))
      let ys := (elemsOf t (vals (g.vregsAt th b.f n))).map (fun x => readF f z (negIf f m.negb x))
      let cs := (elemsOf t (vals (g.vregsAt th c n))).map (fun x => readF f z (negIf f m.negc x))
      let rs := ((xs.zip ys).zip cs).map (fun p => satIf f m.sat
        (sumOfProducts f (fzoutOf th) (arithMode th) [p.1] [p.2]))
      (regsOfElems t (rs.map (·.1)), orFlags rs)) s

/-- cmp (R204): the low element of each operand. -/
def execFloatCmp (t : FTy) (p : BitVec 3) (c : FCond) (a : Src) (b : SrcB) (s : State) : Out :=
  let n := t.regs
  let f := (ftyFmt t)
  withForm ⟨[vSrc 1 a n, bSrc b n], Accepts.negOnly, .any⟩ (perLane (fun is _ g _ th =>
    let ra := g.vregsAt th a.f n
    let rb := g.bRegs th b n
    match poisonIn (ra ++ rb) with
    | some (kind, v) => .trap kind v 0
    | none =>
      let m := hintMods is.hints
      let x := readF f (fzinOf th) (negIf f m.nega ((elemsOf t (vals ra)).getD 0 0))
      let y := readF f (fzinOf th) (negIf f m.negb ((elemsOf t (vals rb)).getD 0 0))
      .ok (th.setPred p (fcondHolds c (cmpF x y))))) s

/-! Special functions (R205). -/

/-- A function of one element on each element of a form. -/
def fUn (fn : Fmt → Bool → Bool → Nat → Nat × Word) (t : FTy) (d : Fld) (a : Src) (s : State) : Out :=
  let n := t.regs
  fForm (Form.of [vDst d n, vSrc 1 a n]) d n (fun g th => g.vregsAt th a.f n)
    (fun _ g th =>
      let rs := (elemsOf t (vals (g.vregsAt th a.f n))).map (fn (ftyFmt t) (fzinOf th) (fzoutOf th))
      (regsOfElems t (rs.map (·.1)), orFlags rs)) s

def execRcpF32 (d : Fld) (a : Src) (s : State) : Out := fUn rcpF .f32 d a s
def execRsqrtF32 (d : Fld) (a : Src) (s : State) : Out := fUn rsqrtF .f32 d a s
def execSqrtF32 (d : Fld) (a : Src) (s : State) : Out := fUn sqrtF .f32 d a s
def execExp2F32 (d : Fld) (a : Src) (s : State) : Out := fUn (specialF .exp2) .f32 d a s
def execLog2F32 (d : Fld) (a : Src) (s : State) : Out := fUn (specialF .log2) .f32 d a s
def execSinF32 (d : Fld) (a : Src) (s : State) : Out := fUn (specialF .sin) .f32 d a s
def execCosF32 (d : Fld) (a : Src) (s : State) : Out := fUn (specialF .cos) .f32 d a s
def execTanhF32 (d : Fld) (a : Src) (s : State) : Out := fUn (specialF .tanh) .f32 d a s
def execRcpF64 (d : Fld) (a : Src) (s : State) : Out := fUn rcpF .f64 d a s
def execRsqrtF64 (d : Fld) (a : Src) (s : State) : Out := fUn rsqrtF .f64 d a s
def execSqrtF64 (d : Fld) (a : Src) (s : State) : Out := fUn sqrtF .f64 d a s
def execExp2F16x2 (d : Fld) (a : Src) (s : State) : Out := fUn (specialF .exp2) .f16 d a s
def execTanhF16x2 (d : Fld) (a : Src) (s : State) : Out := fUn (specialF .tanh) .f16 d a s
def execTanhBf16x2 (d : Fld) (a : Src) (s : State) : Out := fUn (specialF .tanh) .bf16 d a s

/-! Conversions (R207 to R210). -/

/-- Rounding of a conversion: the mode, and the generator after the draw of a stochastic one (R193, R195). -/
def convMode (r : Rnd) (t : Thread) : Mode × DWord :=
  let stoch := let p := drawG t.gen; (Mode.sr p.2.toNat, p.1)
  match r with
  | .ne => (.ne, t.gen)
  | .tz => (.tz, t.gen)
  | .up => (.up, t.gen)
  | .dn => (.dn, t.gen)
  | .sr => stoch
  | .mode => if bits t.fmode 2 0 = 4 then stoch else (arithMode t, t.gen)

/-- A conversion: poison is carried through, with no draw; otherwise it draws where it is stochastic. -/
def fConv (fm : Form) (d : Fld) (n : Nat) (r : Rnd) (srcs : Group → Thread → List Reg)
    (res : Group → Thread → Mode → List Reg × Word) (s : State) : Out :=
  withForm fm (perLane (fun _ _ g _ t =>
    if (srcs g t).any Reg.isPoisoned then .ok (t.setRegs (g.vi d) (List.replicate n poison0))
    else
      let m := convMode r t
      let x := res g t m.1
      .ok { t.result (g.vi d) x.1 x.2 with gen := m.2 })) s

/-- The bits of a value of some width in registers (R187). -/
def bitsIn (width : Nat) (rs : List Reg) : Nat := regsVal rs % 2 ^ width

/-- Registers of a result, zero-extended (R187). -/
def regsOut (n v : Nat) : List Reg := if n = 2 then pairRegs (BitVec.ofNat 64 v) else [full (BitVec.ofNat 32 v)]

def execCastFloat (d : Fld) (a : Src) (dst src : Fmt) (sat : Bool) (r : Rnd) (s : State) : Out :=
  fConv (Form.of [vDst d (dst.regs), vSrc 1 a (src.regs)]) d (dst.regs) r
    (fun g t => g.vregsAt t a.f (src.regs))
    (fun g t m =>
      let x := readF src (fzinOf t) (bitsIn (fmtWidth src) (g.vregsAt t a.f (src.regs)))
      let y := deliverF dst sat (fzoutOf t) m false x
      (regsOut (dst.regs) y.1, y.2)) s

def intWidth : IntTy → Nat
  | .i8 | .n8 => 8
  | .i16 | .n16 => 16
  | .i32 | .n32 => 32
  | .i64 | .n64 => 64

def intSigned : IntTy → Bool
  | .i8 | .i16 | .i32 | .i64 => true
  | _ => false

/-- The ends of an integer range (R186). -/
def rangeOf (sg : Bool) (w : Nat) : Int × Int := if sg then (-(2 ^ (w - 1)), 2 ^ (w - 1) - 1) else (0, 2 ^ w - 1)

/-- An integer read from the low bits of registers (R209). -/
def intIn (t : IntTy) (rs : List Reg) : Int :=
  let n := bitsIn (intWidth t) rs
  if intSigned t ∧ 2 ^ (intWidth t - 1) ≤ n then (n : Int) - 2 ^ intWidth t else n

/-- Bits of an integer extended to its registers. -/
def intOut (n : Nat) (x : Int) : List Reg := if n = 2 then pairRegs (BitVec.ofInt 64 x) else [full (BitVec.ofInt 32 x)]

def execCastIntFloat (d : Fld) (a : Src) (toInt : Bool) (it : IntTy) (ft : FTy) (sat : Bool) (r : Rnd) (s : State) : Out :=
  let f := (ftyFmt ft)
  let nd := if toInt then it.regs else f.regs
  let na := if toInt then f.regs else it.regs
  fConv (Form.of [vDst d nd, vSrc 1 a na]) d nd r (fun g t => g.vregsAt t a.f na)
    (fun g t m =>
      let rs := g.vregsAt t a.f na
      if toInt then
        let rg := rangeOf (intSigned it) (intWidth it)
        let y := deliverI rg.1 rg.2 m (readF f (fzinOf t) (bitsIn (fmtWidth f) rs))
        (intOut nd y.1, y.2)
      else
        let x := intIn it rs
        let y := deliverF f sat (fzoutOf t) m false (.fin (decide (x < 0)) x.natAbs 0)
        (regsOut nd y.1, y.2)) s

/-- An element that pack makes of an f32: its code and flags (R210). -/
def packElem (el : PackElem) (sat : Bool) (m : Mode) (x : FV) : Nat × Word :=
  let int (sg : Bool) (w : Nat) : Nat × Word :=
    let rg := rangeOf sg w
    let y := deliverI rg.1 rg.2 m x
    ((y.1 % 2 ^ w).toNat, y.2)
  match el with
  | .e4m3 => deliverF .e4m3 sat false m false x
  | .e5m2 => deliverF .e5m2 sat false m false x
  | .e2m1 => deliverF .e2m1 sat false m false x
  | .i8 => int true 8
  | .n8 => int false 8
  | .i4 => int true 4
  | .n4 => int false 4

def packWidth : PackElem → Nat
  | .e2m1 | .i4 | .n4 => 4
  | _ => 8

def execPack (d : Fld) (a : Src) (el : PackElem) (ix : BitVec 3) (sat : Bool) (r : Rnd) (s : State) : Out :=
  fConv (Form.of [vMod d, vSrc 1 a]) d 1 r (fun g t => [g.vreg t a.f, g.vreg t d])
    (fun g t m =>
      let w := packWidth el
      let e := packElem el sat m (readF .f32 (fzinOf t) (g.vreg t a.f).val.toNat)
      let mask : Word := BitVec.ofNat 32 ((2 ^ w - 1) * 2 ^ (w * ix.toNat))
      ([full (((g.vreg t d).val &&& ~~~mask) ||| BitVec.ofNat 32 (e.1 * 2 ^ (w * ix.toNat)))], e.2)) s

/-! Generator and mode (R211). -/

def execRngSeed (a : Src) (s : State) : Out :=
  withForm (Form.of [vSrc 1 a 2]) (perLane (fun _ _ g _ t =>
    let r := g.vregsAt t a.f 2
    match poisonIn r with
    | some (kind, v) => .trap kind v 0
    | none => .ok { t with gen := if regPair r = 0 then 0x0000_0001_0000_0001 else regPair r })) s

def execRngNext (d : Fld) (s : State) : Out :=
  withForm (Form.of [vDst d]) (perLane (fun _ _ g _ t =>
    let p := drawG t.gen
    .ok { t.setRegs (g.vi d) [full p.2] with gen := p.1 })) s

def execFmodeRd (d : Fld) (s : State) : Out :=
  withForm (Form.of [vDst d]) (perLane (fun _ _ g _ t => .ok (t.setRegs (g.vi d) [full t.fmode]))) s

/-- What k.fmode holds after a write (R189, R211). -/
def fmodeOf (w : Word) : Word :=
  let v := w &&& 0x1F1F
  if 5 ≤ bits v 2 0 then v &&& ~~~7 else v

def execFmodeWr (a : Src) (s : State) : Out :=
  withForm (Form.of [vSrc 1 a]) (perLane (fun _ _ g _ t =>
    match poisonIn [g.vreg t a.f] with
    | some (kind, v) => .trap kind v 0
    | none => .ok { t with fmode := fmodeOf (g.vreg t a.f).val })) s

end Sys2Proof.Machine
end

