-- ==== Sys2Proof/Machine/Images.lean ====
section
/-!
DEFINITION. The context image (R470 to R472), ctx.save and ctx.load (R480).
-/

namespace Sys2Proof.Machine

/-! The image of a saved block. -/

/-- The wait code of a thread record (R471); a wait for registers is in the page-missing state where a fill of one waits for
page service (R155). -/
def waitCode (pageMissing : Bool) (t : Thread) : Nat :=
  match t.run with
  | .ready => 0
  | .exited => 1
  | .killed => 2
  | .parked => 3
  | .blocked w => match w with
    | .gate _ _ | .fold _ _ => 4
    | .nbar _ => 5
    | .room _ _ | .claim _ | .drain _ _ => 6
    | .monitor => 7
    | .pages _ _ => 8
    | .regs _ => if pageMissing then 8 else 9
    | .copySlot _ => 10
    | .counter _ => 11
    | .fsem _ _ => 12
    | .regroupRegs | .regroupWindow => 14
    | .fence _ | .conv _ => 15
    | _ => 13

/-- The wait datum of a thread record: what the wait names. -/
def waitDatum (t : Thread) : Word :=
  match t.run with
  | .blocked w => match w with
    | .gate n _ | .fold n _ | .nbar n | .room n _ | .claim n | .drain n _ | .pin n | .srfFree n | .srfEvict n _ _ | .hmark n _ _
    | .accBanks _ n => BitVec.ofNat 32 n
    | .regs rs => BitVec.ofNat 32 ((rs.headD (false, 0)).2)
    | .counter id => id
    | .fsem _ v => v
    | _ => 0
  | _ => 0

/-- Queued park records of a block (R470, R472: held ones are in the opaque section). -/
def recordsOf (s : State) (b : Nat) (k : Block) : List ParkRecord :=
  (s.ctx? k.part k.stack k.job).elim [] (fun c => c.park.filter (fun r => r.blk == b))

/-- The index in the image of a thread's park record. -/
def recordIndex (rs : List ParkRecord) (g l : Nat) (t : Thread) : Word :=
  if t.run = .parked then
    match (indexes (fun (r : ParkRecord) => !r.seq && r.grp == g && r.lanes.contains l) rs).head? with
    | some i => BitVec.ofNat 32 i
    | none => 0xFFFF_FFFF
  else 0xFFFF_FFFF

/-- A register for which a thread of a block waits is to be filled by a load that waits for page service (R155). -/
def awaitsPage (s : State) (b gi : Nat) (g : Group) (t : Thread) : Bool :=
  match t.run with
  | .blocked (.regs rs) => rs.any (fun r => (regAt g t r).isEmpty && s.accesses.any (fun a =>
      a.blk == b && !a.waits.isEmpty && (match a.dst with
        | some d => d.uni == r.1 && (if d.uni then d.grp == gi else a.tid == t.tid) && decide (d.idx ≤ r.2) && decide (r.2 < d.idx + d.n)
        | none => false)))
  | _ => false

/-- A thread record, words 0 to 15 (R471). -/
def threadWords (s : State) (b : Nat) (rs : List ParkRecord) (gi : Nat) (g : Group) (l : Nat) (t : Thread) : List Word :=
  let mon (f : Monitor → Word) : Word := t.monitor.elim 0 f
  [ lowAddr t.start, highAddr t.start,
    putBits (waitCode (awaitsPage s b gi g t) t) 31 24 ||| putBits t.yieldTurns 20 16 ||| putBits t.starv 15 8 ||| t.preds.zeroExtend 32,
    t.fmode, lowWord t.gen, highWord t.gen, waitDatum t, mon (fun m => lowAddr m.va),
    mon (fun m => putBits 1 31 31 ||| highAddr m.va), mon (·.value), recordIndex rs gi l t, 0, 0, 0, 0, 0 ]

/-- State codes of R32. -/
def RegState.code : RegState → Nat
  | .full => 0
  | .empty => 1
  | .poisoned => 2

def stateOfCode : Nat → RegState
  | 1 => .empty
  | 2 => .poisoned
  | _ => .full

/-- States packed four to a byte, the first lowest (R471). -/
def packStates : List Reg → List Byte
  | a :: b :: c :: d :: rs =>
    BitVec.ofNat 8 (a.st.code + 4 * b.st.code + 16 * c.st.code + 64 * d.st.code) :: packStates rs
  | _ => []

/-- Zero padding to a multiple of 64 bytes. -/
def pad64 (bs : List Byte) : List Byte := bs ++ List.replicate (64 * ceilDiv bs.length 64 - bs.length) 0

/-- The header of a group section (R471). -/
def groupWords (g : Group) : List Word :=
  let mask (p : Thread → Bool) : Word := maskOf (indexes p g.threads)
  [ BitVec.ofNat 32 g.num, mask Thread.live, mask (fun t => t.run == .parked),
    putBits g.ws.toNat 13 8 ||| putBits g.wv.toNat 4 0, g.spreds.zeroExtend 32 ] ++ List.replicate 11 0

/-- A group section (R471). -/
def groupSection (s : State) (b : Nat) (rs : List ParkRecord) (gi : Nat) (g : Group) : List Byte :=
  let vr := g.threads.flatMap (·.regs)
  pad64 (bytesOfWords (groupWords g ++
      (((upto g.threads.length).zip g.threads).flatMap (fun p => threadWords s b rs gi g p.1 p.2)) ++ vr.map (·.val)) ++
    packStates vr ++ bytesOfWords (g.sregs.map (·.val)) ++ packStates g.sregs)

/-- Bytes of a group section with allotments A and U. -/
def sectionSize (a u : Nat) : Nat := 64 * ceilDiv (64 + 32 * 64 + 128 * a + 8 * a + 4 * u + u / 4) 64

/-- A pending fill as the image lists it: file, group, lane, first register and count (R471). -/
def fillWords (k : Block) (a : Access) : List Word :=
  match a.dst with
  | none => []
  | some d =>
    let p := if d.uni then (d.grp, 0) else (k.find a.tid).getD (d.grp, d.lane)
    [ putBits (boolBit d.uni) 31 31 ||| putBits p.1 30 26 ||| putBits p.2 25 21 ||| putBits d.idx 8 0, BitVec.ofNat 32 d.n, 0, 0 ]

/-- Size of the opaque section in 64-byte units: open (R472; entry 6). -/
def opaqueSize (b : Nat) : Nat := Config.opaqueUnits b % 65536

/-- The header of a block's image, with a status in word 14 (R470). -/
def imageHeader (s : State) (b : Nat) (k : Block) (status : Word) : List Word :=
  let rs := recordsOf s b k
  let fills := pendingFills s b
  let size := 64 + k.groups.length * sectionSize k.vregs k.sregs + k.scratchSize + 64 * ceilDiv (16 * fills.length) 64
    + 64 * rs.length + 64 * opaqueSize b
  [ 0x0101_0021, BitVec.ofNat 32 (ceilDiv size 64), k.job, (if k.trapGroup then 0 else BitVec.ofNat 32 k.lin),
    (s.launchOf k).elim 0 (fun l => (recCounters l.words).getD 0 0),
    putBits (boolBit k.trapGroup) 3 3 ||| putBits (boolBit k.seq.chain.isSome) 2 2
      ||| putBits (boolBit (k.seq.state != .idle)) 1 1 ||| putBits (boolBit k.priv) 0 0,
    putBits (k.shape.2.2 - 1) 29 20 ||| putBits (k.shape.2.1 - 1) 19 10 ||| putBits (k.shape.1 - 1) 9 0,
    putBits (k.sregs / 8 - 1) 13 8 ||| putBits (k.vregs / 8 - 1) 4 0, BitVec.ofNat 32 k.scratchSize,
    BitVec.ofNat 32 k.groups.length, BitVec.ofNat 32 fills.length, BitVec.ofNat 32 rs.length, BitVec.ofNat 32 (opaqueSize b),
    0, status, 0 ]

/-- The image of a saved block, with status 0. -/
def imageBytes (s : State) (b : Nat) (k : Block) : List Byte :=
  let rs := recordsOf s b k
  bytesOfWords (imageHeader s b k 0) ++
  ((upto k.groups.length).zip k.groups).flatMap (fun p => groupSection s b rs p.1 p.2) ++
  k.scratch.read 0 k.scratchSize ++
  pad64 (bytesOfWords ((pendingFills s b).flatMap (fillWords k))) ++
  bytesOfWords (rs.flatMap (·.words)) ++
  (upto (64 * opaqueSize b)).map (fun i => Config.opaqueByte s.moves i)

/-! Accesses of ctx.save and ctx.load (R480). -/

/-- The runs of an access of n bytes within pages of 64 KiB. -/
def pageRuns (va : Addr) (n : Nat) : List (Addr × Nat) :=
  let o := va.toNat % 65536
  (upto (ceilDiv (o + n) 65536)).map (fun i =>
    if i = 0 then (va, min n (65536 - o))
    else (va + BitVec.ofNat 56 (65536 * i - o), min 65536 (n - (65536 * i - o))))

/-- What reaching the image's bytes gives: their pieces, or the state and traps in which the bundle stops. -/
inductive Reached where
  | pieces (ps : List Piece)
  | stop (ts : List Trap)
  deriving DecidableEq, Repr, Inhabited

/-- Translate an access of n bytes for a bundle, with the outcomes of R330; it follows the earlier accesses of its
threads to the same bytes, and waits while the link that it crosses stalls (R506). -/
def reach (s : State) (is : Issue) (k : Block) (g : Group) (use : Use) (va : Addr) (n : Nat) : State × Reached :=
  let r := xlateAll (fun s v => xlateCore s k use v) s (pageRuns va n)
  match badCause r.2 with
  | some c => (r.1, .stop (trapAll is.act kProtection (BitVec.ofNat 32 c) va))
  | none =>
    let pgs := pagesOf r.2
    if !pgs.isEmpty then ((countPages r.1 is.blk pgs).blockLanes is.blk is.grp is.act (fun _ => .pages pgs true), .stop [])
    else
      let ps := piecesOf r.2
      if is.act.any (fun l => !(mustFollow r.1 is.blk (g.thread l).tid ps).isEmpty) || peerWaits r.1 k.stack ps then
        (r.1.blockLanes is.blk is.grp is.act (fun _ => .own), .stop [])
      else (dropLines r.1 k.stack k.core ps, .pieces ps)

/-- Write bytes at the image's address, and go on. -/
def imageWrite (s : State) (is : Issue) (k : Block) (g : Group) (va : Addr) (bs : List Byte) (f : State → State) :
    State × List Trap :=
  let r := reach s is k g .store va bs.length
  match r.2 with
  | .stop ts => (r.1, ts)
  | .pieces ps => ((writeBytes (f r.1) (bundleWho r.1 is g) ps bs).advance is.blk is.grp is.act, [])

/-- Answer with a status in word 14 (R480). -/
def imageStatus (s : State) (is : Issue) (k : Block) (g : Group) (va : Addr) (st : Nat) (f : State → State) : State × List Trap :=
  imageWrite s is k g (va + 56) (leBytes 4 st) f

/-- The block that words 2 and 3 name on the issuer's stack: one that is not over, a launch's before a trap group, a
stopped one before others. -/
def imageTarget (s : State) (k : Block) (job lin : Word) : Option Nat :=
  let ok (trap stopped : Bool) (o : Block) : Bool :=
    o.part == k.part && o.stack == k.stack && o.job == job && o.lin == lin.toNat && o.trapGroup == trap &&
    (o.phase == .stopped) == stopped && o.phase != .complete && o.phase != .cancelled
  ((((indexes (ok false true) s.blocks).head?).or (indexes (ok false false) s.blocks).head?).or
    (indexes (ok true true) s.blocks).head?).or (indexes (ok true false) s.blocks).head?

/-- Both forms read words 2 and 3 and name their target; a status answers where it is absent or not stopped. -/
def withTarget (a : Src) (go : Issue → Block → Group → Addr → Nat → Block → State → State × List Trap) : Body :=
  uniBody (fun g => g.sregsAt a.f 2) (fun is k g s =>
    let va := regAddr (g.sregsAt a.f 2)
    let r := readDesc s is k g va 16 64
    match r.2 with
    | .stop ts => (r.1, ts)
    | .words ws =>
      match imageTarget r.1 k (ws.getD 2 0) (ws.getD 3 0) with
      | none => imageStatus r.1 is k g va 1 id
      | some b =>
        match r.1.block? b with
        | none => imageStatus r.1 is k g va 1 id
        | some o => if o.phase = .stopped then go is k g va b o r.1 else imageStatus r.1 is k g va 2 id)

/-- ctx.save (R480). -/
def execCtxSave (a : Src) (s : State) : Out :=
  withForm ⟨[uSrc 1 a 2], Accepts.plain, .priv⟩ (unlessSwept (withTarget a (fun is k g va b o s =>
    if fillsPending s b then (s.blockLanes is.blk is.grp is.act (fun _ => .saveFills b), [])
    else
      let s1 := meetUpsets s [⟨.scratch b, 0, o.scratchSize⟩]
      imageWrite s1 is k g va (imageBytes s1 b o) State.draw))) s

/-! ctx.load. -/

/-- A word of the image's bytes. -/
def wordAt (bs : List Byte) (i : Nat) : Word := BitVec.ofNat 32 (leNat ((bs.drop (4 * i)).take 4))

/-- A thread of the image keeps the saved wait, with what it waits for (DEDUCED, entry 117), and record, its reserved fields are
zero, and k.fmode holds no reserved bit. -/
def threadImageOk (s : State) (b : Nat) (rs : List ParkRecord) (gi : Nat) (g : Group) (l : Nat) (t : Thread) (bs : List Byte) :
    Bool :=
  let old := threadWords s b rs gi g l t
  bits (wordAt bs 1) 31 24 == 0 && bits (wordAt bs 2) 31 24 == bits (old.getD 2 0) 31 24 && bits (wordAt bs 2) 23 21 == 0 &&
  wordAt bs 6 == old.getD 6 0 && wordAt bs 10 == old.getD 10 0 && bits (wordAt bs 8) 30 24 == 0 && wordAt bs 3 &&& 0x1F1F == wordAt bs 3 &&
  (upto 5).all (fun i => wordAt bs (11 + i) == 0)

/-- Codes of packed states, n of them. -/
def codesOf (bs : List Byte) (n : Nat) : List Nat := (upto n).map (fun i => (bs.getD (i / 4) 0).toNat / 4 ^ (i % 4) % 4)

/-- Offsets in a group section: thread records, vector values and states, uniform values and states. -/
def threadsAt : Nat := 64
def vvalsAt : Nat := 64 + 32 * 64
def vstatesAt (a : Nat) : Nat := vvalsAt + 128 * a
def uvalsAt (a : Nat) : Nat := vstatesAt a + 8 * a
def ustatesAt (a u : Nat) : Nat := uvalsAt a + 4 * u

/-- A group section of the image can replace a group's state. -/
def groupImageOk (s : State) (b : Nat) (rs : List ParkRecord) (gi : Nat) (k : Block) (g : Group) (bs : List Byte) : Bool :=
  let w := wordAt bs
  bits (w 0) 31 5 == 0 && bits (w 3) 31 14 == 0 && bits (w 3) 7 5 == 0 && bits (w 4) 31 4 == 0 &&
  (upto 11).all (fun i => w (5 + i) == 0) &&
  ((upto g.threads.length).zip g.threads).all (fun p => threadImageOk s b rs gi g p.1 p.2 (bs.drop (threadsAt + 64 * p.1))) &&
  (codesOf (bs.drop (vstatesAt k.vregs)) (32 * k.vregs)).all (· != 3) &&
  (codesOf (bs.drop (ustatesAt k.vregs k.sregs)) k.sregs).all (· != 3)

/-- Registers from values and states. -/
def regsFrom (vals states : List Byte) (first n : Nat) : List Reg :=
  let codes := codesOf states (first + n)
  (upto n).map (fun i => ⟨wordAt vals (first + i), stateOfCode (codes.getD (first + i) 0)⟩)

/-- A thread's state replaced from the image. A rounding mode of 5 to 7 in its k.fmode, which R480 does not reject, is stored
as 0, as fmode.wr stores it (DESIGN CHOICE, entry 105; R189). -/
def threadFrom (k : Block) (bs : List Byte) (l : Nat) (t : Thread) : Thread :=
  let r := bs.drop (threadsAt + 64 * l)
  let w := wordAt r
  let pc : Addr := (w 1).setWidth 24 ++ noLow2 (w 0)
  { t with
    pc := if pc = t.start then t.pc else pc
    hints := if pc = t.start then t.hints else []
    preds := (w 2).setWidth 8
    starv := bits (w 2) 15 8
    yieldTurns := bits (w 2) 20 16
    fmode := fmodeOf (w 3)
    gen := pairVal (w 5) (w 4)
    monitor := if bit (w 8) 31 then some ⟨(w 8).setWidth 24 ++ w 7, 0, 0, w 9, true⟩ else none
    regs := regsFrom (bs.drop vvalsAt) (bs.drop (vstatesAt k.vregs)) (l * k.vregs) k.vregs }

/-- A group's state replaced from its section. -/
def groupFrom (k : Block) (bs : List Byte) (g : Group) : Group :=
  { g with
    ws := BitVec.ofNat 6 (bits (wordAt bs 3) 13 8)
    wv := BitVec.ofNat 5 (bits (wordAt bs 3) 4 0)
    spreds := (wordAt bs 4).setWidth 4
    threads := mapFrom (threadFrom k bs) 0 g.threads
    sregs := regsFrom (bs.drop (uvalsAt k.vregs)) (bs.drop (ustatesAt k.vregs k.sregs)) 0 k.sregs }

/-- The image is accepted (R480). -/
def imageOk (s : State) (b : Nat) (k : Block) (bs : List Byte) : Bool :=
  let own := imageHeader s b k 0
  let sec := sectionSize k.vregs k.sregs
  ([0, 5, 6, 7, 8, 9, 10, 11, 12].all (fun i => wordAt bs i == own.getD i 0)) && wordAt bs 10 == 0 &&
  wordAt bs 13 == 0 && wordAt bs 15 == 0 &&
  ((upto k.groups.length).zip k.groups).all (fun p =>
    groupImageOk s b (recordsOf s b k) p.1 k p.2 (bs.drop (64 + p.1 * sec)))

/-- The group sections and the scratchpad replaced. -/
def loadImage (s : State) (b : Nat) (bs : List Byte) : State :=
  { s with upsets := s.upsets.filter (fun u => u.1 != Space.scratch b) }.mapBlock b (fun k =>
    let sec := sectionSize k.vregs k.sregs
    { k with
      groups := mapFrom (fun i g => groupFrom k (bs.drop (64 + i * sec)) g) 0 k.groups
      scratch := Memory.write [] 0 ((bs.drop (64 + k.groups.length * sec)).take k.scratchSize)
      scratchPoison := [] })

/-- ctx.load (R480). -/
def execCtxLoad (a : Src) (s : State) : Out :=
  withForm ⟨[uSrc 1 a 2], Accepts.plain, .priv⟩ (unlessSwept (withTarget a (fun is k g va b o s =>
    let n := 64 + o.groups.length * sectionSize o.vregs o.sregs + o.scratchSize
    let r := reach s is k g .load va n
    match r.2 with
    | .stop ts => (r.1, ts)
    | .pieces ps =>
      let q := readBytes r.1 k.stack (bundleWho r.1 is g) .one ps
      match q.2 with
      | none => (q.1, trapAll is.act kPoison 0)
      | some bs =>
        if imageOk q.1 b o bs then imageStatus q.1 is k g va 0 (fun s => loadImage s b bs)
        else imageStatus q.1 is k g va 3 id))) s

end Sys2Proof.Machine
end

