-- ==== Sys2Proof/Machine/Power.lean ====
section
/-!
DEFINITION. Operating states and policy (R491 to R495), throttling and notifications (R496 to R499), and vault
readings (R434).
-/

namespace Sys2Proof.Machine

/-! Steps (R491, R492). -/

/-- Island voltage of a state in millivolts; near-threshold is 5. -/
def voltage (st : Nat) : Nat := [850, 750, 680, 620, 560, 450].getD st 560

/-- The voltage state of a lane cluster or of the core. -/
def voltageState (c : Core) (cluster : Option Nat) (near : Bool) : Nat :=
  if cluster.isSome && near then 5 else c.state

/-- A step from one voltage state to another, begun at a time: the voltage rises before the clock, and falls after it. -/
def planStep (now : Nat) (cluster : Option Nat) (target cause v0 v1 : Nat) : PowerStep :=
  let up := decide (voltage v0 < voltage v1)
  let slew := (if up then voltage v1 - voltage v0 else voltage v0 - voltage v1) * 10 / 25
  ⟨cluster, target, cause, if up then now + slew else now, now + slew + 10⟩

/-- A request for a step: a core takes one at a time, and one made during a step waits (R492). -/
def askStep (s : State) (stack core : Nat) (cluster : Option Nat) (target cause : Nat) : State :=
  let c := s.core stack core
  let near := cluster.elim false (fun i => (c.clusters.getD i Cluster.reset).near)
  let same := match cluster with
    | none => c.state == target
    | some _ => near == (target == 1)
  if c.step.isSome then s.mapCore stack core (fun c => { c with want := c.want ++ [(cluster, target, cause)] })
  else if same then s
  else
    let v1 := match cluster with
      | none => target
      | some _ => if target = 1 then 5 else c.state
    s.mapCore stack core (fun c => { c with
      step := some (planStep (10 * s.usOf stack) cluster target cause (voltageState c cluster near) v1) })

/-- The power-step record (R492): lane 0 of slot 0 of the core. It is written where host debug of the partition there, or of
the area's partition, is permitted (R520). -/
def powerTrace (s : State) (stack core : Nat) (old new : Word) (cause : Nat) : State :=
  let time := (s.stack stack).us.setWidth 32
  let who := (groupsOn s stack core 0).find? (fun p => p.2.2.2.slot == 0)
  if !debugPermitted s stack (who.elim (s.stack stack).tracePart (fun p => p.2.2.1.part)) then s
  else match who with
  | some (_, _, k, g) => traceRecord s stack (subjectTrace 5 (subjectOf s k g 0 (g.thread 0)) time k.job old new (BitVec.ofNat 32 cause))
  | none => traceRecord s stack (subjectTrace 5 ⟨false, stack, core, 0, 0, 0, 0, 0, 0⟩ time 0 old new (BitVec.ofNat 32 cause))

/-! Policy (R493 to R495). -/

/-- A lane cluster of a core holds resident groups. -/
def clusterBusy (s : State) (stack core cl : Nat) : Bool := !(groupsOn s stack core cl).isEmpty

/-- Issue cycles, stall cycles and cycles of a core's last window, over the lane clusters that hold groups. -/
def coreWindow (s : State) (stack core : Nat) : Nat × Nat × Nat :=
  let cs := (((upto 4).filter (clusterBusy s stack core)).map (fun i => (s.core stack core).clusters.getD i Cluster.reset))
  ((cs.map (·.i.toNat)).sum, (cs.map (·.m.toNat)).sum, (cs.map (·.c.toNat)).sum)

/-- Some measure of R496 holds the core. -/
def throttled (s : State) (stack core : Nat) : Bool :=
  vaultHolds s stack core || s.measures.any (fun m => m.cores.contains (stack, core))

/-- The refusal of a request for a faster state (R494). -/
def refusal (s : State) (stack core : Nat) : Option Nat :=
  let st := (s.core stack core).state
  if st = 1 ∧ s.capEff < s.avgPower + 100 then some 2
  else if st = 1 ∧ 950 < (s.vault stack (core / 4)).reading then some 3
  else if throttled s stack core then some 4
  else none

/-- A request is refused (R492, R494). -/
def refuse (s : State) (stack core code : Nat) : State :=
  let s1 := s.mapCore stack core (fun c => { c with
    denial := code
    pdeny := if c.pdeny = 0xFFFF_FFFF then c.pdeny else c.pdeny + 1 })
  powerTrace s1 stack core (pstateWord s stack core) (pstateWord s1 stack core) 3

/-- The request of a window for the core's state (R494). -/
def decideState (s : State) (stack core : Nat) : State :=
  let w := coreWindow s stack core
  let st := (s.core stack core).state
  if w.2.2 = 0 then s
  else if (s.core stack core).step.isSome then
    if 6 * w.2.2 ≤ 10 * w.2.1 ∨ (9 * w.2.2 ≤ 10 * w.1 ∧ st ≠ 0) then askStep s stack core none st 0 else s
  else if 6 * w.2.2 ≤ 10 * w.2.1 then
    if st = 4 then refuse s stack core 1 else askStep s stack core none (st + 1) 0
  else if 9 * w.2.2 ≤ 10 * w.1 then
    if st = 0 then s
    else
      match refusal s stack core with
      | some c => refuse s stack core c
      | none => askStep s stack core none (st - 1) 0
  else s

/-- The request of a window for the mode of a lane cluster (R495). -/
def decideNear (stack core : Nat) (s : State) (i : Nat) : State :=
  let c := (s.core stack core).clusters.getD i Cluster.reset
  if !clusterBusy s stack core i then s
  else if c.near then
    if 2 * c.m.toNat < c.c.toNat || c.c.toNat ≤ 16 * c.i.toNat then askStep s stack core (some i) 0 0 else s
  else if 3 ≤ c.streak then askStep s stack core (some i) 1 0
  else s

/-- The counts of a window of a lane cluster; busy says whether it holds groups (R493, R495). -/
def closeWindow (busy : Bool) (c : Cluster) : Cluster :=
  { c with
    i := BitVec.ofNat 32 c.curI
    m := BitVec.ofNat 32 c.curM
    c := BitVec.ofNat 32 c.curC
    n := c.n + 1
    curI := 0
    curM := 0
    curC := 0
    streak := if busy && 0 < c.curC && 3 * c.curC ≤ 4 * c.curM then c.streak + 1 else 0 }

/-- WINDOW_END (R493 to R495). -/
def execWindowEnd (stack core : Nat) (s : State) : Out :=
  let s1 := s.mapCore stack core (fun c => { c with
    clusters := mapFrom (fun i k => closeWindow (clusterBusy s stack core i) k) 0 c.clusters })
  .next ((upto 4).foldl (decideNear stack core) (decideState s1 stack core))

/-- A throttle lowers the core's state by one; 5 stands for it among the requests that wait (R496). -/
def lowerState (s : State) (stack core : Nat) : State :=
  if (s.core stack core).step.isSome then s.mapCore stack core (fun c => { c with want := c.want ++ [(none, 5, 1)] })
  else askStep s stack core none (min 4 ((s.core stack core).state + 1)) 1

/-- A request that waited for a step is decided again, where no step runs: policy from the last window, and a throttle or a
vault while it still holds the core (R492, R494 to R496). -/
def decideAgain (stack core : Nat) (s : State) (w : Option Nat × Nat × Nat) : State :=
  match w with
  | (some i, _, _) => decideNear stack core s i
  | (none, _, 0) => decideState s stack core
  | (none, 1, 1) =>
    if 0 < heldBy s stack core 1 ∧ (s.core stack core).state = 0 then askStep s stack core none 1 1 else s
  | (none, 5, _) => if 0 < heldBy s stack core 3 then lowerState s stack core else s
  | (none, t, c) => if throttled s stack core then askStep s stack core none t c else s

/-- Requests that waited for a step, in their order; when one has begun a step the others wait again (R492). -/
def resumeWants (stack core : Nat) (s : State) (ws : List (Option Nat × Nat × Nat)) : State :=
  ws.foldl (fun s w =>
    if (s.core stack core).step.isSome then s.mapCore stack core (fun c => { c with want := c.want ++ [w] })
    else decideAgain stack core s w) s

/-- POWER_STEP_END (R492). -/
def execPowerStepEnd (stack core : Nat) (s : State) : Out :=
  match (s.core stack core).step with
  | none => .next s
  | some p =>
    if 10 * s.usOf stack < p.ends then .next s
    else
      let wants := (s.core stack core).want
      let s1 := s.mapCore stack core (fun c => { c with
        step := none
        want := []
        state := if p.cluster.isNone then p.target else c.state
        clusters := match p.cluster with
          | some i => modifyAt (fun k => { k with near := p.target == 1, streak := 0 }) i c.clusters
          | none => c.clusters })
      let s2 := powerTrace s1 stack core (pstateWord s stack core) (pstateWord s1 stack core) p.cause
      .next (resumeWants stack core s2 wants)

/-! Notifications (R498). -/

/-- Cause bits of the event word. -/
def evReleased : Nat := 0
def evBoost : Nat := 1
def evCadence : Nat := 2
def evState : Nat := 3
def evGate : Nat := 4
def evVault : Nat := 5
def evFloor : Nat := 6
def evUnattainable : Nat := 7

/-- A notification to a context: its event word is updated as one step, or the management processor is told: of a word that
does not translate, and of one on a stack that the failed link cuts off. -/
def notifyCtx (s : State) (c : Ctx) (cause : Nat) : State :=
  if c.evw = 0 then s
  else
    match outcome (walk s c.stack c.part c.evw) c.evw .store true with
    | .ok t =>
      let pa := t.pa c.evw.toNat
      let p : Piece := ⟨.mem, pa, 4⟩
      if s.unreachablePA pa c.stack then s.report c.stack 9
      else
        let s1 := meetUpsets s [p]
        let old := s1.memWord pa
        writeBytes s1 (Who.of .device s1.moves) [p]
          (leBytes 4 ((((old >>> 24) + 1) <<< 24) ||| (old &&& 0xFF) ||| BitVec.ofNat 32 cause).toNat) (s1.chainOf p)
    | _ => s.report c.stack 9

/-- A notification to every context with a resident block on a core. -/
def notifyCore (s : State) (stack core cause : Nat) : State :=
  (s.ctxs.filter (fun c => c.stack == stack && (residentOn s stack core).any (fun k => k.part == c.part && k.job == c.job))).foldl
    (fun s c => notifyCtx s c cause) s

/-- A measure was removed from a core: the last one released it. -/
def notifyRemoval (s : State) (stack core : Nat) : State :=
  notifyCore s stack core (if throttled s stack core then 0 else 2 ^ evReleased)

/-- A notification to every context of a partition. -/
def notifyPart (s : State) (part cause : Nat) : State :=
  (s.ctxs.filter (fun c => c.part == part && !c.terminated)).foldl (fun s c => notifyCtx s c cause) s

/-! Readings (R434, R496). -/

/-- A vault takes its reading; above 115 °C it is throttled until it reads 110 °C or less. -/
def Vault.take (v : Vault) (t : Nat) : Vault :=
  { v with reading := t, forecast := t, throttled := if 1150 < t then true else if t ≤ 1100 then false else v.throttled }

/-- VAULT_READING (R434): every vault of a stack reads at once. A throttled column's cores go to state 4. -/
def execVaultReading (stack : Nat) (tenths : List Nat) (s : State) : Out :=
  let old := (s.stack stack).vaults
  let s1 := s.mapStack stack (fun k => { k with vaults := mapFrom (fun i (v : Vault) => v.take (tenths.getD i v.reading)) 0 k.vaults })
  let s2 : State := { s1 with blocks := s1.blocks.map (fun (k : Block) =>
    if k.stack == stack && k.phase == .resident then { k with unread := false } else k) }
  .next ((upto 32).foldl (fun s i =>
    let was := (old.getD i Vault.reset).throttled
    let is_ := (s.vault stack i).throttled
    let cores := (upto 4).map (fun j => 4 * i + j)
    if !was && is_ then cores.foldl (fun s c => notifyCore (askStep s stack c none 4 2) stack c (2 ^ evVault)) s
    else if was && !is_ then cores.foldl (fun s c => notifyRemoval s stack c) s
    else s) s2)

/-! Measures (R496, R499). -/

/-- Partitions in the order in which measures reach them: the lowest ceiling on any stack first, and on a tie the highest
number. -/
def measureOrder (s : State) : List Nat :=
  let ceil (p : Nat) : Nat := min (s.partOn p 0).params.ceiling (s.partOn p 1).params.ceiling
  sortBy (fun a b => decide (ceil a < ceil b) || (ceil a == ceil b && decide (b < a)))
    ((upto s.parts.length).filter (fun p => (s.part p).live))

/-- Cores of a partition on both stacks. -/
def partCores (s : State) (p : Nat) : List (Nat × Nat) :=
  (upto 2).flatMap (fun k => (coresOf s p k).map (fun c => (k, c)))

/-- A measure of a kind still changes the core. -/
def measureBites (s : State) (kind stack core : Nat) : Bool :=
  let c := s.core stack core
  match kind with
  | 1 => c.state == 0
  | 2 => c.array.isSome && decide (cadenceOf s stack core < 16)
  | 3 => decide (c.state < 4)
  | _ => decide (8 < gateOf s stack core)

/-- A partition that draws no more than its effective floor is passed over. -/
def passedOver (s : State) (p : Nat) : Bool :=
  decide (Config.partDraw s.moves p ≤ (s.partOn p 0).floorEff + (s.partOn p 1).floorEff)

/-- The next step: the first kind, and in it the first partition, with a core that it still changes. -/
def nextMeasure (s : State) : Option Measure :=
  ((upto 4).flatMap (fun i => (measureOrder s).map (fun p => (i + 1, p)))).findSome? (fun x =>
    let cs := (partCores s x.2).filter (fun c => measureBites s x.1 c.1 c.2)
    if passedOver s x.2 || cs.isEmpty then none else some ⟨x.1, x.2, cs⟩)

/-- Apply a measure to its cores, and notify. -/
def applyMeasure (s : State) (m : Measure) : State :=
  m.cores.foldl (fun s c =>
    let s1 := match m.kind with
      | 1 => askStep s c.1 c.2 none 1 1
      | 3 => lowerState s c.1 c.2
      | _ => s
    notifyCore s1 c.1 c.2 (2 ^ m.kind)) { s with measures := m :: s.measures }

/-- Remove the measure applied last. -/
def liftMeasure (s : State) : State :=
  match s.measures with
  | [] => s
  | m :: ms => m.cores.foldl (fun s c => notifyRemoval s c.1 c.2) { s with measures := ms }

/-- Every measure of R496 holds a core at its limit. -/
def atLimit (s : State) (stack core : Nat) : Bool :=
  decide (0 < heldBy s stack core 1) && decide (4 ≤ heldBy s stack core 2) && decide (4 ≤ heldBy s stack core 3) &&
    decide (3 ≤ heldBy s stack core 4)

/-- Every measure at its limit on every core of the partitions (R499). -/
def allMeasures (s : State) : State :=
  (measureOrder s).foldl (fun s p =>
    let cs := (partCores s p).filter (fun c => !atLimit s c.1 c.2)
    let ms : List Measure := ⟨1, p, cs⟩ :: List.replicate 4 ⟨2, p, cs⟩ ++ List.replicate 4 ⟨3, p, cs⟩ ++ List.replicate 3 ⟨4, p, cs⟩
    if cs.isEmpty then s
    else cs.foldl (fun s c => notifyCore (askStep s c.1 c.2 none 4 1) c.1 c.2 (2 ^ evUnattainable + 30))
      { s with measures := ms ++ s.measures }) s

/-- A cap that the host has newly set lies below the idle floor: every context's event word shows unattainable, and each
function is told (R499, R505). -/
def tellUnattainable (s : State) : State :=
  let s1 := (measureOrder s).foldl (fun s p => notifyPart s p (2 ^ evUnattainable)) s
  { s1 with msix := s1.msix ++ (measureOrder s1).map (fun p => (p + 1, 1, 0)) }

/-- The effective cap: that of the host, or the idle floor where the host's lies below it (R499). -/
def effectiveCap (w : Nat) : Nat := max w 190

/-- Floors after the cut that a cap asks for: in the order of R496, each to zero before the next (R499). -/
def cutFloors (s : State) : State :=
  let order := (measureOrder s).flatMap (fun p => (upto 2).map (fun k => (p, k)))
  let sum := (order.map (fun x => (s.partOn x.1 x.2).params.powerFloor)).sum
  let r := order.foldl (fun (acc : State × Nat) x =>
    let f := (s.partOn x.1 x.2).params.powerFloor
    let cut := min f acc.2
    (acc.1.mapPartOn x.1 x.2 (fun q => { q with floorEff := f - cut }), acc.2 - cut)) (s, sum - s.capEff)
  let hit := (measureOrder s).filter (fun p => (upto 2).any (fun k =>
    decide ((r.1.partOn p k).floorEff < (s.partOn p k).floorEff)))
  hit.foldl (fun s p =>
    let s1 := notifyPart s p (2 ^ evFloor)
    { s1 with msix := s1.msix ++ [(p + 1, 1, 0)] }) r.1

/-- The module's average power over the last 10 ms, as its readings over 100 µs add up, is 50 W or more below the cap; fewer
readings stand for themselves (R496; entry 80). -/
def wellBelow (powers : List Nat) (cap : Nat) : Bool := decide (powers.sum + 50 * powers.length ≤ cap * powers.length)

/-- POWER_MEASUREMENT (R494, R496, R499): the average over the last 100 µs, and the forecast of the average over 10 ms. -/
def execPowerMeasurement (watts forecast : Nat) (s : State) : Out :=
  let cap := effectiveCap s.capHost
  let powers := (watts :: s.powers).take 100
  let s1 := cutFloors { s with avgPower := watts, powers := powers, capEff := cap, capNew := false }
  .next (
    if s.capHost < 190 then { allMeasures (if s.capNew then tellUnattainable s1 else s1) with underCap := 0 }
    else if cap < forecast then
      match nextMeasure s1 with
      | some m => { applyMeasure s1 m with underCap := 0 }
      | none => { s1 with underCap := 0 }
    else if wellBelow powers cap then
      if 10 ≤ s.underCap + 1 then { liftMeasure s1 with underCap := s.underCap + 1 }
      else { s1 with underCap := s.underCap + 1 }
    else { s1 with underCap := 0 })

end Sys2Proof.Machine
end

