-- ==== Sys2Proof/Machine/Watchdogs.lean ====
section
/-!
DEFINITION. The three watchdogs (R366, R474) and what their expiry does (R295, R460, R475).
-/

namespace Sys2Proof.Machine

/-! When a clock runs. -/

/-- The context of a block is not stopped (R474, R482). -/
def ctxAwake (s : State) (part stack : Nat) (job : Word) : Bool :=
  match s.ctx? part stack job with
  | none => true
  | some c => match c.stop with
    | .stopped _ => false
    | _ => true

/-- A thread waits at a block barrier or a numbered barrier: the wait's kind code and barrier (R458). -/
def barrierWait (t : Thread) : Option (Nat × Nat) :=
  match t.run with
  | .blocked (.gate n _) => some (0, n)
  | .blocked (.fold n _) => some (0, n)
  | .blocked (.nbar n) => some (1, n)
  | _ => none

/-- A thread waits at a regroup word for its registers. -/
def regroupWait (t : Thread) : Option (Nat × Nat) :=
  match t.run with
  | .blocked .regroupRegs => some (3, 0)
  | _ => none

/-- The sequencer waits at mwait, at mchain or for a forwarded row. -/
def seqWaits (k : Block) : Bool :=
  k.seq.state == .running && ((match k.seq.wait with
    | .mwait n c => decide ((k.nbars.getD n NBar.fresh).a.toNat < c)
    | .chain | .leave => true
    | _ => false) || waitsForRow k)

/-- The block can be timed: it has work to do and is not stopped, nor is its context (R474, R482). -/
def timed (s : State) (k : Block) : Bool :=
  (onDevice k.phase || k.phase == .waiting || k.phase == .deferred) && ctxAwake s k.part k.stack k.job

/-- The barrier clock of a block runs (R474). -/
def barrierRuns (s : State) (k : Block) : Bool :=
  timed s k && (k.allThreads.any (fun t => (barrierWait t).isSome) || seqWaits k)

/-- The floor hallmark of a domain, by identifier. -/
def floorMark (s : State) (part entry : Nat) : Option (Word × Mark) :=
  let e := s.srf part entry
  if e.kind = 1 then e.marks.head?.map (fun m => (BitVec.ofNat 32 (entry * 2 ^ 20 + m.seq), m)) else none

/-- A draw or call that carries a hallmark waits in a call buffer, walks or is served, or waits on the link (R366, R368). -/
def markInUse (s : State) (part : Nat) (h : Word) : Bool :=
  s.carried part h || s.calls.any (fun c => c.part == part && c.at_ == .mesh && recMark c.words == some h) ||
  s.blocks.any (fun k => k.part == part && k.groups.any (fun g => g.queues.any (fun q =>
    q.calls.any (fun c => recMark c.words == some h)))) ||
  s.late.any (fun o => match o with
    | .mark op => op.part == part && op.mark == h
    | _ => false)

/-- The clock of a domain runs (R366). -/
def domainRuns (s : State) (part entry : Nat) : Bool :=
  match floorMark s part entry with
  | none => false
  | some (h, m) => m.state != .closed && m.state != .voided && m.state != .retired && !markInUse s part h &&
      ctxAwake s part m.holder.2 m.holder.1

/-! What expiry does. -/

/-- The word at an address, for a record (R457): 0 where none can be fetched. -/
def wordFor (s : State) (k : Block) (pc : Addr) : Word :=
  match outcome (walk s k.stack k.part pc) pc .fetch k.priv with
  | .ok t => s.memWord (t.pa pc.toNat)
  | _ => 0

/-- The record of the threads of a group that wait in one way at one barrier: barrier-timeout, with the fields of the
lowest lane. -/
def waitRecord (s : State) (k : Block) (g : Group) (lanes : List Nat) (w : Nat × Nat) : List Word :=
  let t := g.thread (lanes.headD 0)
  parkWords (s.whereOf k g) kBarrierTimeout false t.hints.length (maskOf lanes) t.start (wordFor s k t.pc)
    (putBits w.1 5 4 ||| putBits w.2 3 0) 0 0 0

/-- The trigger records of a block: by group, then by barrier, then by kind of wait (R475). -/
def waitRecords (s : State) (k : Block) (wait : Thread → Option (Nat × Nat)) : List (List Word) :=
  k.groups.flatMap (fun g =>
    (upto 16).flatMap (fun n => (upto 4).filterMap (fun kind =>
      match indexes (fun t => wait t == some (kind, n)) g.threads with
      | [] => none
      | ls => some (waitRecord s k g ls (kind, n)))))

/-- A waiting sequencer faults with barrier-timeout (R295): at its waiting word, or at the stream that waits for a row. The wait
at mchain and the wait for a forwarded row name no barrier: the barrier number in the detail is 0 (DESIGN CHOICE, entry 115). -/
def seqTimeout (s : State) (b : Nat) (k : Block) (waiting : List (List Word)) : State :=
  if seqWaits k then
    match k.seq.wait with
    | .mwait n _ => seqFault s b kBarrierTimeout k.seq.pc k.seq.waitWord (putBits 2 5 4 ||| putBits n 3 0) 0 waiting
    | .chain | .leave => seqFault s b kBarrierTimeout k.seq.pc k.seq.waitWord (putBits 2 5 4) 0 waiting
    | _ =>
      match k.seq.streams with
      | st :: _ => seqFault s b kBarrierTimeout st.pc st.word (putBits 2 5 4) st.row waiting
      | [] => s
  else s

/-- BARRIER_WATCHDOG_EXPIRY (R474). -/
def execBarrierWatchdogExpiry (blk : Nat) (s : State) : Out :=
  match s.block? blk with
  | none => .next s
  | some k =>
    if k.bwdog ≠ (s.partOn k.part k.stack).bwdog.toNat ∨ !barrierRuns s k then .next s
    else
      let recs := waitRecords s k barrierWait
      let s1 := seqTimeout s blk k recs
      .next (if recs.isEmpty then s1 else terminate s1 k.part k.stack k.job kBarrierTimeout recs)

/-- REGROUP_WATCHDOG_EXPIRY (R474): the context is terminated. -/
def execRegroupWatchdogExpiry (blk grp lane : Nat) (s : State) : Out :=
  match s.block? blk, s.thread? blk grp lane with
  | some k, some t =>
    if t.rwdog ≠ (s.partOn k.part k.stack).rwdog.toNat ∨ (regroupWait t).isNone ∨ !timed s k then .next s
    else .next (terminate s k.part k.stack k.job kBarrierTimeout (waitRecords s k regroupWait))
  | _, _ => .next s

/-- The hallmark-timeout record (R457, R458): words 0 [26:0], 1 to 4 and 8 are zero. -/
def hallmarkRecord (s : State) (h : Word) (m : Mark) : List Word :=
  [putBits kHallmarkTimeout 31 28, 0, 0, 0, 0, h, 0, 0, 0, m.holder.1, 0, 0, 0, (s.stack m.holder.2).us.setWidth 32, 0, 0]

/-- HALLMARK_WATCHDOG_EXPIRY (R366): the holder of the floor hallmark is terminated. -/
def execHallmarkWatchdogExpiry (part entry : Nat) (s : State) : Out :=
  match floorMark s part entry with
  | none => .next s
  | some (h, m) =>
    let e := s.srf part entry
    if e.wclock ≠ (s.partOn part e.domainStack).hwdog.toNat ∨ !domainRuns s part entry then .next s
    else .next (terminate s part m.holder.2 m.holder.1 kHallmarkTimeout
      [hallmarkRecord s h m])

/-! The clocks, at a tick of a stack's microsecond count. -/

/-- The clocks of a stack's blocks and threads; that of a thread at regroup restarts where the thread arrives. -/
def tickBlock (s : State) (stack : Nat) (k : Block) : Block :=
  if k.stack ≠ stack ∨ !timed s k then k
  else { k.mapThreads (fun _ _ t => { t with rwdog := if (regroupWait t).isSome then t.rwdog + 1 else t.rwdog }) with
    bwdog := if barrierRuns s k then k.bwdog + 1 else k.bwdog }

/-- The clocks of the domains kept on a stack. -/
def tickDomains (s : State) (stack : Nat) : State :=
  { s with parts := mapFrom (fun p (pt : Part) =>
      if pt.live && pt.srfs.any (fun e => e.kind == 1 && !e.marks.isEmpty) then { pt with
        srfs := mapFrom (fun i (e : SrfEntry) =>
          if e.kind == 1 && e.domainStack == stack && domainRuns s p i then { e with wclock := e.wclock + 1 } else e) 0 pt.srfs }
      else pt) 0 s.parts }

def tickWatchdogs (s : State) (stack : Nat) : State :=
  let s1 := tickDomains s stack
  { s1 with blocks := s1.blocks.map (tickBlock s1 stack) }

/-- Blocks and threads whose clock equals its period expire, and so do domains. -/
def expireWatchdogs (s : State) (stack : Nat) : State :=
  let run (f : State → Out) (s : State) : State := match f s with
    | .next s1 => s1
    | _ => s
  let s1 := (upto s.blocks.length).foldl (fun s b =>
    if (s.block? b).elim false (fun k => k.stack == stack) then
      let s1 := run (execBarrierWatchdogExpiry b) s
      match (s1.block? b).bind (fun k => (k.positions.find? (fun p =>
          decide ((s1.partOn k.part k.stack).rwdog.toNat = p.2.2.2.rwdog) && (regroupWait p.2.2.2).isSome))) with
      | some p => run (execRegroupWatchdogExpiry b p.1 p.2.1) s1
      | none => s1
    else s) s
  (upto s1.parts.length).foldl (fun s p =>
    (indexes (fun (e : SrfEntry) => e.kind == 1 && e.domainStack == stack && !e.marks.isEmpty) (s.part p).srfs).foldl
      (fun s i => run (execHallmarkWatchdogExpiry p i) s) s) s1

end Sys2Proof.Machine
end

