-- ==== Sys2Proof/Machine/Host.lean ====
section
/-!
DEFINITION. The outside of the module: host accesses (R502), management commands (R441, R504), debug commands (R482 to
R485, R519, R520), attestation and boot (R512 to R516), the reserve (R518), the stack link (R506) and other modules
(R508 to R511).
-/

namespace Sys2Proof.Machine

/-! Host accesses (R502). -/

/-- The run of bytes lies in the window of a live partition (R500, R501). -/
def inBar (s : State) (part : Nat) (va : Addr) (n : Nat) : Bool :=
  (s.part part).live && decide ((va - (s.part part).window).toNat + n ≤ 2 ^ 36)

def hostRequest (s : State) (part : Nat) (r : HostReq) : State :=
  drainHost (s.mapPart part (fun p => { p with hostQueue := p.hostQueue ++ [r] })) part

/-- HOST_WRITE: a posted write of the partition's function. -/
def execHostWrite (part : Nat) (va : Addr) (bytes : List Byte) (s : State) : Out :=
  .next (if inBar s part va bytes.length then hostRequest s part (.write va bytes) else s)

/-- HOST_READ. -/
def execHostRead (part : Nat) (va : Addr) (len : Nat) (s : State) : Out :=
  .next (if inBar s part va len then hostRequest s part (.read va len) else { s with hostReplies := s.hostReplies ++ [none] })

/-! Management commands (R504). -/

/-- The partition that a command names. -/
def cmdPart : Cmd → Option Nat
  | .create p _ _ _ _ _ | .resize p _ _ | .destroy p | .invalidate p _ | .floor p _ _ | .fabricRow p _ _ | .debugStop p _ _
  | .debugResume p _ _ | .debugStep p _ _ _ _ _ => some p
  | .debugBreakpoint _ _ bp => some bp.part
  | .debugTraceArea _ area _ _ _ => some (area % 32)
  | _ => none

/-- The stack of a command that names no partition; none for the cap, which names both. -/
def cmdStack : Cmd → Option Nat
  | .attest k _ | .debugState k _ | .firmwareUpdate k _ => some k
  | .retire (.core k _) | .retire (.bank k _) | .retire (.lane k _ _) | .retire (.dramRow k _ _ _ _) => some k
  | _ => none

/-- The order of two commands matters: they name one partition, or neither names one and a stack is common. Commands for
different partitions are independent (R504). -/
def cmdsMeet (i j : Cmd) : Bool :=
  match cmdPart i, cmdPart j with
  | some p, some q => p == q
  | none, none => (cmdStack i).isNone || (cmdStack j).isNone || cmdStack i == cmdStack j
  | _, _ => false

/-- A command is performed, or waits in its queue behind earlier commands that it meets, or until it is ready (R504; entry
116). -/
def queued (s : State) (i : Cmd) (ready : Bool) (go : Out) : Out :=
  if s.cur = .command then go
  else if ready && !s.cmds.any (cmdsMeet i) then go
  else .next { s with cmds := s.cmds ++ [i] }

def answerCmds (s : State) (ks : List Nat) (code : Nat) : State := ks.foldl (fun s k => answerCmd s k code) s

/-- A stack that is not in S1 is absent (R514). -/
def present (s : State) (stack : Nat) : Bool := (s.stack stack).sec == 1 && !(s.stack stack).heldReset

def distinct (l : List Nat) : Bool := nub l == l

/-- Parameters within the limits of R440. -/
def paramsOk (p : PartParams) : Bool :=
  p.columns.all (· < 32) && distinct p.columns && p.slices.all (· < 32) && distinct p.slices &&
  p.encSlots.all (· < 16) && distinct p.encSlots && p.floors.all (fun f => decide (f.1 < 32)) && distinct (p.floors.map (·.1)) &&
  decide (p.ceiling ≤ 47) && decide (2 ^ 20 ≤ p.sliceLen) && decide (p.sliceLen ≤ 2 ^ 40) && decide (p.powerFloor < 65536)

/-- What the other partitions hold on a stack, and what resizes that still wait will give them. -/
def otherParams (s : State) (part stack : Nat) : List (PartParams × Option PartParams) :=
  ((upto s.parts.length).filter (fun q => q != part && (s.part q).live)).map (fun q =>
    ((s.partOn q stack).params, (s.partOn q stack).pending))

/-- Another partition holds cores on the stack. -/
def holdsCores (o : PartParams × Option PartParams) : Bool :=
  !o.1.columns.isEmpty || o.2.elim false (fun q => !q.columns.isEmpty)

/-- The floor that a partition owes or will owe at a vault, the greater. -/
def owed (v : Nat) (o : PartParams × Option PartParams) : Nat :=
  let at_ (p : PartParams) : Nat := ((p.floors.filter (fun f => f.1 == v)).map (·.2)).sum
  max (at_ o.1) (o.2.elim 0 at_)

/-- No column, slice or slot of another partition, the floors at each vault within 248.32 GB/s, and at most 16 partitions
with cores on the stack (R41, R440): R41 does not say which partitions count, and the model counts those that hold cores there
(DESIGN CHOICE, entry 115). -/
def paramsFree (s : State) (part stack : Nat) (p : PartParams) : Bool :=
  let others := otherParams s part stack
  let os := others.flatMap (fun o => o.1 :: o.2.toList)
  (p.columns.isEmpty || decide ((others.filter holdsCores).length < 16)) &&
  os.all (fun o => !p.columns.any o.columns.contains && !p.slices.any o.slices.contains && !p.encSlots.any o.encSlots.contains) &&
  (upto 32).all (fun v => decide ((((p, none) :: others).map (owed v)).sum ≤ 24832))

/-- The record of a dispatcher (R451): one thread, eight registers of each file, class 0, the ceiling as its priority. -/
def dispatcherRecord (part ceiling : Nat) (entry : Addr) (job : Word) : List Word :=
  [lowAddr (entry &&& ~~~3), highAddr entry, 0, 0, 0, 0, 0, 0, putBits part 20 16 ||| putBits ceiling 5 0, 0, 0, 0, job, 0, 0, 0]

/-- The management processor launches the dispatcher of a partition on a stack, with a job counter of its own (R504). -/
def launchDispatcher (s : State) (part stack : Nat) : State :=
  let r := newCounter s part stack 3 1
  acceptRecord r.1 stack (dispatcherRecord part (s.partOn part stack).params.ceiling
    (Config.dispatcherEntry part stack (s.part part).mailbox) r.2) true true

/-- Far DRAM reserved for a partition on a stack: for backing stores, and for contexts (R504; entry 116). -/
def reserve (part stack : Nat) : List (Nat × Nat) :=
  [(Config.storageBase part stack false, Config.backingRoom part stack), (Config.storageBase part stack true, Config.contextRoom part stack)]

/-- Form a partition (R504). -/
def create (part : Nat) (p0 p1 : PartParams) (table window mailbox : Addr) (s : State) : Out :=
  let ks := (upto 2).filter (fun k => !((if k = 0 then p0 else p1).columns.isEmpty))
  let code :=
    if !ks.all (present s) then 4
    else if 32 ≤ part ∨ (s.part part).live ∨ !paramsOk p0 ∨ !paramsOk p1 ∨ ks.isEmpty ∨ table.toNat % 4096 ≠ 0 then 1
    else if !paramsFree s part 0 p0 ∨ !paramsFree s part 1 p1 then 2
    else 0
  if code ≠ 0 then .next (answerCmds s (if ks.isEmpty then [0] else ks) code)
  else
    let on (k : Nat) (p : PartParams) : PartStack := { PartStack.reset with
      params := p
      floorEff := p.powerFloor
      storage := if ks.contains k then reserve part k else [] }
    let s1 := s.mapPart part (fun _ => { Part.reset with
      live := true
      table := table
      window := window
      mailbox := mailbox
      on := [on 0 p0, on 1 p1]
      dbgEnable := Config.freeBit s.moves })
    let s2 := grantSlots (grantSlots s1 0 p0.encSlots) 1 p1.encSlots
    .next (answerCmds (ks.foldl (fun s k => launchDispatcher s part k) s2.draw) ks 0)

/-- CREATE (R504). -/
def execCreate (part : Nat) (p0 p1 : PartParams) (table window mailbox : Addr) (s : State) : Out :=
  queued s (.create part p0 p1 table window mailbox) true (create part p0 p1 table window mailbox s)

/-- A resize, destroy or invalidate waits for an earlier resize or invalidate of the partition (R504). -/
def resizing (s : State) (part : Nat) : Bool := (upto 2).any (fun k => (s.partOn part k).pending.isSome ||
  (s.stack k).invals.any (fun i => i.command && i.part == part && !i.complete))

/-- The columns are the same set. -/
def sameColumns (p q : PartParams) : Bool := p.columns.all q.columns.contains && q.columns.all p.columns.contains

/-- Resize a partition on a stack (R441): where its cores there change, its contexts are stopped first. A resize for whose
banks the partition's surfaces do not fit completes with status 2 (DESIGN CHOICE, entry 110). -/
def resize (part stack : Nat) (p : PartParams) (s : State) : Out :=
  let code :=
    if !present s stack then 4
    else if 2 ≤ stack ∨ !(s.part part).live ∨ !paramsOk p then 1
    else if !paramsFree s part stack p then 2
    else 0
  if code ≠ 0 then .next (answerCmd s stack code)
  else
    match installParams s part stack p with
    | none => .next (answerCmd s stack 2)
    | some s1 =>
      if sameColumns p (s.partOn part stack).params then .next (answerCmd s1 stack 0)
      else
        let s2 := s.mapPartOn part stack (fun q => { q with pending := some p })
        .next (settleResize ((partJobs s part stack).foldl (fun s j => requestStop s part stack j false) s2) part stack)

/-- RESIZE (R441, R504): it waits for the partition's earlier commands. -/
def execResize (part stack : Nat) (p : PartParams) (s : State) : Out :=
  queued s (.resize part stack p) (!resizing s part) (resize part stack p s)

/-- Stacks on which a partition holds cores. -/
def coreStacks (s : State) (part : Nat) : List Nat := (upto 2).filter (fun k => !(s.partOn part k).params.columns.isEmpty)

/-- Every context of a partition is terminated, every surface freed, and then the partition (R504). -/
def destroy (part : Nat) (s : State) : Out :=
  let ks := coreStacks s part
  if !(s.part part).live then .next (answerCmd s 0 1)
  else if !ks.all (present s) then .next (answerCmds s ks 4)
  else
    let s1 := (s.ctxs.filter (fun c => c.part == part)).foldl (fun s c => terminate s c.part c.stack c.job 0 []) s
    let s2 := voidAll s1 part (fun _ => true)
    let s3 := s2.mapPart part (fun p => { Part.reset with funcStatus := p.funcStatus })
    .next (answerCmds { s3 with ctxs := s3.ctxs.filter (fun c => c.part != part) } ks 0)

/-- DESTROY (R504): it waits for the partition's earlier commands. -/
def execDestroy (part : Nat) (s : State) : Out := queued s (.destroy part) (!resizing s part) (destroy part s)

/-- Invalidate on each stack of a partition (R154). -/
def invalidate (part : Nat) (va : Option Addr) (s : State) : Out :=
  let ks := coreStacks s part
  if !(s.part part).live then .next (answerCmd s 0 1)
  else if !ks.all (present s) then .next (answerCmds s ks 4)
  else .next (ks.foldl (fun s k => (beginInval s k part va true).1) s)

/-- INVALIDATE (R154, R504): it waits for the partition's earlier commands, and completes when the invalidation does. -/
def execInvalidate (part : Nat) (va : Option Addr) (s : State) : Out :=
  queued s (.invalidate part va) (!resizing s part) (invalidate part va s)

/-- CAP (R499, R504): it takes effect at the next measurement. It names both stacks, and those that are present answer (entry
116). -/
def execCap (watts : Nat) (s : State) : Out :=
  let ks := (upto 2).filter (present s)
  queued s (.cap watts) true (.next (
    if ks.isEmpty then answerCmd s 0 4
    else if 65536 ≤ watts then answerCmds s ks 1
    else answerCmds { s with capHost := watts, capNew := true } ks 0))

/-- FLOOR (R499). -/
def execFloor (part stack watts : Nat) (s : State) : Out :=
  queued s (.floor part stack watts) true (.next (if !present s stack then answerCmd s stack 4
    else if 65536 ≤ watts ∨ !(s.part part).live then answerCmd s stack 1
    else answerCmd (s.mapPartOn part stack (fun p => { p with
      params := { p.params with powerFloor := watts }
      pending := p.pending.map (fun q => { q with powerFloor := watts })
      floorEff := watts })) stack 0))

/-- FABRIC_ROW (R504, R509): later accesses use the new row. The stacks on which the partition holds cores answer (entry
116). -/
def execFabricRow (part row : Nat) (contents : BitVec 128) (s : State) : Out :=
  let ks := coreStacks s part
  queued s (.fabricRow part row contents) true (.next (
    if !(s.part part).live then answerCmd s 0 1
    else if !ks.all (present s) then answerCmds s ks 4
    else if 4096 ≤ row ∨ contents.toNat / 2 ^ 56 % 2 ^ 52 ≠ 0 ∨ contents.toNat % 2 ^ 35 ≠ 0 then answerCmds s ks 1
    else answerCmds (s.mapPart part (fun p => { p with fabric := modifyAt (fun _ => contents) row p.fabric })) ks 0))

/-! Debug commands (R482 to R485, R519, R520). -/

/-- What R520 answers a debug command for a partition: none where it is permitted. -/
def debugCode (s : State) (stack part : Nat) : Option Nat :=
  if !present s stack then some 4 else if debugPermitted s stack part then none else some 3

/-- A debug command on a context. -/
def onContext (s : State) (part stack : Nat) (job : Word) (f : Ctx → Option State) : Out :=
  match s.ctx? part stack job with
  | none => .next (answerCmd s stack ((debugCode s stack part).getD 1))
  | some c =>
    match debugCode s stack c.part with
    | some code => .next (answerCmd s stack code)
    | none => match f c with
      | some s1 => .next (answerCmd s1 stack 0)
      | none => .next (answerCmd s stack 1)

/-- DEBUG_STOP (R482). -/
def execDebugStop (part stack : Nat) (job : Word) (s : State) : Out :=
  queued s (.debugStop part stack job) true (onContext s part stack job (fun _ => some (requestStop s part stack job true)))

/-- DEBUG_RESUME (R482, R484): a context under a debug stop, or on its way to one; a step that the stop cut short is over. -/
def execDebugResume (part stack : Nat) (job : Word) (s : State) : Out :=
  queued s (.debugResume part stack job) true (onContext s part stack job (fun c =>
    let set (f : Ctx → Ctx) : State := s.mapCtx part stack job (fun c => { (f c) with step := none, stepped := false })
    match c.stop with
    | .stopped true =>
      if (s.partOn c.part stack).pending.isSome then some (set (fun c => { c with stop := .stopped false }))
      else some (restartCtx (set id) part stack job)
    | .stopping true => some (set (fun c => { c with stop := .stopping false }))
    | _ => none))

/-- DEBUG_STEP (R484): the context is restored with only the thread named able to issue. -/
def execDebugStep (part stack : Nat) (job : Word) (block : Word) (grp lane : Nat) (s : State) : Out :=
  queued s (.debugStep part stack job block grp lane) true (onContext s part stack job (fun c =>
    let found := s.blocks.any (fun k => k.part == part && k.stack == stack && k.job == job && !k.trapGroup && k.lin == block.toNat &&
      k.phase == .stopped && k.groups.any (fun g => g.num == grp && (g.threads[lane]?).elim false Thread.live))
    if c.stop = .stopped true ∧ found then
      some ((restartCtx s part stack job).mapCtx part stack job (fun c => { c with step := some (block, grp, lane), stepped := false }))
    else none))

/-- DEBUG_BREAKPOINT (R483). -/
def execDebugBreakpoint (stack n : Nat) (bp : Breakpoint) (s : State) : Out :=
  queued s (.debugBreakpoint stack n bp) true (match debugCode s stack bp.part with
    | some code => .next (answerCmd s stack code)
    | none =>
      if 8 ≤ n ∨ bp.pc.toNat % 4 ≠ 0 then .next (answerCmd s stack 1)
      else .next (answerCmd (s.mapStack stack (fun k => { k with bps := modifyAt (fun _ => bp) n k.bps })) stack 0))

/-- What the command gives of a trace area: bits [4:0] name the partition in whose far DRAM it lies, and the bits above are
its size in records. -/
def areaPart (area : Nat) : Nat := area % 32
def areaRecords (area : Nat) : Nat := area / 32

/-- DEBUG_TRACE_AREA (R485 to R487): an area of so many records in a partition's far DRAM; the ring is empty, and records
dropped before are still to be told. -/
def execDebugTraceArea (stack area : Nat) (arrival conflict : Bool) (threshold : Nat) (s : State) : Out :=
  queued s (.debugTraceArea stack area arrival conflict threshold) true (match debugCode s stack (areaPart area) with
    | some code => .next (answerCmd s stack code)
    | none =>
      if threshold < 2 ∨ 32 < threshold then .next (answerCmd s stack 1)
      else .next (answerCmd (s.mapStack stack (fun k => { k with
        trace := []
        traceSize := areaRecords area
        tracePart := areaPart area
        traceArrival := arrival
        traceConflict := conflict
        traceThreshold := threshold })) stack 0))

/-- A debug stop is in force on a stack. -/
def debugStopped (s : State) (stack : Nat) : Bool :=
  s.ctxs.any (fun c => c.stack == stack && (c.stop == .stopped true || c.stop == .stopping true || c.step.isSome))

/-- What a change of debug state is answered: D2 needs the fuse, and is entered from D1 (R519). -/
def debugStateCode (s : State) (stack d : Nat) : Nat :=
  let k := s.stack stack
  if !present s stack then 4 else if 3 ≤ d then 1 else if d = 2 ∧ (!k.unlockFuse ∨ k.dbg = 0) then 3 else 0

/-- A change of debug state waits until every debug stop has been resumed (R520). -/
def debugStateReady (s : State) (stack d : Nat) : Bool := debugStateCode s stack d != 0 || !debugStopped s stack

/-- DEBUG_STATE (R519, R520). -/
def execDebugState (stack d : Nat) (s : State) : Out :=
  let code := debugStateCode s stack d
  queued s (.debugState stack d) (debugStateReady s stack d)
    (.next (answerCmd (if code = 0 then s.mapStack stack (fun k => { k with dbg := d }) else s) stack code))

/-- A command that waits is ready (R504, R520). -/
def cmdReady (s : State) : Cmd → Bool
  | .resize p _ _ | .destroy p | .invalidate p _ => !resizing s p
  | .debugState k d => debugStateReady s k d
  | _ => true

/-- The next command of the queues: the first that is ready and meets none before it, with those that stay (R504). -/
def nextCmd (s : State) : List Cmd → List Cmd → Option (Cmd × List Cmd)
  | _, [] => none
  | before, i :: rest =>
    if cmdReady s i && !before.any (cmdsMeet i) then some (i, before ++ rest) else nextCmd s (before ++ [i]) rest

/-! Boot and attestation (R512 to R516, R519, R520). -/

/-- The report of R516: body and signature. -/
def report (s : State) (stack : Nat) (nonce : BitVec 512) : List Byte :=
  let k := s.stack stack
  let key := if k.dbg = 2 then 1 else 0
  let body := leBytes 64 nonce.toNat ++ leBytes 64 (Config.digest k.image).toNat ++
    leBytes 4 (putBits k.sec 31 24 ||| putBits k.dbg 23 16 ||| k.version.zeroExtend 32).toNat ++ leBytes 4 k.rollback.toNat ++ leBytes 4 key
  let sig := Config.signature s.moves stack key body
  body ++ (upto 132).map (fun i => sig.getD i 0)

/-- ATTEST (R516, R520): a stack in S1 or S2 answers. -/
def execAttest (stack : Nat) (nonce : BitVec 512) (s : State) : Out :=
  let k := s.stack stack
  queued s (.attest stack nonce) true (.next (if k.sec = 0 ∨ k.heldReset then answerCmd s stack 4
    else answerCmd ((s.mapStack stack (fun k => { k with reports := k.reports ++ [report s stack nonce] })).draw) stack 0))

/-- The boot step that fails: 1 reading the image, 2 its digest, which a free bit decides, 3 the signature, 4 the security
version, 0 none (R512). -/
def bootFails (n : Nat) (k : Stack) : Nat :=
  if !Config.imageRead n then 1
  else if !Config.imageHashed n then 2
  else if !Config.signed k.image then 3
  else if (Config.version k.image).toNat < k.rollback.toNat then 4
  else 0

/-- Operations that waited for the link act, in their order (R368, R424). -/
def runLate (s : State) : State :=
  s.late.foldl (fun s o => match o with
    | .post p id => post s p (ctrStack id) id
    | .cancel p id => cancelOrRelease s p id
    | .lower p id => cancelCounters s p [id]
    | .defer p id => flagDeferred s p id
    | .mark op => runMarkOps { s with late := s.late ++ [.mark op] }) { s with late := [] }

/-- What waited goes on, where the link carries flits (R367, R424). -/
def linkBack (s : State) : State := if s.linkHeld then s else runLate s

/-- Every split surface is marked. -/
def markSplit (s : State) (v : Bool) : State :=
  { s with parts := s.parts.map (fun p => { p with
    srfs := p.srfs.map (fun e => if e.kind == 1 && e.home == 2 then { e with degraded := v } else e) }) }

/-- The link is not down any more: split surfaces are whole again, and what waited goes on (R326). -/
def linkUp (s : State) : State := if s.linkDown then s else linkBack (markSplit s false)

/-- The link goes down, by its failure or because a stack is absent (R506, R514): the functions whose split surfaces become
degraded are told (R505), and draws on them return no more quads of the peer (R388). -/
def linkLost (s : State) : State :=
  let hit := (upto s.parts.length).filter (fun p => (s.part p).srfs.any (fun e => e.kind == 1 && e.home == 2 && !e.degraded))
  let s1 := markSplit s true
  { s1 with
    calls := s1.calls.map (cutDraw s)
    msix := s1.msix ++ hit.map (fun p => (p + 1, 2, 0)) }

/-- BOOT (R512, R513): the boot ROM of a stack in S0 verifies the image and the stack enters S1, or S2 with the step that
failed reported. -/
def execBoot (stack : Nat) (s : State) : Out :=
  let k := s.stack stack
  if k.sec ≠ 0 then .next s
  else
    let f := bootFails s.moves k
    if f ≠ 0 then .next (s.draw.mapStack stack (fun k => { k with sec := 2, bootStep := f, heldReset := false }))
    else .next (linkUp (s.draw.mapStack stack (fun k => { k with
      sec := 1
      bootStep := 0
      heldReset := false
      version := Config.version k.image
      rollback := BitVec.ofNat 32 (max k.rollback.toNat (Config.version k.image).toNat) })))

/-- P3_ENTRY (R514, R520): a stack held in reset loses every context it holds, and the host is told; for the other stack the
link is down. A resize that waited for contexts there completes as one for an absent stack does. -/
def execP3Entry (stack : Nat) (s : State) : Out :=
  let s1 := (indexes (fun (k : Block) => k.stack == stack) s.blocks).foldl endBlock s
  let s2 := s1.mapStack stack (fun k => { k with heldReset := true, sec := 0, dbg := 0 })
  let s3 : State := { s2 with
    ctxs := s2.ctxs.filter (fun c => c.stack != stack)
    launches := s2.launches.map (fun l => if l.stack == stack then { l with cancelled := true } else l)
    msix := s2.msix ++ [(0, 3, 0)] }
  let s4 := ((upto s.parts.length).filter (fun p => (s.partOn p stack).pending.isSome)).foldl (fun s p =>
    answerCmd (s.mapPartOn p stack (fun q => { q with pending := none })) stack 4) s3
  .next (if s.linkDown then s4 else linkLost s4)

/-- FIRMWARE_UPDATE (R512, R514): a stack in S2 takes a new image, and boots again; one in S0 answers as an absent stack does.
No rule gives a stack in S1 an update. -/
def execFirmwareUpdate (stack image : Nat) (s : State) : Out :=
  queued s (.firmwareUpdate stack image) true (.next (match (s.stack stack).sec with
    | 0 => answerCmd s stack 4
    | 2 => answerCmd (s.mapStack stack (fun k => { k with image := image, sec := 0 })) stack 0
    | _ => s))

/-! The reserve (R169, R518). -/

/-- A part that exists. -/
def partExists : RetPart → Bool
  | .core k c => decide (k < 2) && decide (c < 128)
  | .bank k b => decide (k < 2) && decide (b < 2048)
  | .lane k v l => decide (k < 2) && decide (v < 32) && decide (l < 272)
  | .dramRow k v y _ _ => decide (k < 2) && decide (v < 32) && decide (y < 8)

def retStack : RetPart → Nat
  | .core k _ | .bank k _ | .lane k _ _ | .dramRow k _ _ _ _ => k

/-- Rows of a bank and layer remapped: 32 are in reserve. -/
def rowsUsed (v : Vault) (layer bank : Nat) : Nat := (v.rowRemaps.filter (fun r => r.1 == layer && r.2.1 == bank)).length

/-- The reserve of a part is spent. -/
def spent (s : State) (p : RetPart) : Bool :=
  match p with
  | .core k _ => (s.stack k).reserveCores == 0
  | .bank k _ => (s.stack k).reserveBanks == 0
  | .lane k v l =>
    let x := s.vault k v
    (laneRole x l).isSome && !x.pendingSwaps.contains l && sparesGone x
  | .dramRow k v y b r => !(s.vault k v).rowRemaps.contains (y, b, r) && decide (32 ≤ rowsUsed (s.vault k v) y b)

/-- The resident tiles of a bank are moved to the reserve bank that takes its number (R325, R518). -/
def emptyBank (s : State) (stack bank : Nat) : State :=
  (upto s.parts.length).foldl (fun s p =>
    ((heldIn s p (stack, bank)).filter (fun q => (s.srf p q.1).tileState q.2 == .resident)).foldl (fun s q =>
      (leaveBank s p q.1 q.2).mapSrf p q.1 (fun x => (setTile x q.2 .moving).settleMoves)) s) s

/-- A row is copied to one of the reserve; its contents do not change. -/
def remapRow (s : State) (stack vault layer bank row : Nat) : State :=
  s.mapVault stack vault (fun v =>
    if v.rowRemaps.contains (layer, bank, row) then v else { v with rowRemaps := v.rowRemaps ++ [(layer, bank, row)] })

/-- Bring the reserve into service. A core's contexts are stopped, and restored on the core that takes its number; a bank's
tiles are moved; a lane passes to a spare lane, and a spare lane that nothing uses is only taken out; a row is remapped. R19
wires reserve core k to the buses of columns 4k to 4k + 3 and does not say whether it may replace a core elsewhere: here any
reserve core of the stack replaces any of its cores (DESIGN CHOICE, entry 115). -/
def replacePart (s : State) (p : RetPart) : State :=
  match p with
  | .core k c =>
    let jobs := nub ((residentOn s k c).map (fun b => (b.part, b.job)))
    jobs.foldl (fun s j => requestStop s j.1 k j.2 false) (s.mapStack k (fun t => { t with reserveCores := t.reserveCores - 1 }))
  | .bank k b => emptyBank (s.mapStack k (fun t => { t with reserveBanks := t.reserveBanks - 1 })) k b
  | .lane k v l => s.mapVault k v (fun x =>
      if x.pendingSwaps.contains l || x.swaps.any (fun q => q.1 == l) then x
      else if (laneRole x l).isNone then { x with swaps := x.swaps ++ [(l, l)] }
      else { x with pendingSwaps := x.pendingSwaps ++ [l] })
  | .dramRow k v y b r => remapRow s k v y b r

/-- A part is retired: its reserve takes its place, and the errors met in it count no more. -/
def retirePart (s : State) (p : RetPart) : State :=
  (replacePart s p).mapStack (retStack p) (fun t => { t with
    retired := t.retired ++ [p]
    errorsIn := t.errorsIn.filter (fun q => q.1 != p) })

/-- A part whose reserve is spent stays in service, and is reported as degraded. -/
def degradePart (s : State) (p : RetPart) : State :=
  (match p with
    | .lane k v _ => degradeVault s k v
    | _ => s).mapStack (retStack p) (fun t => { t with degradedParts := t.degradedParts ++ [p] })

/-- RETIRE (R518): a part whose reserve is spent stays in service and is reported as degraded. -/
def execRetire (p : RetPart) (s : State) : Out :=
  let k := retStack p
  queued s (.retire p) true (.next (if !present s k then answerCmd s k 4
    else if !partExists p then answerCmd s k 1
    else if spent s p then answerCmd (degradePart s p) k 0
    else answerCmd (retirePart s p) k 0))

/-- The errors of the last 24 hours ask for a part's retirement: 16 corrected or 1 uncorrectable in a core or a bank, and 4
corrected in a row (R518). -/
def worn (k : Stack) (p : RetPart) : Bool :=
  let es := k.errorsIn.filter (fun q => q.1 == p && decide (k.us.toNat < q.2.1 + 86400000000))
  let fixed := (es.filter (fun q => !q.2.2)).length
  match p with
  | .core _ _ | .bank _ _ => decide (16 ≤ fixed) || es.any (·.2.2)
  | .dramRow _ _ _ _ _ => decide (4 ≤ fixed)
  | .lane _ _ _ => false

/-- Cores and banks that have met too many errors are retired without a command (R518). -/
def retireWorn (s : State) (stack : Nat) : State :=
  let due (k : Stack) (p : RetPart) : Bool := (match p with
    | .dramRow _ _ _ _ _ => false
    | _ => true) && worn k p && !k.degradedParts.contains p
  (nub ((s.stack stack).errorsIn.map (·.1))).foldl (fun s p =>
    if !due (s.stack stack) p || !present s stack then s
    else if spent s p then degradePart s p else retirePart s p) s

/-- DRAM_ROW_REMAP (R518): a row that has met four corrected errors within 24 hours is copied and remapped; its contents do
not change. -/
def execDramRowRemap (stack vault layer bank row : Nat) (s : State) : Out :=
  let p : RetPart := .dramRow stack vault layer bank row
  let v := s.vault stack vault
  if !partExists p ∨ v.rowRemaps.contains (layer, bank, row) ∨ !worn (s.stack stack) p then .next s
  else if spent s p then .next (degradePart s p)
  else .next (remapRow s stack vault layer bank row)

/-- Perform a command that has waited (R504). -/
def performCmd (s : State) : Cmd → Out
  | .create part p0 p1 table window mailbox => execCreate part p0 p1 table window mailbox s
  | .resize part stack p => execResize part stack p s
  | .destroy part => execDestroy part s
  | .invalidate part va => execInvalidate part va s
  | .cap watts => execCap watts s
  | .floor part stack watts => execFloor part stack watts s
  | .fabricRow part row contents => execFabricRow part row contents s
  | .debugStop part stack job => execDebugStop part stack job s
  | .debugResume part stack job => execDebugResume part stack job s
  | .debugStep part stack job block grp lane => execDebugStep part stack job block grp lane s
  | .debugBreakpoint stack n bp => execDebugBreakpoint stack n bp s
  | .debugTraceArea stack area arrival conflict threshold => execDebugTraceArea stack area arrival conflict threshold s
  | .debugState stack d => execDebugState stack d s
  | .attest stack nonce => execAttest stack nonce s
  | .retire p => execRetire p s
  | .firmwareUpdate stack image => execFirmwareUpdate stack image s

/-- The command queues give the next command that has waited and can be performed (R504). -/
def commandMove (s : State) : Out :=
  match nextCmd s [] s.cmds with
  | none => .next s
  | some (i, rest) => performCmd { s with cmds := rest, cur := .command } i

/-! The stack link (R326, R505, R506). -/

/-- LINK_FAILURE (R388, R505, R506): 100 ms have passed since the link last carried a flit. -/
def execLinkFailure (s : State) : Out :=
  if s.link.failed ∨ s.link.idle < 100000 then .next s
  else .next { (if s.linkDown then s else linkLost s) with link := { s.link with failed := true } }

/-- LINK_RETURN (R326, R368, R424, R506): the link carries a flit again. -/
def execLinkReturn (s : State) : Out :=
  if s.link.failed then .next (linkUp { s with link := ⟨false, 0⟩ }) else .next s

/-- FLIT_RETRY (R506): the flit is replayed and delivered once; nothing is lost. -/
def execFlitRetry (s : State) : Out :=
  .next (if s.link.failed then s else linkBack { s with link := { s.link with idle := 0 } })

/-! Other modules (R508 to R511). -/

/-- Report code of an operation of another module that meets an unrecoverable outcome (R510). -/
def reportPeer : Nat := 11

/-- Translate an operation of another module on the stack that its row names: its bytes, none where it is discarded, or some
none while a page is to be served. Memory across a link that is down is an unrecoverable outcome (R510). -/
def peerReach (s : State) (stack part : Nat) (use : Use) (va : Addr) (n : Nat) : Option (Option (List Piece)) :=
  let ps := (pageRuns va n).map (fun p => (p.1, p.2, outcome (walk s stack part p.1) p.1 use false))
  if (badCause ps).isSome then some none
  else if !(pagesOf ps).isEmpty then none
  else if (piecesOf ps).any (fun p => s.unreachablePA p.addr stack) then some none
  else some (some (piecesOf ps))

/-- A write of another module: none while a page is to be served. -/
def peerWrite (s : State) (stack part : Nat) (va : Addr) (bs : List Byte) : Option State :=
  match peerReach s stack part .store va bs.length with
  | none => none
  | some none => some (s.report stack reportPeer)
  | some (some ps) => some (writeBytes s (Who.of .peer s.moves) ps bs)

/-- The sectors of a billet, in their order. -/
def peerSectors (s : State) (stack part : Nat) (va : Addr) : List (Nat × List Byte) → Option State
  | [] => some s
  | x :: xs => (peerWrite s stack part (va + BitVec.ofNat 56 (32 * x.1)) x.2).bind (fun t => peerSectors t stack part va xs)

/-- Perform an operation of another module on the peer path under the partition's tables (R510): none while a page is to be
served. -/
def peerOp (s : State) (src stack part : Nat) (op : FabricOp) : Option State :=
  match op with
  | .store va bs | .copy va bs => peerWrite s stack part va bs
  | .billet va secs => peerSectors s stack part va secs
  | .fsemInc va amount =>
    match peerReach s stack part .store va 8 with
    | none => none
    | some (some [p]) =>
      let w := { Who.of .peer s.moves with rel := some 7 }
      let r := readBytes s stack w .point [p]
      some (if va.toNat % 8 ≠ 0 ∨ r.2.isNone then r.1.report stack reportPeer else semAdd r.1 w p.addr amount ⟨BitVec.ofNat 32 src, none⟩)
    | some _ => some (s.report stack reportPeer)
  | .fsemRd va =>
    match peerReach s stack part .load va 8 with
    | none => none
    | some (some ps) =>
      let r := readBytes s stack (Who.of .peer s.moves) .point ps
      some { r.1 with fabricReplies := r.1.fabricReplies ++
        [(src, r.2.map (fun bs => BitVec.ofNat 32 (min (leNat bs) (2 ^ 32 - 1))))] }
    | some none => some { s with fabricReplies := s.fabricReplies ++ [(src, none)] }

/-- Operations that have arrived are performed, those of one module in their order: none passes one that waits for a page
(R508, R510). -/
def drainFabric (s : State) : State :=
  let r := s.fabricIn.foldl (fun (acc : State × List (Nat × Nat × Nat × FabricOp)) x =>
    if acc.2.any (fun y => y.1 == x.1) then (acc.1, acc.2 ++ [x])
    else
      match peerOp acc.1 x.1 x.2.1 x.2.2.1 x.2.2.2 with
      | some s1 => (s1, acc.2)
      | none => (acc.1, acc.2 ++ [x])) (s, [])
  { r.1 with fabricIn := r.2 }

/-- A frame of a module has arrived: a route to it carries frames (R511). -/
def heardFrom (s : State) (m : Nat) : State :=
  { s with
    routes := (m, 0) :: s.routes.filter (fun r => r.1 != m)
    unreachable := s.unreachable.filter (· != m) }

/-- FABRIC_OP_ARRIVAL (R508, R510): an operation of another module for a partition on a stack. One whose page is to be served
waits, and later ones of its module behind it. -/
def execFabricOpArrival (src : Nat) (part : Nat × Nat) (op : FabricOp) (s : State) : Out :=
  .next (drainFabric { heardFrom s src with fabricIn := s.fabricIn ++ [(src, part.1, part.2, op)] })

/-- PAGE_SERVICE_COMPLETE (R157): the page is counted no more, and what waited for it goes on. -/
def execPageServiceComplete (part : Nat) (va : Addr) (s : State) : Out :=
  let p := pageOf va
  let ours (b : Nat) : Bool := (s.block? b).elim false (fun k => k.part == part)
  let s1 : State := { s with
    blocks := s.blocks.map (fun (k : Block) =>
      if k.part == part then
        let left := k.missing.filter (· != p)
        { k.mapThreads (fun _ _ t => replayThread left t) with
        missing := left
        seq := { k.seq with wait := if k.seq.wait = .page p then .none else k.seq.wait } }
      else k)
    accesses := s.accesses.map (fun (a : Access) =>
      if ours a.blk then { a with waits := a.waits.filter (· != p) } else a) }
  .next (drainFabric (drainHost (recheckMonitors s1 part) part))

def mapPort (s : State) (i : Nat) (f : Port → Port) : State := { s with ports := modifyAt f i s.ports }

/-- KEEPALIVE (R511): each port sends one every 1 ms. -/
def execKeepalive (port : Nat) (s : State) : Out :=
  .next (mapPort s port (fun p => if 1000 ≤ p.sent then { p with sent := 0 } else p))

/-- KEEPALIVE_ARRIVAL (R511, R517): a frame from a module arrives on a port. -/
def execKeepaliveArrival (port m : Nat) (s : State) : Out :=
  if 4 ≤ port then .next s
  else .next (heardFrom (mapPort s port (fun p => { p with heard := true, quiet := 0 })) m)

/-- MODULE_UNREACHABLE (R511): 100 ms have passed since any route to it last carried a frame; the host is told. -/
def execModuleUnreachable (m : Nat) (s : State) : Out :=
  let rs := s.routes.filter (fun r => r.1 == m)
  if s.unreachable.contains m ∨ rs.isEmpty ∨ rs.any (fun r => decide (r.2 < 100000)) then .next s
  else .next { s with unreachable := m :: s.unreachable, msix := s.msix ++ [(0, 3, 0)] }

/-- NEIGHBOUR_SESSION_SET_UP (R507). -/
def execNeighbourSessionSetUp (port : Nat) (billets : Bool) (s : State) : Out :=
  .next (mapPort s port (fun p => { p with session := true, billets := billets }))

/-- The host numbers the module, from 0 to 4,095 (R508). -/
def numberModule (s : State) (n : Nat) : State := if n < 4096 then { s with moduleNum := n } else s

/-! What the host reads and writes of the functions (R171, R500, R501, R512, R515, R517 to R520). -/

/-- Whether the parties of a function are in debug state D2 of a stack (R520). -/
def inD2 (s : State) (stack : Nat) : Bool := present s stack && (s.stack stack).dbg == 2

/-- The number of the power state of R519: P3 held in reset, P2 with every core gated, since no group is resident (R495), P1
where a measure of R496 holds, or else P0. -/
def powerState (s : State) (stack : Nat) : Nat :=
  if (s.stack stack).heldReset then 3
  else if !s.blocks.any (fun k => k.stack == stack && k.phase == .resident) then 2
  else if s.measures.any (fun m => m.cores.any (fun c => c.1 == stack)) then 1
  else 0

/-- What BAR0 of a function holds of an item: the physical function's the logs, the command status, the certificates and the
state of R512 and R519; that of a partition's function its status word and its MSI-X table (R501). -/
def barItem (s : State) (fn : Nat) (item : BarItem) : BarReply :=
  let pf := fn == 0
  match item with
  | .capability w => .numbers [(capWord s (hostSide s) (if pf then none else some (fn - 1)) w).toNat]
  | .status => .numbers (if pf then [] else [(s.part (fn - 1)).funcStatus.toNat])
  | .vector n => .records ((s.vectors.getD fn []).drop n |>.take 1)
  | .errors => .numbers ((s.hostErrors.filter (fun e => e.2.2 == fn)).map (·.2.1))
  | .commands k => .numbers (if pf then (s.stack k).cmdStatus else [])
  | .reports k => .bytes (if pf then (s.stack k).reports.flatten else [])
  | .arrayLog k => .records (if pf then (s.stack k).arrayLog else [])
  | .transferLog k => .records (if pf then (s.stack k).transferLog else [])
  | .degraded k => .parts (if pf then (s.stack k).degradedParts else [])
  | .boot k => .numbers (if pf then [(s.stack k).bootStep] else [])
  | .power k => .numbers (if pf then [powerState s k] else [])
  | .certificate k d => .bytes (if pf then Config.certificate k d else [])
  | .processor k =>
    let t := s.stack k
    .numbers (if pf && inD2 s k then [t.us.toNat, t.sec, t.dbg, t.image, t.version.toNat, t.rollback.toNat, t.bootStep,
      t.reserveCores, t.reserveBanks] else [])

/-- The host reads an item of a function (R500, R501): the function of a partition that does not exist reads as disabled. -/
def barRead (s : State) (fn : Nat) (item : BarItem) : State :=
  { s with barReplies := s.barReplies ++ [(fn, if 0 < fn && !(s.part (fn - 1)).live then .disabled else barItem s fn item)] }

/-- The host writes an entry of a function's MSI-X table (R500, R501). -/
def vectorWrite (s : State) (fn n : Nat) (entry : BitVec 128) : State :=
  if 0 < fn && !(s.part (fn - 1)).live then s
  else { s with vectors := modifyAt (fun t => modifyAt (fun _ => entry) n t) fn s.vectors }

end Sys2Proof.Machine
end

