-- ==== Sys2Proof/Machine/Vector.lean ====
section
/-!
DEFINITION. Vector integer, address, predicate and cross-lane instructions (R112 to R138).
-/

namespace Sys2Proof.Machine

/-- A per-thread form whose result registers carry poison through (R115): srcs gives the sources of a lane, res its
results when none is poisoned. -/
def vCarry (fm : Form) (d : Fld) (n : Nat) (srcs : Issue → Group → Thread → List Reg)
    (res : Issue → Group → Thread → List Reg) (s : State) : Out :=
  withForm fm (perLane (fun is _ g _ t => .ok (t.setRegs (g.vi d) (carry (srcs is g t) n (res is g t))))) s

/-! 32-bit binary operations (R116, R117). -/

def vBin (op : Word → Word → Word) (d : Fld) (a : Src) (b : SrcB) (s : State) : Out :=
  vCarry (Form.of [vDst d, vSrc 1 a, bSrc b]) d 1 (fun _ g t => [g.vreg t a.f] ++ g.bRegs t b 1)
    (fun _ g t => [full (op (g.vreg t a.f).val (regWord (g.bRegs t b 1)))]) s

/-- A sum or difference clamped to the signed range (R117). -/
def clampI (x : Int) : Word := BitVec.ofInt 32 (min (max x (-2147483648)) 2147483647)

def Accepts.satOnly : Accepts := ⟨false, true, false, false, false, false⟩

/-- A form that accepts sat (R117): exact on integers, and clamped or wrapped. -/
def vSat (op : Int → Int → Int) (d : Fld) (a : Src) (b : SrcB) (s : State) : Out :=
  vCarry ⟨[vDst d, vSrc 1 a, bSrc b], Accepts.satOnly, .any⟩ d 1 (fun _ g t => [g.vreg t a.f] ++ g.bRegs t b 1)
    (fun is g t =>
      let r := op (g.vreg t a.f).val.toInt (regWord (g.bRegs t b 1)).toInt
      [full (if (hintMods is.hints).sat then clampI r else BitVec.ofInt 32 r)]) s

def execAddI32 (d : Fld) (a : Src) (b : SrcB) (s : State) : Out := vSat (fun x y => x + y) d a b s
def execSubI32 (d : Fld) (a : Src) (b : SrcB) (s : State) : Out := vSat (fun x y => x - y) d a b s

/-- The high word of an exact product (R116). -/
def mulhi (x y : Int) : Word := BitVec.ofInt 32 (x * y / 2 ^ 32)

def execMulI32 (d : Fld) (a : Src) (b : SrcB) (s : State) : Out := vBin (fun x y => x * y) d a b s
def execMulhiI32 (d : Fld) (a : Src) (b : SrcB) (s : State) : Out := vBin (fun x y => mulhi x.toInt y.toInt) d a b s
def execMulhiN32 (d : Fld) (a : Src) (b : SrcB) (s : State) : Out := vBin (fun x y => mulhi x.toNat y.toNat) d a b s
def execAndB32 (d : Fld) (a : Src) (b : SrcB) (s : State) : Out := vBin (fun x y => x &&& y) d a b s
def execOrB32 (d : Fld) (a : Src) (b : SrcB) (s : State) : Out := vBin (fun x y => x ||| y) d a b s
def execXorB32 (d : Fld) (a : Src) (b : SrcB) (s : State) : Out := vBin (fun x y => x ^^^ y) d a b s
def execShlB32 (d : Fld) (a : Src) (b : SrcB) (s : State) : Out := vBin shl32 d a b s
def execShrN32 (d : Fld) (a : Src) (b : SrcB) (s : State) : Out := vBin shr32 d a b s
def execSraI32 (d : Fld) (a : Src) (b : SrcB) (s : State) : Out := vBin sra32 d a b s

/-- x × 2^n + ⌊x / 2^(32 − n)⌋ for n = y mod 32 (R116). -/
def rotl32 (x y : Word) : Word := x.rotateLeft (y.toNat % 32)
def rotr32 (x y : Word) : Word := x.rotateLeft ((32 - y.toNat % 32) % 32)

def execRotlB32 (d : Fld) (a : Src) (b : SrcB) (s : State) : Out := vBin rotl32 d a b s
def execRotrB32 (d : Fld) (a : Src) (b : SrcB) (s : State) : Out := vBin rotr32 d a b s
def execMinI32 (d : Fld) (a : Src) (b : SrcB) (s : State) : Out := vBin minI d a b s
def execMaxI32 (d : Fld) (a : Src) (b : SrcB) (s : State) : Out := vBin maxI d a b s
def execMinN32 (d : Fld) (a : Src) (b : SrcB) (s : State) : Out := vBin minN d a b s
def execMaxN32 (d : Fld) (a : Src) (b : SrcB) (s : State) : Out := vBin maxN d a b s

/-- A form of major 0x0F; only add.i32 accepts sat (R117). -/
def vImm (acc : Accepts) (op : Issue → Word → Word → Word) (d : Fld) (a : Src) (i : BitVec 11) (s : State) : Out :=
  vCarry ⟨[vDst d, vSrc 1 a], acc, .any⟩ d 1 (fun _ g t => [g.vreg t a.f])
    (fun is g t => [full (op is (g.vreg t a.f).val ((immC is.hints i).setWidth 32))]) s

def execAddI32Imm (d : Fld) (a : Src) (i : BitVec 11) (s : State) : Out :=
  vImm ⟨true, true, false, false, false, false⟩ (fun is x y =>
    if (hintMods is.hints).sat then clampI (x.toInt + y.toInt) else x + y) d a i s
def execAndB32Imm (d : Fld) (a : Src) (i : BitVec 11) (s : State) : Out :=
  vImm Accepts.immOnly (fun _ x y => x &&& y) d a i s
def execOrB32Imm (d : Fld) (a : Src) (i : BitVec 11) (s : State) : Out :=
  vImm Accepts.immOnly (fun _ x y => x ||| y) d a i s
def execXorB32Imm (d : Fld) (a : Src) (i : BitVec 11) (s : State) : Out :=
  vImm Accepts.immOnly (fun _ x y => x ^^^ y) d a i s

/-! Wide, 64-bit and address arithmetic (R121 to R123). -/

def vWide (op : Word → Word → DWord) (d : Fld) (a : Src) (b : SrcB) (s : State) : Out :=
  vCarry (Form.of [vDst d 2, vSrc 1 a, bSrc b]) d 2 (fun _ g t => [g.vreg t a.f] ++ g.bRegs t b 1)
    (fun _ g t => pairRegs (op (g.vreg t a.f).val (regWord (g.bRegs t b 1)))) s

def execMulWideI32 (d : Fld) (a : Src) (b : SrcB) (s : State) : Out :=
  vWide (fun x y => BitVec.ofInt 64 (x.toInt * y.toInt)) d a b s
def execMulWideN32 (d : Fld) (a : Src) (b : SrcB) (s : State) : Out :=
  vWide (fun x y => BitVec.ofNat 64 (x.toNat * y.toNat)) d a b s

def vPair (op : DWord → DWord → DWord) (d : Fld) (a : Src) (b : SrcB) (s : State) : Out :=
  vCarry (Form.of [vDst d 2, vSrc 1 a 2, bSrc b 2]) d 2 (fun _ g t => g.vregsAt t a.f 2 ++ g.bRegs t b 2)
    (fun _ g t => pairRegs (op (regPair (g.vregsAt t a.f 2)) (regPair (g.bRegs t b 2)))) s

def execAddI64 (d : Fld) (a : Src) (b : SrcB) (s : State) : Out := vPair (fun x y => x + y) d a b s
def execSubI64 (d : Fld) (a : Src) (b : SrcB) (s : State) : Out := vPair (fun x y => x - y) d a b s

/-- A 56-bit address zero-extended to 64 bits (R123). -/
def addrRegs (x : Addr) : List Reg := pairRegs (x.zeroExtend 64)

def vAddr (op : Addr → Word → Addr) (d : Fld) (a : Src) (b : SrcB) (s : State) : Out :=
  vCarry (Form.of [vDst d 2, vSrc 1 a 2, bSrc b]) d 2 (fun _ g t => g.vregsAt t a.f 2 ++ g.bRegs t b 1)
    (fun _ g t => addrRegs (op (regAddr (g.vregsAt t a.f 2)) (regWord (g.bRegs t b 1)))) s

def execAddA64 (d : Fld) (a : Src) (b : SrcB) (s : State) : Out := vAddr (fun x y => x + y.signExtend 56) d a b s
def execLea (d : Fld) (a : Src) (b : SrcB) (k : BitVec 2) (s : State) : Out :=
  vAddr (fun x y => x + (y.signExtend 56 <<< k.toNat)) d a b s
def execLeaN (d : Fld) (a : Src) (b : SrcB) (k : BitVec 2) (s : State) : Out :=
  vAddr (fun x y => x + (y.zeroExtend 56 <<< k.toNat)) d a b s

/-! Bit fields (R119, R120). -/

/-- The field of length l at position p of the integer w (R119). -/
def bfe (signed : Bool) (x y : Word) : Word :=
  let p := bits y 7 0
  let l := min (bits y 15 8) 32
  if l = 0 then 0
  else
    let w : Int := if signed then x.toInt else x.toNat
    let f := w / 2 ^ p % 2 ^ l
    BitVec.ofInt 32 (if signed && decide (2 ^ (l - 1) ≤ f) then f - 2 ^ l else f)

/-- Insert the low bits of x into v (R120). -/
def bfi (v x y : Word) : Word :=
  let p := bits y 7 0
  let l := min (bits y 15 8) 32
  let m : Word := BitVec.ofNat 32 ((2 ^ l - 1) * 2 ^ p)
  (v &&& ~~~m) ||| (BitVec.ofNat 32 (x.toNat * 2 ^ p) &&& m)

def execBfeN32 (d : Fld) (a : Src) (b : SrcB) (s : State) : Out := vBin (bfe false) d a b s
def execBfeI32 (d : Fld) (a : Src) (b : SrcB) (s : State) : Out := vBin (bfe true) d a b s
def execBfiB32 (d : Fld) (a : Src) (b : SrcB) (s : State) : Out :=
  vCarry (Form.of [vMod d, vSrc 1 a, bSrc b]) d 1 (fun _ g t => [g.vreg t d, g.vreg t a.f] ++ g.bRegs t b 1)
    (fun _ g t => [full (bfi (g.vreg t d).val (g.vreg t a.f).val (regWord (g.bRegs t b 1)))]) s

/-! Unary operations (R118). -/

def vUn (op : Word → Word) (d : Fld) (a : Src) (s : State) : Out :=
  vCarry (Form.of [vDst d, vSrc 1 a]) d 1 (fun _ g t => [g.vreg t a.f])
    (fun _ g t => [full (op (g.vreg t a.f).val)]) s

def clz32 (x : Word) : Word := if x = 0 then 32 else BitVec.ofNat 32 (31 - Nat.log2 x.toNat)
def popc32 (x : Word) : Word := BitVec.ofNat 32 ((upto 32).filter (fun i => x.getLsbD i)).length
def brev32 (x : Word) : Word :=
  BitVec.ofNat 32 ((upto 32).foldl (fun n i => if x.getLsbD i then n + 2 ^ (31 - i) else n) 0)

def execAbsI32 (d : Fld) (a : Src) (s : State) : Out := vUn (fun x => if x.msb then -x else x) d a s
def execNegI32 (d : Fld) (a : Src) (s : State) : Out := vUn (fun x => -x) d a s
def execClzB32 (d : Fld) (a : Src) (s : State) : Out := vUn clz32 d a s
def execPopcB32 (d : Fld) (a : Src) (s : State) : Out := vUn popc32 d a s
def execBrevB32 (d : Fld) (a : Src) (s : State) : Out := vUn brev32 d a s
def execMovB32 (d : Fld) (a : Src) (s : State) : Out := vUn (fun x => x) d a s
def execNotB32 (d : Fld) (a : Src) (s : State) : Out := vUn (fun x => ~~~x) d a s

/-! Multiply-add and moves (R124, R125). -/

def execMadI32 (d : Fld) (a b : Src) (c : Fld) (s : State) : Out :=
  vCarry (Form.of [vDst d, vSrc 1 a, vSrc 2 b, vRead 3 c]) d 1
    (fun _ g t => [g.vreg t a.f, g.vreg t b.f, g.vreg t c])
    (fun _ g t => [full ((g.vreg t a.f).val * (g.vreg t b.f).val + (g.vreg t c).val)]) s

def execMovi (d : Fld) (i : BitVec 20) (s : State) : Out :=
  vCarry (Form.imm [vDst d]) d 1 (fun _ _ _ => []) (fun is _ _ => [full ((immD is.hints i).setWidth 32)]) s

/-! Selection, comparison, predicates (R126 to R128). -/

def execSel (d : Fld) (sense : Bool) (p : BitVec 3) (a : Src) (b : SrcB) (s : State) : Out :=
  withForm (Form.of [vDst d, vSrc 1 a, bSrc b]) (perLane (fun _ _ g _ t =>
    .ok (t.setRegs (g.vi d) [if t.pred p != sense then g.vreg t a.f else (g.bRegs t b 1).headD Reg.mk0]))) s

def execCmp (wide : Bool) (p : BitVec 3) (c : ICond) (a : Src) (b : SrcB) (s : State) : Out :=
  let n := if wide then 2 else 1
  withForm (Form.of [vSrc 1 a n, bSrc b n]) (perLane (fun _ _ g _ t =>
    let x := g.vregsAt t a.f n
    let y := g.bRegs t b n
    match poisonIn (x ++ y) with
    | some (kind, v) => .trap kind v 0
    | none => .ok (t.setPred p (if wide then icondHolds c (regPair x) (regPair y)
        else icondHolds c (regWord x) (regWord y))))) s

def predForm (op : Thread → Bool) (d : BitVec 3) (s : State) : Out :=
  withForm (Form.of []) (perLane (fun _ _ _ _ t => .ok (t.setPred d (op t)))) s

def execPand (d a b : BitVec 3) (s : State) : Out := predForm (fun t => t.pred a && t.pred b) d s
def execPor (d a b : BitVec 3) (s : State) : Out := predForm (fun t => t.pred a || t.pred b) d s
def execPxor (d a b : BitVec 3) (s : State) : Out := predForm (fun t => t.pred a != t.pred b) d s
def execPnot (d a : BitVec 3) (s : State) : Out := predForm (fun t => !t.pred a) d s

/-! Cross-lane exchange (R129 to R137): the active set is Issue.act. -/

def execVoteAny (d a : BitVec 3) (s : State) : Out :=
  withForm (Form.of []) (perLane (fun is _ g _ t =>
    .ok (t.setPred d (is.act.any (fun j => (g.thread j).pred a))))) s
def execVoteAll (d a : BitVec 3) (s : State) : Out :=
  withForm (Form.of []) (perLane (fun is _ g _ t =>
    .ok (t.setPred d (is.act.all (fun j => (g.thread j).pred a))))) s
def execBallot (d : Fld) (a : BitVec 3) (s : State) : Out :=
  withForm (Form.of [vDst d]) (perLane (fun is _ g _ t =>
    .ok (t.setRegs (g.vi d) [full (maskOf (is.act.filter (fun j => (g.thread j).pred a)))]))) s

def execMatchB32 (d : Fld) (a : Src) (s : State) : Out :=
  withForm (Form.of [vDst d, vSrc 1 a]) (perLane (fun is _ g _ t =>
    let x := g.vreg t a.f
    .ok (t.setRegs (g.vi d) [if x.isPoisoned then poison0
      else full (maskOf (is.act.filter (fun j => g.vreg (g.thread j) a.f == full x.val)))]))) s

def execLanes (d : Fld) (s : State) : Out :=
  withForm (Form.of [vDst d]) (perLane (fun is _ g l t =>
    .ok (t.setRegs (g.vi d) [full (putBits is.act.length 21 16 |||
      putBits (is.act.filter (fun j => decide (j < l))).length 12 8 ||| putBits l 4 0)]))) s

/-- A shuffle: src gives the lane read from y and the own lane number, where there is one (R134). -/
def shuffle (src : Nat → Word → Option Nat) (d : Fld) (a : Src) (b : SrcB) (s : State) : Out :=
  withForm (Form.of [vDst d, vSrc 1 a, bSrc b]) (perLane (fun is _ g l t =>
    let y := (g.bRegs t b 1).headD Reg.mk0
    let own := g.vreg t a.f
    .ok (t.setRegs (g.vi d) [if y.isPoisoned then poison0
      else match src l y.val with
        | some j => if is.act.contains j then g.vreg (g.thread j) a.f else own
        | none => own]))) s

def execShflIdx (d : Fld) (a : Src) (b : SrcB) (s : State) : Out := shuffle (fun _ y => some (bits y 4 0)) d a b s
def execShflUp (d : Fld) (a : Src) (b : SrcB) (s : State) : Out :=
  shuffle (fun i y => if 32 ≤ y.toNat ∨ i < y.toNat then none else some (i - y.toNat)) d a b s
def execShflDown (d : Fld) (a : Src) (b : SrcB) (s : State) : Out :=
  shuffle (fun i y => if 32 ≤ y.toNat ∨ 31 < i + y.toNat then none else some (i + y.toNat)) d a b s
def execShflXor (d : Fld) (a : Src) (b : SrcB) (s : State) : Out :=
  shuffle (fun i y => some (i ^^^ bits y 4 0)) d a b s

def execS2v (d : Fld) (a : Src) (s : State) : Out :=
  withForm (Form.of [vDst d, uSrc 1 a]) (perLane (fun _ _ g _ t => .ok (t.setRegs (g.vi d) [g.sreg a.f]))) s

def execV2s (d : Fld) (a : Src) (b : SrcB) (s : State) : Out :=
  withForm (Form.of [uDst d, vSrc 1 a, bSrc b]) (perBundle (fun is _ g =>
    let low := is.act.headD 0
    let y := (g.bRegs (g.thread low) b 1).headD Reg.mk0
    let j := bits y.val 4 0
    let l := if is.act.contains j then j else low
    .ok (g.setSregs (g.si d) [if y.isPoisoned then poison0 else g.vreg (g.thread l) a.f]))) s

/-- The operations of gred and gscan (R136). -/
def redOp (o : RedOp) : Word → Word → Word :=
  match o with
  | .addI32 => fun x y => x + y
  | .minI32 => minI
  | .maxI32 => maxI
  | .minN32 => minN
  | .maxN32 => maxN
  | .andB32 => fun x y => x &&& y
  | .orB32 => fun x y => x ||| y
  | .xorB32 => fun x y => x ^^^ y

/-- op over the registers of several lanes: poisoned when one is (R136). -/
def reduceRegs (o : RedOp) (rs : List Reg) : Reg :=
  if rs.any Reg.isPoisoned then poison0
  else match rs.map (·.val) with
    | [] => full 0
    | v :: vs => full (vs.foldl (redOp o) v)

def execGred (o : RedOp) (d : Fld) (a : Src) (s : State) : Out :=
  withForm (Form.of [uDst d, vSrc 1 a]) (perBundle (fun is _ g =>
    .ok (g.setSregs (g.si d) [reduceRegs o (is.act.map (fun j => g.vreg (g.thread j) a.f))]))) s

def execGscan (o : RedOp) (d : Fld) (a : Src) (s : State) : Out :=
  withForm (Form.of [vDst d, vSrc 1 a]) (perLane (fun is _ g l t =>
    .ok (t.setRegs (g.vi d)
      [reduceRegs o ((is.act.filter (fun j => decide (j ≤ l))).map (fun j => g.vreg (g.thread j) a.f))]))) s

end Sys2Proof.Machine
end

