-- ==== Sys2Proof/Machine/Dispatch.lean ====
section
/-!
DEFINITION. One arm per constructor of Instr: its meaning.
-/

namespace Sys2Proof.Machine

/-- What an instruction, or an event of the opcode table, does to the state. -/
def exec (i : Instr) (s : State) : Host.Outcome State Fault Refusal :=
  match i with
  | .hintImm p => Sys2Proof.Machine.execHintImm p s
  | .hintGrd sense p => Sys2Proof.Machine.execHintGrd sense p s
  | .hintMod m => Sys2Proof.Machine.execHintMod m s
  | .hintYield => Sys2Proof.Machine.execHintYield s
  | .hintSched v => Sys2Proof.Machine.execHintSched v s
  | .bra off => Sys2Proof.Machine.execBra off s
  | .br sense p off => Sys2Proof.Machine.execBr sense p off s
  | .bru sense sp off => Sys2Proof.Machine.execBru sense sp off s
  | .call d off => Sys2Proof.Machine.execCall d off s
  | .callx d a => Sys2Proof.Machine.execCallx d a s
  | .ret a => Sys2Proof.Machine.execRet a s
  | .exit => Sys2Proof.Machine.execExit s
  | .regroup a => Sys2Proof.Machine.execRegroup a s
  | .conv b => Sys2Proof.Machine.execConv b s
  | .nop => Sys2Proof.Machine.execNop s
  | .winVReg b => Sys2Proof.Machine.execWinVReg b s
  | .winSReg b => Sys2Proof.Machine.execWinSReg b s
  | .winVImm off => Sys2Proof.Machine.execWinVImm off s
  | .winSImm off => Sys2Proof.Machine.execWinSImm off s
  | .saddI32 d a b => Sys2Proof.Machine.execSaddI32 d a b s
  | .ssubI32 d a b => Sys2Proof.Machine.execSsubI32 d a b s
  | .smulI32 d a b => Sys2Proof.Machine.execSmulI32 d a b s
  | .sandB32 d a b => Sys2Proof.Machine.execSandB32 d a b s
  | .sorB32 d a b => Sys2Proof.Machine.execSorB32 d a b s
  | .sxorB32 d a b => Sys2Proof.Machine.execSxorB32 d a b s
  | .sshlB32 d a b => Sys2Proof.Machine.execSshlB32 d a b s
  | .sshrN32 d a b => Sys2Proof.Machine.execSshrN32 d a b s
  | .ssraI32 d a b => Sys2Proof.Machine.execSsraI32 d a b s
  | .sminI32 d a b => Sys2Proof.Machine.execSminI32 d a b s
  | .sminN32 d a b => Sys2Proof.Machine.execSminN32 d a b s
  | .smaxI32 d a b => Sys2Proof.Machine.execSmaxI32 d a b s
  | .smaxN32 d a b => Sys2Proof.Machine.execSmaxN32 d a b s
  | .saddI64 d a b => Sys2Proof.Machine.execSaddI64 d a b s
  | .ssubI64 d a b => Sys2Proof.Machine.execSsubI64 d a b s
  | .smovB32 d a => Sys2Proof.Machine.execSmovB32 d a s
  | .scmp sp c a b => Sys2Proof.Machine.execScmp sp c a b s
  | .ssel d sp a b => Sys2Proof.Machine.execSsel d sp a b s
  | .srdsp d n => Sys2Proof.Machine.execSrdsp d n s
  | .saddI32Imm d a off => Sys2Proof.Machine.execSaddI32Imm d a off s
  | .sandB32Imm d a off => Sys2Proof.Machine.execSandB32Imm d a off s
  | .sorB32Imm d a off => Sys2Proof.Machine.execSorB32Imm d a off s
  | .sxorB32Imm d a off => Sys2Proof.Machine.execSxorB32Imm d a off s
  | .smovi d off => Sys2Proof.Machine.execSmovi d off s
  | .addI32 d a b => Sys2Proof.Machine.execAddI32 d a b s
  | .subI32 d a b => Sys2Proof.Machine.execSubI32 d a b s
  | .mulI32 d a b => Sys2Proof.Machine.execMulI32 d a b s
  | .mulhiI32 d a b => Sys2Proof.Machine.execMulhiI32 d a b s
  | .mulhiN32 d a b => Sys2Proof.Machine.execMulhiN32 d a b s
  | .andB32 d a b => Sys2Proof.Machine.execAndB32 d a b s
  | .orB32 d a b => Sys2Proof.Machine.execOrB32 d a b s
  | .xorB32 d a b => Sys2Proof.Machine.execXorB32 d a b s
  | .shlB32 d a b => Sys2Proof.Machine.execShlB32 d a b s
  | .shrN32 d a b => Sys2Proof.Machine.execShrN32 d a b s
  | .sraI32 d a b => Sys2Proof.Machine.execSraI32 d a b s
  | .rotlB32 d a b => Sys2Proof.Machine.execRotlB32 d a b s
  | .rotrB32 d a b => Sys2Proof.Machine.execRotrB32 d a b s
  | .minI32 d a b => Sys2Proof.Machine.execMinI32 d a b s
  | .maxI32 d a b => Sys2Proof.Machine.execMaxI32 d a b s
  | .minN32 d a b => Sys2Proof.Machine.execMinN32 d a b s
  | .maxN32 d a b => Sys2Proof.Machine.execMaxN32 d a b s
  | .mulWideI32 d a b => Sys2Proof.Machine.execMulWideI32 d a b s
  | .mulWideN32 d a b => Sys2Proof.Machine.execMulWideN32 d a b s
  | .addI64 d a b => Sys2Proof.Machine.execAddI64 d a b s
  | .subI64 d a b => Sys2Proof.Machine.execSubI64 d a b s
  | .addA64 d a b => Sys2Proof.Machine.execAddA64 d a b s
  | .bfeN32 d a b => Sys2Proof.Machine.execBfeN32 d a b s
  | .bfeI32 d a b => Sys2Proof.Machine.execBfeI32 d a b s
  | .bfiB32 d a b => Sys2Proof.Machine.execBfiB32 d a b s
  | .absI32 d a => Sys2Proof.Machine.execAbsI32 d a s
  | .negI32 d a => Sys2Proof.Machine.execNegI32 d a s
  | .clzB32 d a => Sys2Proof.Machine.execClzB32 d a s
  | .popcB32 d a => Sys2Proof.Machine.execPopcB32 d a s
  | .brevB32 d a => Sys2Proof.Machine.execBrevB32 d a s
  | .movB32 d a => Sys2Proof.Machine.execMovB32 d a s
  | .notB32 d a => Sys2Proof.Machine.execNotB32 d a s
  | .lea d a b k => Sys2Proof.Machine.execLea d a b k s
  | .leaN d a b k => Sys2Proof.Machine.execLeaN d a b k s
  | .addI32Imm d a off => Sys2Proof.Machine.execAddI32Imm d a off s
  | .andB32Imm d a off => Sys2Proof.Machine.execAndB32Imm d a off s
  | .orB32Imm d a off => Sys2Proof.Machine.execOrB32Imm d a off s
  | .xorB32Imm d a off => Sys2Proof.Machine.execXorB32Imm d a off s
  | .movi d off => Sys2Proof.Machine.execMovi d off s
  | .sel d sense p a b => Sys2Proof.Machine.execSel d sense p a b s
  | .cmp wide p c a b => Sys2Proof.Machine.execCmp wide p c a b s
  | .pand d a b => Sys2Proof.Machine.execPand d a b s
  | .por d a b => Sys2Proof.Machine.execPor d a b s
  | .pxor d a b => Sys2Proof.Machine.execPxor d a b s
  | .pnot d a => Sys2Proof.Machine.execPnot d a s
  | .voteAny d a => Sys2Proof.Machine.execVoteAny d a s
  | .voteAll d a => Sys2Proof.Machine.execVoteAll d a s
  | .ballot d a => Sys2Proof.Machine.execBallot d a s
  | .matchB32 d a => Sys2Proof.Machine.execMatchB32 d a s
  | .lanes d => Sys2Proof.Machine.execLanes d s
  | .shflIdx d a b => Sys2Proof.Machine.execShflIdx d a b s
  | .shflUp d a b => Sys2Proof.Machine.execShflUp d a b s
  | .shflDown d a b => Sys2Proof.Machine.execShflDown d a b s
  | .shflXor d a b => Sys2Proof.Machine.execShflXor d a b s
  | .s2v d a => Sys2Proof.Machine.execS2v d a s
  | .v2s d a b => Sys2Proof.Machine.execV2s d a b s
  | .gred o d a => Sys2Proof.Machine.execGred o d a s
  | .gscan o d a => Sys2Proof.Machine.execGscan o d a s
  | .madI32 d a b c => Sys2Proof.Machine.execMadI32 d a b c s
  | .ldG d a off w o => Sys2Proof.Machine.execLdG d a off w o s
  | .stG off a b w o => Sys2Proof.Machine.execStG off a b w o s
  | .ldSp d a off w o => Sys2Proof.Machine.execLdSp d a off w o s
  | .stSp off a b w o => Sys2Proof.Machine.execStSp off a b w o s
  | .ldK d a off w => Sys2Proof.Machine.execLdK d a off w s
  | .prefetchL2 a off => Sys2Proof.Machine.execPrefetchL2 a off s
  | .prefetchL1 a off => Sys2Proof.Machine.execPrefetchL1 a off s
  | .pgprobe d a off => Sys2Proof.Machine.execPgprobe d a off s
  | .ldNfB32 d a off => Sys2Proof.Machine.execLdNfB32 d a off s
  | .ldNfB64 d a off => Sys2Proof.Machine.execLdNfB64 d a off s
  | .ldNfB128 d a off => Sys2Proof.Machine.execLdNfB128 d a off s
  | .floatAdd t d a b => Sys2Proof.Machine.execFloatAdd t d a b s
  | .floatSub t d a b => Sys2Proof.Machine.execFloatSub t d a b s
  | .floatMul t d a b => Sys2Proof.Machine.execFloatMul t d a b s
  | .floatMin t d a b => Sys2Proof.Machine.execFloatMin t d a b s
  | .floatMax t d a b => Sys2Proof.Machine.execFloatMax t d a b s
  | .fclass t d a => Sys2Proof.Machine.execFclass t d a s
  | .dot2 t d a b => Sys2Proof.Machine.execDot2 t d a b s
  | .dot4 t d a b => Sys2Proof.Machine.execDot4 t d a b s
  | .fma t d a b c => Sys2Proof.Machine.execFma t d a b c s
  | .floatCmp t p c a b => Sys2Proof.Machine.execFloatCmp t p c a b s
  | .rcpF32 d a => Sys2Proof.Machine.execRcpF32 d a s
  | .rsqrtF32 d a => Sys2Proof.Machine.execRsqrtF32 d a s
  | .sqrtF32 d a => Sys2Proof.Machine.execSqrtF32 d a s
  | .exp2F32 d a => Sys2Proof.Machine.execExp2F32 d a s
  | .log2F32 d a => Sys2Proof.Machine.execLog2F32 d a s
  | .sinF32 d a => Sys2Proof.Machine.execSinF32 d a s
  | .cosF32 d a => Sys2Proof.Machine.execCosF32 d a s
  | .tanhF32 d a => Sys2Proof.Machine.execTanhF32 d a s
  | .rcpF64 d a => Sys2Proof.Machine.execRcpF64 d a s
  | .rsqrtF64 d a => Sys2Proof.Machine.execRsqrtF64 d a s
  | .sqrtF64 d a => Sys2Proof.Machine.execSqrtF64 d a s
  | .exp2F16x2 d a => Sys2Proof.Machine.execExp2F16x2 d a s
  | .tanhF16x2 d a => Sys2Proof.Machine.execTanhF16x2 d a s
  | .tanhBf16x2 d a => Sys2Proof.Machine.execTanhBf16x2 d a s
  | .castFloat d a dst src sat r => Sys2Proof.Machine.execCastFloat d a dst src sat r s
  | .castIntFloat d a toInt it ft sat r => Sys2Proof.Machine.execCastIntFloat d a toInt it ft sat r s
  | .pack d a el ix sat r => Sys2Proof.Machine.execPack d a el ix sat r s
  | .rngSeed a => Sys2Proof.Machine.execRngSeed a s
  | .rngNext d => Sys2Proof.Machine.execRngNext d s
  | .fmodeRd d => Sys2Proof.Machine.execFmodeRd d s
  | .fmodeWr a => Sys2Proof.Machine.execFmodeWr a s
  | .atomAdd w64 d a b o => Sys2Proof.Machine.execAtomAdd w64 d a b o s
  | .atomMin w64 d a b o => Sys2Proof.Machine.execAtomMin w64 d a b o s
  | .atomMax w64 d a b o => Sys2Proof.Machine.execAtomMax w64 d a b o s
  | .atomAnd w64 d a b o => Sys2Proof.Machine.execAtomAnd w64 d a b o s
  | .atomOr w64 d a b o => Sys2Proof.Machine.execAtomOr w64 d a b o s
  | .atomXor w64 d a b o => Sys2Proof.Machine.execAtomXor w64 d a b o s
  | .atomXchg w64 d a b o => Sys2Proof.Machine.execAtomXchg w64 d a b o s
  | .atomCas w64 d a b o => Sys2Proof.Machine.execAtomCas w64 d a b o s
  | .atomMinN32 d a b o => Sys2Proof.Machine.execAtomMinN32 d a b o s
  | .atomMaxN32 d a b o => Sys2Proof.Machine.execAtomMaxN32 d a b o s
  | .atomMinN64 d a b o => Sys2Proof.Machine.execAtomMinN64 d a b o s
  | .atomMaxN64 d a b o => Sys2Proof.Machine.execAtomMaxN64 d a b o s
  | .atomAddF32 d a b o => Sys2Proof.Machine.execAtomAddF32 d a b o s
  | .atomAddF16x2 d a b o => Sys2Proof.Machine.execAtomAddF16x2 d a b o s
  | .atomAddBf16x2 d a b o => Sys2Proof.Machine.execAtomAddBf16x2 d a b o s
  | .atomAddF64 d a b o => Sys2Proof.Machine.execAtomAddF64 d a b o s
  | .atomredAddI32 a b o => Sys2Proof.Machine.execAtomredAddI32 a b o s
  | .atomredMinI32 a b o => Sys2Proof.Machine.execAtomredMinI32 a b o s
  | .atomredMaxI32 a b o => Sys2Proof.Machine.execAtomredMaxI32 a b o s
  | .atomredAndB32 a b o => Sys2Proof.Machine.execAtomredAndB32 a b o s
  | .atomredOrB32 a b o => Sys2Proof.Machine.execAtomredOrB32 a b o s
  | .atomredXorB32 a b o => Sys2Proof.Machine.execAtomredXorB32 a b o s
  | .atomredAddF32 a b o => Sys2Proof.Machine.execAtomredAddF32 a b o s
  | .atomredAddI64 a b o => Sys2Proof.Machine.execAtomredAddI64 a b o s
  | .fence sc k => Sys2Proof.Machine.execFence sc k s
  | .fenceX e l => Sys2Proof.Machine.execFenceX e l s
  | .gateIn n => Sys2Proof.Machine.execGateIn n s
  | .gateWait n => Sys2Proof.Machine.execGateWait n s
  | .gatePass n => Sys2Proof.Machine.execGatePass n s
  | .gateFold d op n b => Sys2Proof.Machine.execGateFold d op n b s
  | .nbarArrive n => Sys2Proof.Machine.execNbarArrive n s
  | .nbarWait n => Sys2Proof.Machine.execNbarWait n s
  | .monArm a => Sys2Proof.Machine.execMonArm a s
  | .monWait => Sys2Proof.Machine.execMonWait s
  | .fsemInc a b => Sys2Proof.Machine.execFsemInc a b s
  | .fsemWait a b => Sys2Proof.Machine.execFsemWait a b s
  | .fsemRd d a => Sys2Proof.Machine.execFsemRd d a s
  | .xcopy t d a => Sys2Proof.Machine.execXcopy t d a s
  | .xcopyCancel a => Sys2Proof.Machine.execXcopyCancel a s
  | .xcopyStat d a => Sys2Proof.Machine.execXcopyStat d a s
  | .accAlloc d a => Sys2Proof.Machine.execAccAlloc d a s
  | .accFree a => Sys2Proof.Machine.execAccFree a s
  | .accLd d a b => Sys2Proof.Machine.execAccLd d a b s
  | .accZero a => Sys2Proof.Machine.execAccZero a s
  | .mseqStart a => Sys2Proof.Machine.execMseqStart a s
  | .mseqStop => Sys2Proof.Machine.execMseqStop s
  | .mhdr k off => Sys2Proof.Machine.execMhdr k off s
  | .mload k => Sys2Proof.Machine.execMload k s
  | .mswap => Sys2Proof.Machine.execMswap s
  | .mstream a c ovw chain => Sys2Proof.Machine.execMstream a c ovw chain s
  | .mchain st l => Sys2Proof.Machine.execMchain st l s
  | .mdrain c d clear => Sys2Proof.Machine.execMdrain c d clear s
  | .marrive n => Sys2Proof.Machine.execMarrive n s
  | .mwait c n => Sys2Proof.Machine.execMwait c n s
  | .mloop l c back => Sys2Proof.Machine.execMloop l c back s
  | .mjmp off => Sys2Proof.Machine.execMjmp off s
  | .mend => Sys2Proof.Machine.execMend s
  | .srfAlloc d a => Sys2Proof.Machine.execSrfAlloc d a s
  | .srfFree a => Sys2Proof.Machine.execSrfFree a s
  | .srfQuery d a k => Sys2Proof.Machine.execSrfQuery d a k s
  | .srfPin a => Sys2Proof.Machine.execSrfPin a s
  | .srfEvict a => Sys2Proof.Machine.execSrfEvict a s
  | .srfView d a => Sys2Proof.Machine.execSrfView d a s
  | .sld d a b w vol => Sys2Proof.Machine.execSld d a b w vol s
  | .sst d a b w vol => Sys2Proof.Machine.execSst d a b w vol s
  | .qbind q a => Sys2Proof.Machine.execQbind q a s
  | .qpush q a k => Sys2Proof.Machine.execQpush q a k s
  | .qpushS q a k => Sys2Proof.Machine.execQpushS q a k s
  | .qpop d q k => Sys2Proof.Machine.execQpop d q k s
  | .qpeek d q k => Sys2Proof.Machine.execQpeek d q k s
  | .qstat d q => Sys2Proof.Machine.execQstat d q s
  | .hmarkGet d a => Sys2Proof.Machine.execHmarkGet d a s
  | .hmarkVoid a => Sys2Proof.Machine.execHmarkVoid a s
  | .hmarkClose a => Sys2Proof.Machine.execHmarkClose a s
  | .launch a => Sys2Proof.Machine.execLaunch a s
  | .ctrNew d a => Sys2Proof.Machine.execCtrNew d a s
  | .ctrRaise a b => Sys2Proof.Machine.execCtrRaise a b s
  | .ctrPost a => Sys2Proof.Machine.execCtrPost a s
  | .ctrWait a => Sys2Proof.Machine.execCtrWait a s
  | .ctrRd d a => Sys2Proof.Machine.execCtrRd d a s
  | .cancel a => Sys2Proof.Machine.execCancel a s
  | .prio a => Sys2Proof.Machine.execPrio a s
  | .sliceRd d => Sys2Proof.Machine.execSliceRd d s
  | .kRd d n => Sys2Proof.Machine.execKRd d n s
  | .kWr d n => Sys2Proof.Machine.execKWr d n s
  | .tlbinvPartition d => Sys2Proof.Machine.execTlbinvPartition d s
  | .tlbinvPage d => Sys2Proof.Machine.execTlbinvPage d s
  | .kCycleLoRead d => Sys2Proof.Machine.execKCycleLoRead d s
  | .trap c => Sys2Proof.Machine.execTrap c s
  | .tret => Sys2Proof.Machine.execTret s
  | .parkRd d a => Sys2Proof.Machine.execParkRd d a s
  | .ctxSave a => Sys2Proof.Machine.execCtxSave a s
  | .ctxLoad a => Sys2Proof.Machine.execCtxLoad a s
  | .halt => Sys2Proof.Machine.execHalt s
  | .snap => Sys2Proof.Machine.execSnap s
  | .capRd d a => Sys2Proof.Machine.execCapRd d a s
  | .heldRecordEntry part stack job => Sys2Proof.Machine.execHeldRecordEntry part stack job s
  | .trapGroupStart part stack job => Sys2Proof.Machine.execTrapGroupStart part stack job s
  | .breakpointMatch blk grp lane bp => Sys2Proof.Machine.execBreakpointMatch blk grp lane bp s
  | .loadCompletion acc => Sys2Proof.Machine.execLoadCompletion acc s
  | .parityRetry stack vault offset lanes attempts write => Sys2Proof.Machine.execParityRetry stack vault offset lanes attempts write s
  | .laneSwap stack vault lane => Sys2Proof.Machine.execLaneSwap stack vault lane s
  | .pageServiceComplete part va => Sys2Proof.Machine.execPageServiceComplete part va s
  | .tlbInvalidationComplete inv => Sys2Proof.Machine.execTlbInvalidationComplete inv s
  | .hostCompletionError acc => Sys2Proof.Machine.execHostCompletionError acc s
  | .monitorPoll blk grp lane => Sys2Proof.Machine.execMonitorPoll blk grp lane s
  | .fsemRecheck blk grp => Sys2Proof.Machine.execFsemRecheck blk grp s
  | .convEpisodeEnd blk grp pc => Sys2Proof.Machine.execConvEpisodeEnd blk grp pc s
  | .regroupArrival blk grp lane => Sys2Proof.Machine.execRegroupArrival blk grp lane s
  | .regroupWindowClose blk => Sys2Proof.Machine.execRegroupWindowClose blk s
  | .copyChunk copy chunk => Sys2Proof.Machine.execCopyChunk copy chunk s
  | .copyCompletion copy => Sys2Proof.Machine.execCopyCompletion copy s
  | .sequencerGrant stack core => Sys2Proof.Machine.execSequencerGrant stack core s
  | .pass blk => Sys2Proof.Machine.execPass blk s
  | .accumulatorUpdate blk => Sys2Proof.Machine.execAccumulatorUpdate blk s
  | .accBankReturn blk slot => Sys2Proof.Machine.execAccBankReturn blk slot s
  | .accGrant stack core => Sys2Proof.Machine.execAccGrant stack core s
  | .tileFetch part entry tile => Sys2Proof.Machine.execTileFetch part entry tile s
  | .saggerEviction part entry tile => Sys2Proof.Machine.execSaggerEviction part entry tile s
  | .linkFailure => Sys2Proof.Machine.execLinkFailure s
  | .linkReturn => Sys2Proof.Machine.execLinkReturn s
  | .flitRetry => Sys2Proof.Machine.execFlitRetry s
  | .callDepart blk grp queue => Sys2Proof.Machine.execCallDepart blk grp queue s
  | .returnArrival call => Sys2Proof.Machine.execReturnArrival call s
  | .drawAccept call => Sys2Proof.Machine.execDrawAccept call s
  | .registrationComplete part h => Sys2Proof.Machine.execRegistrationComplete part h s
  | .rayQuery call => Sys2Proof.Machine.execRayQuery call s
  | .depthCall call => Sys2Proof.Machine.execDepthCall call s
  | .blendCall call => Sys2Proof.Machine.execBlendCall call s
  | .clearCall call => Sys2Proof.Machine.execClearCall call s
  | .textureCall call => Sys2Proof.Machine.execTextureCall call s
  | .tessellateTriangle call => Sys2Proof.Machine.execTessellateTriangle call s
  | .tessellateQuad call => Sys2Proof.Machine.execTessellateQuad call s
  | .frameBegin call => Sys2Proof.Machine.execFrameBegin call s
  | .bandEncode call => Sys2Proof.Machine.execBandEncode call s
  | .frameEnd call => Sys2Proof.Machine.execFrameEnd call s
  | .closeEffect part h => Sys2Proof.Machine.execCloseEffect part h s
  | .hallmarkWatchdogExpiry part entry => Sys2Proof.Machine.execHallmarkWatchdogExpiry part entry s
  | .barrierWatchdogExpiry blk => Sys2Proof.Machine.execBarrierWatchdogExpiry blk s
  | .regroupWatchdogExpiry blk grp lane => Sys2Proof.Machine.execRegroupWatchdogExpiry blk grp lane s
  | .contextStop part stack job => Sys2Proof.Machine.execContextStop part stack job s
  | .stopComplete part stack job => Sys2Proof.Machine.execStopComplete part stack job s
  | .blockEviction blk => Sys2Proof.Machine.execBlockEviction blk s
  | .blockRestore blk => Sys2Proof.Machine.execBlockRestore blk s
  | .blockPlacement blk => Sys2Proof.Machine.execBlockPlacement blk s
  | .deferralHold blk => Sys2Proof.Machine.execDeferralHold blk s
  | .vaultReading stack tenths => Sys2Proof.Machine.execVaultReading stack tenths s
  | .refreshCharge stack => Sys2Proof.Machine.execRefreshCharge stack s
  | .sliceExpiry part stack job => Sys2Proof.Machine.execSliceExpiry part stack job s
  | .blockCompletion blk => Sys2Proof.Machine.execBlockCompletion blk s
  | .windowEnd stack core => Sys2Proof.Machine.execWindowEnd stack core s
  | .powerStepEnd stack core => Sys2Proof.Machine.execPowerStepEnd stack core s
  | .powerMeasurement watts forecast => Sys2Proof.Machine.execPowerMeasurement watts forecast s
  | .debugStepEnd part stack job => Sys2Proof.Machine.execDebugStepEnd part stack job s
  | .snapshotTrigger blk id => Sys2Proof.Machine.execSnapshotTrigger blk id s
  | .hostWrite part va bytes => Sys2Proof.Machine.execHostWrite part va bytes s
  | .hostRead part va len => Sys2Proof.Machine.execHostRead part va len s
  | .create part p0 p1 table window mailbox => Sys2Proof.Machine.execCreate part p0 p1 table window mailbox s
  | .resize part stack p => Sys2Proof.Machine.execResize part stack p s
  | .destroy part => Sys2Proof.Machine.execDestroy part s
  | .invalidate part va => Sys2Proof.Machine.execInvalidate part va s
  | .cap watts => Sys2Proof.Machine.execCap watts s
  | .floor part stack watts => Sys2Proof.Machine.execFloor part stack watts s
  | .fabricRow part row contents => Sys2Proof.Machine.execFabricRow part row contents s
  | .debugStop part stack job => Sys2Proof.Machine.execDebugStop part stack job s
  | .debugResume part stack job => Sys2Proof.Machine.execDebugResume part stack job s
  | .debugStep part stack job block grp lane => Sys2Proof.Machine.execDebugStep part stack job block grp lane s
  | .debugBreakpoint stack n bp => Sys2Proof.Machine.execDebugBreakpoint stack n bp s
  | .debugTraceArea stack area arrival conflict threshold => Sys2Proof.Machine.execDebugTraceArea stack area arrival conflict threshold s
  | .debugState stack d => Sys2Proof.Machine.execDebugState stack d s
  | .attest stack nonce => Sys2Proof.Machine.execAttest stack nonce s
  | .retire p => Sys2Proof.Machine.execRetire p s
  | .dramRowRemap stack vault layer bank row => Sys2Proof.Machine.execDramRowRemap stack vault layer bank row s
  | .fabricOpArrival src part op => Sys2Proof.Machine.execFabricOpArrival src part op s
  | .keepalive port => Sys2Proof.Machine.execKeepalive port s
  | .moduleUnreachable m => Sys2Proof.Machine.execModuleUnreachable m s
  | .boot stack => Sys2Proof.Machine.execBoot stack s
  | .p3Entry stack => Sys2Proof.Machine.execP3Entry stack s
  | .illegalEncoding w => Sys2Proof.Machine.execIllegalEncoding w s
  | .fetchFault cause => Sys2Proof.Machine.execFetchFault cause s
  | .firmwareUpdate stack image => Sys2Proof.Machine.execFirmwareUpdate stack image s
  | .neighbourSessionSetUp port billets => Sys2Proof.Machine.execNeighbourSessionSetUp port billets s
  | .keepaliveArrival port m => Sys2Proof.Machine.execKeepaliveArrival port m s

end Sys2Proof.Machine
end

