-- ==== Sys2Proof/Machine/Moves.lean ====
section
/-!
DEFINITION. What each move of the agenda does: an issue and what follows it (R438, R484), a word of a sequencer, and the
ticks of a core's clock and of a stack's microsecond count with everything that is due at them.
-/

namespace Sys2Proof.Machine

/-- The state of an outcome that goes on, or the state before. -/
def orElse (s : State) : Out → State
  | .next s1 => s1
  | _ => s

/-- An event that is due at once. -/
def occur (s : State) (f : State → Out) : State := orElse s (f s)

/-- Change the state of an outcome that goes on. -/
def onNext (f : State → State) : Out → Out
  | .next s => .next (f s)
  | o => o

/-- Execute what a fetch has prepared. -/
def runTodo (p : State × Todo) : Out :=
  match p.2 with
  | .nothing => .next p.1
  | .run i => exec i p.1
  | .illegal w => execIllegalEncoding w p.1
  | .fetchFault c => execFetchFault c p.1

/-! Issue. -/

/-- A hint word and its target count as one instruction (R484). -/
def isHint : Instr → Bool
  | .hintImm _ | .hintGrd _ _ | .hintMod _ | .hintYield | .hintSched _ => true
  | .illegalEncoding w => isHintWord w
  | _ => false

/-- The bundle that was fetched ends an instruction. -/
def endsInstr : Todo → Bool
  | .nothing => false
  | .run i => !isHint i
  | _ => true

/-- What follows an issue: the slice may end (R438), and a step that has issued its instruction is over (R484). -/
def afterIssue (k : Block) (done : Bool) (s : State) : State :=
  match s.ctx? k.part k.stack k.job with
  | none => s
  | some c =>
    if c.step.isSome then
      let s1 := if done then s.mapCtx k.part k.stack k.job (fun c => { c with stepped := true }) else s
      occur s1 (execDebugStepEnd k.part k.stack k.job)
    else if (s.partOn k.part k.stack).params.sliceLen ≤ c.slice then occur s (execSliceExpiry k.part k.stack k.job)
    else s

/-- An issue bundle of a group. -/
def issueMove (s : State) (b g : Nat) (pc : Addr) (hints : List Hint) (lanes : List Nat) : Out :=
  let p := prepareIssue s b g pc hints lanes
  match s.block? b with
  | none => .next s
  | some k => onNext (afterIssue k (endsInstr p.2)) (runTodo p)

/-- A word of a sequencer. -/
def seqMove (s : State) (b : Nat) : Out := runTodo (prepareSeq s b)

/-! The core clock (R40, R81, R104, R107, R466, R493, R495). -/

/-- The lane cluster receives the core's cycle. -/
def receives (cycles : Nat) (c : Cluster) : Bool := !c.near || cycles % 4 == 0

/-- A register of a lane or group is to be filled by a load, a pop, a copy token or an acc.ld (R493). -/
def fillOf (s : State) (b gi lane : Nat) (g : Group) (t : Thread) (uni : Bool) (i : Nat) : Bool :=
  s.accesses.any (fun a => a.blk == b && (match a.kind with
    | .load _ _ | .const _ _ | .pixel | .accLd _ _ => true
    | _ => false) && (match a.dst with
    | some d => d.uni == uni && (if uni then d.grp == gi else a.tid == t.tid) && decide (d.idx ≤ i) && decide (i < d.idx + d.n)
    | none => false)) ||
  (if uni then s.copies.any (fun c => c.blk == b && c.grp == gi && c.tok == i)
   else g.queues.any (fun q => q.claims.any (fun c => c.lane == lane && decide (c.dst ≤ i) && decide (i < c.dst + c.k))))

/-- A thread that waits for a fill or a page (R493). -/
def fillStall (s : State) (b gi lane : Nat) (g : Group) (t : Thread) : Bool :=
  match t.run with
  | .blocked (.pages _ _) => true
  | .blocked (.regs rs) => rs.any (fun r => (regAt g t r).isEmpty && fillOf s b gi lane g t r.1 r.2)
  | _ => false

/-- A group has no ready thread, and a thread that waits for a fill. -/
def groupStalls (s : State) (p : Nat × Nat × Block × Group) : Bool :=
  (readyLanes s p.1 p.2.1 p.2.2.1 p.2.2.2).isEmpty &&
  ((upto p.2.2.2.threads.length).zip p.2.2.2.threads).any (fun q => fillStall s p.1 p.2.1 q.1 p.2.2.2 q.2)

/-- The counts of a lane cluster for a cycle in which it has issued or not (R493). -/
def countCycle (s : State) (stack core cl : Nat) (issued : Bool) : State :=
  let stall := (groupsOn s stack core cl).any (groupStalls s)
  s.mapCore stack core (fun c => { c with clusters := modifyAt (fun x => { x with
    curC := x.curC + 1
    curI := if issued then x.curI + 1 else x.curI
    curM := if !issued && stall then x.curM + 1 else x.curM }) cl c.clusters })

/-! Turns (R79, R81, R82). -/

/-- A wait of a word that has not issued: for its registers, or for the core's sweep (R49, R50, R154). -/
def beforeIssue : Run → Option Wait
  | .blocked (.regs rs) => some (.regs rs)
  | .blocked .sweep => some .sweep
  | _ => none

/-- The issue stage fetches the next word of the lanes of a key: those whose fetch waits for a page, or that the word would
make wait before it issues, are blocked, and so not ready (R49, R50, R79, R99, R129). -/
def lookAhead (s : State) (b gi : Nat) (ls : List Nat) (key : Key) : State :=
  match s.block? b with
  | none => s
  | some k =>
    let p := fetchIssue s k b gi key.1 key.2 ls
    match p.2 with
    | .nothing => p.1
    | .run i =>
      let t := orElse p.1 (exec i p.1)
      let waits := ls.filterMap (fun l => ((t.thread? b gi l).bind (fun x => beforeIssue x.run)).map (fun w => (l, w)))
      let s1 : State := { p.1 with cur := s.cur }
      if waits.isEmpty then s1
      else s1.blockLanes b gi (waits.map (·.1)) (fun l => ((waits.find? (fun q => q.1 == l)).map (·.2)).getD .own)
    | _ => s

/-- The issue stage looks at the next words of a lane cluster's groups. A thread that retries a word that it has issued has
read it. -/
def lookAll (s : State) (stack core cluster : Nat) : State :=
  (groupsOn s stack core cluster).foldl (fun s p =>
    let ls := (readyLanes s p.1 p.2.1 p.2.2.1 p.2.2.2).filter (fun l => freshIssue (p.2.2.2.thread l).run)
    (nub (ls.map (fun l => (p.2.2.2.thread l).key))).foldl (fun s key =>
      lookAhead s p.1 p.2.1 (ls.filter (fun l => (p.2.2.2.thread l).key == key)) key) s) s

/-- One turn of a lane cluster (R81 to R87, R497): counts rise, the chosen bundles are due at once. The cycle counts as one
with issue where some chosen thread is not stopped by a breakpoint (R493). -/
def takeTurn (s0 : State) (stack core cluster : Nat) : State :=
  let s := lookAll s0 stack core cluster
  let c := s.core stack core
  let cl := c.clusters.getD cluster Cluster.reset
  let gs := groupsOn s stack core cluster
  let reserved := if cl.phase64 = 0 then
      match nextGroup s (gs.filter (fun p => p.2.2.1.trapGroup)) cl.lastRes with
      | some p => some p
      | none => nextGroup s (gs.filter (fun p => p.2.2.2.evgrp)) cl.lastRes
    else none
  if gateOf s stack core ≤ cl.phase64 || !clockRuns s stack core then countCycle s stack core cluster false
  else
    match reserved.or (nextGroup s gs cl.last) with
    | none => countCycle s stack core cluster false
    | some (b, gi, k, g) =>
      let ls := readyLanes s b gi k g
      let o := orderKeys s k g ls (chooseKeys g ls)
      let chosen := ls.filter (fun l => o.1.contains (g.thread l).key)
      let s1 := (countCycle s stack core cluster (chosen.any (fun l => (stopsAt s k g l).isNone))).mapGroup b gi (fun h => { h with
        deferred := o.2
        threads := mapFrom (fun l (t : Thread) => { t with
          yieldTurns := t.yieldTurns - 1
          starv := if ls.contains l && !chosen.contains l then t.starv + 1 else t.starv }) 0 h.threads })
      let s2 := s1.mapCore stack core (fun c => { c with
        clusters := modifyAt (fun x => { x with
          last := if reserved.isSome then x.last else g.slot
          lastRes := if reserved.isSome then g.slot else x.lastRes }) cluster c.clusters })
      { s2 with agenda := o.1.map (fun q => .issue b gi q.1 q.2 (ls.filter (fun l => (g.thread l).key == q))) ++ s2.agenda }

/-- Blocks of a core note since when they could be evicted (R466). -/
def noteEvictable (s : State) (stack core : Nat) : State :=
  { s with blocks := mapFrom (fun b (k : Block) =>
      if k.phase == .resident && k.stack == stack && k.core == core then { k with
        evictableFrom := if evictable s b k then some (k.evictableFrom.getD (s.now stack core)) else none }
      else k) 0 s.blocks }

/-- Wait episodes and compaction windows that end at this cycle (R104, R107). -/
def endEpisodes (s : State) (stack core : Nat) : State :=
  (indexes (fun (k : Block) => k.phase == .resident && k.stack == stack && k.core == core) s.blocks).foldl (fun s b =>
    let s1 := ((s.block? b).elim [] (·.convs)).foldl (fun s e => occur s (execConvEpisodeEnd b e.grp e.pc)) s
    occur s1 (execRegroupWindowClose b)) s

/-- A cycle of a core: its lane clusters have a turn each. -/
def cycleMove (s : State) (stack core : Nat) : State :=
  if 2 ≤ stack ∨ 128 ≤ core then s
  else
    let s1 := s.mapCore stack core (fun c => { c with
      cycles := c.cycles + 1
      clusters := c.clusters.map (fun k => if receives (c.cycles + 1).toNat k then { k with phase64 := (k.phase64 + 1) % 64 } else k) })
    let s2 := noteEvictable (endEpisodes s1 stack core) stack core
    let turns := (upto 4).filter (fun i => receives (s2.now stack core) ((s2.core stack core).clusters.getD i Cluster.reset))
    let s3 := ((upto 4).filter (fun i => !turns.contains i)).foldl (fun s i =>
      countCycle (lookAll s stack core i) stack core i false) s2
    { s3 with agenda := turns.map (fun i => .turn stack core i) ++ s3.agenda }

/-! The microsecond count (R171, R240, R244, R434, R437, R474, R488, R492 to R496, R506, R511). -/

/-- Monitors on words that no write of the device announces, and semaphores, are looked at every 10 µs. -/
def pollAll (s : State) (stack : Nat) : State :=
  (indexes (fun (k : Block) => k.stack == stack && onDevice k.phase) s.blocks).foldl (fun s b =>
    ((s.block? b).elim [] (·.positions)).foldl (fun s p => match p.2.2.2.run with
      | .blocked .monitor => occur s (execMonitorPoll b p.1 p.2.1)
      | .blocked (.fsem _ _) => occur s (execFsemRecheck b p.1)
      | _ => s) s) s

/-- Cores of a stack with something due. -/
def stackCores (s : State) (stack : Nat) (p : Nat → Core → Bool) : List Nat :=
  (((upto 128).zip (s.stack stack).cores).filter (fun x => p x.1 x.2)).map (·.1)

/-- Power steps and windows that end (R492, R493). -/
def endWindows (s : State) (stack : Nat) : State :=
  let us := s.usOf stack
  let s1 := (stackCores s stack (fun _ c => c.step.elim false (fun p => decide (p.ends ≤ 10 * us)))).foldl
    (fun s c => occur s (execPowerStepEnd stack c)) s
  (stackCores s1 stack (fun i _ => (us + Config.windowPhase stack i) % 10 == 0)).foldl
    (fun s c => occur s (execWindowEnd stack c)) s1

/-- What belongs to the module and not to one stack counts with stack 0's microseconds, held in reset or not: the link, the
ports, the routes, and the measurement of power. Whether the link carried a flit in a microsecond is free; the link fails, and a
module becomes unreachable, at the moment when 100 ms have passed (R506, R511). -/
def tickModule (s : State) : State :=
  let s1 : State := { s with
    time := s.time + 1
    link := { s.link with idle := if !s.link.failed && Config.freeBit s.moves then 0 else s.link.idle + 1 }
    ports := s.ports.map (fun p => { p with quiet := p.quiet + 1, sent := p.sent + 1 })
    routes := s.routes.map (fun r => (r.1, r.2 + 1)) }
  let s2 := (upto 4).foldl (fun s i => occur s (execKeepalive i)) s1.draw
  let s3 := linkBack (occur s2 execLinkFailure)
  let s4 := (nub (s3.routes.map (·.1))).foldl (fun s m => occur s (execModuleUnreachable m)) s3
  if s4.time % 100 = 0 then
    let w := Config.power s4.moves
    occur s4.draw (execPowerMeasurement w.1 w.2)
  else s4

/-- A microsecond of a stack. -/
def microMove (s : State) (stack : Nat) : State :=
  if 2 ≤ stack then s
  else if (s.stack stack).heldReset then (if stack = 0 then tickModule s else s)
  else
    let s1 := s.mapStack stack (fun k => { k with us := k.us + 1 })
    let us := s1.usOf stack
    let s2 := expireWatchdogs (tickWatchdogs s1 stack) stack
    let s3 := if us % 10 = 0 then pollAll s2 stack else s2
    let s4 := if (us + Config.chargePhase stack) % 10 = 0 then occur s3 (execRefreshCharge stack) else s3
    let s5 := if (us + Config.readingPhase stack) % 100 = 0 then
        occur s4.draw (execVaultReading stack ((upto 32).map (fun v => Config.temperature s4.moves v)))
      else s4
    let s6 := retireWorn (reachSnapshots (endWindows s5 stack) stack) stack
    if stack = 0 then tickModule s6 else s6

/-! The step's move. -/

/-- Moves that only the machine's own clocks and issue bring about: the free schedule makes none of them. -/
def ownClock : Instr → Bool
  | .breakpointMatch _ _ _ _ | .refreshCharge _ | .vaultReading _ _ | .powerMeasurement _ _ | .windowEnd _ _
  | .barrierWatchdogExpiry _ | .regroupWatchdogExpiry _ _ _ | .hallmarkWatchdogExpiry _ _ => true
  | _ => false

def free : Move → Bool
  | .turn _ _ _ | .issue _ _ _ _ _ | .kWrite _ _ _ _ => false
  | .event i => !ownClock i
  | _ => true

/-- What a move does. -/
def makeMove (s : State) : Move → Out
  | .turn stack core cl => .next (takeTurn s stack core cl)
  | .issue b g pc hints lanes => issueMove s b g pc hints lanes
  | .kWrite b g n v => .next (regWrite s b g n v)
  | .seq b => seqMove s b
  | .perform a => .next (perform s a)
  | .event i => exec i s
  | .cycle stack core => .next (cycleMove s stack core)
  | .micro stack => .next (microMove s stack)
  | .unitError c => .next (unitError s c)
  | .command => commandMove s
  | .barRead fn item => .next (barRead s fn item)
  | .vectorWrite fn n x => .next (vectorWrite s fn n x)
  | .numberModule n => .next (numberModule s n)
  | .traceRead stack n => .next (s.mapStack stack (fun t => { t with trace := t.trace.drop n }))
  | .upset sp g n u => .next (if n < 256 then { s with upsets := s.upsets ++ [(sp, g, n, u)] } else s)
  | .regUpset stack core u => .next (if stack < 2 ∧ core < 128 then s.wear stack (.core stack core) u else s)

/-- The move that comes next: the head of the agenda, or the free schedule's; the state with it taken. -/
def nextMove (s : State) : Move × State :=
  match s.agenda with
  | m :: ms => (m, { s with agenda := ms, cur := .none })
  | [] =>
    let m := Config.schedule s.moves
    (if free m then m else .perform s.moves, { s with moves := s.moves + 1, cur := .none })

/-! Placing one instruction (entry 11). -/

/-- The word is one that only a trap group may execute. -/
def handlerWord (w : Nat) : Bool :=
  match decodeTableWord 32 w with
  | some .tret | some (.parkRd _ _) => true
  | some (.kRd _ n) | some (.kWr _ n) => regNeed n.toNat == .handler
  | _ => false

/-- The job of the block that runs a placed word. -/
def placedJob : Word := 0xC000_0400

/-- Page tables that map the first GiB of addresses to device physical 0x4000_0000 with execute and write. -/
def placedTables (m : Memory) : Memory :=
  ((m.write 0x1000 (leBytes 8 0x2001)).write 0x2000 (leBytes 8 0x3001)).write 0x3000 (leBytes 8 0x4000_00C5)

/-- One privileged block of one group with 96 registers of each file, resident on core 0 of stack 0, its threads ready at
address 0x100. -/
def placedBlock (trap seq : Bool) : Block :=
  let k := Block.fresh none 0 0 0 placedJob trap true (32, 1, 1) 96 96 1024 0x100 0
  { k with phase := .resident, seq := if seq then Sequencer.clear .running 0x100 else k.seq }

/-- A word placed as the next that is issued, by the block's threads or, for a word of the matrix stream, by its
sequencer (entry 11). -/
def placeWord (s : State) (_nbits w : Nat) : State :=
  let seq := decide (w / 2 ^ 26 % 64 = 0x38)
  let b := s.blocks.length
  let s1 : State := { s with
    stks := s.stks.map (fun k => { k with sec := 1 })
    ctxs := Ctx.fresh placedJob 0 0 :: s.ctxs
    blocks := s.blocks ++ [placedBlock (handlerWord w) seq]
    mem := (placedTables s.mem).write 0x4000_0100 (leBytes 4 w)
    cur := .none
    agenda := [if seq then .seq b else .issue b 0 0x100 [] (upto 32)] }
  let s2 := s1.mapPart 0 (fun p => { p with
    live := true
    table := 0x1000
    on := p.on.map (fun q => { q with params := { q.params with columns := [0] } }) })
  if seq then s2.mapCore 0 0 (fun c => { c with array := some b }) else s2

end Sys2Proof.Machine
end

