-- ==== Sys2Proof/Machine/Step.lean ====
section
/-!
DEFINITION. The step: the next move is made; and the state whose next step runs a given instruction.
-/

namespace Sys2Proof.Machine

/-- One step: the next move is made, and nobody acts between steps. -/
def step (s : State) : Host.Outcome State Fault Refusal :=
  let m := nextMove s
  onNext (fun t => { t with cur := .none }) (makeMove m.2 m.1)

/-- The state with an instruction's word where the next step fetches it (entry 11). -/
def State.withFetchWord (s : State) (nbits w : Nat) : State := placeWord s nbits w

end Sys2Proof.Machine
end

