-- ==== Sys2Proof/Safety.lean ====
section
/-!
DEFINITION. The terms that claims use: what a step may not do, when a bundle goes through the conditions of R72, what a
completed instruction leaves, and the invariant of the machine's memory.
-/

namespace Sys2Proof.Machine

/-! Safe steps. -/

/-- The outcome is a next state with a property. -/
def Answers (o : Out) (P : State → Prop) : Prop := ∃ t, o = .next t ∧ P t

/-- A safe state: the next step ends in a next state (every trap is one, R15, R455). -/
def Safe (s : State) : Prop := ∃ t, step s = .next t

/-! A bundle that issues. -/

/-- The bundle that executes word w at address pc with hints hs: its block k and group gr, and its lanes, each at that
key and neither exited nor killed (R79, R80). -/
structure Issuing (s : State) (b g : Nat) (lanes : List Nat) (pc : Addr) (hs : List Hint) (w : Word)
    (k : Block) (gr : Group) : Prop where
  cur : s.cur = .bundle b g lanes pc hs w
  block : s.block? b = some k
  group : s.group? b g = some gr
  inGroup : ∀ l ∈ lanes, l < gr.threads.length
  atKey : ∀ l ∈ lanes, (gr.thread l).pc = pc ∧ (gr.thread l).hints = hs
  live : ∀ l ∈ lanes, (gr.thread l).live = true

/-- The lanes whose guard is true (R59). -/
def activeLanes (gr : Group) (lanes : List Nat) (hs : List Hint) : List Nat :=
  lanes.filter (fun l => guardOf hs (gr.thread l))

/-- Orders 1 to 4 of R72 find nothing: the hints are accepted (R55, R60), the block has the privilege (R452), every
operand lies within the allotment (R46), and no register that is read or written is empty (R49, R50). -/
structure Clear (fm : Form) (k : Block) (gr : Group) (act : List Nat) (hs : List Hint) : Prop where
  hints : hintsOk fm.acc hs = true
  need : act ≠ [] → needFails fm.need k = none
  bound : act ≠ [] → ∀ o ∈ fm.ops,
    if o.uni then gr.si o.f + o.n ≤ k.sregs else gr.vi o.f + o.n ≤ k.vregs
  full : ∀ o ∈ fm.ops, (o.read = true ∨ o.write = true) → ∀ l ∈ act, ∀ r ∈ opdRegs gr (gr.thread l) o, r.st ≠ .empty

/-- What issuing does to a thread of the bundle, whatever its word (R82, R87). -/
def issuedThread (hs : List Hint) (t : Thread) : Thread :=
  { t with starv := 0, yieldTurns := if hintYields hs && freshIssue t.run then 16 else t.yieldTurns }

/-- The fields of the state that no register form touches: all but the blocks, the slice counters of contexts, and the
note of which tokens a thread has read (R225). -/
def frameOf (s : State) : State :=
  { s with
    blocks := []
    ctxs := s.ctxs.map (fun c => { c with slice := 0 })
    order := { s.order with chans := [] } }

/-- Every byte of device physical memory, of every scratchpad and of every surface reads in t as it does in s. -/
def SameBytes (s t : State) : Prop := ∀ sp a, (t.bytesOf sp).get a = (s.bytesOf sp).get a

/-- A bundle has executed in group g of block b: fg is what happened to the group's own registers, fl what
happened to the thread of each active lane; the other lanes of the bundle went on at the next word, and nothing else
changed but the counts of bundles issued (R112, R438, R490). -/
structure Executed (s t : State) (b g : Nat) (lanes act : List Nat) (hs : List Hint)
    (fg : Group → Group) (fl : Nat → Thread → Thread) : Prop where
  bytes : SameBytes s t
  frame : frameOf t = frameOf s
  blocks : ∀ b', b' ≠ b → t.block? b' = s.block? b'
  block : ∀ k, s.block? b = some k → ∃ k', t.block? b = some k' ∧
    { k' with groups := k.groups, issued := k.issued } = k
  groups : ∀ g', g' ≠ g → t.group? b g' = s.group? b g'
  group : ∀ x, s.group? b g = some x → ∃ x', t.group? b g = some x' ∧ { x' with threads := (fg x).threads } = fg x
  active : ∀ l ∈ act, t.thread? b g l = (s.thread? b g l).map (fun x => fl l (issuedThread hs x))
  passive : ∀ l ∈ lanes, l ∉ act → t.thread? b g l = (s.thread? b g l).map (fun x => (issuedThread hs x).next)
  others : ∀ l, l ∉ lanes → t.thread? b g l = s.thread? b g l

/-- Where a bundle issues: the state, the bundle, and its block and group. -/
structure Site where
  s : State
  blk : Nat
  grp : Nat
  lanes : List Nat
  pc : Addr
  hints : List Hint
  word : Word
  k : Block
  gr : Group

def Site.act (x : Site) : List Nat := activeLanes x.gr x.lanes x.hints

def Site.Issues (x : Site) : Prop := Issuing x.s x.blk x.grp x.lanes x.pc x.hints x.word x.k x.gr

/-- Wherever a bundle for i issues that meets orders 1 to 4 of R72 for the form and the condition pre, exec answers a
next state, in which the bundle has executed with fg and fl. -/
def Completes (i : Instr) (fm : Form) (pre : Site → Prop) (fg : Site → Group → Group)
    (fl : Site → Nat → Thread → Thread) : Prop :=
  ∀ x : Site, x.Issues → Clear fm x.k x.gr x.act x.hints → pre x →
    ∃ t, exec i x.s = .next t ∧ Executed x.s t x.blk x.grp x.lanes x.act x.hints (fg x) (fl x)

/-- An effect on the group that happens once, when a thread of the bundle has a true guard (R59, R89). -/
def once (f : Site → Group → Group) (x : Site) (g : Group) : Group := if x.act = [] then g else f x g

/-! Issues that put something in flight. -/

/-- The fields that no issue of an access touches: all but blocks, slice counters, the stacks' caches and traces, and
what is in flight. -/
def flightFrame (s : State) : State :=
  { frameOf s with stks := s.stks.map (fun k => { k with cores := [], trace := [], traceDropped := 0 }), accesses := [], moves := 0 }

/-- A bundle has issued something that completes later: as Executed, but translations may be held, pages counted and
accesses begun. -/
structure Started (x : Site) (t : State) (fg : Group → Group) (fl : Nat → Thread → Thread) : Prop where
  bytes : SameBytes x.s t
  frame : flightFrame t = flightFrame x.s
  blocks : ∀ b', b' ≠ x.blk → t.block? b' = x.s.block? b'
  block : ∃ k', t.block? x.blk = some k' ∧
    { k' with groups := x.k.groups, issued := x.k.issued, missing := x.k.missing } = x.k
  groups : ∀ g', g' ≠ x.grp → t.group? x.blk g' = x.s.group? x.blk g'
  group : ∃ y, t.group? x.blk x.grp = some y ∧ { y with threads := (fg x.gr).threads } = fg x.gr
  active : ∀ l ∈ x.act, t.thread? x.blk x.grp l = (x.s.thread? x.blk x.grp l).map (fun u => fl l (issuedThread x.hints u))
  passive : ∀ l ∈ x.lanes, l ∉ x.act →
    t.thread? x.blk x.grp l = (x.s.thread? x.blk x.grp l).map (fun u => (issuedThread x.hints u).next)
  others : ∀ l, l ∉ x.lanes → t.thread? x.blk x.grp l = x.s.thread? x.blk x.grp l

/-- A memory instruction of a bundle can issue: orders 1 to 4 of R72 find nothing, its core does not sweep its lane page
registers (R154), and no cell is upset that a walk of the tables would meet (R166). -/
structure CanAccess (x : Site) (fm : Form) : Prop where
  issues : x.Issues
  clear : Clear fm x.k x.gr x.act x.hints
  awake : (x.s.core x.k.stack x.k.core).sweepTo ≤ x.s.now x.k.stack x.k.core
  calm : x.s.upsets = []

/-- The state without the record of what happens before what (R222). -/
def unordered (s : State) : State := { s with order := Order.start }

/-- Only block b has changed, besides slice counters, the stacks' caches and traces, the counter of free values, and what
is recorded to happen before what. -/
structure OneBlock (s t : State) (b : Nat) : Prop where
  bytes : SameBytes s t
  frame : flightFrame (unordered t) = flightFrame (unordered s)
  accesses : t.accesses = s.accesses
  blocks : ∀ b', b' ≠ b → t.block? b' = s.block? b'

/-! The invariant of memory. -/

/-- Device physical memory is in its canonical form, and so is every scratchpad and every surface's bytes. -/
structure MemInv (s : State) : Prop where
  mem : s.mem.wf = true
  scratch : ∀ k ∈ s.blocks, k.scratch.wf = true
  surfaces : ∀ p ∈ s.parts, ∀ e ∈ p.srfs, e.bytes.wf = true

end Sys2Proof.Machine
end

