-- ==== Sys2Proof/Certificates/Slice0/Obligations.lean ====
section
/-!
DEFINITION. The statements for the provers, each with the rule of spec/ it formalises, and the terms they share.
-/

open Sys2Proof Sys2Proof.Machine

namespace Sys2Proof.Claims

/-- The value of an immediate of format D: 20 bits, or 42 bits under hint.imm (R52). -/
def immD (hs : List Hint) (i : BitVec 20) : Int :=
  match hintImm? hs with
  | none => i.toInt
  | some p => (p ++ i).toInt

/-- The value of an immediate of format C: 11 bits, or 33 bits under hint.imm (R52). -/
def immC (hs : List Hint) (i : BitVec 11) : Int :=
  match hintImm? hs with
  | none => i.toInt
  | some p => (p ++ i).toInt

/-- The target of a displacement in words from the word's address (R53, R96): modulo 2^56, bits [1:0] taken as 0. -/
def target (pc : Addr) (disp : Int) : Addr := BitVec.ofInt 56 ((pc.toNat + 4 * disp) / 4 * 4)

/-- The address in a register pair, odd register ∥ even register, reduced (R96, R98). -/
def pairTarget (rs : List Reg) : Addr :=
  BitVec.ofNat 56 (((rs.getD 1 Reg.mk0).val.toNat * 2 ^ 32 + (rs.getD 0 Reg.mk0).val.toNat) / 4 * 4)

/-- The return address of a call word in its pair (R98). -/
def link (pc : Addr) : List Reg :=
  let ra := (pc.toNat + 4) % 2 ^ 56
  [⟨BitVec.ofNat 32 ra, .full⟩, ⟨BitVec.ofNat 32 (ra / 2 ^ 32), .full⟩]

/-- A guard or condition of a sense bit: the bit is 1 with sense 0, 0 with sense 1 (R59, R97). -/
def test (v sense : Bool) : Bool := if sense then !v else v

/-- ⌊si(x) / 2^y⌋, or the sign for a count of 32 or more (R90, R116). -/
def sra (x y : Word) : Word :=
  if 32 ≤ y.toNat then (if x.getLsbD 31 then 0xFFFF_FFFF else 0) else BitVec.ofInt 32 (x.toInt / 2 ^ y.toNat)

def shl (x y : Word) : Word := if 32 ≤ y.toNat then 0 else BitVec.ofNat 32 (x.toNat * 2 ^ y.toNat)

def shr (x y : Word) : Word := if 32 ≤ y.toNat then 0 else BitVec.ofNat 32 (x.toNat / 2 ^ y.toNat)

/-- The lesser or greater of two words, as signed or as unsigned. -/
def pickI (less : Bool) (x y : Word) : Word := if less = decide (x.toInt < y.toInt) ∧ x ≠ y then x else y
def pickN (less : Bool) (x y : Word) : Word := if less = decide (x.toNat < y.toNat) ∧ x ≠ y then x else y

def rotl (x : Word) (n : Nat) : Word := BitVec.ofNat 32 (x.toNat * 2 ^ n + x.toNat / 2 ^ (32 - n))

/-- A register that is poisoned holds 0; otherwise the value, full (R90, R115). -/
def result (srcs : List Reg) (v : Word) : List Reg :=
  if srcs.any (fun r => r.st == .poisoned) then [⟨0, .poisoned⟩] else [⟨v, .full⟩]

/-- The same of a pair, low word first (R91, R121 to R123). -/
def result2 (srcs : List Reg) (v : Nat) : List Reg :=
  if srcs.any (fun r => r.st == .poisoned) then [⟨0, .poisoned⟩, ⟨0, .poisoned⟩]
  else [⟨BitVec.ofNat 32 v, .full⟩, ⟨BitVec.ofNat 32 (v / 2 ^ 32), .full⟩]

/-- The number in a pair of registers, the first lowest. -/
def pairNat (rs : List Reg) : Nat := (rs.getD 1 Reg.mk0).val.toNat * 2 ^ 32 + (rs.getD 0 Reg.mk0).val.toNat

/-- The condition of R65 between two integers given as signed and as unsigned. -/
def holds (c : ICond) (xi yi : Int) (xn yn : Nat) : Bool :=
  match c with
  | .eq => decide (xn = yn)
  | .ne => decide (xn ≠ yn)
  | .ltI => decide (xi < yi)
  | .leI => decide (xi ≤ yi)
  | .gtI => decide (yi < xi)
  | .geI => decide (yi ≤ xi)
  | .ltN => decide (xn < yn)
  | .leN => decide (xn ≤ yn)
  | .gtN => decide (yn < xn)
  | .geN => decide (yn ≤ xn)

/-- A two's-complement number of 64 bits. -/
def signed64 (n : Nat) : Int := if n < 2 ^ 63 then n else (n : Int) - 2 ^ 64

/-- The word of format A with one-register or pair operands d, a and b (R47, R48): bit sb is 1 where b is uniform, and the
check bits of a and b stand at 2 and 1. -/
def wordA (major fn : Nat) (d : Fld) (a : Src) (sb : Bool) (b : Src) : Word :=
  BitVec.ofNat 32 (major * 2 ^ 26 + d.toNat * 2 ^ 20 + a.f.toNat * 2 ^ 14 + b.f.toNat * 2 ^ 8 + fn * 2 ^ 4 +
    (if sb then 8 else 0) + (if a.chk then 4 else 0) + (if b.chk then 2 else 0))

/-- The same where field b may be either. -/
def wordAB (major fn : Nat) (d : Fld) (a : Src) (b : SrcB) : Word :=
  match b with
  | .vec r => wordA major fn d a false r
  | .uni r => wordA major fn d a true r

/-- The 32-bit binary operations of R90. -/
def uniformOps (d : Fld) (a b : Src) : List (Instr × (Word → Word → Word)) :=
  [ (.saddI32 d a b, fun x y => BitVec.ofNat 32 (x.toNat + y.toNat)),
    (.ssubI32 d a b, fun x y => BitVec.ofInt 32 ((x.toNat : Int) - y.toNat)),
    (.smulI32 d a b, fun x y => BitVec.ofNat 32 (x.toNat * y.toNat)),
    (.sandB32 d a b, fun x y => x &&& y),
    (.sorB32 d a b, fun x y => x ||| y),
    (.sxorB32 d a b, fun x y => x ^^^ y),
    (.sshlB32 d a b, shl),
    (.sshrN32 d a b, shr),
    (.ssraI32 d a b, sra),
    (.sminI32 d a b, pickI true),
    (.sminN32 d a b, pickN true),
    (.smaxI32 d a b, pickI false),
    (.smaxN32 d a b, pickN false) ]

/-- The 32-bit forms of R90 with an immediate. -/
def uniformImmOps (d : Fld) (a : Src) (i : BitVec 11) : List (Instr × (Word → Word → Word)) :=
  [ (.saddI32Imm d a i, fun x y => BitVec.ofNat 32 (x.toNat + y.toNat)),
    (.sandB32Imm d a i, fun x y => x &&& y),
    (.sorB32Imm d a i, fun x y => x ||| y),
    (.sxorB32Imm d a i, fun x y => x ^^^ y) ]

/-- The binary operations of R116 and R119 that accept no modifier. -/
def vectorOps (d : Fld) (a : Src) (b : SrcB) : List (Instr × (Word → Word → Word)) :=
  [ (.mulI32 d a b, fun x y => BitVec.ofNat 32 (x.toNat * y.toNat)),
    (.mulhiI32 d a b, fun x y => BitVec.ofInt 32 (x.toInt * y.toInt / 2 ^ 32)),
    (.mulhiN32 d a b, fun x y => BitVec.ofNat 32 (x.toNat * y.toNat / 2 ^ 32)),
    (.andB32 d a b, fun x y => x &&& y),
    (.orB32 d a b, fun x y => x ||| y),
    (.xorB32 d a b, fun x y => x ^^^ y),
    (.shlB32 d a b, shl),
    (.shrN32 d a b, shr),
    (.sraI32 d a b, sra),
    (.rotlB32 d a b, fun x y => rotl x (y.toNat % 32)),
    (.rotrB32 d a b, fun x y => rotl x ((32 - y.toNat % 32) % 32)),
    (.minI32 d a b, pickI true),
    (.maxI32 d a b, pickI false),
    (.minN32 d a b, pickN true),
    (.maxN32 d a b, pickN false) ]

/-- The field of length l at position p of an integer (R119). -/
def field (signed : Bool) (x y : Word) : Word :=
  let p := y.toNat % 256
  let l := min (y.toNat / 256 % 256) 32
  let w : Int := if signed then x.toInt else x.toNat
  let f := w / 2 ^ p % 2 ^ l
  BitVec.ofInt 32 (if signed ∧ 0 < l ∧ 2 ^ l ≤ 2 * f then f - 2 ^ l else f)

/-- Insert the low l bits of x into v at position p (R120). -/
def insert (v x y : Word) : Word :=
  let p := y.toNat % 256
  let l := min (y.toNat / 256 % 256) 32
  let m := (2 ^ l - 1) * 2 ^ p % 2 ^ 32
  BitVec.ofNat 32 ((v.toNat &&& (2 ^ 32 - 1 - m)) + (x.toNat * 2 ^ p % 2 ^ 32 &&& m))

/-- The unary operations of R118. -/
def unaryOps (d : Fld) (a : Src) : List (Instr × (Word → Word)) :=
  [ (.absI32 d a, fun x => BitVec.ofNat 32 x.toInt.natAbs),
    (.negI32 d a, fun x => BitVec.ofInt 32 (-x.toInt)),
    (.clzB32 d a, fun x => BitVec.ofNat 32 (((List.range 33).filter (fun n => decide (x.toNat < 2 ^ (32 - n)))).length - 1)),
    (.popcB32 d a, fun x => BitVec.ofNat 32 ((List.range 32).map (fun i => x.toNat / 2 ^ i % 2)).sum),
    (.brevB32 d a, fun x => BitVec.ofNat 32 ((List.range 32).map (fun i => x.toNat / 2 ^ (31 - i) % 2 * 2 ^ i)).sum),
    (.movB32 d a, fun x => x),
    (.notB32 d a, fun x => BitVec.ofNat 32 (2 ^ 32 - 1 - x.toNat)) ]

/-- Σ 2^j over the lanes of a list (R95, R131, R133). -/
def mask (ls : List Nat) : Word := BitVec.ofNat 32 ((List.range 32).map (fun j => if j ∈ ls then 2 ^ j else 0)).sum

/-- op of R136 over the registers of several lanes, the first given lane first. -/
def acrossLanes (o : RedOp) (rs : List Reg) : Reg :=
  if rs.any (fun r => r.st == .poisoned) then ⟨0, .poisoned⟩
  else
    let f : Word → Word → Word := match o with
      | .addI32 => fun x y => BitVec.ofNat 32 (x.toNat + y.toNat)
      | .minI32 => pickI true
      | .maxI32 => pickI false
      | .minN32 => pickN true
      | .maxN32 => pickN false
      | .andB32 => fun x y => x &&& y
      | .orB32 => fun x y => x ||| y
      | .xorB32 => fun x y => x ^^^ y
    match rs.map (·.val) with
    | [] => ⟨0, .full⟩
    | v :: vs => ⟨vs.foldl f v, .full⟩

/-- The grid dimensions of a bundle's block: words 2 to 4 of its launch record, each plus one (R421); 1 in a trap
group (R459). -/
def grid (x : Site) : Nat × Nat × Nat :=
  match x.k.launch.bind (fun n => x.s.launches[n]?) with
  | none => (1, 1, 1)
  | some l => ((l.words.getD 2 0).toNat + 1, (l.words.getD 3 0).toNat + 1, (l.words.getD 4 0).toNat + 1)

/-! Memory. -/

/-- The offset of a memory form of w bytes: the field times w, or a signed 28-bit value times w under hint.imm (R52). -/
def offset (hs : List Hint) (i : BitVec 6) (w : Nat) : Int :=
  match hintImm? hs with
  | none => i.toNat * w
  | some p => (p ++ i).toInt * w

/-- The address of an access in global space: the pair's 56 bits plus the offset, modulo 2^56 (R140). -/
def addressOf (hs : List Hint) (i : BitVec 6) (w : Nat) (rs : List Reg) : Addr := BitVec.ofInt 56 (pairNat rs + offset hs i w)

/-- The offset of an access in scratchpad or constant space: the register plus the offset, modulo 2^32 (R162, R165). -/
def offsetOf (hs : List Hint) (i : BitVec 6) (w : Nat) (r : Reg) : Nat := (((r.val.toNat : Int) + offset hs i w) % 2 ^ 32).toNat

/-- No register of a list is poisoned. -/
def Clean (rs : List Reg) : Prop := ∀ r ∈ rs, r.st ≠ .poisoned

/-- The number of 1, 2, 4, 8 or 16 bytes that registers hold, the first lowest. -/
def number : List Reg → Nat
  | [] => 0
  | r :: rs => r.val.toNat + 2 ^ 32 * number rs

/-- What a load's bytes give its registers (R173): n is the number that the bytes spell. -/
def loaded (w : LdW) (n : Nat) : List Reg :=
  match w with
  | .n8 | .n16 | .b32 => [⟨BitVec.ofNat 32 n, .full⟩]
  | .i8 => [⟨BitVec.ofInt 32 (if n < 2 ^ 7 then n else (n : Int) - 2 ^ 8), .full⟩]
  | .i16 => [⟨BitVec.ofInt 32 (if n < 2 ^ 15 then n else (n : Int) - 2 ^ 16), .full⟩]
  | .b64 => (List.range 2).map (fun j => ⟨BitVec.ofNat 32 (n / 2 ^ (32 * j)), .full⟩)
  | .b128 => (List.range 4).map (fun j => ⟨BitVec.ofNat 32 (n / 2 ^ (32 * j)), .full⟩)

/-- A two's-complement number of w bits. -/
def signedN (w n : Nat) : Int := if 2 * n < 2 ^ w then n else (n : Int) - 2 ^ w

/-- The integer atomics of R227: the new value from the old value o, the operand y and the comparand c, of w bits. -/
def atomInt (op : AtomOp) (w o y c : Nat) : Option Nat :=
  match op with
  | .add => some ((o + y) % 2 ^ w)
  | .minI => some (if signedN w o ≤ signedN w y then o else y)
  | .maxI => some (if signedN w y ≤ signedN w o then o else y)
  | .minN => some (if o ≤ y then o else y)
  | .maxN => some (if y ≤ o then o else y)
  | .and_ => some (o &&& y)
  | .or_ => some (o ||| y)
  | .xor_ => some (o ^^^ y)
  | .xchg => some y
  | .cas => some (if o = c then y else o)
  | _ => none

/-- The atomics that return the old value, with the operation, the width, and the registers of a, b and d. -/
def atoms (w64 : Bool) (d : Fld) (a b : Src) (o : AtOrd) : List (Instr × AtomOp × Bool) :=
  [ (.atomAdd w64 d a b o, .add, w64), (.atomMin w64 d a b o, .minI, w64), (.atomMax w64 d a b o, .maxI, w64),
    (.atomAnd w64 d a b o, .and_, w64), (.atomOr w64 d a b o, .or_, w64), (.atomXor w64 d a b o, .xor_, w64),
    (.atomXchg w64 d a b o, .xchg, w64), (.atomCas w64 d a b o, .cas, w64), (.atomMinN32 d a b o, .minN, false),
    (.atomMaxN32 d a b o, .maxN, false), (.atomMinN64 d a b o, .minN, true), (.atomMaxN64 d a b o, .maxN, true),
    (.atomAddF32 d a b o, .addF32, false), (.atomAddF16x2 d a b o, .addF16x2, false),
    (.atomAddBf16x2 d a b o, .addBf16x2, false), (.atomAddF64 d a b o, .addF64, true) ]

/-- The atomics that return nothing (R228). -/
def atomreds (a b : Src) (o : RedOrd) : List (Instr × AtomOp × Bool) :=
  [ (.atomredAddI32 a b o, .add, false), (.atomredMinI32 a b o, .minI, false), (.atomredMaxI32 a b o, .maxI, false),
    (.atomredAndB32 a b o, .and_, false), (.atomredOrB32 a b o, .or_, false), (.atomredXorB32 a b o, .xor_, false),
    (.atomredAddF32 a b o, .addF32, false), (.atomredAddI64 a b o, .add, true) ]

/-- Registers of one operand, and of field b. -/
def width (w64 : Bool) : Nat := if w64 then 2 else 1
def operands (op : AtomOp) (w64 : Bool) : Nat := if op = .cas then 2 * width w64 else width w64

/-- The operand and the comparand in the registers of field b: cas names the comparand first (R227). -/
def operandOf (op : AtomOp) (w64 : Bool) (rs : List Reg) : Nat :=
  number (if op = .cas then rs.drop (width w64) else rs)
def comparandOf (op : AtomOp) (w64 : Bool) (rs : List Reg) : Nat :=
  if op = .cas then number (rs.take (width w64)) else 0

/-- The bytes that an access in flight names, each with its place in the access. -/
def bytesNamed (e : Access) : List (Nat × Space × Nat) :=
  (e.present ++ e.later).flatMap (fun x =>
    (List.range x.piece.len).map (fun j => (x.off + j, x.piece.space, x.piece.addr + j)))

/-- The access is in flight to n bytes of a space, f j its byte j; where whole holds they are performed together (R151). -/
structure FliesTo (e : Access) (sp : Space) (n : Nat) (f : Nat → Nat) (whole : Prop) : Prop where
  bytes : bytesNamed e = (List.range n).map (fun j => (j, sp, f j))
  one : whole → e.pieces = [⟨sp, f 0, n⟩] ∧ e.later = []

/-- An access of n bytes at an address of one page, whose physical address is pa, is single-copy atomic (R151). -/
def Atomic (va : Addr) (pa n : Nat) : Prop := va.toNat % n = 0 ∧ (n = 16 → region? pa ≠ some .host)

/-- The access is in flight to n bytes of the block's scratchpad from offset o, which wrap at the end of the reserve (R162). -/
def AtOffset (x : Site) (e : Access) (o n : Nat) : Prop :=
  FliesTo e (.scratch x.blk) n (fun j => (o + j) % x.k.scratchSize) (o % n = 0 ∧ o % x.k.scratchSize + n ≤ x.k.scratchSize)

/-- Every part of an access has a class: volatile, acquire, release, and performed once (R147, R148). -/
def Classed (e : Access) (vol acq rel once : Bool) : Prop :=
  ∀ x ∈ e.present ++ e.later, x.eff.vol = vol ∧ x.eff.acq = acq ∧ x.eff.rel = rel ∧ x.eff.once = once

/-- The writes whose older bytes may still be read are among those counted. -/
def Numbered (s : State) : Prop := ∀ e ∈ s.order.past, e.id ≤ s.order.writes

/-- A part of memory whose bytes can be read now, the last part of its access: no granule of it is poisoned or upset, its
stack can reach it, the link to it does not stall, and the order of R148 lets the access be performed. -/
structure Reachable (s : State) (k : Block) (a : Access) (pa n : Nat) : Prop where
  pieces : a.pieces = [⟨.mem, pa, n⟩]
  last : a.later = [] ∧ a.off = 0 ∧ a.got = []
  flows : peerWaits s k.stack a.pieces = false
  now : mayPerform s a = true
  clean : s.poisoned ⟨.mem, pa, n⟩ = false
  upset : s.upsets = []
  near : s.unreachablePA pa k.stack = false

/-- The access is the one in flight with its number, and its block and thread exist. -/
structure InFlight (s : State) (a : Access) (k : Block) (g l : Nat) : Prop where
  found : s.accesses.find? (fun b => b.id == a.id) = some a
  block : s.block? a.blk = some k
  thread : k.find a.tid = some (g, l)

/-! Floats. -/

/-- The bits of the elements in a run of registers (R187): words, pairs, or halves with element 0 lowest. -/
def elements (t : FTy) (rs : List Reg) : List Nat :=
  match t with
  | .f32 => rs.map (fun r => r.val.toNat)
  | .f64 => (List.range (rs.length / 2)).map (fun i =>
      (rs.getD (2 * i + 1) Reg.mk0).val.toNat * 2 ^ 32 + (rs.getD (2 * i) Reg.mk0).val.toNat)
  | .f16 | .bf16 => rs.flatMap (fun r => [r.val.toNat % 2 ^ 16, r.val.toNat / 2 ^ 16])

/-- Registers that hold elements (R187), full. -/
def ofElements (t : FTy) (es : List Nat) : List Reg :=
  match t with
  | .f32 => es.map (fun e => ⟨BitVec.ofNat 32 e, .full⟩)
  | .f64 => es.flatMap (fun e => [⟨BitVec.ofNat 32 e, .full⟩, ⟨BitVec.ofNat 32 (e / 2 ^ 32), .full⟩])
  | .f16 | .bf16 => [⟨BitVec.ofNat 32 (es.getD 0 0 + 2 ^ 16 * es.getD 1 0), .full⟩]

/-- The rounding mode of arithmetic in k.fmode: to nearest even where the field is 0, stochastic or reserved (R189, R193). -/
def rounding (w : Word) : Mode :=
  if w.toNat % 8 = 1 then .tz else if w.toNat % 8 = 2 then .up else if w.toNat % 8 = 3 then .dn else .ne

/-- An element with its sign bit inverted where a modifier asks for it (R199). -/
def inverted (t : FTy) (b : Bool) (n : Nat) : Nat := if b then n ^^^ 2 ^ (fmtWidth (ftyFmt t) - 1) else n

/-- sat clamps a result after rounding (R199). -/
def clamped (t : FTy) (b : Bool) (r : Nat × Word) : Nat × Word := if b then (clampF (ftyFmt t) r.1, r.2) else r

/-- What a form of R198 to R205 makes of the elements of its sources, which are read under fzin (bit 3 of k.fmode) and
written under fzout (bit 4): results with their flags. -/
structure FloatForm where
  instr : Instr
  form : Form
  srcs : Site → Thread → List Reg
  regs : Nat
  out : FTy
  res : Site → Thread → List (Nat × Word)

def sources (x : Site) (a : Src) (b : SrcB) (n m : Nat) (u : Thread) : List Reg := x.gr.vregsAt u a.f n ++ x.gr.bRegs u b m

def floatForms (t : FTy) (d : Fld) (a b : Src) (c : Fld) (v : SrcB) : List FloatForm :=
  let f := ftyFmt t
  let n := t.regs
  let rd (u : Thread) (e : Nat) : FV := readF f (u.fmode.getLsbD 3) e
  let zo (u : Thread) : Bool := u.fmode.getLsbD 4
  let xs (x : Site) (u : Thread) : List Nat := (elements t (x.gr.vregsAt u a.f n)).map (inverted t (hintMods x.hints).nega)
  let ys (x : Site) (u : Thread) : List Nat := (elements t (x.gr.bRegs u v n)).map (inverted t (hintMods x.hints).negb)
  let two (sum : Thread → Nat → Nat → Nat × Word) (x : Site) (u : Thread) : List (Nat × Word) :=
    ((xs x u).zip (ys x u)).map (fun p => clamped t (hintMods x.hints).sat (sum u p.1 p.2))
  let pick (big : Bool) (x : Site) (u : Thread) : List (Nat × Word) :=
    ((xs x u).zip (ys x u)).map (fun p => (pickF f big (u.fmode.getLsbD 3) (zo u) p.1 p.2, 0))
  let dot (four : Bool) (x : Site) (u : Thread) : List (Nat × Word) :=
    let n4 := dotSrcRegs t four
    let as := (elements t (x.gr.vregsAt u a.f n4)).map (fun e => rd u (inverted t (hintMods x.hints).nega e))
    let bs := (elements t (x.gr.bRegs u v n4)).map (fun e => rd u (inverted t (hintMods x.hints).negb e))
    [clamped (dotOut t) (hintMods x.hints).sat
      (sumOfProducts (ftyFmt (dotOut t)) (zo u) (rounding u.fmode) (as.zip bs) [])]
  let full2 : Accepts → Form := fun acc => ⟨[vDst d n, vSrc 1 a n, bSrc v n], acc, .any⟩
  [ ⟨.floatAdd t d a v, full2 ⟨false, true, true, false, false, false⟩, fun x u => sources x a v n n u, n, t,
      two (fun u x y => sumOfProducts f (zo u) (rounding u.fmode) [] [rd u x, rd u y])⟩,
    ⟨.floatSub t d a v, full2 ⟨false, true, true, false, false, false⟩, fun x u => sources x a v n n u, n, t,
      two (fun u x y => sumOfProducts f (zo u) (rounding u.fmode) [] [rd u x, (rd u y).flip])⟩,
    ⟨.floatMul t d a v, full2 ⟨false, true, true, false, false, false⟩, fun x u => sources x a v n n u, n, t,
      two (fun u x y => sumOfProducts f (zo u) (rounding u.fmode) [(rd u x, rd u y)] [])⟩,
    ⟨.floatMin t d a v, full2 ⟨false, false, true, false, false, false⟩, fun x u => sources x a v n n u, n, t, pick false⟩,
    ⟨.floatMax t d a v, full2 ⟨false, false, true, false, false, false⟩, fun x u => sources x a v n n u, n, t, pick true⟩,
    ⟨.dot2 t d a v, ⟨[vDst d (dotOut t).regs, vSrc 1 a (dotSrcRegs t false), bSrc v (dotSrcRegs t false)],
        ⟨false, true, true, false, false, false⟩, .any⟩,
      fun x u => sources x a v (dotSrcRegs t false) (dotSrcRegs t false) u, (dotOut t).regs, dotOut t, dot false⟩,
    ⟨.dot4 t d a v, ⟨[vDst d (dotOut t).regs, vSrc 1 a (dotSrcRegs t true), bSrc v (dotSrcRegs t true)],
        ⟨false, true, true, false, false, false⟩, .any⟩,
      fun x u => sources x a v (dotSrcRegs t true) (dotSrcRegs t true) u, (dotOut t).regs, dotOut t, dot true⟩,
    ⟨.fma t d a b c, ⟨[vDst d n, vSrc 1 a n, vSrc 2 b n, vRead 3 c n], ⟨false, true, true, true, false, false⟩, .any⟩,
      fun x u => x.gr.vregsAt u a.f n ++ x.gr.vregsAt u b.f n ++ x.gr.vregsAt u c n, n, t,
      fun x u =>
        let m := hintMods x.hints
        let el (g : Fld) (neg : Bool) : List FV := (elements t (x.gr.vregsAt u g n)).map (fun e => rd u (inverted t neg e))
        (((el a.f m.nega).zip (el b.f m.negb)).zip (el c m.negc)).map (fun p =>
          clamped t m.sat (sumOfProducts f (zo u) (rounding u.fmode) [p.1] [p.2]))⟩ ]

/-- The functions of one operand (R205). -/
def floatFunctions (d : Fld) (a : Src) : List (Instr × FTy × (Fmt → Bool → Bool → Nat → Nat × Word)) :=
  [ (.rcpF32 d a, .f32, rcpF), (.rsqrtF32 d a, .f32, rsqrtF), (.sqrtF32 d a, .f32, sqrtF),
    (.exp2F32 d a, .f32, specialF .exp2), (.log2F32 d a, .f32, specialF .log2), (.sinF32 d a, .f32, specialF .sin),
    (.cosF32 d a, .f32, specialF .cos), (.tanhF32 d a, .f32, specialF .tanh), (.rcpF64 d a, .f64, rcpF),
    (.rsqrtF64 d a, .f64, rsqrtF), (.sqrtF64 d a, .f64, sqrtF), (.exp2F16x2 d a, .f16, specialF .exp2),
    (.tanhF16x2 d a, .f16, specialF .tanh), (.tanhBf16x2 d a, .bf16, specialF .tanh) ]

/-- The thread after results with flags, or with poison where a source is poisoned (R115, R191). -/
def floatThread (x : Site) (d : Fld) (n : Nat) (out : FTy) (srcs : List Reg) (rs : List (Nat × Word)) (u : Thread) : Thread :=
  if srcs.any (fun r => r.st == .poisoned) then (u.setRegs (x.gr.vi d) (List.replicate n ⟨0, .poisoned⟩)).next
  else
    let v := u.setRegs (x.gr.vi d) (ofElements out (rs.map (·.1)))
    Thread.next { v with fmode := u.fmode ||| rs.foldl (fun m r => m ||| r.2) 0 }

/-- The rounding of a conversion and the generator after it: a stochastic one draws (R193, R195). -/
def conversion (r : Rnd) (u : Thread) : Mode × DWord :=
  let stochastic : Mode × DWord := (.sr (drawG u.gen).2.toNat, (drawG u.gen).1)
  match r with
  | .ne => (.ne, u.gen)
  | .tz => (.tz, u.gen)
  | .up => (.up, u.gen)
  | .dn => (.dn, u.gen)
  | .sr => stochastic
  | .mode => if u.fmode.toNat % 8 = 4 then stochastic else (rounding u.fmode, u.gen)

/-- The registers of a value of n registers, and the thread after a conversion. -/
def inRegs (n v : Nat) : List Reg :=
  if n = 2 then [⟨BitVec.ofNat 32 v, .full⟩, ⟨BitVec.ofNat 32 (v / 2 ^ 32), .full⟩] else [⟨BitVec.ofNat 32 v, .full⟩]

def convThread (x : Site) (d : Fld) (n : Nat) (r : Rnd) (srcs : List Reg) (res : Mode → List Reg × Word) (u : Thread) : Thread :=
  if srcs.any (fun r => r.st == .poisoned) then (u.setRegs (x.gr.vi d) (List.replicate n ⟨0, .poisoned⟩)).next
  else
    let v := u.setRegs (x.gr.vi d) (res (conversion r u).1).1
    Thread.next { v with fmode := u.fmode ||| (res (conversion r u).1).2, gen := (conversion r u).2 }

/-! Synchronisation. -/

/-- A bundle of one active lane l, which passes orders 1 to 4 of R72. -/
structure Alone (x : Site) (fm : Form) (l : Nat) : Prop where
  issues : x.Issues
  clear : Clear fm x.k x.gr x.act x.hints
  one : x.act = [l]

/-- The accesses of a thread of the bundle's block that are in flight and that satisfy p, those that its bundle performs once
for several threads among them. -/
def pending (x : Site) (l : Nat) (p : Access → Bool) : List Access :=
  x.s.accesses.filter (fun a => a.blk == x.blk && (a.tid :: a.mates).contains (x.gr.thread l).tid && p a)

/-- What a release of a thread waits for: its accesses in flight, and those that its accesses follow (R236). -/
def held (x : Site) (l : Nat) : List Nat := (pending x l (fun _ => true)).map (·.id) ++ behindOf x.s x.blk (x.gr.thread l).tid

/-- Access i is in flight. -/
def Flies (s : State) (i : Nat) : Prop := ∃ e ∈ s.accesses, e.id = i

/-- Accesses without the note that a load which waits for its page keeps of those that pass it (R218; entry 95). -/
def unpassed (as : List Access) : List Access := as.map (fun e => { e with passed := [] })

/-- The value that gate.fold leaves of a barrier's contributions with one more (R235): poisoned where one is, or where the
operations differ. -/
def folded (gt : Gate) (op : FoldOp) (r : Reg) : Reg :=
  if gt.poison ∨ r.st = .poisoned ∨ (∃ o, gt.op = some o ∧ o ≠ op) then ⟨0, .poisoned⟩
  else match gt.op, op with
    | none, _ => ⟨r.val, .full⟩
    | some _, .addI32 => ⟨BitVec.ofNat 32 (gt.acc.toNat + r.val.toNat), .full⟩
    | some _, .andB32 => ⟨gt.acc &&& r.val, .full⟩
    | some _, .orB32 => ⟨gt.acc ||| r.val, .full⟩
    | some _, .maxI32 => ⟨pickI false gt.acc r.val, .full⟩

/-- Lane l arrives at barrier n while another thread of its block still has to. -/
structure Arrives (x : Site) (fm : Form) (l n : Nat) (gt : Gate) : Prop where
  alone : Alone x fm l
  gate : x.k.gates[n]? = some gt
  first : (x.gr.thread l).gatePending.getLsbD n = false
  more : ∃ u ∈ x.k.allThreads, u.live = true ∧ u.tid ≠ (x.gr.thread l).tid ∧ u.tid ∉ gt.arrived

/-- Lane l is the last to arrive at barrier n: every other thread of its block has, or has exited. -/
structure ArrivesLast (x : Site) (fm : Form) (l n : Nat) (gt : Gate) : Prop where
  alone : Alone x fm l
  gate : x.k.gates[n]? = some gt
  first : (x.gr.thread l).gatePending.getLsbD n = false
  rest : ∀ u ∈ x.k.allThreads, u.live = true → u.tid = (x.gr.thread l).tid ∨ u.tid ∈ gt.arrived

/-- A phase has completed at barrier n: its bit is toggled, no arrival stands, and the waiting threads go on; their later
accesses follow those in flight at the arrivals (R232, R236). -/
structure PhaseOver (x : Site) (t : State) (n : Nat) (gt : Gate) : Prop where
  one : OneBlock x.s t x.blk
  gate : ∃ k h, t.block? x.blk = some k ∧ k.gates[n]? = some h ∧ h.phase = !gt.phase ∧ h.arrived = [] ∧ h.op = none ∧
    h.acc = 0 ∧ h.poison = false
  waits : ∀ g l u, (g ≠ x.grp ∨ l ∉ x.lanes) → x.s.thread? x.blk g l = some u → u.run = .blocked (.gate n true) →
    ∃ v, t.thread? x.blk g l = some v ∧ v.run = .ready ∧ v.pc = u.pc + 4 ∧ v.regs = u.regs ∧ v.gatePending.getLsbD n = false ∧
      ∀ i ∈ gt.before, Flies x.s i → i ∈ v.behind

/-- Where a semaphore of this module lies: an aligned address of a readable pair, outside the fabric window, that
translates (R242). -/
structure SemAt (x : Site) (a : Src) (use : Use) (va : Addr) (tr : Trans) : Prop where
  addr : va = BitVec.ofNat 56 (pairNat (x.gr.sregsAt a.f 2))
  clean : Clean (x.gr.sregsAt a.f 2)
  aligned : va.toNat % 8 = 0
  local_ : inWindow va = false
  page : outcome (coreLookup x.s x.k.stack x.k.core x.k.part va) va use x.k.priv = .ok tr

/-! Words that act on more than registers. -/

/-- What one word of a bundle has done to its own block, its group and its lanes; m masks what else it may change. -/
structure Does (x : Site) (t : State) (m : State → State) (fb : Block → Block) (fg : Group → Group)
    (fl : Nat → Thread → Thread) : Prop where
  frame : m (frameOf t) = m (frameOf x.s)
  blocks : ∀ b', b' ≠ x.blk → t.block? b' = x.s.block? b'
  block : ∃ k', t.block? x.blk = some k' ∧ { k' with groups := x.k.groups, issued := x.k.issued } = fb x.k
  groups : ∀ g', g' ≠ x.grp → t.group? x.blk g' = x.s.group? x.blk g'
  group : ∃ y, t.group? x.blk x.grp = some y ∧ { y with threads := (fg x.gr).threads } = fg x.gr
  active : ∀ l ∈ x.act, t.thread? x.blk x.grp l = (x.s.thread? x.blk x.grp l).map (fun u => fl l (issuedThread x.hints u))
  passive : ∀ l ∈ x.lanes, l ∉ x.act →
    t.thread? x.blk x.grp l = (x.s.thread? x.blk x.grp l).map (fun u => (issuedThread x.hints u).next)
  others : ∀ l, l ∉ x.lanes → t.thread? x.blk x.grp l = x.s.thread? x.blk x.grp l

/-- Wherever a bundle for i issues that meets orders 1 to 4 of R72 with some guard true, and pre holds, exec answers a
next state in which the word has done its own effect, the active lanes go on, and post holds. -/
def Uni (i : Instr) (fm : Form) (pre : Site → Prop) (m : State → State) (fb : Site → Block → Block)
    (fg : Site → Group → Group) (post : Site → State → Prop) : Prop :=
  ∀ x : Site, x.Issues → Clear fm x.k x.gr x.act x.hints → x.act ≠ [] → pre x →
    ∃ t, exec i x.s = .next t ∧ Does x t m (fb x) (fg x) (fun _ u => u.next) ∧ post x t

/-- Every lane of the bundle is ready: none resumes a wait. -/
def Ready (x : Site) : Prop := ∀ l ∈ x.lanes, (x.gr.thread l).run = .ready

/-- One uniform register receives a value. -/
def put (x : Site) (d : Fld) (v : Word) (g : Group) : Group := g.setSregs (x.gr.si d) [⟨v, .full⟩]

/-- One uniform register is empty until a value arrives. -/
def hollow (x : Site) (d : Fld) (g : Group) : Group := { g with sregs := markEmpty g.sregs (x.gr.si d) 1 }

/-- What a word that reads memory, or gives something to another unit, changes besides: the counter of free values, and what
is recorded to happen before what (R222). -/
def afterRead (s : State) : State := { unordered s with moves := 0 }

/-- The words of the registers of uniform field a. -/
def uniWords (x : Site) (a : Src) (n : Nat) : List Word := (x.gr.sregsAt a.f n).map (·.val)


/-- The row numbers of a gather: words of the block's scratchpad from an offset on (R256). -/
def gatherTable (k : Block) (d : CopyDesc) : List Nat :=
  (List.range d.rows).map (fun i => leNat ((List.range 4).map (fun j =>
    k.scratch.get (((d.dword.toNat + 4 * i) % 2 ^ 32 + j) % k.scratchSize))))

/-! Accumulators and the matrix sequencer. -/

/-- The state without the cores of its stacks. -/
def coreless (s : State) : State := { s with stks := s.stks.map (fun k => { k with cores := [] }) }

def core? (s : State) (k c : Nat) : Option Core := (s.stks[k]?).bind (fun x => x.cores[c]?)

/-- A generation count after one more grant (R290). -/
def nextCount (g : BitVec 16) : BitVec 16 := if g = 65535 then 1 else g + 1

/-- The handle of the grant in a slot (R290). -/
def handleOf (slot : Nat) (g : AccGrant) : Word := BitVec.ofNat 32 (g.gen.toNat * 2 ^ 16 + g.banks * 2 ^ 8 + slot)

/-- A word is run by the sequencer of block b. -/
structure Runs (s : State) (b : Nat) (k : Block) (pc : Addr) (w : Word) : Prop where
  cur : s.cur = .seq b pc w
  block : s.block? b = some k

/-- Block b has become k', and nothing else has changed. -/
structure Becomes (s t : State) (b : Nat) (k' : Block) : Prop where
  frame : { t with blocks := s.blocks } = s
  block : t.block? b = some k'
  others : ∀ b', b' ≠ b → t.block? b' = s.block? b'

/-- A run of bytes of a slot in scratchpad (R281, R162). -/
def slotBytes (k : Block) (x : OpSlot) (p : Nat × Nat) : List Byte :=
  (List.range p.2).map (fun j => k.scratch.get (((x.cur.toNat + p.1) % 2 ^ 32 + j) % k.scratchSize))

/-- Scratchpad of a block can be read: no poison, no cell upset, and no older byte that may still be read. -/
def Unspoilt (s : State) (k : Block) : Prop := s.upsets = [] ∧ k.scratchPoison = [] ∧ s.order.past = []

/-- The slots of a level, changed. -/
def level (l : Nat) (f : OpSlot → OpSlot) (q : Sequencer) : List (Option OpSlot) :=
  q.slots.map (fun o => o.map (fun x => if x.level = l then f x else x))

/-- A sequencer that runs no more: both planes and the streams are gone. -/
def stopped (st : SeqState) (q : Sequencer) : Sequencer :=
  { q with state := st, streams := [], wait := .none, live := none, shadow := none }

/-- The core after the block has let go of the array. -/
def without (b : Nat) (c : Core) : Core :=
  { c with array := if c.array = some b then none else c.array, seqQueue := c.seqQueue.filter (· != b) }

/-- A grant without its words at some places, as a row update leaves it. -/
def element (row : ActRow) (f : Nat) (i : Nat) : Int := signedN (elemBits f) (row.elems.getD i (0, none)).1

/-! Surfaces. -/

/-- Words of a descriptor of n bytes that a bundle can read at the address in pair a: aligned, translated, not poisoned,
reachable, and with no earlier access of its threads that it must follow (R330). -/
structure DescAt (x : Site) (a : Src) (n : Nat) (tr : Trans) (ws : List Word) : Prop where
  clean : Clean (x.gr.sregsAt a.f 2)
  aligned : pairNat (x.gr.sregsAt a.f 2) % n = 0
  page : outcome (coreLookup x.s x.k.stack x.k.core x.k.part (BitVec.ofNat 56 (pairNat (x.gr.sregsAt a.f 2))))
    (BitVec.ofNat 56 (pairNat (x.gr.sregsAt a.f 2))) .load x.k.priv = .ok tr
  upset : x.s.upsets = []
  pure_ : x.s.poisoned ⟨.mem, tr.pa (pairNat (x.gr.sregsAt a.f 2) % 2 ^ 56), n⟩ = false
  near : x.s.unreachablePA (tr.pa (pairNat (x.gr.sregsAt a.f 2) % 2 ^ 56)) x.k.stack = false
  past : x.s.order.past = []
  flows : peerWaits x.s x.k.stack [⟨.mem, tr.pa (pairNat (x.gr.sregsAt a.f 2) % 2 ^ 56), n⟩] = false
  first : ∀ l ∈ x.act, behindOf x.s x.blk (x.gr.thread l).tid = [] ∧ ∀ e ∈ pending x l (fun _ => true), e.acqs = false ∧
    e.untold = false ∧ ∀ p ∈ e.spans, p.meets ⟨.mem, tr.pa (pairNat (x.gr.sregsAt a.f 2) % 2 ^ 56), n⟩ = false
  words : ws = (List.range (n / 4)).map (fun i => x.s.memWord (tr.pa (pairNat (x.gr.sregsAt a.f 2) % 2 ^ 56) + 4 * i))

/-- The core does not sweep its lane page registers (R154). -/
def Awake (x : Site) : Prop := (x.s.core x.k.stack x.k.core).sweepTo ≤ x.s.now x.k.stack x.k.core

/-- What reading a descriptor changes besides: translations held, and the counter of free values. -/
def afterDesc (s : State) : State := { coreless s with moves := 0 }

def surfaceless (s : State) : State := { afterDesc s with parts := [] }

/-- Entry i of a partition's surface table. -/
def entry? (s : State) (p i : Nat) : Option SrfEntry := (s.parts[p]?).bind (fun q => q.srfs[i]?)

/-- The surface table of partition p has e at entry i, and nothing else of the partitions has changed. -/
structure EntryIs (s t : State) (p i : Nat) (e : SrfEntry) : Prop where
  entry : entry? t p i = some e
  entries : ∀ j, j ≠ i → entry? t p j = entry? s p j
  parts : ∀ q, q ≠ p → t.parts[q]? = s.parts[q]?
  part : ∀ P, s.parts[p]? = some P → ∃ Q, t.parts[p]? = some Q ∧ { Q with srfs := P.srfs } = P

/-- Word h is the handle of the surface at entry i (R321). -/
structure SrfAt (s : State) (p i : Nat) (h : Word) (e : SrfEntry) : Prop where
  entry : entry? s p i = some e
  small : i < 4096
  kind : e.kind = 1
  alive : e.freeing = false
  handle : h.toNat = e.gen.toNat * 2 ^ 16 + i

/-- Word h is the handle of the view at entry i, whose parent is the surface at entry j (R321). -/
structure ViewAt (s : State) (p i : Nat) (h : Word) (v : SrfEntry) (j : Nat) (e : SrfEntry) : Prop where
  entry : entry? s p i = some v
  small : i < 4096
  kind : v.kind = 2
  parent : v.parent = j ∧ entry? s p j = some e ∧ e.kind = 1 ∧ e.freeing = false ∧ e.gen = v.pgen
  handle : h.toNat = (v.gen.toNat % 15 + 1) * 2 ^ 12 + i

def bit01 (b : Bool) : Nat := if b then 1 else 0

/-- Word n of the entry of a surface, and of a view (R320, R355). -/
def surfaceWord (e : SrfEntry) (n : Nat) : Nat :=
  match n with
  | 0 => 2 ^ 30 + e.home % 4 * 2 ^ 28 + e.tile % 4 * 2 ^ 26 + e.samples % 4 * 2 ^ 24 + e.fmt % 2 ^ 8 * 2 ^ 16 + e.gen.toNat
  | 1 => (e.height - 1) % 2 ^ 16 * 2 ^ 16 + (e.width - 1) % 2 ^ 16
  | 2 => (e.layers - 1) % 2 ^ 11
  | 3 => bit01 e.degraded * 2 ^ 7 + bit01 e.moving * 2 ^ 6 + bit01 e.viewWrite * 2 ^ 5 + bit01 e.viewable * 2 ^ 4 +
      bit01 e.pinned * 2 ^ 3
  | 4 => e.count.getD 0 0 % 2 ^ 12 * 2 ^ 16 + e.first.getD 0 0 % 2 ^ 11
  | 5 => e.count.getD 1 0 % 2 ^ 12 * 2 ^ 16 + e.first.getD 1 0 % 2 ^ 11
  | 6 => e.tiles
  | 7 => (e.tileSt.filter (fun p => p.2 == .resident)).length
  | 8 => e.backing.toNat % 2 ^ 32
  | 9 => e.backing.toNat / 2 ^ 32
  | 12 => e.next % 2 ^ 20
  | 13 => e.floor % 2 ^ 20
  | _ => 0

def viewWord (v : SrfEntry) (n : Nat) : Nat :=
  match n with
  | 0 => 2 ^ 31 + v.fmt % 2 ^ 8 * 2 ^ 16 + v.gen.toNat
  | 10 => bit01 v.write * 2 ^ 20 + v.parent % 2 ^ 12
  | _ => 0

/-- The code of a tile's state (R322). -/
def residency (t : TileState) : Nat :=
  match t with
  | .absent => 0
  | .resident => 1
  | .evicted => 2
  | .fetching | .evicting | .moving => 3

/-- The lowest free entry of a table. -/
structure FreeAt (s : State) (p i : Nat) (e : SrfEntry) : Prop where
  entry : entry? s p i = some e
  kind : e.kind = 0
  lowest : ∀ j e', j < i → entry? s p j = some e' → e'.kind ≠ 0

/-- Bytes of a sample, and the edge of a tile in pixels (R314, R316). -/
def sampleSize (e : SrfEntry) : Nat := if e.fmt = 3 then 8 else 4
def tileEdge (e : SrfEntry) : Nat :=
  match e.tile with
  | 0 => 32
  | 1 => 16
  | _ => 64

/-- Bytes of one row of one tile. -/
def tileRun (e : SrfEntry) : Nat := tileEdge e * 2 ^ e.samples * sampleSize e

/-- Where byte o of a row's raw image stands in the surface: in its tile (R317), and in the tile row by row (entry 29). -/
def rowByte (e : SrfEntry) (layer y o : Nat) : Nat :=
  let up (n : Nat) : Nat := (n + tileEdge e - 1) / tileEdge e
  ((layer * up e.height + y / tileEdge e) * up e.width + o / tileRun e) * (tileEdge e * tileRun e) +
    y % tileEdge e * tileRun e + o % tileRun e

/-- Bytes of a pixel sample: its offset in its row's raw image, and the bytes left in the row (R316, R338). -/
def sampleAt (e : SrfEntry) (x n : Nat) : Nat × Nat :=
  let o := (x * 2 ^ e.samples + n) * sampleSize e
  (o, e.width * 2 ^ e.samples * sampleSize e - o)

/-- The coordinates in a pair of words (R337). -/
def xOf (rs : List Reg) : Nat := (rs.getD 0 Reg.mk0).val.toNat % 2 ^ 16
def yOf (rs : List Reg) : Nat := (rs.getD 0 Reg.mk0).val.toNat / 2 ^ 16
def layerOf (rs : List Reg) : Nat := (rs.getD 1 Reg.mk0).val.toNat % 2 ^ 11
def sampleOf (rs : List Reg) : Nat := (rs.getD 1 Reg.mk0).val.toNat / 2 ^ 11 % 8
def Within (e : SrfEntry) (rs : List Reg) : Prop :=
  xOf rs < e.width ∧ yOf rs < e.height ∧ layerOf rs < e.layers ∧ sampleOf rs < 2 ^ e.samples

/-! Queues, hallmarks and units. -/

def queue? (s : State) (b g q : Nat) : Option Queue := (s.group? b g).bind (fun k => k.queues[q]?)

/-- A group with another queue. -/
def queueSet (q : Nat) (u : Queue) (g : Group) : Group := { g with queues := g.queues.set q u }

/-- What a unit descriptor binds a queue to (R341, R373), where the partition holds these encoder slots. -/
def boundTo (slots : List Nat) (v : Word) : Option Binding :=
  let type := v.toNat / 2 ^ 29
  let inst := v.toNat / 2 ^ 8 % 2 ^ 8
  if v.toNat % 2 ^ 8 = 0 ∧ v.toNat / 2 ^ 16 % 2 ^ 13 = 0 ∧ ((type = 0 ∧ inst < 16) ∨ (type = 3 ∧ inst < 8) ∨
      (type = 4 ∧ inst ∈ slots) ∨ (inst = 255 ∧ (type < 4 ∨ (type = 4 ∧ slots ≠ []))))
  then some ⟨type, inst⟩ else none

/-- What a claim of n registers receives of a return record (R347, R352). -/
def claimed (n : Nat) (ws : List Word) : List Reg :=
  (List.range n).map (fun j =>
    if j = 0 then ⟨ws.getD 0 0, .full⟩
    else if (ws.getD 0 0).getLsbD 31 then ⟨ws.getD 0 0, .poisoned⟩ else ⟨ws.getD j 0, .full⟩)

/-- What a claim receives when its queue is drained (R347, R373). -/
def drained (n : Nat) : List Reg :=
  ⟨BitVec.ofNat 32 (0xD100_00E0 + (n - 1)), .full⟩ :: List.replicate (n - 1) ⟨BitVec.ofNat 32 (0xD100_00E0 + (n - 1)), .poisoned⟩

/-- Hallmark n of the domain of entry i, with those before and after it. -/
structure MarkAt (s : State) (p i n : Nat) (e : SrfEntry) (as : List Mark) (m : Mark) (bs : List Mark) : Prop where
  entry : entry? s p i = some e
  kind : e.kind = 1
  small : i < 4096 ∧ n < 2 ^ 20
  marks : e.marks = as ++ m :: bs
  seq : m.seq = n
  once : (e.marks.map (·.seq)).Nodup

/-- A hallmark that has not ended. -/
def Standing (m : Mark) : Prop := m.state = .drawn ∨ m.state = .registering ∨ m.state = .registered

/-- The domain after hallmark m has retired: the floor passes over it where nothing stands before it (R357, R363). -/
def retiredAt (e : SrfEntry) (as : List Mark) (m : Mark) (bs : List Mark) : SrfEntry :=
  match as with
  | [] => { e with marks := bs, floor := (bs.head?).elim e.next (·.seq), wclock :=
      if (bs.head?).elim e.next (·.seq) = e.floor then e.wclock else 0 }
  | a :: _ => { e with
      marks := as ++ { m with state := .retired, intents := [], draw := m.draw && m.state != .drawn } :: bs
      floor := a.seq
      wclock := if a.seq = e.floor then e.wclock else 0 }

def markWord (i n : Nat) : Word := BitVec.ofNat 32 (i * 2 ^ 20 + n)

/-- The status word of R345. -/
def status (e : Call) (code detail len : Nat) : Word :=
  BitVec.ofNat 32 ((if 16 ≤ code then 2 ^ 31 else 0) + 2 ^ 30 + code * 2 ^ 24 +
    (e.words.getD 0 0).toNat / 2 ^ 10 % 2 ^ 8 * 2 ^ 16 + detail * 2 ^ 8 + e.unitType * 2 ^ 5 + (len - 1))

/-- Call e has been performed, and these return records follow; m masks what else has changed. -/
structure Performed (s t : State) (e : Call) (out : List (List Word)) (m : State → State) : Prop where
  frame : m { t with calls := s.calls } = m s
  calls : t.calls = s.calls.map (fun f => if f.id = e.id then { f with at_ := .performed, out := out } else f)

/-- What the work of a unit changes besides: surfaces, the counter of free values, and what is recorded of the order of its
accesses (R222). -/
def worked (s : State) : State := { unordered s with parts := [], moves := 0 }

/-- Call e of a type and opcode is with its unit. -/
structure WithUnit (s : State) (e : Call) (type op : Nat) : Prop where
  find : s.calls.find? (fun f => f.id == e.id) = some e
  unit : e.unitType = type
  small : type < 8
  op : (e.words.getD 0 0).toNat / 2 ^ 23 % 2 ^ 6 = op
  at_ : e.at_ = .unit

/-! Counters and launches. -/

/-- Counter i of partition p on stack k. -/
def ctrAt (s : State) (p k i : Nat) : Option Counter :=
  ((s.parts[p]?).bind (fun q => q.on[k]?)).bind (fun o => o.counters[i]?)

/-- Counter i of partition p on stack k is y in t, and nothing else of the partitions has changed. -/
structure CounterIs (s t : State) (p k i : Nat) (y : Counter) : Prop where
  counter : ctrAt t p k i = some y
  counters : ∀ k' j, (k' ≠ k ∨ j ≠ i) → ctrAt t p k' j = ctrAt s p k' j
  parts : ∀ q, q ≠ p → t.parts[q]? = s.parts[q]?
  part : ∀ P, s.parts[p]? = some P → ∃ Q, t.parts[p]? = some Q ∧ { Q with on := P.on } = P ∧
    ∀ (k' : Nat) (O : PartStack), P.on[k']? = some O → ∃ O' : PartStack, Q.on[k']? = some O' ∧ { O' with counters := O.counters } = O

/-- Word id names counter i of partition p on stack k, which is in use (R424). -/
structure Names (s : State) (p k i : Nat) (id : Word) (y : Counter) : Prop where
  counter : ctrAt s p k i = some y
  word : id.toNat = y.level.toNat * 2 ^ 30 + k * 2 ^ 29 + y.gen.toNat * 2 ^ 10 + i
  small : k < 2 ∧ i < 1024 ∧ id ≠ 0
  used : y.used = true
  live : (s.part p).live = true
  held : (s.partOn p k).params.columns ≠ []

/-- The state without its partitions. -/
def bare (s : State) : State := { s with parts := [] }

/-- Nothing that a release of the bundle's active threads waits for is in flight. -/
def Settled (x : Site) : Prop := ∀ l ∈ x.act, held x l = []

/-- A value is on its way to uniform register d (R444, R447). -/
def Arriving (x : Site) (t : State) (d : Fld) (r : Reg) : Prop :=
  ∃ e, t.accesses = x.s.accesses ++ [e] ∧ e.blk = x.blk ∧ e.kind = .value [r] ∧ e.dst = some ⟨true, x.grp, 0, x.gr.si d, 1⟩

/-- The frame of a form whose value is on its way. -/
def inFlight (s : State) : State :=
  { afterRead s with
    parts := []
    accesses := [] }

/-- A block that has just become resident for the first time: the seed of each of its generators is its place (R197). -/
def Seeded (k : Block) : Prop :=
  ∀ g ∈ k.groups, g.cluster < 4 ∧ g.slot < 16 ∧ ∀ l u, g.threads[l]? = some u →
    u.gen = BitVec.ofNat 64 (1 + l + 32 * g.slot + 512 * g.cluster + 2048 * k.core + 2 ^ 18 * k.stack)

/-! System registers, traps and their handler. -/

/-- The condition that R452 sets on a system register. -/
def needOf (n : Nat) : Need :=
  if n ∈ [0x013, 0x014, 0x015] then .handler
  else if n ∈ [0x040, 0x041, 0x042, 0x043, 0x044, 0x045, 0x050, 0x051, 0x052, 0x060, 0x120, 0x121] then .priv else .any

def lo (a : Addr) : Nat := a.toNat % 2 ^ 32
def hi (a : Addr) : Nat := a.toNat / 2 ^ 32
def joinAddr (h l : Nat) : Addr := BitVec.ofNat 56 (h % 2 ^ 24 * 2 ^ 32 + l % 2 ^ 32)

/-- The system registers by number, with what they hold for a thread of the site's group (R454, R490). -/
def registers (x : Site) (cx : Ctx) (ps : PartStack) (co : Core) (cl : Cluster) : List (Nat × Nat) :=
  [ (0x000, 2 * bit01 x.k.trapGroup + bit01 x.k.priv), (0x001, x.k.job.toNat), (0x002, if x.k.trapGroup then 0 else x.k.lin % 2 ^ 32),
    (0x005, x.gr.cycleHi.toNat), (0x010, lo cx.tentry), (0x011, hi cx.tentry), (0x012, cx.talloc.toNat), (0x013, cx.tact.toNat),
    (0x014, lo cx.tpc), (0x015, hi cx.tpc), (0x016, cx.park.length + cx.held.length),
    (0x040, ps.bwdog.toNat), (0x041, ps.rwdog.toNat), (0x042, ps.hwdog.toNat), (0x043, lo ps.diag), (0x044, hi ps.diag),
    (0x045, ps.diagLen.toNat), (0x050, lo ps.tlbva), (0x051, hi ps.tlbva), (0x060, cadenceOf x.s x.k.stack x.k.core),
    (0x061, min (x.k.charge.1 / x.k.charge.2 / 256) (2 ^ 32 - 1)), (0x100, lo cx.evw), (0x101, hi cx.evw),
    (0x102, bit01 x.gr.evgrp), (0x104, cl.i.toNat), (0x105, cl.m.toNat), (0x106, cl.c.toNat), (0x107, cl.n.toNat),
    (0x110, (gateOf x.s x.k.stack x.k.core - 1) % 64 * 2 ^ 18 + co.denial % 16 * 2 ^ 12 +
      ((List.range 4).map (fun i => 2 ^ i * bit01 ((co.clusters.getD i Cluster.reset).near &&
        !(groupsOn x.s x.k.stack x.k.core i).isEmpty))).sum * 2 ^ 4 + co.state % 8),
    (0x111, co.pdeny.toNat), (0x120, x.s.capHost % 2 ^ 16 * 2 ^ 16 + x.s.capEff % 2 ^ 16),
    (0x121, ps.params.powerFloor % 2 ^ 16 * 2 ^ 16 + ps.floorEff % 2 ^ 16), (0x130, x.k.snap.seq.toNat),
    (0x131, x.k.snap.cyc.toNat % 2 ^ 32), (0x132, x.k.snap.cyc.toNat / 2 ^ 32), (0x133, x.k.snap.iss.toNat),
    (0x134, x.k.snap.chg.toNat), (0x135, x.k.snap.us.toNat) ] ++
  (List.range 4).flatMap (fun i => let w := cx.wps.getD i ⟨0, 0, 0⟩
    [(0x020 + 4 * i, lo w.base), (0x021 + 4 * i, hi w.base), (0x022 + 4 * i, w.len.toNat), (0x023 + 4 * i, w.ctl.toNat)])

/-- What a write of v to each register of context scope makes of the context (R453, R454, R490). -/
def ctxWrites (priv : Bool) (v : Nat) (cx : Ctx) : List (Nat × Ctx) :=
  [ (0x010, { cx with tentry := joinAddr (hi cx.tentry) (v / 4 * 4), tentryPriv := priv }),
    (0x011, { cx with tentry := joinAddr v (lo cx.tentry) }),
    (0x012, { cx with talloc := BitVec.ofNat 32 (v / 2 ^ 8 % 2 ^ 6 * 2 ^ 8 + v % 2 ^ 5) }),
    (0x013, { cx with tact := if v % 8 < 6 then BitVec.ofNat 3 v else 0 }),
    (0x014, { cx with tpc := joinAddr (hi cx.tpc) (v / 4 * 4) }), (0x015, { cx with tpc := joinAddr v (lo cx.tpc) }),
    (0x100, { cx with evw := joinAddr (hi cx.evw) (v / 4 * 4) }), (0x101, { cx with evw := joinAddr v (lo cx.evw) }) ] ++
  (List.range 4).flatMap (fun i => let w := cx.wps.getD i ⟨0, 0, 0⟩
    let put (u : Watch) : Ctx := { cx with wps := cx.wps.set i u }
    [ (0x020 + 4 * i, put { w with base := joinAddr (hi w.base) v }), (0x021 + 4 * i, put { w with base := joinAddr v (lo w.base) }),
      (0x022 + 4 * i, put { w with len := BitVec.ofNat 32 v }), (0x023 + 4 * i, put { w with ctl := BitVec.ofNat 3 v }) ])

/-- What a write of v to each register of partition scope makes of the partition's part of a stack (R454). -/
def partWrites (v : Nat) (ps : PartStack) : List (Nat × PartStack) :=
  [ (0x040, { ps with bwdog := BitVec.ofNat 32 (if v = 0 then 20000 else v) }),
    (0x041, { ps with rwdog := BitVec.ofNat 32 (if v = 0 then 1000 else v) }),
    (0x042, { ps with hwdog := BitVec.ofNat 32 (if v = 0 then 10000 else v) }),
    (0x043, { ps with diag := joinAddr (hi ps.diag) (v / 64 * 64) }), (0x044, { ps with diag := joinAddr v (lo ps.diag) }),
    (0x045, { ps with diagLen := BitVec.ofNat 32 v }),
    (0x050, { ps with tlbva := joinAddr (hi ps.tlbva) v }), (0x051, { ps with tlbva := joinAddr v (lo ps.tlbva) }) ]

/-- The context of a partition's job is y in t, but for its slice, and nothing else of the contexts has changed. -/
structure CtxIs (s t : State) (part stack : Nat) (job : Word) (y : Ctx) : Prop where
  ctx : ∃ z, t.ctx? part stack job = some z ∧ { z with slice := y.slice } = y
  others : ∀ p k j, (p ≠ part ∨ k ≠ stack ∨ j ≠ job) → t.ctx? p k j = s.ctx? p k j
  length : t.ctxs.length = s.ctxs.length

def ctxless (s : State) : State := { s with ctxs := [] }

/-- The park record of R457 for threads of the site's group. -/
def recordAt (x : Site) (kind : Nat) (lanes : List Nat) (word detail : Word) (addr : Addr) : List Word :=
  let first := x.pc.toNat + 2 ^ 56 - 4 * x.hints.length
  [ BitVec.ofNat 32 (kind * 2 ^ 28 + x.k.stack * 2 ^ 26 + x.k.core * 2 ^ 19 + x.gr.cluster * 2 ^ 17 + x.gr.slot * 2 ^ 13 +
      x.gr.num * 2 ^ 8 + bit01 x.k.trapGroup * 2 ^ 7 + x.hints.length),
    mask lanes, BitVec.ofNat 32 (first % 2 ^ 56), BitVec.ofNat 32 (first % 2 ^ 56 / 2 ^ 32), word, detail,
    BitVec.ofNat 32 (lo addr), BitVec.ofNat 32 (hi addr), if x.k.trapGroup then 0 else BitVec.ofNat 32 x.k.lin, x.k.job, 0, 0, 0,
    BitVec.ofNat 32 (x.s.stack x.k.stack).us.toNat, 0, 0 ]

/-- The numbers of a record fit their fields. -/
def Placed (x : Site) : Prop :=
  x.k.stack < 2 ∧ x.k.core < 128 ∧ x.gr.cluster < 4 ∧ x.gr.slot < 16 ∧ x.gr.num < 32 ∧ x.hints.length < 8 ∧ x.lanes.Nodup ∧
  x.lanes.Pairwise (· < ·)

/-- A sequence of hints that every instruction accepts (R55, R56). -/
def PlainHints (hs : List Hint) : Prop :=
  (∀ h ∈ hs, (∀ i, h ≠ .imm i) ∧ (∀ m, h ≠ .mod m) ∧ ∀ w, h ≠ .bad w) ∧ (hs.map hintKind).Nodup

/-- The detail of a register-bound trap: the first operand, in field order, that reaches an allotment, and the first of its
registers that does (R458). -/
def boundDetail (x : Site) (ops : List Opd) : Option Word :=
  (ops.find? (fun o => decide ((if o.uni then x.k.sregs else x.k.vregs) < (if o.uni then x.gr.si o.f else x.gr.vi o.f) + o.n))).map
    (fun o => BitVec.ofNat 32 ((if o.uni then 1024 else 0) +
      min (max (if o.uni then x.gr.si o.f else x.gr.vi o.f) (if o.uni then x.k.sregs else x.k.vregs)) 1023))

/-- What privilege a form's condition asks for, and the detail of the trap where it fails (R452, R458). -/
def needDetail (n : Need) (k : Block) : Option Word :=
  match n with
  | .any => none
  | .priv => if k.priv then none else some 1
  | .handler => if k.trapGroup then none else some 2

/-- Threads of some lanes have taken a trap of one kind, and their handler can serve it: they are parked at their first hint
word with their registers, and one record is queued (R455 to R457). -/
structure Trapped (x : Site) (t : State) (cx : Ctx) (kind : Nat) (lanes : List Nat) (word detail : Word) (addr : Addr) : Prop where
  frame : ctxless (frameOf t) = ctxless (frameOf x.s)
  record : ∃ cy, t.ctx? x.k.part x.k.stack x.k.job = some cy ∧ { cy with park := cx.park, slice := cx.slice } = cx ∧
    cy.park = cx.park ++ [⟨x.blk, x.grp, lanes, false, kind, x.pc - BitVec.ofNat 56 (4 * x.hints.length), x.hints.length,
      recordAt x kind lanes word detail addr⟩]
  parked : ∀ l ∈ lanes, ∃ u, t.thread? x.blk x.grp l = some u ∧ u.run = .parked ∧
    u.pc = x.pc - BitVec.ofNat 56 (4 * x.hints.length) ∧ u.hints = [] ∧ u.regs = (x.gr.thread l).regs ∧
    u.preds = (x.gr.thread l).preds
  passive : ∀ l ∈ x.lanes, l ∉ lanes → ∃ u, t.thread? x.blk x.grp l = some u ∧ u.pc = x.pc + 4 ∧ u.regs = (x.gr.thread l).regs
  others : ∀ b g l, ¬ (b = x.blk ∧ g = x.grp ∧ l ∈ x.lanes) → t.thread? b g l = x.s.thread? b g l

/-- The context has a handler with room for a record (R456). -/
def Served (x : Site) (cx : Ctx) : Prop :=
  x.s.ctx? x.k.part x.k.stack x.k.job = some cx ∧ cx.tentry ≠ 0 ∧ x.k.trapGroup = false ∧ cx.held = [] ∧ cx.park.length < 256

/-- The context has been terminated (R475): no record is left, and its blocks have ended. -/
def Terminated (t : State) (part stack : Nat) (job : Word) : Prop :=
  (∃ cy, t.ctx? part stack job = some cy ∧ cy.terminated = true ∧ cy.park = [] ∧ cy.held = []) ∧
  ∀ k ∈ t.blocks, k.part = part → k.job = job → k.stack = stack → k.phase = .complete ∨ k.phase = .cancelled

/-! Images, stops and power. -/

/-- Every byte of a run translates for a bundle, by one page, whichever of its translations the core uses (R145, R146). -/
structure Mapped (x : Site) (use : Use) (va : Addr) (n : Nat) (tr : Trans) : Prop where
  page : ∀ m, ∀ j < n, outcome (coreLookup { x.s with moves := m } x.k.stack x.k.core x.k.part (va + BitVec.ofNat 56 j))
    (va + BitVec.ofNat 56 j) use x.k.priv = .ok tr
  fits : va.toNat % 2 ^ tr.shift + n ≤ 2 ^ tr.shift ∧ va.toNat + n ≤ 2 ^ 56

/-- Bytes of a group section of an image with allotments a and u (R471). -/
def imageSec (a u : Nat) : Nat := (64 + 2048 + 136 * a + 4 * u + u / 4 + 63) / 64 * 64

/-- Offsets in a block's image of a thread record and of a vector register (R470, R471). -/
def imageThread (a u g l : Nat) : Nat := 64 + g * imageSec a u + 64 + 64 * l
def imageReg (a u g l r : Nat) : Nat := 64 + g * imageSec a u + 2112 + 4 * (l * a + r)

/-- The block's groups have 32 lanes, each with the allotment of registers. -/
def Regular (o : Block) : Prop :=
  o.vregs ≤ 256 ∧ o.sregs ≤ 512 ∧ o.vregs % 8 = 0 ∧ o.sregs % 8 = 0 ∧ o.groups.length ≤ 32 ∧ o.scratchSize ≤ 393216 ∧
  o.scratchSize % 64 = 0 ∧ ∀ g ∈ o.groups, g.threads.length = 32 ∧ g.sregs.length = o.sregs ∧ ∀ u ∈ g.threads, u.regs.length = o.vregs

/-- A site of ctx.save or ctx.load whose pair holds the address of 64 readable bytes, the words ws. -/
structure ImageSite (x : Site) (a : Src) (tr : Trans) (ws : List Word) : Prop where
  issues : x.Issues
  clear : Clear ⟨[uSrc 1 a 2], Accepts.plain, .priv⟩ x.k x.gr x.act x.hints
  some_ : x.act ≠ []
  awake : Awake x
  settled : Settled x
  desc : DescAt x a 16 tr ws
  aligned : pairNat (x.gr.sregsAt a.f 2) % 64 = 0
  memory : x.s.mem.wf = true
  carries : x.s.linkStalls = false
  watched : ∀ k ∈ x.s.blocks, ∀ u ∈ k.allThreads, u.run ≠ .blocked .monitor

/-- Words 2 and 3 of the image name the block b. -/
structure ImageAt (x : Site) (a : Src) (tr : Trans) (ws : List Word) (b : Nat) (o : Block) : Prop extends
    ImageSite x a tr ws where
  target : imageTarget x.s x.k (ws.getD 2 0) (ws.getD 3 0) = some b
  block : x.s.block? b = some o
  other : b ≠ x.blk
  records : ∀ r ∈ recordsOf x.s b o, r.words.length = 16

/-- What asking for a stop that lasts until it is resumed makes of a context (R468, R481, R482). -/
def asked : StopState → StopState
  | .running => .stopping true
  | .stopping _ => .stopping true
  | .stopped _ => .stopped true

/-- A block keeps its threads' registers, predicates, modes and generators. -/
def Keeps (s t : State) (b : Nat) : Prop :=
  ∀ g l u, s.thread? b g l = some u → ∃ v, t.thread? b g l = some v ∧ v.regs = u.regs ∧ v.preds = u.preds ∧ v.gen = u.gen ∧
    v.fmode = u.fmode ∧ v.tid = u.tid

/-- Cycles counted in a core's last window by the lane clusters that hold groups (R493). -/
def windowSum (s : State) (i j : Nat) (f : Cluster → Nat) : Nat :=
  (((List.range 4).filter (fun q => !(groupsOn s i j q).isEmpty)).map (fun q =>
    f ((s.core i j).clusters.getD q Cluster.reset))).sum

/-- The cap in force (R499). -/
def capInForce (s : State) : Nat := max s.capHost 190

/-- Power floors of live partitions over both stacks. -/
def floorSum (s : State) (f : PartStack → Nat) : Nat :=
  (((List.range s.parts.length).filter (fun p => (s.part p).live)).map (fun p => f (s.partOn p 0) + f (s.partOn p 1))).sum

/-! The outside of the module, and the step. -/

/-- A stack executes commands: it is in S1 and not held in reset (R504, R514). -/
def Up (s : State) (i : Nat) : Prop := ∃ st, s.stks[i]? = some st ∧ st.sec = 1 ∧ st.heldReset = false

/-- The state with stack i changed. -/
def onStack (s : State) (i : Nat) (f : Stack → Stack) : State := { s with stks := s.stks.modify i f }

/-- A stack has completed a command with a status (R504). -/
def answered (s : State) (i code : Nat) : State := onStack s i (fun st => { st with cmdStatus := st.cmdStatus ++ [code] })

/-- The state with partition p changed, or its part on stack i. -/
def onPart (s : State) (p : Nat) (f : Part → Part) : State := { s with parts := s.parts.modify p f }
def onPartStack (s : State) (p i : Nat) (f : PartStack → PartStack) : State :=
  onPart s p (fun P => { P with on := P.on.modify i f })

/-- Stack i has answered code and is otherwise as st. -/
def StackAnswers (t : State) (i : Nat) (st : Stack) (code : Nat) : Prop :=
  t.stks[i]? = some { st with cmdStatus := st.cmdStatus ++ [code] }

/-- No command waits, and none that has waited is being performed (R504). -/
def Direct (s : State) : Prop := s.cmds = [] ∧ s.cur ≠ .command

/-- The byte addresses of a run translate on stack k without privilege by the partition's tables, within one page. -/
structure SeenAt (s : State) (k p : Nat) (use : Use) (va : Addr) (n : Nat) (tr : Trans) : Prop where
  page : ∀ j < n, outcome (walk s k p (va + BitVec.ofNat 56 j)) (va + BitVec.ofNat 56 j) use false = .ok tr
  fits : va.toNat % 65536 + n ≤ 65536 ∧ 16 ≤ tr.shift ∧ 0 < n

/-- Stack k reaches a run of device physical memory: no byte lies across a link that is down (R506). -/
def Reaches (s : State) (k pa n : Nat) : Prop := ∀ j < n, s.unreachablePA (pa + j) k = false

/-- The state after a frame of module m has arrived (R511). -/
def heard (m : Nat) (s : State) : State :=
  { s with
    routes := (m, 0) :: s.routes.filter (fun r => r.1 ≠ m)
    unreachable := s.unreachable.filter (· ≠ m) }

/-- The bytes at pa are bs, and every other byte of device physical memory is as it was. -/
structure BytesPut (s t : State) (pa : Nat) (bs : List Byte) : Prop where
  put : ∀ j b, bs[j]? = some b → t.mem.get (pa + j) = b
  rest : ∀ a, (a < pa ∨ pa + bs.length ≤ a) → t.mem.get a = s.mem.get a

/-- The state but for device physical memory and what a write of it touches: poison and upsets, what is noted of them, and what
is recorded to happen before what. -/
def memless (s : State) : State :=
  { unordered s with mem := [], poison := [], upsets := [], blocks := [], stks := [], moves := 0, reports := [], msix := [] }

/-- No thread waits with a monitor, which a write might wake (R240). -/
def Unwatched (s : State) : Prop := ∀ k ∈ s.blocks, ∀ u ∈ k.allThreads, u.run ≠ .blocked .monitor

/-- A context on stack i may be debugged: the stack executes commands in D1 or D2, and in D1 the function has enabled it
(R520). -/
def MayDebug (s : State) (i p : Nat) : Prop :=
  Up s i ∧ ((s.stack i).dbg = 2 ∨ ((s.stack i).dbg = 1 ∧ (s.part p).dbgEnable = true))

/-- The window of a live partition holds the bytes (R500, R501). -/
def InWindow (s : State) (p : Nat) (va : Addr) (n : Nat) : Prop :=
  (s.part p).live = true ∧ (va.toNat + 2 ^ 56 - (s.part p).window.toNat) % 2 ^ 56 + n ≤ 2 ^ 36

/-- Partitions with a surface that is split over both stacks, and whole. -/
def splitWhole (P : Part) : Bool := P.srfs.any (fun e => e.kind == 1 && e.home == 2 && !e.degraded)

/-- Split surfaces, marked. -/
def marked (v : Bool) (P : Part) : Part :=
  { P with srfs := P.srfs.map (fun e => if e.kind = 1 ∧ e.home = 2 then { e with degraded := v } else e) }

end Sys2Proof.Claims

open Sys2Proof.Claims

/-- R54 to R58: a hint word becomes pending behind at most four others, and its threads stand at the next word; one that breaks
R55 becomes pending likewise, and the sequence traps at its target (see ConditionsOfIssue). That a sixth hint word traps is the
model's choice (entry 12). -/
def Obligations.HintWords : Prop :=
  (∀ p ∈ ([(fun (v : BitVec 22) => Instr.hintImm v, fun v => Hint.imm v),
      (fun v => .hintGrd (v.getLsbD 3) (v.setWidth 3), fun v => .grd (v.getLsbD 3) (v.setWidth 3)),
      (fun v => .hintMod ⟨v.getLsbD 21, v.getLsbD 20, v.getLsbD 19, v.getLsbD 18, v.extractLsb' 14 3, v.extractLsb' 11 3⟩,
       fun v => .mod ⟨v.getLsbD 21, v.getLsbD 20, v.getLsbD 19, v.getLsbD 18, v.extractLsb' 14 3, v.extractLsb' 11 3⟩),
      (fun _ => .hintYield, fun _ => .yield),
      (fun v => .hintSched v, fun v => .sched v)] : List ((BitVec 22 → Instr) × (BitVec 22 → Hint))),
  ∀ (v : BitVec 22) (x : Site) (cx : Ctx), x.Issues → (x.hints.length < 5 →
    ∃ t, exec (p.1 v) x.s = .next t ∧ Executed x.s t x.blk x.grp x.lanes x.lanes [] (fun g => g)
      (fun _ u => { u with pc := u.pc + 4, hints := u.hints ++ [p.2 v], run := .ready })) ∧
    (5 ≤ x.hints.length → x.lanes ≠ [] → Placed x → Served x cx →
      ∃ t, exec (p.1 v) x.s = .next t ∧ Trapped x t cx 1 x.lanes x.word 0 0)) ∧
  (∀ (w : Word) (x : Site), x.Issues → x.hints.length < 5 → w.toNat / 2 ^ 26 = 63 →
    ∃ t, exec (.illegalEncoding w) x.s = .next t ∧ Executed x.s t x.blk x.grp x.lanes x.lanes [] (fun g => g)
      (fun _ u => { u with pc := u.pc + 4, hints := u.hints ++ [.bad w], run := .ready }))

/-- R96, R97: the branches. A thread with a true guard continues at the target, or, where its condition fails, at the
next word.
R98: the calls write the link pair and continue at the target; callx and ret read the target from a pair that is not
poisoned. -/
def Obligations.BranchesAndCalls : Prop :=
  (∀ (i : BitVec 20) (sense : Bool) (p : BitVec 3) (sp : BitVec 2),
    Completes (.bra i) (Form.imm []) (fun _ => True) (fun _ g => g)
      (fun x _ u => u.goto (target x.pc (Claims.immD x.hints i))) ∧
    Completes (.br sense p i) (Form.imm []) (fun _ => True) (fun _ g => g)
      (fun x _ u => u.goto (if test (u.preds.getLsbD p.toNat) sense then target x.pc (Claims.immD x.hints i) else u.pc + 4)) ∧
    Completes (.bru sense sp i) (Form.imm []) (fun _ => True) (fun _ g => g)
      (fun x _ u => u.goto (if test (x.gr.spreds.getLsbD sp.toNat) sense then target x.pc (Claims.immD x.hints i)
        else u.pc + 4))) ∧
  (∀ (d : Fld) (i : BitVec 20) (a : Src),
    Completes (.call d i) (Form.imm [vDst d 2]) (fun _ => True) (fun _ g => g)
      (fun x _ u => (u.setRegs (x.gr.vi d) (link x.pc)).goto (target x.pc (Claims.immD x.hints i))) ∧
    Completes (.callx d a) (Form.of [vDst d 2, vSrc 1 a 2])
      (fun x => ∀ l ∈ x.act, ∀ r ∈ x.gr.vregsAt (x.gr.thread l) a.f 2, r.st ≠ .poisoned) (fun _ g => g)
      (fun x _ u => (u.setRegs (x.gr.vi d) (link x.pc)).goto (pairTarget (x.gr.vregsAt u a.f 2))) ∧
    Completes (.ret a) (Form.of [vSrc 1 a 2])
      (fun x => ∀ l ∈ x.act, ∀ r ∈ x.gr.vregsAt (x.gr.thread l) a.f 2, r.st ≠ .poisoned) (fun _ g => g)
      (fun x _ u => u.goto (pairTarget (x.gr.vregsAt u a.f 2))))

/-- R101: nop takes an issue slot and changes nothing; its word is major 0x05, fn4 5, with every field 0. -/
def Obligations.NopDoesNothing : Prop :=
  encode .nop = some (BitVec.ofNat 32 (0x05 * 2 ^ 26 + 5 * 2 ^ 4)) ∧
  Completes .nop (Form.of []) (fun _ => True) (fun _ g => g) (fun _ _ u => u.next)

/-- R102: the window instructions, where the value is in range and below the allotment. -/
def Obligations.Windows : Prop :=
  ∀ (b : Src) (i : BitVec 11),
    Completes (.winVReg b) (Form.of [uSrc 2 b])
      (fun x => (x.gr.sreg b.f).st ≠ .poisoned ∧ (x.gr.sreg b.f).val.toNat ≤ 31 ∧ 8 * (x.gr.sreg b.f).val.toNat < x.k.vregs)
      (once (fun x g => { g with wv := BitVec.ofNat 5 (x.gr.sreg b.f).val.toNat })) (fun _ _ u => u.next) ∧
    Completes (.winSReg b) (Form.of [uSrc 2 b])
      (fun x => (x.gr.sreg b.f).st ≠ .poisoned ∧ (x.gr.sreg b.f).val.toNat ≤ 63 ∧ 8 * (x.gr.sreg b.f).val.toNat < x.k.sregs)
      (once (fun x g => { g with ws := BitVec.ofNat 6 (x.gr.sreg b.f).val.toNat })) (fun _ _ u => u.next) ∧
    Completes (.winVImm i) (Form.imm [])
      (fun x => 0 ≤ Claims.immC x.hints i ∧ Claims.immC x.hints i ≤ 31 ∧ 8 * Claims.immC x.hints i < x.k.vregs)
      (once (fun x g => { g with wv := BitVec.ofInt 5 (Claims.immC x.hints i) })) (fun _ _ u => u.next) ∧
    Completes (.winSImm i) (Form.imm [])
      (fun x => 0 ≤ Claims.immC x.hints i ∧ Claims.immC x.hints i ≤ 63 ∧ 8 * Claims.immC x.hints i < x.k.sregs)
      (once (fun x g => { g with ws := BitVec.ofInt 6 (Claims.immC x.hints i) })) (fun _ _ u => u.next)

/-- R90: the 32-bit uniform forms write op(x, y) once for the bundle; a poisoned source poisons the destination.
R91: the sum and the
difference of two uniform pairs, modulo 2^64, with their words. -/
def Obligations.UniformArithmetic : Prop :=
  (∀ (d : Fld) (a b : Src) (i : BitVec 11),
    (∀ p ∈ uniformOps d a b, Completes p.1 (Form.of [uDst d, uSrc 1 a, uSrc 2 b]) (fun _ => True)
      (once (fun x g => g.setSregs (x.gr.si d)
        (result [x.gr.sreg a.f, x.gr.sreg b.f] (p.2 (x.gr.sreg a.f).val (x.gr.sreg b.f).val)))) (fun _ _ u => u.next)) ∧
    (∀ p ∈ uniformImmOps d a i, Completes p.1 (Form.imm [uDst d, uSrc 1 a]) (fun _ => True)
      (once (fun x g => g.setSregs (x.gr.si d)
        (result [x.gr.sreg a.f] (p.2 (x.gr.sreg a.f).val (BitVec.ofInt 32 (Claims.immC x.hints i)))))) (fun _ _ u => u.next)) ∧
    Completes (.smovB32 d a) (Form.of [uDst d, uSrc 1 a]) (fun _ => True)
      (once (fun x g => g.setSregs (x.gr.si d) (result [x.gr.sreg a.f] (x.gr.sreg a.f).val))) (fun _ _ u => u.next)) ∧
  (∀ (d : Fld) (a b : Src),
    encode (.saddI64 d a b) = some (wordA 0x06 13 d a false b) ∧ encode (.ssubI64 d a b) = some (wordA 0x06 14 d a false b) ∧
    Completes (.saddI64 d a b) (Form.of [uDst d 2, uSrc 1 a 2, uSrc 2 b 2]) (fun _ => True)
      (once (fun x g => g.setSregs (x.gr.si d) (result2 (x.gr.sregsAt a.f 2 ++ x.gr.sregsAt b.f 2)
        ((pairNat (x.gr.sregsAt a.f 2) + pairNat (x.gr.sregsAt b.f 2)) % 2 ^ 64)))) (fun _ _ u => u.next) ∧
    Completes (.ssubI64 d a b) (Form.of [uDst d 2, uSrc 1 a 2, uSrc 2 b 2]) (fun _ => True)
      (once (fun x g => g.setSregs (x.gr.si d) (result2 (x.gr.sregsAt a.f 2 ++ x.gr.sregsAt b.f 2)
        ((2 ^ 64 + pairNat (x.gr.sregsAt a.f 2) - pairNat (x.gr.sregsAt b.f 2)) % 2 ^ 64)))) (fun _ _ u => u.next))

/-- R92: smovi writes bits [31:0] of its immediate and makes sd full; it is major 0x0B, format D, with d = sd. -/
def Obligations.UniformConstant : Prop :=
  ∀ (d : Fld) (i : BitVec 20),
    encode (.smovi d i) = some (BitVec.ofNat 32 (0x0B * 2 ^ 26 + d.toNat * 2 ^ 20 + i.toNat)) ∧
    Completes (.smovi d i) (Form.imm [uDst d]) (fun _ => True)
      (once (fun x g => g.setSregs (x.gr.si d) [⟨BitVec.ofInt 32 (Claims.immD x.hints i), .full⟩])) (fun _ _ u => u.next)

/-- R93 to R95: compare into a uniform predicate, select, and read a special value. What a grid dimension of 2^32 reads as is
the model's choice (entry 106). -/
def Obligations.UniformCompareSelectSpecial : Prop :=
  ∀ (d : Fld) (a b : Src) (sp : BitVec 2) (c : ICond),
    Completes (.scmp sp c a b) (Form.of [uSrc 1 a, uSrc 2 b])
      (fun x => (x.gr.sreg a.f).st ≠ .poisoned ∧ (x.gr.sreg b.f).st ≠ .poisoned)
      (once (fun x g => g.setSpred sp (holds c (x.gr.sreg a.f).val.toInt (x.gr.sreg b.f).val.toInt
        (x.gr.sreg a.f).val.toNat (x.gr.sreg b.f).val.toNat))) (fun _ _ u => u.next) ∧
    encode (.ssel d sp a b) = some (wordA 0x08 sp.toNat d a false b) ∧
    Completes (.ssel d sp a b) (Form.of [uDst d, uSrc 1 a, uSrc 2 b]) (fun _ => True)
      (once (fun x g => g.setSregs (x.gr.si d)
        [if x.gr.spreds.getLsbD sp.toNat then x.gr.sreg a.f else x.gr.sreg b.f])) (fun _ _ u => u.next) ∧
    (∀ p ∈ ([(0, fun x => x.gr.num), (1, fun x => x.k.groups.length), (8, fun x => x.k.core), (9, fun x => x.gr.cluster),
        (10, fun x => x.gr.slot), (11, fun x => x.k.stack), (12, fun x => x.k.part), (13, fun x => (mask x.act).toNat),
        (15, fun x => x.gr.wv.toNat), (16, fun x => x.gr.ws.toNat), (17, fun x => x.k.vregs), (18, fun x => x.k.sregs),
        (14, fun x => (mask ((List.range 32).filter (fun l => (x.gr.threads[l]?).any (fun u => u.run != .exited && u.run != .killed)))).toNat),
        (19, fun x => x.k.scratchSize), (20, fun x => x.k.shape.1 * x.k.shape.2.1 * x.k.shape.2.2),
        (21, fun x => x.k.shape.1), (22, fun x => x.k.shape.2.1), (23, fun x => x.k.shape.2.2),
        (2, fun x => x.k.lin % (grid x).1), (3, fun x => x.k.lin / (grid x).1 % (grid x).2.1),
        (4, fun x => x.k.lin / ((grid x).1 * (grid x).2.1)), (5, fun x => (grid x).1), (6, fun x => (grid x).2.1),
        (7, fun x => (grid x).2.2)] :
        List (BitVec 6 × (Site → Nat))),
      Completes (.srdsp d p.1) (Form.of [uDst d]) (fun _ => True)
        (once (fun x g => g.setSregs (x.gr.si d) [⟨BitVec.ofNat 32 (p.2 x), .full⟩])) (fun _ _ u => u.next))

/-- R115 to R119: the vector binary forms on words; a lane with a poisoned source has its destination poisoned. -/
def Obligations.VectorWords : Prop :=
  ∀ (d : Fld) (a : Src) (b : SrcB),
    (∀ p ∈ vectorOps d a b ++ [(.bfeN32 d a b, field false), (.bfeI32 d a b, field true)],
      Completes p.1 (Form.of [vDst d, vSrc 1 a, bSrc b]) (fun _ => True) (fun _ g => g)
        (fun x _ u => (u.setRegs (x.gr.vi d) (result (x.gr.vreg u a.f :: x.gr.bRegs u b 1)
          (p.2 (x.gr.vreg u a.f).val ((x.gr.bRegs u b 1).getD 0 Reg.mk0).val))).next)) ∧
    Completes (.bfiB32 d a b) (Form.of [vMod d, vSrc 1 a, bSrc b]) (fun _ => True) (fun _ g => g)
      (fun x _ u => (u.setRegs (x.gr.vi d) (result (x.gr.vreg u d :: x.gr.vreg u a.f :: x.gr.bRegs u b 1)
        (Claims.insert (x.gr.vreg u d).val (x.gr.vreg u a.f).val ((x.gr.bRegs u b 1).getD 0 Reg.mk0).val))).next)

/-- R117: add.i32 and sub.i32 clamp to the signed range under sat, and wrap without it. -/
def Obligations.VectorSaturation : Prop :=
  ∀ (d : Fld) (a : Src) (b : SrcB) (i : BitVec 11),
    (∀ p ∈ ([(.addI32 d a b, fun x y => x + y), (.subI32 d a b, fun x y => x - y)] : List (Instr × (Int → Int → Int))),
      Completes p.1 ⟨[vDst d, vSrc 1 a, bSrc b], ⟨false, true, false, false, false, false⟩, .any⟩
        (fun _ => True) (fun _ g => g)
        (fun x _ u =>
          let r := p.2 (x.gr.vreg u a.f).val.toInt ((x.gr.bRegs u b 1).getD 0 Reg.mk0).val.toInt
          (u.setRegs (x.gr.vi d) (result (x.gr.vreg u a.f :: x.gr.bRegs u b 1)
            (BitVec.ofInt 32 (if (hintMods x.hints).sat then min (max r (-2147483648)) 2147483647 else r)))).next)) ∧
    Completes (.addI32Imm d a i) ⟨[vDst d, vSrc 1 a], ⟨true, true, false, false, false, false⟩, .any⟩
      (fun _ => True) (fun _ g => g)
      (fun x _ u =>
        let r := (x.gr.vreg u a.f).val.toInt + (BitVec.ofInt 32 (Claims.immC x.hints i)).toInt
        (u.setRegs (x.gr.vi d) (result [x.gr.vreg u a.f]
          (BitVec.ofInt 32 (if (hintMods x.hints).sat then min (max r (-2147483648)) 2147483647 else r)))).next)

/-- R116, R118, R124, R125: bitwise forms with an immediate, the unary forms, mad.i32 and movi. -/
def Obligations.VectorUnaryAndConstants : Prop :=
  ∀ (d : Fld) (a b : Src) (c : Fld) (i : BitVec 11) (n : BitVec 20),
    (∀ p ∈ ([(.andB32Imm d a i, fun x y => x &&& y), (.orB32Imm d a i, fun x y => x ||| y),
        (.xorB32Imm d a i, fun x y => x ^^^ y)] : List (Instr × (Word → Word → Word))),
      Completes p.1 (Form.imm [vDst d, vSrc 1 a]) (fun _ => True) (fun _ g => g)
        (fun x _ u => (u.setRegs (x.gr.vi d) (result [x.gr.vreg u a.f]
          (p.2 (x.gr.vreg u a.f).val (BitVec.ofInt 32 (Claims.immC x.hints i))))).next)) ∧
    (∀ p ∈ unaryOps d a, Completes p.1 (Form.of [vDst d, vSrc 1 a]) (fun _ => True) (fun _ g => g)
      (fun x _ u => (u.setRegs (x.gr.vi d) (result [x.gr.vreg u a.f] (p.2 (x.gr.vreg u a.f).val))).next)) ∧
    Completes (.madI32 d a b c) (Form.of [vDst d, vSrc 1 a, vSrc 2 b, vRead 3 c]) (fun _ => True) (fun _ g => g)
      (fun x _ u => (u.setRegs (x.gr.vi d) (result [x.gr.vreg u a.f, x.gr.vreg u b.f, x.gr.vreg u c]
        (BitVec.ofNat 32 ((x.gr.vreg u a.f).val.toNat * (x.gr.vreg u b.f).val.toNat + (x.gr.vreg u c).val.toNat)))).next) ∧
    encode (.movi d n) = some (BitVec.ofNat 32 (0x10 * 2 ^ 26 + d.toNat * 2 ^ 20 + n.toNat)) ∧
    Completes (.movi d n) (Form.imm [vDst d]) (fun _ => True) (fun _ g => g)
      (fun x _ u => (u.setRegs (x.gr.vi d) [⟨BitVec.ofInt 32 (Claims.immD x.hints n), .full⟩]).next)

/-- R121 to R123: wide products, sums and differences of pairs, and 56-bit addresses zero-extended to 64 bits. -/
def Obligations.VectorPairs : Prop :=
  ∀ (d : Fld) (a : Src) (b : SrcB) (k : BitVec 2),
    encode (.mulWideI32 d a b) = some (wordAB 0x0D 1 d a b) ∧ encode (.mulWideN32 d a b) = some (wordAB 0x0D 2 d a b) ∧
    encode (.addI64 d a b) = some (wordAB 0x0D 3 d a b) ∧ encode (.subI64 d a b) = some (wordAB 0x0D 4 d a b) ∧
    (∀ p ∈ ([(.mulWideI32 d a b, fun x y => (x.toInt * y.toInt % 2 ^ 64).toNat),
        (.mulWideN32 d a b, fun x y => x.toNat * y.toNat)] : List (Instr × (Word → Word → Nat))),
      Completes p.1 (Form.of [vDst d 2, vSrc 1 a, bSrc b]) (fun _ => True) (fun _ g => g)
        (fun x _ u => (u.setRegs (x.gr.vi d) (result2 (x.gr.vreg u a.f :: x.gr.bRegs u b 1)
          (p.2 (x.gr.vreg u a.f).val ((x.gr.bRegs u b 1).getD 0 Reg.mk0).val))).next)) ∧
    (∀ p ∈ ([(.addI64 d a b, fun x y => (x + y) % 2 ^ 64), (.subI64 d a b, fun x y => (2 ^ 64 + x - y) % 2 ^ 64)] :
        List (Instr × (Nat → Nat → Nat))),
      Completes p.1 (Form.of [vDst d 2, vSrc 1 a 2, bSrc b 2]) (fun _ => True) (fun _ g => g)
        (fun x _ u => (u.setRegs (x.gr.vi d) (result2 (x.gr.vregsAt u a.f 2 ++ x.gr.bRegs u b 2)
          (p.2 (pairNat (x.gr.vregsAt u a.f 2)) (pairNat (x.gr.bRegs u b 2))))).next)) ∧
    (∀ p ∈ ([(.addA64 d a b, fun x y => ((x : Int) + y.toInt) % 2 ^ 56),
        (.lea d a b k, fun x y => ((x : Int) + y.toInt * 2 ^ k.toNat) % 2 ^ 56),
        (.leaN d a b k, fun x y => ((x : Int) + y.toNat * 2 ^ k.toNat) % 2 ^ 56)] : List (Instr × (Nat → Word → Int))),
      Completes p.1 (Form.of [vDst d 2, vSrc 1 a 2, bSrc b]) (fun _ => True) (fun _ g => g)
        (fun x _ u => (u.setRegs (x.gr.vi d) (result2 (x.gr.vregsAt u a.f 2 ++ x.gr.bRegs u b 1)
          (p.2 (pairNat (x.gr.vregsAt u a.f 2)) ((x.gr.bRegs u b 1).getD 0 Reg.mk0).val).toNat)).next))

/-- R126 to R128: selection, comparison into a predicate, and the predicate forms. -/
def Obligations.VectorPredicates : Prop :=
  ∀ (d : Fld) (a : Src) (b : SrcB) (sense : Bool) (p q r : BitVec 3) (c : ICond),
    encode (.sel d sense p a b) = some (wordAB 0x11 ((if sense then 8 else 0) + p.toNat) d a b) ∧
    Completes (.sel d sense p a b) (Form.of [vDst d, vSrc 1 a, bSrc b]) (fun _ => True) (fun _ g => g)
      (fun x _ u => (u.setRegs (x.gr.vi d) [if test (u.preds.getLsbD p.toNat) sense then x.gr.vreg u a.f
        else (x.gr.bRegs u b 1).getD 0 Reg.mk0]).next) ∧
    Completes (.cmp false p c a b) (Form.of [vSrc 1 a, bSrc b])
      (fun x => ∀ l ∈ x.act, ∀ y ∈ x.gr.vreg (x.gr.thread l) a.f :: x.gr.bRegs (x.gr.thread l) b 1, y.st ≠ .poisoned)
      (fun _ g => g)
      (fun x _ u =>
        let v := (x.gr.vreg u a.f).val
        let w := ((x.gr.bRegs u b 1).getD 0 Reg.mk0).val
        (u.setPred p (holds c v.toInt w.toInt v.toNat w.toNat)).next) ∧
    Completes (.cmp true p c a b) (Form.of [vSrc 1 a 2, bSrc b 2])
      (fun x => ∀ l ∈ x.act, ∀ y ∈ x.gr.vregsAt (x.gr.thread l) a.f 2 ++ x.gr.bRegs (x.gr.thread l) b 2, y.st ≠ .poisoned)
      (fun _ g => g)
      (fun x _ u =>
        let v := pairNat (x.gr.vregsAt u a.f 2)
        let w := pairNat (x.gr.bRegs u b 2)
        (u.setPred p (holds c (signed64 v) (signed64 w) v w)).next) ∧
    (∀ y ∈ ([(.pand p q r, fun m n => m && n), (.por p q r, fun m n => m || n), (.pxor p q r, fun m n => m != n),
        (.pnot p q, fun m _ => !m)] : List (Instr × (Bool → Bool → Bool))),
      Completes y.1 (Form.of []) (fun _ => True) (fun _ g => g)
        (fun _ _ u => (u.setPred p (y.2 (u.preds.getLsbD q.toNat) (u.preds.getLsbD r.toNat))).next))

/-- R131 to R133: votes, ballot, lanes and match over the active set.
R134 to R136: the shuffles, the moves between the files, the reduction and the scan. -/
def Obligations.CrossLane : Prop :=
  (∀ (d : Fld) (a : Src) (p q : BitVec 3),
    Completes (.voteAny p q) (Form.of []) (fun _ => True) (fun _ g => g)
      (fun x _ u => (u.setPred p (x.act.any (fun j => (x.gr.thread j).preds.getLsbD q.toNat))).next) ∧
    Completes (.voteAll p q) (Form.of []) (fun _ => True) (fun _ g => g)
      (fun x _ u => (u.setPred p (x.act.all (fun j => (x.gr.thread j).preds.getLsbD q.toNat))).next) ∧
    Completes (.ballot d q) (Form.of [vDst d]) (fun _ => True) (fun _ g => g)
      (fun x _ u => (u.setRegs (x.gr.vi d)
        [⟨mask (x.act.filter (fun j => (x.gr.thread j).preds.getLsbD q.toNat)), .full⟩]).next) ∧
    encode (.matchB32 d a) = some (wordA 0x14 3 d a false ⟨0, false⟩) ∧
    Completes (.matchB32 d a) (Form.of [vDst d, vSrc 1 a]) (fun _ => True) (fun _ g => g)
      (fun x _ u => (u.setRegs (x.gr.vi d) (result [x.gr.vreg u a.f]
        (mask (x.act.filter (fun j => x.gr.vreg (x.gr.thread j) a.f == ⟨(x.gr.vreg u a.f).val, .full⟩))))).next) ∧
    Completes (.lanes d) (Form.of [vDst d]) (fun x => x.lanes.Nodup ∧ ∀ l ∈ x.lanes, l < 32) (fun _ g => g)
      (fun x l u => (u.setRegs (x.gr.vi d) [⟨BitVec.ofNat 32 (x.act.length * 2 ^ 16 +
        (x.act.filter (fun j => decide (j < l))).length * 2 ^ 8 + l), .full⟩]).next)) ∧
  (∀ (d : Fld) (a : Src) (b : SrcB) (o : RedOp),
    (∀ p ∈ ([(.shflIdx d a b, fun _ y => some (y % 32)),
        (.shflUp d a b, fun l y => if 32 ≤ y ∨ l < y then none else some (l - y)),
        (.shflDown d a b, fun l y => if 32 ≤ y ∨ 31 < l + y then none else some (l + y)),
        (.shflXor d a b, fun l y => some (l ^^^ (y % 32)))] : List (Instr × (Nat → Nat → Option Nat))),
      Completes p.1 (Form.of [vDst d, vSrc 1 a, bSrc b]) (fun _ => True) (fun _ g => g)
        (fun x l u =>
          let y := (x.gr.bRegs u b 1).getD 0 Reg.mk0
          (u.setRegs (x.gr.vi d) [if y.st = .poisoned then ⟨0, .poisoned⟩
            else match p.2 l y.val.toNat with
              | some j => if j ∈ x.act then x.gr.vreg (x.gr.thread j) a.f else x.gr.vreg u a.f
              | none => x.gr.vreg u a.f]).next)) ∧
    Completes (.s2v d a) (Form.of [vDst d, uSrc 1 a]) (fun _ => True) (fun _ g => g)
      (fun x _ u => (u.setRegs (x.gr.vi d) [x.gr.sreg a.f]).next) ∧
    Completes (.v2s d a b) (Form.of [uDst d, vSrc 1 a, bSrc b]) (fun _ => True)
      (once (fun x g =>
        let low := x.act.headD 0
        let y := (x.gr.bRegs (x.gr.thread low) b 1).getD 0 Reg.mk0
        let l := if y.val.toNat % 32 ∈ x.act then y.val.toNat % 32 else low
        g.setSregs (x.gr.si d) [if y.st = .poisoned then ⟨0, .poisoned⟩ else x.gr.vreg (x.gr.thread l) a.f]))
      (fun _ _ u => u.next) ∧
    Completes (.gred o d a) (Form.of [uDst d, vSrc 1 a]) (fun _ => True)
      (once (fun x g => g.setSregs (x.gr.si d) [acrossLanes o (x.act.map (fun j => x.gr.vreg (x.gr.thread j) a.f))]))
      (fun _ _ u => u.next) ∧
    Completes (.gscan o d a) (Form.of [vDst d, vSrc 1 a]) (fun _ => True) (fun _ g => g)
      (fun x l u => (u.setRegs (x.gr.vi d)
        [acrossLanes o ((x.act.filter (fun j => decide (j ≤ l))).map (fun j => x.gr.vreg (x.gr.thread j) a.f))]).next))

/-- R173, R174, R181: a load of one lane from global space marks its destination empty, the thread goes on, and the access
is in flight at the physical address of its page; a denied or missing page makes it deliver poison, or 0 for ld.nf.
R173: a load in flight that may be performed fills its registers with the value of its bytes, and is over.
R151: an aligned load is performed as one, and any other byte by byte.
R147: the class of each part follows from the instruction's and from the page's ordering.
R217: a load at the point of coherence reads memory as it stands; another reads each byte there or as it stood before a write
that is still recorded.
Readings of the model that it rests on: entries 8, 18, 19 and 95. -/
def Obligations.GlobalLoads : Prop :=
  (∀ (d : Fld) (a : Src) (i : BitVec 6) (w : LdW) (o : LdOrd) (x : Site) (l : Nat) (va : Addr),
    x.act = [l] → va = addressOf x.hints i w.bytes (x.gr.vregsAt (x.gr.thread l) a.f 2) →
    Clean (x.gr.vregsAt (x.gr.thread l) a.f 2) → va.toNat % 65536 + w.bytes ≤ 65536 →
    watchMask x.s x.k (x.gr.thread l) va w.bytes watchLoad = 0 →
    ∀ p ∈ [(Instr.ldG d a i w o, (⟨true, false, false, false, o == .acq, true⟩ : Accepts), false)] ++
        (if o = .ord then (match w with
          | .b32 => [(.ldNfB32 d a i, Accepts.immOnly, true)]
          | .b64 => [(.ldNfB64 d a i, Accepts.immOnly, true)]
          | .b128 => [(.ldNfB128 d a i, Accepts.immOnly, true)]
          | _ => []) else []),
    CanAccess x ⟨[vDst d w.regs, vSrc 1 a 2], p.2.1, .any⟩ →
    ∃ t e, exec p.1 x.s = .next t ∧
      Started x t (fun g => g) (fun _ u => { u.next with regs := markEmpty u.regs (x.gr.vi d) w.regs }) ∧
      t.accesses = x.s.accesses ++ [e] ∧ e.blk = x.blk ∧ e.tid = (x.gr.thread l).tid ∧
      e.dst = some ⟨false, x.grp, l, x.gr.vi d, w.regs⟩ ∧
      (x.k.find (x.gr.thread l).tid = some (x.grp, l) → ∀ i ∈ (x.gr.thread l).behind, Flies x.s i → i ∈ e.after) ∧
      (match outcome (laneLookup x.s x.k.stack x.k.core x.gr.cluster l x.k.part va) va .load x.k.priv with
        | .ok tr => e.kind = .load w p.2.2 ∧ e.waits = [] ∧
            FliesTo e .mem w.bytes (tr.pa va.toNat + ·) (Atomic va (tr.pa va.toNat) w.bytes) ∧
            (tr.ordering = 0 → Classed e (o == .vol) (o == .acq && (hintMods x.hints).scope != 1) false (o == .vol)) ∧
            (tr.ordering = 1 → Classed e true true false true) ∧
            (tr.ordering = 2 → Classed e false false false (o == .vol))
        | .recoverable q => if p.2.2 then e.kind = .value (List.replicate w.regs ⟨0, .full⟩)
            else e.kind = .load w false ∧ e.waits = [q] ∧ e.pieces = []
        | _ => e.kind = .value (List.replicate w.regs (if p.2.2 then ⟨0, .full⟩ else ⟨0, .poisoned⟩)))) ∧
  (∀ (s : State) (a : Access) (k : Block) (g l pa : Nat) (w : LdW) (nf : Bool) (d : FillDst),
    InFlight s a k g l → Reachable s k a pa w.bytes → a.kind = .load w nf → a.dst = some d → d.uni = false →
    ∃ t bs, exec (.loadCompletion a.id) s = .next t ∧ SameBytes s t ∧
      { t with stks := s.stks, moves := s.moves, order := s.order, accesses := s.accesses } = { s with blocks := t.blocks } ∧
      unpassed t.accesses = unpassed (s.accesses.filter (fun b => b.id != a.id)) ∧
      flightFrame (unordered { t with blocks := [] }) = flightFrame (unordered { s with blocks := [] }) ∧
      bs.length = w.bytes ∧
      (∀ j b, bs[j]? = some b → b = s.mem.get (pa + j) ∨
        ∃ e ∈ s.order.past, e.piece.space = .mem ∧ e.piece.addr ≤ pa + j ∧ pa + j < e.piece.addr + e.piece.len ∧
          (b = e.old.getD (pa + j - e.piece.addr) (s.mem.get (pa + j)))) ∧
      (s.order.past = [] ∨ (a.atPoint = true ∧ Numbered s) → bs = s.mem.read pa w.bytes) ∧
      t.thread? a.blk g l = (s.thread? a.blk g l).map (fun u =>
        { u with regs := writeRun d.idx (loaded w (leNat bs)) u.regs }) ∧
      ∀ b' g' l', (b' ≠ a.blk ∨ g' ≠ g ∨ l' ≠ l) → t.thread? b' g' l' = s.thread? b' g' l')

/-- R176: a store of one lane to global space goes on, and its bytes are in flight to the physical address of its page, as one
or byte by byte (R151), with the class of R147.
R148, R152: when a store in flight is performed, exactly its bytes are written.
Readings of the model that it rests on: entries 8, 18, 19 and 95. -/
def Obligations.GlobalStores : Prop :=
  (∀ (a b : Src) (i : BitVec 6) (w : StW) (o : StOrd) (x : Site) (l : Nat) (va : Addr) (tr : Trans),
    x.act = [l] → va = addressOf x.hints i w.bytes (x.gr.vregsAt (x.gr.thread l) a.f 2) →
    Clean (x.gr.vregsAt (x.gr.thread l) a.f 2 ++ x.gr.vregsAt (x.gr.thread l) b.f w.regs) →
    va.toNat % 65536 + w.bytes ≤ 65536 → inWindow va = false →
    watchMask x.s x.k (x.gr.thread l) va w.bytes watchStore = 0 →
    CanAccess x ⟨[vSrc 1 a 2, vSrc 2 b w.regs], ⟨true, false, false, false, o == .rel, true⟩, .any⟩ →
    outcome (laneLookup x.s x.k.stack x.k.core x.gr.cluster l x.k.part va) va .store x.k.priv = .ok tr →
    ∃ t e, exec (.stG i a b w o) x.s = .next t ∧ Started x t (fun g => g) (fun _ u => u.next) ∧
      t.accesses = x.s.accesses ++ [e] ∧ e.blk = x.blk ∧ e.tid = (x.gr.thread l).tid ∧ e.dst = none ∧
      e.kind = .store (leBytes w.bytes (number (x.gr.vregsAt (x.gr.thread l) b.f w.regs))) ∧
      FliesTo e .mem w.bytes (tr.pa va.toNat + ·) (Atomic va (tr.pa va.toNat) w.bytes) ∧
      (tr.ordering = 0 → Classed e (o == .vol) false (o == .rel && (hintMods x.hints).scope != 1) (o == .vol)) ∧
      (tr.ordering = 1 → Classed e true false true true) ∧
      (tr.ordering = 2 → Classed e false false false (o == .vol))) ∧
  (∀ (s : State) (a : Access) (k : Block) (g l pa n : Nat) (data : List Byte) (ms : List Move),
    s.mem.wf = true → InFlight s a k g l → a.pieces = [⟨.mem, pa, n⟩] → a.later = [] ∧ a.off = 0 →
    a.kind = .store data → data.length = n → peerWaits s k.stack a.pieces = false →
    mayPerform s a = true → s.unreachablePA pa k.stack = false → s.agenda = .perform a.id :: ms →
    ∃ t, step s = .next t ∧ t.mem.read pa n = data ∧
      (∀ y, (y < pa ∨ pa + n ≤ y) → t.mem.get y = s.mem.get y) ∧
      unpassed t.accesses = unpassed (s.accesses.filter (fun b => b.id != a.id)) ∧ t.agenda = ms ∧ t.parts = s.parts ∧
      ∀ b', (t.block? b').map (·.scratch) = (s.block? b').map (·.scratch))

/-- R162, R177: scratchpad loads and stores of one lane, whose bytes wrap at the end of the reserve. -/
def Obligations.ScratchpadAccesses : Prop :=
  ∀ (d : Fld) (a b : Src) (i : BitVec 6) (w : LdW) (v : StW) (o : LdOrd) (q : StOrd) (x : Site) (l : Nat),
    x.act = [l] →
    (CanAccess x ⟨[vDst d w.regs, vSrc 1 a], Accepts.immOnly, .any⟩ → Clean [x.gr.vreg (x.gr.thread l) a.f] →
      w.bytes ≤ x.k.scratchSize →
      ∃ t e, exec (.ldSp d a i w o) x.s = .next t ∧
        Started x t (fun g => g) (fun _ u => { u.next with regs := markEmpty u.regs (x.gr.vi d) w.regs }) ∧
        t.accesses = x.s.accesses ++ [e] ∧ e.blk = x.blk ∧ e.tid = (x.gr.thread l).tid ∧ e.kind = .load w false ∧
        e.dst = some ⟨false, x.grp, l, x.gr.vi d, w.regs⟩ ∧ Classed e (o == .vol) (o == .acq) false (o == .vol) ∧
        AtOffset x e (offsetOf x.hints i w.bytes (x.gr.vreg (x.gr.thread l) a.f)) w.bytes) ∧
    (CanAccess x ⟨[vSrc 1 a, vSrc 2 b v.regs], Accepts.immOnly, .any⟩ →
      Clean (x.gr.vreg (x.gr.thread l) a.f :: x.gr.vregsAt (x.gr.thread l) b.f v.regs) →
      v.bytes ≤ x.k.scratchSize →
      ∃ t e, exec (.stSp i a b v q) x.s = .next t ∧ Started x t (fun g => g) (fun _ u => u.next) ∧
        t.accesses = x.s.accesses ++ [e] ∧ e.blk = x.blk ∧ e.tid = (x.gr.thread l).tid ∧ e.dst = none ∧
        e.kind = .store (leBytes v.bytes (number (x.gr.vregsAt (x.gr.thread l) b.f v.regs))) ∧
        Classed e (q == .vol) false (q == .rel) (q == .vol) ∧
        AtOffset x e (offsetOf x.hints i v.bytes (x.gr.vreg (x.gr.thread l) a.f)) v.bytes)

/-- R165, R178: a load from constant space, at an offset beyond the image, delivers 0; within it, it is in flight at the
image's bytes.
Readings of the model that it rests on: entry 20. -/
def Obligations.ConstantLoads : Prop :=
  ∀ (d : Fld) (a : Src) (i : BitVec 6) (w : LdW) (x : Site) (l : Nat) (off : Nat) (va : Addr),
    x.act = [l] → CanAccess x ⟨[vDst d w.regs, vSrc 1 a], Accepts.immOnly, .any⟩ → Clean [x.gr.vreg (x.gr.thread l) a.f] →
    off = offsetOf x.hints i w.bytes (x.gr.vreg (x.gr.thread l) a.f) → off + w.bytes ≤ 2 ^ 32 →
    va = (constImage x.s x.k).1 + BitVec.ofNat 56 off →
    ∃ t e, exec (.ldK d a i w) x.s = .next t ∧
      Started x t (fun g => g) (fun _ u => { u.next with regs := markEmpty u.regs (x.gr.vi d) w.regs }) ∧
      t.accesses = x.s.accesses ++ [e] ∧ e.blk = x.blk ∧ e.tid = (x.gr.thread l).tid ∧
      e.dst = some ⟨false, x.grp, l, x.gr.vi d, w.regs⟩ ∧
      ((constImage x.s x.k).2 ≤ off → e.kind = .value (List.replicate w.regs ⟨0, .full⟩)) ∧
      (off + w.bytes ≤ (constImage x.s x.k).2 → va.toNat % 65536 + w.bytes ≤ 65536 →
        ∀ tr, outcome (coreLookup x.s x.k.stack x.k.core x.k.part va) va .load x.k.priv = .ok tr →
          e.kind = .const w off ∧ e.pieces = [⟨.mem, tr.pa va.toNat, w.bytes⟩])

/-- R179, R180: a prefetch changes no byte, no register and no access of its thread, whatever line it leaves in the L1
of its core, and pgprobe delivers the state of its page.
Readings of the model that it rests on: entry 18. -/
def Obligations.PrefetchAndProbe : Prop :=
  ∀ (d : Fld) (a : Src) (i : BitVec 6) (x : Site),
    (∀ p ∈ [Instr.prefetchL2 a i, .prefetchL1 a i],
      CanAccess x ⟨[vSrc 1 a 2], ⟨true, false, false, false, false, true⟩, .any⟩ →
      (∀ l ∈ x.act, Clean (x.gr.vregsAt (x.gr.thread l) a.f 2)) →
      ∃ t, exec p x.s = .next t ∧ Started x t (fun g => g) (fun _ u => u.next) ∧ t.accesses = x.s.accesses) ∧
    (∀ l, x.act = [l] → CanAccess x ⟨[vDst d, vSrc 1 a 2], Accepts.immOnly, .any⟩ →
      Clean (x.gr.vregsAt (x.gr.thread l) a.f 2) →
      ∃ t e v, exec (.pgprobe d a i) x.s = .next t ∧
        Started x t (fun g => g) (fun _ u => { u.next with regs := markEmpty u.regs (x.gr.vi d) 1 }) ∧
        t.accesses = x.s.accesses ++ [e] ∧ e.blk = x.blk ∧ e.tid = (x.gr.thread l).tid ∧
        e.dst = some ⟨false, x.grp, l, x.gr.vi d, 1⟩ ∧ e.kind = .value [⟨v, .full⟩] ∧
        (match coreLookup x.s x.k.stack x.k.core x.k.part (addressOf x.hints i 4 (x.gr.vregsAt (x.gr.thread l) a.f 2)) with
          | .state none => v = 0
          | .state (some n) => v = BitVec.ofNat 32 n
          | .page tr => v.getLsbD 0 = true ∧ v.getLsbD 1 = false ∧
              bits v 3 2 = (if tr.shift = 16 then 0 else if tr.shift = 21 then 1 else 2) ∧ bits v 5 4 = tr.ordering ∧
              v.getLsbD 8 = tr.write ∧ v.getLsbD 9 = tr.execute ∧ v.getLsbD 10 = tr.shared ∧
              v.getLsbD 11 = tr.privileged))

/-- R227, R228: an atomic of one lane at an aligned address of a page with write permission is in flight with its operand,
and where it returns a value its destination is empty.
R216, R227: when an integer atomic in flight is performed, its word is read and written as one, and the old value
fills its destination.
Readings of the model that it rests on: entries 18 and 99. -/
def Obligations.Atomics : Prop :=
  (∀ (w64 : Bool) (d : Fld) (a b : Src) (o : AtOrd) (q : RedOrd) (x : Site) (l : Nat) (va : Addr) (tr : Trans),
    x.act = [l] → va = BitVec.ofNat 56 (pairNat (x.gr.vregsAt (x.gr.thread l) a.f 2)) →
    outcome (laneLookup x.s x.k.stack x.k.core x.gr.cluster l x.k.part va) va .store x.k.priv = .ok tr →
    region? (tr.pa va.toNat) ≠ some .host →
    ∀ p ∈ (atoms w64 d a b o).map (fun p => (p, true)) ++ (atomreds a b q).map (fun p => (p, false)),
    va.toNat % (4 * width p.1.2.2) = 0 →
    watchMask x.s x.k (x.gr.thread l) va (4 * width p.1.2.2) watchAtomic = 0 →
    Clean (x.gr.vregsAt (x.gr.thread l) a.f 2 ++ x.gr.vregsAt (x.gr.thread l) b.f (operands p.1.2.1 p.1.2.2)) →
    CanAccess x ⟨(if p.2 then [vDst d (width p.1.2.2)] else []) ++ [vSrc 1 a 2, vSrc 2 b (operands p.1.2.1 p.1.2.2)],
      ⟨false, false, false, false, true, true⟩, .any⟩ →
    ∃ t e y c, exec p.1.1 x.s = .next t ∧
      Started x t (fun g => g) (fun _ u =>
        if p.2 then { u.next with regs := markEmpty u.regs (x.gr.vi d) (width p.1.2.2) } else u.next) ∧
      t.accesses = x.s.accesses ++ [e] ∧ e.blk = x.blk ∧ e.tid = (x.gr.thread l).tid ∧
      e.kind = .atom p.1.2.1 p.1.2.2 y c ∧ e.pieces = [⟨.mem, tr.pa va.toNat, 4 * width p.1.2.2⟩] ∧
      e.dst = (if p.2 then some ⟨false, x.grp, l, x.gr.vi d, width p.1.2.2⟩ else none) ∧
      y.toNat = operandOf p.1.2.1 p.1.2.2 (x.gr.vregsAt (x.gr.thread l) b.f (operands p.1.2.1 p.1.2.2)) ∧
      c.toNat = comparandOf p.1.2.1 p.1.2.2 (x.gr.vregsAt (x.gr.thread l) b.f (operands p.1.2.1 p.1.2.2))) ∧
  (∀ (s : State) (a : Access) (k : Block) (g l pa new : Nat) (op : AtomOp) (w64 : Bool) (y c : DWord) (ms : List Move),
    s.mem.wf = true → Numbered s → InFlight s a k g l → Reachable s k a pa (4 * width w64) → a.kind = .atom op w64 y c →
    atomInt op (32 * width w64) (leNat (s.mem.read pa (4 * width w64))) y.toNat c.toNat = some new →
    s.agenda = .perform a.id :: ms →
    ∃ t, step s = .next t ∧ t.mem.read pa (4 * width w64) = leBytes (4 * width w64) new ∧
      (∀ z, (z < pa ∨ pa + 4 * width w64 ≤ z) → t.mem.get z = s.mem.get z) ∧
      unpassed t.accesses = unpassed (s.accesses.filter (fun b => b.id != a.id)) ∧ t.agenda = ms ∧
      (∀ d, a.dst = some d → d.uni = false →
        (t.thread? a.blk g l).map (·.regs) = (s.thread? a.blk g l).map (fun u => writeRun d.idx
          ((List.range (width w64)).map (fun j =>
            ⟨BitVec.ofNat 32 (leNat (s.mem.read pa (4 * width w64)) / 2 ^ (32 * j)), .full⟩)) u.regs)))

/-- R187 to R205: the float forms write the element results, rounded once, and set their flags in k.fmode; poison is carried
through and sets no flag.
Readings of the model that it rests on: entry 7. -/
def Obligations.FloatArithmetic : Prop :=
  ∀ (t : FTy) (d : Fld) (a b : Src) (c : Fld) (v : SrcB),
    (∀ f ∈ floatForms t d a b c v, Completes f.instr f.form (fun _ => True) (fun _ g => g)
      (fun x _ u => floatThread x d f.regs f.out (f.srcs x u) (f.res x u) u)) ∧
    (∀ f ∈ floatFunctions d a, Completes f.1 (Form.of [vDst d f.2.1.regs, vSrc 1 a f.2.1.regs]) (fun _ => True) (fun _ g => g)
      (fun x _ u => floatThread x d f.2.1.regs f.2.1 (x.gr.vregsAt u a.f f.2.1.regs)
        ((elements f.2.1 (x.gr.vregsAt u a.f f.2.1.regs)).map
          (f.2.2 (ftyFmt f.2.1) (u.fmode.getLsbD 3) (u.fmode.getLsbD 4))) u))

/-- R201, R204: classification of each element into one register, and the comparison of the low elements. -/
def Obligations.FloatTests : Prop :=
  ∀ (t : FTy) (d : Fld) (a : Src) (b : SrcB) (p : BitVec 3) (c : FCond),
    Completes (.fclass t d a) (Form.of [vDst d, vSrc 1 a t.regs]) (fun _ => True) (fun _ g => g)
      (fun x _ u => floatThread x d 1 .f16 (x.gr.vregsAt u a.f t.regs)
        ((elements t (x.gr.vregsAt u a.f t.regs)).map (fun e => (classF (ftyFmt t) e, 0))) u) ∧
    Completes (.floatCmp t p c a b) ⟨[vSrc 1 a t.regs, bSrc b t.regs], ⟨false, false, true, false, false, false⟩, .any⟩
      (fun x => ∀ l ∈ x.act, Clean (sources x a b t.regs t.regs (x.gr.thread l))) (fun _ g => g)
      (fun x _ u =>
        let e (rs : List Reg) (neg : Bool) : FV :=
          readF (ftyFmt t) (u.fmode.getLsbD 3) (inverted t neg ((elements t rs).getD 0 0))
        (u.setPred p (fcondHolds c (cmpF (e (x.gr.vregsAt u a.f t.regs) (hintMods x.hints).nega)
          (e (x.gr.bRegs u b t.regs) (hintMods x.hints).negb)))).next)

/-- R207 to R210: conversions between float formats, between floats and integers, and packing.
Readings of the model that it rests on: entry 10. -/
def Obligations.FloatConversions : Prop :=
  ∀ (d : Fld) (a : Src) (dst src : Fmt) (it : IntTy) (ft : FTy) (sat : Bool) (r : Rnd) (el : PackElem) (ix : BitVec 3),
    Completes (.castFloat d a dst src sat r) (Form.of [vDst d dst.regs, vSrc 1 a src.regs]) (fun _ => True) (fun _ g => g)
      (fun x _ u => convThread x d dst.regs r (x.gr.vregsAt u a.f src.regs) (fun m =>
        let y := deliverF dst sat (u.fmode.getLsbD 4) m false
          (readF src (u.fmode.getLsbD 3) (number (x.gr.vregsAt u a.f src.regs) % 2 ^ fmtWidth src))
        (inRegs dst.regs y.1, y.2)) u) ∧
    Completes (.castIntFloat d a true it ft sat r) (Form.of [vDst d it.regs, vSrc 1 a (ftyFmt ft).regs])
      (fun _ => True) (fun _ g => g)
      (fun x _ u => convThread x d it.regs r (x.gr.vregsAt u a.f (ftyFmt ft).regs) (fun m =>
        let y := deliverI (rangeOf (intSigned it) (intWidth it)).1 (rangeOf (intSigned it) (intWidth it)).2 m
          (readF (ftyFmt ft) (u.fmode.getLsbD 3) (number (x.gr.vregsAt u a.f (ftyFmt ft).regs) % 2 ^ fmtWidth (ftyFmt ft)))
        (inRegs it.regs (y.1 % 2 ^ 64).toNat, y.2)) u) ∧
    Completes (.castIntFloat d a false it ft sat r) (Form.of [vDst d (ftyFmt ft).regs, vSrc 1 a it.regs])
      (fun _ => True) (fun _ g => g)
      (fun x _ u => convThread x d (ftyFmt ft).regs r (x.gr.vregsAt u a.f it.regs) (fun m =>
        let n := number (x.gr.vregsAt u a.f it.regs) % 2 ^ intWidth it
        let z : Int := if intSigned it then signedN (intWidth it) n else n
        let y := deliverF (ftyFmt ft) sat (u.fmode.getLsbD 4) m false (.fin (decide (z < 0)) z.natAbs 0)
        (inRegs (ftyFmt ft).regs y.1, y.2)) u) ∧
    Completes (.pack d a el ix sat r) (Form.of [vMod d, vSrc 1 a]) (fun _ => True) (fun _ g => g)
      (fun x _ u => convThread x d 1 r [x.gr.vreg u a.f, x.gr.vreg u d] (fun m =>
        let w := packWidth el
        let e := packElem el sat m (readF .f32 (u.fmode.getLsbD 3) (x.gr.vreg u a.f).val.toNat)
        let lo := w * ix.toNat
        let m : Word := BitVec.ofNat 32 ((2 ^ w - 1) * 2 ^ lo)
        ([⟨((x.gr.vreg u d).val &&& ~~~m) ||| BitVec.ofNat 32 (e.1 * 2 ^ lo), .full⟩], e.2)) u)

/-- R196, R211: the generator and the mode register of each thread. -/
def Obligations.GeneratorAndMode : Prop :=
  ∀ (d : Fld) (a : Src),
    Completes (.rngSeed a) (Form.of [vSrc 1 a 2]) (fun x => ∀ l ∈ x.act, Clean (x.gr.vregsAt (x.gr.thread l) a.f 2))
      (fun _ g => g)
      (fun x _ u =>
        let n := pairNat (x.gr.vregsAt u a.f 2)
        Thread.next { u with gen := BitVec.ofNat 64 (if n = 0 then 2 ^ 32 + 1 else n) }) ∧
    Completes (.rngNext d) (Form.of [vDst d]) (fun _ => True) (fun _ g => g)
      (fun x _ u =>
        let s1 := u.gen ^^^ (u.gen <<< 13)
        let s2 := s1 ^^^ (s1 >>> 7)
        let s3 := s2 ^^^ (s2 <<< 17)
        let v := u.setRegs (x.gr.vi d) [⟨BitVec.ofNat 32 (s3.toNat * 0xC3A5_2D97_6E1B_F04B % 2 ^ 64 / 2 ^ 32), .full⟩]
        Thread.next { v with gen := s3 }) ∧
    Completes (.fmodeRd d) (Form.of [vDst d]) (fun _ => True) (fun _ g => g)
      (fun x _ u => (u.setRegs (x.gr.vi d) [⟨u.fmode, .full⟩]).next) ∧
    Completes (.fmodeWr a) (Form.of [vSrc 1 a]) (fun x => ∀ l ∈ x.act, Clean [x.gr.vreg (x.gr.thread l) a.f]) (fun _ g => g)
      (fun x _ u =>
        let v := (x.gr.vreg u a.f).val &&& 0x1F1F
        Thread.next { u with fmode := if 5 ≤ v.toNat % 8 then v &&& 0x1F18 else v })

/-- R230, R231: a fence that finds none of its thread's earlier accesses in flight, and for a release none that those follow
(R236), lets the thread go on; one that finds some makes it wait for them.
Readings of the model that it rests on: entries 18, 28 and 92. -/
def Obligations.Fences : Prop :=
  ∀ (sc : Scope) (c : FenceClass) (e m : BitVec 6),
    ∀ p ∈ ([(.fence sc c, fun a => c != .acq || a.kind.reads, c != .acq), (.fenceX e m, fun _ => e.getLsbD 0, e.getLsbD 0)] :
      List (Instr × (Access → Bool) × Bool)),
    let first (x : Site) (l : Nat) : List Nat := (pending x l p.2.1).map (·.id) ++
      if p.2.2 then behindOf x.s x.blk (x.gr.thread l).tid else []
    (∀ x : Site, x.Issues → Clear (Form.of []) x.k x.gr x.act x.hints →
      (∀ l ∈ x.act, first x l = [] ∧ ∀ w, (x.gr.thread l).run ≠ .blocked (.fence w)) →
      ∃ t, exec p.1 x.s = .next t ∧ Started x { t with order := x.s.order } (fun g => g) (fun _ u => u.next) ∧
        t.accesses = x.s.accesses ∧ t.order.past = x.s.order.past) ∧
    ∀ (x : Site) (l : Nat), Alone x (Form.of []) l → first x l ≠ [] →
      (∀ w, (x.gr.thread l).run ≠ .blocked (.fence w)) →
      ∃ t u, exec p.1 x.s = .next t ∧ OneBlock x.s t x.blk ∧ t.thread? x.blk x.grp l = some u ∧ u.pc = x.pc ∧
        u.regs = (x.gr.thread l).regs ∧ u.run = .blocked (.fence (first x l))

/-- R232, R233, R235: an arrival that is not the last is recorded; gate.in goes on, gate.pass and gate.fold wait; gate.wait
waits only while the thread's own arrival stands.
R232, R233, R235: the last arrival completes the phase; gate.fold delivers what the contributions fold to.
R236: a thread's later accesses follow those that were in flight at the arrivals of a phase at whose end it waited.
Readings of the model that it rests on: entries 26 and 92. -/
def Obligations.BlockBarriers : Prop :=
  (∀ (n : BitVec 4) (d : Fld) (op : FoldOp) (b : SrcB) (x : Site) (l : Nat) (gt : Gate),
    (∀ p ∈ ([(.gateIn n, Form.of [], fun _ => .ready), (.gatePass n, Form.of [], fun _ => .blocked (.gate n.toNat true)),
        (.gateFold d op n b, Form.of [vDst d, bSrc b], fun x => .blocked (.fold n.toNat (x.gr.vi d)))] :
        List (Instr × Form × (Site → Run))),
      Arrives x p.2.1 l n.toNat gt →
      ∃ t u k h, exec p.1 x.s = .next t ∧ OneBlock x.s t x.blk ∧ t.thread? x.blk x.grp l = some u ∧
        u.run = p.2.2 x ∧ u.gatePending.getLsbD n.toNat = true ∧ u.regs = (x.gr.thread l).regs ∧
        u.pc = (if p.2.2 x = .ready then x.pc + 4 else x.pc) ∧
        t.block? x.blk = some k ∧ k.gates[n.toNat]? = some h ∧ h.phase = gt.phase ∧
        h.arrived = gt.arrived ++ [(x.gr.thread l).tid] ∧ h.before = gt.before ++ held x l) ∧
    (∀ p ∈ ([(true, fun pc => (.blocked (.gate n.toNat true), pc)), (false, fun pc => (.ready, pc + 4))] :
        List (Bool × (Addr → Run × Addr))),
      Alone x (Form.of []) l → (x.gr.thread l).gatePending.getLsbD n.toNat = p.1 →
      ∃ t u, exec (.gateWait n) x.s = .next t ∧ OneBlock x.s t x.blk ∧ t.thread? x.blk x.grp l = some u ∧
        u.regs = (x.gr.thread l).regs ∧ (u.run, u.pc) = p.2 x.pc ∧
        (p.1 = false → x.k.gates[n.toNat]? = some gt → ∀ i ∈ gt.ended, Flies x.s i → i ∈ u.behind))) ∧
  (∀ (n : BitVec 4) (d : Fld) (op : FoldOp) (b : SrcB) (x : Site) (l : Nat) (gt : Gate),
    (∀ i ∈ [Instr.gateIn n, .gatePass n], ArrivesLast x (Form.of []) l n.toNat gt →
      ∃ t u, exec i x.s = .next t ∧ PhaseOver x t n.toNat gt ∧ t.thread? x.blk x.grp l = some u ∧ u.run = .ready ∧
        u.pc = x.pc + 4 ∧ u.regs = (x.gr.thread l).regs ∧ u.gatePending.getLsbD n.toNat = false) ∧
    (ArrivesLast x (Form.of [vDst d, bSrc b]) l n.toNat gt →
      ∃ t u, exec (.gateFold d op n b) x.s = .next t ∧ PhaseOver x t n.toNat gt ∧ t.thread? x.blk x.grp l = some u ∧
        u.run = .ready ∧ u.pc = x.pc + 4 ∧
        u.regs = writeRun (x.gr.vi d) [folded gt op ((x.gr.bRegs (x.gr.thread l) b 1).getD 0 Reg.mk0)] (x.gr.thread l).regs))

/-- R237: an arrival at a numbered barrier is counted and its thread goes on; a wait passes where the barrier's count of
completed phases has moved beyond the thread's own, and waits where it has not. -/
def Obligations.NumberedBarriers : Prop :=
  ∀ (n : BitVec 4) (x : Site) (l : Nat) (nb : NBar), Alone x (Form.of []) l → x.k.nbars[n.toNat]? = some nb →
    (pending x l (fun _ => true) = [] →
      ∃ t u k h, exec (.nbarArrive n) x.s = .next t ∧ OneBlock x.s t x.blk ∧ t.thread? x.blk x.grp l = some u ∧
        u.run = .ready ∧ u.pc = x.pc + 4 ∧ u.regs = (x.gr.thread l).regs ∧
        t.block? x.blk = some k ∧ k.nbars[n.toNat]? = some h ∧ h.a = nb.a + 1 ∧ h.m = nb.m) ∧
    ((x.gr.thread l).nbarCount.getD n.toNat 0 ≠ nb.m →
      ∃ t u, exec (.nbarWait n) x.s = .next t ∧ OneBlock x.s t x.blk ∧ t.thread? x.blk x.grp l = some u ∧
        u.run = .ready ∧ u.pc = x.pc + 4 ∧ u.regs = (x.gr.thread l).regs ∧
        u.nbarCount = modifyAt (· + 1) n.toNat (x.gr.thread l).nbarCount) ∧
    ((x.gr.thread l).nbarCount.getD n.toNat 0 = nb.m →
      ∃ t u, exec (.nbarWait n) x.s = .next t ∧ OneBlock x.s t x.blk ∧ t.thread? x.blk x.grp l = some u ∧
        u.run = .blocked (.nbar n.toNat) ∧ u.pc = x.pc ∧ u.regs = (x.gr.thread l).regs)

/-- R239 to R241: mon.arm records its word; mon.wait goes on where no monitor is armed or the word has changed, and waits
where it has not; a poll of a waiting thread ends the wait when the word has changed.
Readings of the model that it rests on: entries 22, 27 and 100. -/
def Obligations.Monitors : Prop :=
  (∀ (a : Src) (x : Site) (l : Nat) (va : Addr) (tr : Trans),
    x.act = [l] → CanAccess x ⟨[vSrc 1 a 2], ⟨false, false, false, false, true, false⟩, .any⟩ →
    va = BitVec.ofNat 56 (pairNat (x.gr.vregsAt (x.gr.thread l) a.f 2)) → Clean (x.gr.vregsAt (x.gr.thread l) a.f 2) →
    va.toNat % 4 = 0 → watchMask x.s x.k (x.gr.thread l) va 4 watchLoad = 0 → held x l = [] →
    outcome (laneLookup x.s x.k.stack x.k.core x.gr.cluster l x.k.part va) va .load x.k.priv = .ok tr →
    Numbered x.s → x.s.poisoned ⟨.mem, tr.pa va.toNat, 4⟩ = false → x.s.unreachablePA (tr.pa va.toNat) x.k.stack = false →
    ∃ t, exec (.monArm a) x.s = .next t ∧ t.accesses = x.s.accesses ∧
      Started x { t with order := x.s.order } (fun g => g) (fun _ u =>
        { u.next with monitor := some ⟨va, tr.pa va.toNat, tr.shift, x.s.memWord (tr.pa va.toNat), false⟩ })) ∧
  (∀ (x : Site) (l : Nat), Alone x (Form.of []) l →
    ((x.gr.thread l).monitor = none → ∃ t u, exec .monWait x.s = .next t ∧ OneBlock x.s t x.blk ∧
      t.thread? x.blk x.grp l = some u ∧ u.run = .ready ∧ u.pc = x.pc + 4) ∧
    ∀ m, (x.gr.thread l).monitor = some m → m.stale = false → m.va.toNat % 2 ^ m.shift ≤ m.pa → x.s.upsets = [] →
      x.s.poisoned ⟨.mem, m.pa, 4⟩ = false → x.s.unreachablePA m.pa x.k.stack = false →
      ∃ t u, exec .monWait x.s = .next t ∧ OneBlock x.s t x.blk ∧ t.thread? x.blk x.grp l = some u ∧
        u.regs = (x.gr.thread l).regs ∧
        (x.s.memWord m.pa ≠ m.value → u.run = .ready ∧ u.pc = x.pc + 4 ∧ u.monitor = none) ∧
        (x.s.memWord m.pa = m.value → u.run = .blocked .monitor ∧ u.pc = x.pc ∧ u.monitor = some m)) ∧
  (∀ (s : State) (b g l : Nat) (k : Block) (u : Thread) (m : Monitor),
    s.block? b = some k → k.phase = .resident → s.thread? b g l = some u → u.run = .blocked .monitor →
    u.monitor = some m → m.stale = false → m.va.toNat % 2 ^ m.shift ≤ m.pa → s.upsets = [] → s.memWord m.pa ≠ m.value →
    ∃ t v, exec (.monitorPoll b g l) s = .next t ∧ OneBlock s t b ∧ t.thread? b g l = some v ∧ v.run = .ready ∧
      v.pc = u.pc + 4 ∧ v.monitor = none ∧ v.regs = u.regs)

/-- R243 to R245: the semaphore instructions of a bundle on a semaphore of this module, each once for the bundle.
R243: an increment in flight adds to its semaphore as one step; no other byte changes. R244: a wait at a semaphore of
another module is looked at again, and either every thread of it goes on or none does.
Readings of the model that it rests on: entries 22, 24, 98 and 101. -/
def Obligations.Semaphores : Prop :=
  (∀ (d : Fld) (a b : Src) (x : Site) (va : Addr) (tr : Trans), x.act ≠ [] →
    (CanAccess x (Form.of [uSrc 1 a 2, uSrc 2 b]) → SemAt x a .store va tr → Clean [x.gr.sreg b.f] →
      ∃ t e src, exec (.fsemInc a b) x.s = .next t ∧ Started x t (fun g => g) (fun _ u => u.next) ∧
        t.accesses = x.s.accesses ++ [e] ∧ e.blk = x.blk ∧ e.kind = .fsemInc (x.gr.sreg b.f).val src ∧
        e.pieces = [⟨.mem, tr.pa va.toNat, 8⟩] ∧ e.rel = true ∧ e.dst = none ∧
        ∀ l ∈ x.act, ∀ y ∈ pending x l (fun _ => true), y.id ∈ e.after) ∧
    (CanAccess x (Form.of [uSrc 1 a 2, uSrc 2 b]) → SemAt x a .load va tr → Clean [x.gr.sreg b.f] → Ready x → Numbered x.s →
      x.s.poisoned ⟨.mem, tr.pa va.toNat, 8⟩ = false → x.s.unreachablePA (tr.pa va.toNat) x.k.stack = false →
      ((∀ l ∈ x.act, held x l = []) → region? (tr.pa va.toNat) ≠ some .host →
        peerWaits x.s x.k.stack [⟨.mem, tr.pa va.toNat, 8⟩] = false →
        ∃ t, exec (.fsemWait a b) x.s = .next t ∧ t.accesses = x.s.accesses ∧ SameBytes x.s t ∧
          ∀ l ∈ x.act, ∃ u, t.thread? x.blk x.grp l = some u ∧ u.regs = (x.gr.thread l).regs ∧
            (u.run, u.pc) = if (x.gr.sreg b.f).val.toNat ≤ (x.s.memDWord (tr.pa va.toNat)).toNat then (.ready, x.pc + 4)
              else (.blocked (.fsem va (x.gr.sreg b.f).val), x.pc)) ∧
      (region? (tr.pa va.toNat) = some .host →
        ∃ t e, exec (.fsemWait a b) x.s = .next t ∧ t.accesses = x.s.accesses ++ [e] ∧ SameBytes x.s t ∧ e.blk = x.blk ∧
          e.kind = .fsemWait (x.gr.sreg b.f).val x.word ∧ e.pieces = [⟨.mem, tr.pa va.toNat, 8⟩] ∧ e.acq = true ∧
          ∀ l ∈ x.act, ∃ u, t.thread? x.blk x.grp l = some u ∧ u.regs = (x.gr.thread l).regs ∧
            u.run = .blocked (.fsem va (x.gr.sreg b.f).val) ∧ u.pc = x.pc)) ∧
    (CanAccess x (Form.of [uDst d, uSrc 1 a 2]) → SemAt x a .load va tr →
      ∃ t e, exec (.fsemRd d a) x.s = .next t ∧
        Started x t (fun g => { g with sregs := markEmpty g.sregs (x.gr.si d) 1 }) (fun _ u => u.next) ∧
        t.accesses = x.s.accesses ++ [e] ∧ e.blk = x.blk ∧ e.kind = .fsemRd ∧ e.pieces = [⟨.mem, tr.pa va.toNat, 8⟩] ∧
        e.dst = some ⟨true, x.grp, 0, x.gr.si d, 1⟩)) ∧
  ((∀ (s : State) (a : Access) (k : Block) (g l pa : Nat) (n : Word) (src : Subject) (ms : List Move),
    s.mem.wf = true → InFlight s a k g l → Reachable s k a pa 8 → a.kind = .fsemInc n src → s.agenda = .perform a.id :: ms →
    ∃ t, step s = .next t ∧
      t.mem.read pa 8 = leBytes 8 (((s.memDWord pa).toNat + n.toNat) % 2 ^ 64) ∧
      (∀ z, (z < pa ∨ pa + 8 ≤ z) → t.mem.get z = s.mem.get z) ∧
      unpassed t.accesses = unpassed (s.accesses.filter (fun b => b.id != a.id)) ∧ t.agenda = ms) ∧
  (∀ (s : State) (b g : Nat) (k : Block) (gr : Group), s.block? b = some k → s.group? b g = some gr → k.phase = .resident →
    (∃ u ∈ gr.threads, ∃ va v, u.run = .blocked (.fsem va v) ∧ inWindow va = true ∧
      s.unreachable.contains (rowModule (fabricRowOf s k.part va)) = false) →
    ∃ t, exec (.fsemRecheck b g) s = .next t ∧ t.moves = s.moves + 1 ∧ SameBytes s t ∧
      ((∀ l, t.thread? b g l = s.thread? b g l) ∨
       (∀ l u va v, s.thread? b g l = some u → u.run = .blocked (.fsem va v) → inWindow va = true →
        s.unreachable.contains (rowModule (fabricRowOf s k.part va)) = false → t.thread? b g l = some u.next))))

/-- R100: exit ends the threads whose guard is true; the others of the bundle go on at the next word. -/
def Obligations.Exit : Prop :=
  ∀ x : Site, x.Issues → Clear (Form.of []) x.k x.gr x.act x.hints → x.act ≠ [] →
    ∃ t, exec .exit x.s = .next t ∧ SameBytes x.s t ∧ flightFrame (unordered t) = flightFrame (unordered x.s) ∧
      (∀ b', b' ≠ x.blk → t.block? b' = x.s.block? b') ∧
      (∀ l ∈ x.act, ∃ u, t.thread? x.blk x.grp l = some u ∧ u.run = .exited ∧ u.tid = (x.gr.thread l).tid ∧
        u.monitor = none ∧ u.regs.map (·.val) = (x.gr.thread l).regs.map (·.val)) ∧
      (∀ l ∈ x.lanes, l ∉ x.act → ∃ u, t.thread? x.blk x.grp l = some u ∧ u.run = .ready ∧
        u.pc = x.pc + 4 ∧ u.regs = (x.gr.thread l).regs)

/-- R104: a conv whose mask names no other thread goes on; one whose mask names a thread of the group that has neither
exited nor reached the word waits; when the wait episode is over, every thread that waits at the word goes on.
R105 to R109: a regroup whose thread has no empty register arrives in the window of its block, at once or when its
registers are full; when the window closes, every thread that arrived goes on at the next word with its registers.
Readings of the model that it rests on: entries 16 and 107. -/
def Obligations.ConvergenceAndRegrouping : Prop :=
  ((∀ (b : Src) (x : Site) (l : Nat), Alone x (Form.of [uSrc 2 b]) l → Clean [x.gr.sreg b.f] →
    ((∀ j, j ≠ l → j < x.gr.threads.length → (x.gr.sreg b.f).val.getLsbD j = false) →
      ∃ t u, exec (.conv b) x.s = .next t ∧ OneBlock x.s t x.blk ∧ t.thread? x.blk x.grp l = some u ∧
        u.run = .ready ∧ u.pc = x.pc + 4 ∧ u.regs = (x.gr.thread l).regs) ∧
    (∀ j, j ≠ l → j < x.gr.threads.length → (x.gr.sreg b.f).val.getLsbD j = true → (x.gr.thread j).live = true →
      convAt x.pc x.hints (x.gr.thread j) = false →
      ∃ t u, exec (.conv b) x.s = .next t ∧ OneBlock x.s t x.blk ∧ t.thread? x.blk x.grp l = some u ∧
        u.run = .blocked (.conv (x.gr.sreg b.f).val) ∧ u.pc = x.pc ∧ u.hints = x.hints ∧ u.regs = (x.gr.thread l).regs)) ∧
  (∀ (s : State) (b : Nat) (k : Block) (e : ConvEpisode), s.block? b = some k →
    k.convs.find? (fun f => f.grp == e.grp && f.pc == e.pc && decide (f.began + 256 ≤ s.now k.stack k.core)) = some e →
    (ctxFree s k = false → exec (.convEpisodeEnd b e.grp e.pc) s = .next s) ∧
    (ctxFree s k = true → ∃ t, exec (.convEpisodeEnd b e.grp e.pc) s = .next t ∧ OneBlock s t b ∧
      (∀ l, t.thread? b e.grp l = (s.thread? b e.grp l).map (fun u => if convAt e.pc e.hints u then u.next else u)) ∧
      ∀ g l, g ≠ e.grp → t.thread? b g l = s.thread? b g l))) ∧
  ((∀ (a : Src) (x : Site), x.Issues →
    Clear (Form.of [if a.chk then vSrc 1 a else ⟨1, false, a.f, 1, false, false, false⟩]) x.k x.gr x.act x.hints → x.act ≠ [] →
    (∀ l ∈ x.act, Clean [x.gr.vreg (x.gr.thread l) a.f] ∧ ∀ r ∈ (x.gr.thread l).regs, r.st ≠ .empty) →
    ∃ t w, exec (.regroup a) x.s = .next t ∧
      Does x t id (fun k => { k with window := some w }) (fun g => g)
        (fun _ u => { u with run := .blocked .regroupWindow, rwdog := 0 }) ∧
      w.opened = (match x.k.window with
        | none => x.s.now x.k.stack x.k.core
        | some v => v.opened) ∧
      w.arrived = x.k.window.elim [] (·.arrived) ++ x.act.map (fun l => (x.grp, l, (x.gr.vreg (x.gr.thread l) a.f).val))) ∧
  (∀ (s : State) (b g l : Nat) (k : Block) (gr : Group) (u : Thread) (key : Word), s.block? b = some k →
    s.group? b g = some gr → s.thread? b g l = some u → k.phase = .resident → u.run = .blocked .regroupRegs →
    ctxFree s k = true → (∀ r ∈ u.regs, r.st ≠ .empty) → regroupKey s k gr u = some key →
    ∃ t k', exec (.regroupArrival b g l) s = .next t ∧ OneBlock s t b ∧ t.block? b = some k' ∧
      t.thread? b g l = some { u with run := .blocked .regroupWindow, rwdog := 0 } ∧
      k'.window.map (·.arrived) = some (k.window.elim [] (·.arrived) ++ [(g, l, key)])) ∧
  (∀ (s : State) (b : Nat) (k : Block) (w : RegroupWindow), s.block? b = some k → k.window = some w →
    (ctxFree s k = false → exec (.regroupWindowClose b) s = .next s) ∧ (ctxFree s k = true → (w.opened + 256 ≤ s.now k.stack k.core ∨ ∀ u ∈ k.allThreads, u.live = true → u.run = .parked ∨ u.run = .blocked .regroupWindow) →
    (w.arrived.map (fun p => (p.1, p.2.1))).Nodup → (∀ p ∈ w.arrived, (s.thread? b p.1 p.2.1).isSome) →
    ∃ t k', exec (.regroupWindowClose b) s = .next t ∧ OneBlock s t b ∧ t.block? b = some k' ∧ k'.window = none ∧
      ∀ p ∈ w.arrived, ∀ u, s.thread? b p.1 p.2.1 = some u → ∃ g l v, t.thread? b g l = some v ∧ v.tid = u.tid ∧
        v.run = .ready ∧ v.pc = u.pc + 4 ∧ v.regs = u.regs ∧ v.preds = u.preds)))

/-- R253, R270 to R272: xcopy starts a copy that its engine accepts and makes the token empty, and answers a descriptor that
it does not accept with status 2; xcopy.cancel marks the copy tied to a token, and xcopy.stat reads how far it is.
Readings of the model that it rests on: entries 44, 46 and 102. -/
def Obligations.CopyInstructions : Prop :=
  ∀ (xf : Xform) (d : Fld) (a : Src) (f : Fld),
    let idx (x : Site) : List Nat := if xf = .gath then gatherTable x.k (CopyDesc.of (uniWords x a 8)) else []
    let pre (ok : Bool) (x : Site) : Prop := Clean (x.gr.sregsAt a.f 8) ∧
      copiesOn x.s x.k.stack x.k.core +
        ((slotTickets x.s x.k.stack x.k.core).filter (· < slotTicket x.s x.gr x.act)).length < 256 ∧
      x.s.upsets = [] ∧ x.k.scratchPoison = [] ∧ (xf = .gath → x.s.order.past = []) ∧
      copyOk (CopyDesc.of (uniWords x a 8)) xf (idx x) = ok
    Uni (.xcopy xf d a) (Form.of [uDst d, uSrc 1 a 8]) (pre true) (fun s => { afterRead s with copies := [] })
      (fun _ k => k) (fun x => hollow x d)
      (fun x t => ∃ c, t.copies = x.s.copies ++ [c] ∧ c.stack = x.k.stack ∧ c.core = x.k.core ∧ c.blk = x.blk ∧
        c.grp = x.grp ∧ c.tok = x.gr.si d ∧ c.xf = xf ∧ c.desc = uniWords x a 8 ∧ c.idx = idx x ∧ c.done = [] ∧
        c.bytes = 0 ∧ c.status = 0 ∧ c.cancelled = false) ∧
    Uni (.xcopy xf d a) (Form.of [uDst d, uSrc 1 a 8]) (pre false) afterRead (fun _ k => k) (fun x => put x d 0x4000_0000)
      (fun _ _ => True) ∧
    Uni (.xcopyCancel f) (Form.of [uName 1 f]) (fun _ => True) (fun s => { s with copies := [] }) (fun _ k => k) (fun _ g => g)
      (fun x t => t.copies = x.s.copies.map (fun c =>
        if c.blk = x.blk ∧ c.grp = x.grp ∧ c.tok = x.gr.si f then { c with cancelled := true } else c)) ∧
    Uni (.xcopyStat d f) (Form.of [uDst d, uName 1 f]) (fun _ => True) id (fun _ k => k)
      (fun x => put x d (match x.s.copies.find? (fun c => c.blk == x.blk && c.grp == x.grp && c.tok == x.gr.si f) with
        | some c => 0xC000_0000 + BitVec.ofNat 32 c.bytes
        | none => 0xE000_0000)) (fun _ _ => True)

/-- R253, R265, R266: a chunk of a copy of one row within the scratchpad moves its bytes and no others; a copy that has
performed every chunk, was cancelled or has failed writes its completion word and is over.
Readings of the model that it rests on: entries 45 and 109. -/
def Obligations.CopyProgress : Prop :=
  (∀ (s : State) (c : Copy) (k : Block) (n o1 o2 len u m : Nat), s.copies.find? (fun e => e.id == c.id) = some c →
    s.block? c.blk = some k → copyRuns s c = true → (∀ w ∈ c.waits, w.1 = n → w.2 ∉ k.missing) → n ∉ c.done → c.xf = .none →
    c.desc = [BitVec.ofNat 32 o1, 0x4000_0000, BitVec.ofNat 32 o2, 0x4000_0000, BitVec.ofNat 32 len, 0, 0, 0] →
    k.scratchSize < 2 ^ 32 → o1 + len ≤ k.scratchSize → o2 + len ≤ k.scratchSize → (o1 + len ≤ o2 ∨ o2 + len ≤ o1) →
    k.scratch.wf = true → k.scratchPoison = [] → s.upsets = [] → s.order.past = [] → (∀ e ∈ s.copies, e.id = c.id → e = c) →
    u = chunkStart c n → m = chunkLen c u → u < len →
    ∃ t k', exec (.copyChunk c.id n) s = .next t ∧ t.block? c.blk = some k' ∧ k'.groups = k.groups ∧ t.mem = s.mem ∧
      t.parts = s.parts ∧ u + m ≤ len ∧ 0 < m ∧
      (∀ y, k'.scratch.get y = if o2 + u ≤ y ∧ y < o2 + u + m then k.scratch.get (o1 + (y - o2)) else k.scratch.get y) ∧
      t.copies = s.copies.map (fun e =>
        if e.id = c.id then { e with done := e.done ++ [n], units := e.units + m, bytes := e.bytes + m } else e)) ∧
  (∀ (s : State) (c : Copy) (k : Block) (gr : Group), s.copies.find? (fun e => e.id == c.id) = some c → c.slot = true →
    s.block? c.blk = some k → s.group? c.blk c.grp = some gr → (k.phase = .resident ∨ k.phase = .evicted) →
    (∀ cx, s.ctx? k.part k.stack k.job = some cx → cx.step = none) → c.status < 8 → c.bytes < 2 ^ 29 →
    (unitCount (CopyDesc.of c.desc) c.xf ≤ c.units ∨ c.cancelled = true ∨ c.status ≠ 0) →
    ∃ t st, exec (.copyCompletion c.id) s = .next t ∧ OneBlock s { t with copies := s.copies } c.blk ∧
      t.copies = s.copies.filter (fun e => e.id != c.id) ∧
      (c.status ≠ 0 → st = c.status) ∧
      (c.status = 0 → unitCount (CopyDesc.of c.desc) c.xf ≤ c.units → st = 0) ∧
      (c.status = 0 → c.units < unitCount (CopyDesc.of c.desc) c.xf → st = 1) ∧
      t.group? c.blk c.grp = some { gr with sregs := writeRun c.tok [⟨BitVec.ofNat 32 (st * 2 ^ 29 + c.bytes), .full⟩] gr.sregs })

/-- R154 to R158, R161, R167 to R169: what service of a page, a failed host access, parity retries, a lane swap and the end of an
invalidation's sweep do. That the failed store is reported with the number 2 (entry 70), and that the transfer log keeps every
record (entry 108), are the model's choices.
Readings of the model that it rests on: entries 8, 21, 22, 70, 96 and 108. -/
def Obligations.MemoryEvents : Prop :=
  (∀ (s : State) (p : Nat) (va : Addr), (s.part p).hostQueue = [] → s.fabricIn = [] →
    (∀ k ∈ s.blocks, ∀ u ∈ k.allThreads, ∀ m, u.monitor = some m → m.stale = false) →
    let page : Addr := BitVec.ofNat 56 (va.toNat / 65536 * 65536)
    ∃ t, exec (.pageServiceComplete p va) s = .next t ∧ SameBytes s t ∧
      (∀ b k, s.block? b = some k → k.part ≠ p → t.block? b = some k) ∧
      (∀ b k, s.block? b = some k → k.part = p → ∃ k', t.block? b = some k' ∧ k'.missing = k.missing.filter (· != page) ∧
        k'.seq.wait ≠ .page page ∧ (k.seq.wait ≠ .page page → k'.seq = k.seq) ∧
        ∀ g l u, s.thread? b g l = some u → t.thread? b g l = some (match u.run with
          | .blocked (.pages vas true) => if ∀ v ∈ vas, v ∉ k'.missing then
              { u with pc := u.pc - BitVec.ofNat 56 (4 * u.hints.length), hints := [], run := .ready } else u
          | _ => u)) ∧
      t.accesses.map (·.id) = s.accesses.map (·.id) ∧
      ∀ a ∈ t.accesses, ∀ k, s.block? a.blk = some k → k.part = p →
        page ∉ a.waits) ∧
  (∀ (s : State) (a : Access) (k : Block) (g l pa n : Nat) (w : LdW) (nf : Bool) (d : FillDst),
    InFlight s a k g l → a.pieces = [⟨.mem, pa, n⟩] → region? pa = some .host → mayPerform s a = true →
    a.kind = .load w nf → a.dst = some d → d.uni = false →
    ∃ t, exec (.hostCompletionError a.id) s = .next t ∧ SameBytes s t ∧
      t.accesses = s.accesses.filter (fun b => b.id != a.id) ∧
      t.thread? a.blk g l = (s.thread? a.blk g l).map (fun u =>
        { u with regs := writeRun d.idx (List.replicate d.n ⟨0, if nf then .full else .poisoned⟩) u.regs })) ∧
  (∀ (s : State) (a : Access) (k : Block) (g l pa n : Nat) (bs : List Byte),
    InFlight s a k g l → a.pieces = [⟨.mem, pa, n⟩] → a.later = [] → region? pa = some .host → mayPerform s a = true →
    a.kind = .store bs →
    ∃ t, exec (.hostCompletionError a.id) s = .next t ∧ SameBytes s t ∧
      t.accesses = s.accesses.filter (fun b => b.id != a.id) ∧ t.reports = s.reports ++ [(k.stack, 2)] ∧
      t.hostErrors = s.hostErrors ++ [(k.stack, 2, k.part + 1)]) ∧
  (∀ (s : State) (st : Stack) (v : Vault) (k i off beat l n : Nat) (wr : Bool), s.stks[k]? = some st → st.vaults[i]? = some v →
    k < 2 → i < 32 → off < 2 ^ 30 → beat < 8 → l < 264 → (∀ p ∈ v.swaps, p.1 ≠ l ∧ p.2 ≠ l) → 1 ≤ n → n ≤ 7 →
    ∃ t st' v' r, exec (.parityRetry k i off [272 * beat + l] n wr) s = .next t ∧
      { t with stks := s.stks, reports := s.reports } = s ∧ t.stks[k]? = some st' ∧ st'.vaults[i]? = some v' ∧
      st'.transferLog = st.transferLog ++ [r] ∧ (l, st.us.toNat) ∈ v'.charges ∧
      (3 ≤ (v.charges.filter (fun c => c.1 == l && decide (st.us.toNat < c.2 + 10000))).length → l ∉ v.pendingSwaps →
        l ∈ v'.pendingSwaps ∨ v'.degraded = true)) ∧
  (∀ (s : State) (st : Stack) (v : Vault) (k i l sp : Nat), s.stks[k]? = some st → st.vaults[i]? = some v →
    l ∈ v.pendingSwaps → 264 ≤ sp → sp < 272 → (∀ p ∈ v.swaps, p.1 ≠ sp ∧ p.2 ≠ sp) →
    (∀ y, 264 ≤ y → y < sp → ∃ p ∈ v.swaps, p.1 = y ∨ p.2 = y) →
    ∃ t st' v', exec (.laneSwap k i l) s = .next t ∧ { t with stks := s.stks, reports := s.reports } = s ∧
      t.stks[k]? = some st' ∧ st'.vaults[i]? = some v' ∧ v'.swaps = v.swaps ++ [(l, sp)] ∧ l ∉ v'.pendingSwaps) ∧
  (∀ (s : State) (n : Nat), ∃ t, exec (.tlbInvalidationComplete n) s = .next t ∧
    { t with stks := s.stks, blocks := s.blocks } = s ∧
    (∀ b g l, (t.thread? b g l).map (fun u => { u with monitor := none }) =
      (s.thread? b g l).map (fun u => { u with monitor := none })) ∧
    ∀ k < 2, ∀ i, (s.stack k).invals[n]? = some i →
      (∃ j, (t.stack k).invals[n]? = some j ∧ j.complete = (i.complete || invalReady s k i)) ∧
      (i.complete = false → i.removed = false → swept s k i = true →
        ∀ c, ∀ tr ∈ (t.core k c).tlb, tr.part = i.part → i.covers tr.vpage tr.shift = false))

/-- R290, R299 to R301: acc.alloc answers a null handle where the banks are not to be had, and grants them where they are
free; acc.free returns them; acc.ld reads a word, or poison; acc.zero clears a grant; mseq.start asks for the array, and
mseq.stop gives it up.
Readings of the model that it rests on: entries 35, 38 and 39. -/
def Obligations.AccumulatorInstructions : Prop :=
  ∀ (d : Fld) (a : Src) (b : SrcB) (n slot : Nat) (g : AccGrant),
    let one (x : Site) : Prop := Ready x ∧ Clean [x.gr.sreg a.f]
    let valid (x : Site) : Prop := Clean [x.gr.sreg a.f] ∧ slot < 16 ∧ g.banks < 32 ∧ x.k.accs[slot]? = some (some g) ∧
      g.freed = false ∧ g.gen ≠ 0 ∧ (x.gr.sreg a.f).val = handleOf slot g
    let held (k : Block) : Nat := (k.accs.map (fun o => o.elim 0 (·.banks))).sum
    let setAcc (o : Option AccGrant) (k : Block) : Block := { k with accs := k.accs.set slot o }
    Uni (.accAlloc d a) (Form.of [uDst d, uSrc 1 a])
      (fun x => one x ∧ (x.gr.sreg a.f).val.toNat = n ∧ (n = 0 ∨ 16 < n + held x.k ∨ none ∉ x.k.accs))
      id (fun _ k => k) (fun x => put x d 0) (fun _ _ => True) ∧
    Uni (.accAlloc d a) (Form.of [uDst d, uSrc 1 a])
      (fun x => one x ∧ (x.gr.sreg a.f).val.toNat = n ∧ 0 < n ∧ n + held x.k ≤ 16 ∧ x.k.accs.length = 16 ∧ slot < 16 ∧
        x.k.accs[slot]? = some none ∧ (∀ i, i < slot → x.k.accs[i]? ≠ some none) ∧
        (∀ h, some h ∈ x.k.accs → h.ticket < x.s.moves) ∧
        (x.s.core x.k.stack x.k.core).accQueue = [] ∧ n ≤ banksFree x.s x.k.stack x.k.core)
      (fun s => { s with moves := 0 })
      (fun x k => { setAcc (some ⟨nextCount k.accGen, n, false, x.s.moves, false, []⟩) k with accGen := nextCount k.accGen })
      (fun x => put x d (handleOf slot ⟨nextCount x.k.accGen, n, false, x.s.moves, false, []⟩)) (fun _ _ => True) ∧
    Uni (.accFree a) (Form.of [uSrc 1 a]) (fun x => valid x ∧ handleBusy x.s x.blk x.k (x.gr.sreg a.f).val = false)
      id (fun _ => setAcc none) (fun _ g => g) (fun _ _ => True) ∧
    Uni (.accFree a) (Form.of [uSrc 1 a]) (fun x => valid x ∧ handleBusy x.s x.blk x.k (x.gr.sreg a.f).val = true)
      id (fun _ => setAcc (some { g with freed := true })) (fun _ g => g) (fun _ _ => True) ∧
    Uni (.accZero a) (Form.of [uSrc 1 a]) valid id (fun _ => setAcc (some { g with words := [], zeroed := true }))
      (fun _ g => g) (fun _ _ => True) ∧
    (∀ (x : Site) (l : Nat), Alone x (Form.of [vDst d, uSrc 1 a, bSrc b]) l →
      Clean (x.gr.sreg a.f :: x.gr.bRegs (x.gr.thread l) b 1) →
      ∃ t e, exec (.accLd d a b) x.s = .next t ∧
        Started x t (fun g => g) (fun _ u => { u.next with regs := markEmpty u.regs (x.gr.vi d) 1 }) ∧
        t.accesses = x.s.accesses ++ [e] ∧ e.blk = x.blk ∧ e.tid = (x.gr.thread l).tid ∧
        e.dst = some ⟨false, x.grp, l, x.gr.vi d, 1⟩ ∧
        let w := (((x.gr.bRegs (x.gr.thread l) b 1).getD 0 Reg.mk0).val.toNat + l) % 2 ^ 32
        (valid x → w < 4096 * g.banks → e.kind = .accLd (x.gr.sreg a.f).val w) ∧
        (valid x → 4096 * g.banks ≤ w → e.kind = .value [⟨0, .poisoned⟩])) ∧
    Uni (.mseqStart a) (Form.of [uSrc 1 a 2])
      (fun x => Clean (x.gr.sregsAt a.f 2) ∧ (x.k.seq.state = .idle ∨ x.k.seq.state = .faulted))
      coreless
      (fun x k => { k with seq := { Sequencer.clear .pending (pairTarget (x.gr.sregsAt a.f 2)) with
        rows := k.seq.rows
        since := x.s.moves } })
      (fun _ g => g)
      (fun x t => core? t x.k.stack x.k.core = (core? x.s x.k.stack x.k.core).map (fun c =>
        { c with seqQueue := c.seqQueue ++ [x.blk] })) ∧
    Uni (.mseqStart a) (Form.of [uSrc 1 a 2])
      (fun x => Clean (x.gr.sregsAt a.f 2) ∧ (x.k.seq.state = .pending ∨ x.k.seq.state = .running))
      id (fun _ k => k) (fun _ g => g) (fun _ _ => True) ∧
    Uni .mseqStop (Form.of []) (fun x => x.k.seq.state = .pending ∨ (x.k.seq.state = .running ∧ x.k.seq.chain = none))
      coreless (fun _ k => { k with seq := stopped .idle k.seq }) (fun _ g => g)
      (fun x t => core? t x.k.stack x.k.core = (core? x.s x.k.stack x.k.core).map (without x.blk)) ∧
    Uni .mseqStop (Form.of []) (fun x => x.k.seq.state = .idle ∨ x.k.seq.state = .faulted)
      id (fun _ k => k) (fun _ g => g) (fun _ _ => True)

/-- R303 to R307: mhdr fills an operand slot from scratchpad; mload fills the shadow plane from its tile; mswap exchanges the
planes; mstream begins its rows; mdrain writes accumulator words out.
Readings of the model that it rests on: entries 35, 36 and 37. -/
def Obligations.StreamMatrixWords : Prop :=
  ∀ (s : State) (b : Nat) (k : Block) (pc : Addr) (w : Word), Runs s b k pc w →
    let go (q : Sequencer) : Block := { k with seq := { q with pc := pc + 4, wait := .none } }
    (∀ (x : BitVec 3) (off : BitVec 17) (img : Nat), Unspoilt s k →
      img = leNat ((List.range 32).map (fun j => k.scratch.get ((32 * off.toNat + j) % k.scratchSize))) →
      ∀ sl, slotOf img = some sl →
      sl.header.toNat = img % 2 ^ 128 ∧ sl.cur.toNat = img / 2 ^ 128 % 2 ^ 32 ∧ sl.base = sl.cur ∧
        sl.step.toNat = img / 2 ^ 160 % 2 ^ 32 ∧ sl.handle.toNat = img / 2 ^ 192 % 2 ^ 32 ∧
        sl.level = img / 2 ^ 226 % 4 ∧ sl.stride = img / 2 ^ 240 % 2 ^ 16 ∧
      ∃ t, exec (.mhdr x off) s = .next t ∧
        Becomes s t b (go { k.seq with slots := k.seq.slots.set x.toNat (some sl) })) ∧
    (∀ (x : BitVec 3) (sl : OpSlot) (p : Plane), Unspoilt s k → (∀ r ∈ k.seq.rows, r.old = false) →
      k.seq.slots[x.toNat]? = some (some sl) → sl.space = .scratch → (Hdr.of sl.header).weightsOk = true →
      planeOf (Hdr.of sl.header) ((lineRuns (Hdr.of sl.header)).map (slotBytes k sl))
        ((scaleRuns (Hdr.of sl.header)).map (slotBytes k sl)) (((metaRun (Hdr.of sl.header)).map (slotBytes k sl)).headD []) =
        some p →
      ∃ t, exec (.mload x) s = .next t ∧ Becomes s t b (go { k.seq with shadow := some p }) ∧
        ((Hdr.of sl.header).sparse = 0 → (Hdr.of sl.header).scale = 0 → (Hdr.of sl.header).layout = 0 →
          ∀ n r, n < (Hdr.of sl.header).cols → r < 128 →
            ((p.cells[n]?).bind (fun col => col[r]?)) = some ⟨r, if r < (Hdr.of sl.header).rows then
              leNat (slotBytes k sl (r * (Hdr.of sl.header).pitch, elemBytesOf (Hdr.of sl.header).fmt (Hdr.of sl.header).cols)) /
                2 ^ (elemBits (Hdr.of sl.header).fmt * n) % 2 ^ elemBits (Hdr.of sl.header).fmt else 0, none⟩)) ∧
    (∃ t, exec .mswap s = .next t ∧ Becomes s t b (go { k.seq with
      live := k.seq.shadow
      shadow := k.seq.live
      rows := k.seq.rows.map (fun r => { r with old := true }) })) ∧
    (∀ (x y : BitVec 3) (ovw chain : Bool) (sa sc : OpSlot) (p : Plane) (hd : Word) (base stride : Nat),
      k.seq.slots[x.toNat]? = some (some sa) → k.seq.slots[y.toNat]? = some (some sc) → k.seq.live = some p →
      sa.space ≠ .acc → rowFits (Hdr.of sa.header) p = true → (chain = true → k.seq.chain.isSome ∧ k.seq.broken = false) →
      accRange k sc (Hdr.of sa.header).rows p.cols = some (hd, base, stride) →
      ∃ t, exec (.mstream x y ovw chain) s = .next t ∧ Becomes s t b (go { k.seq with streams := k.seq.streams ++
        [⟨pc, w, sa, hd, base, stride, ovw, chain, 0, (Hdr.of sa.header).rows⟩] })) ∧
    (∀ (x y : BitVec 3) (clear : Bool) (sc sd : OpSlot) (hd : Word) (base stride : Nat) (g : AccGrant),
      k.seq.streams = [] → k.seq.rows = [] → k.seq.slots[x.toNat]? = some (some sc) →
      k.seq.slots[y.toNat]? = some (some sd) → sd.space = .scratch → (Hdr.of sd.header).drainOk = true →
      accRange k sc (Hdr.of sd.header).rows (Hdr.of sd.header).cols = some (hd, base, stride) →
      accGrantOf k hd = some g → k.scratch.wf = true → Unspoilt s k →
      ∃ t k', exec (.mdrain x y clear) s = .next t ∧ Becomes s { t with order := s.order } b k' ∧ k'.seq = (go k.seq).seq ∧ k'.groups = k.groups ∧
        ((Hdr.of sd.header).rows = 1 →
          sd.cur.toNat + ((List.range (Hdr.of sd.header).cols).flatMap (fun j =>
            drainElem (Hdr.of sd.header).fmt (g.word (base + j)))).length ≤ k.scratchSize →
          k'.scratch.read sd.cur.toNat ((List.range (Hdr.of sd.header).cols).flatMap (fun j =>
              drainElem (Hdr.of sd.header).fmt (g.word (base + j)))).length =
            (List.range (Hdr.of sd.header).cols).flatMap (fun j => drainElem (Hdr.of sd.header).fmt (g.word (base + j)))) ∧
        ∃ g', accGrantOf k' hd = some g' ∧ ∀ r j, r < (Hdr.of sd.header).rows → j < (Hdr.of sd.header).cols →
          g'.word (base + r * stride + j) = if clear then 0 else g.word (base + r * stride + j))

/-- R237, R292, R309 to R311: mchain, marrive, mwait, mloop, mjmp and mend.
Readings of the model that it rests on: entries 41 and 42. -/
def Obligations.StreamControlWords : Prop :=
  ∀ (s : State) (b : Nat) (k : Block) (pc : Addr) (w : Word), Runs s b k pc w → k.seq.pc = pc →
    let go (q : Sequencer) : Block := { k with seq := { q with pc := pc + 4, wait := .none } }
    (∀ (st : BitVec 2), k.seq.streams = [] → k.seq.rows = [] → k.seq.chain = none →
      ∃ t, exec (.mchain st 0) s = .next t ∧ Becomes s { t with order := s.order } b
        (go { k.seq with chain := none, joint := 0, broken := false, west := [] })) ∧
    (∀ (st l : BitVec 2), k.seq.streams = [] → k.seq.rows = [] → l ≠ 0 → k.seq.chain = none → k.seq.broken = false →
      k.seq.wait = .none → st.toNat ≤ k.core % 4 → k.core % 4 < st.toNat + l.toNat + 1 →
      chainClashes s k (l.toNat + 1) st.toNat = [] → k.launch ≠ none →
      ∃ t k', exec (.mchain st l) s = .next t ∧ SameBytes s t ∧ t.block? b = some k' ∧
        k'.seq.chain = some (l.toNat + 1, st.toNat) ∧ k'.seq.pos = k.core % 4 - st.toNat ∧
        ((∀ p, p < l.toNat + 1 → p ≠ k.core % 4 - st.toNat → ∃ o ko, o ≠ b ∧ s.block? o = some ko ∧ ko.launch = k.launch ∧
            ko.stack = k.stack ∧ ko.core / 4 = k.core / 4 ∧ ko.phase = .resident ∧
            ko.seq.chain = some (l.toNat + 1, st.toNat) ∧ ko.seq.joint = k.seq.joint ∧ ko.seq.pos = p ∧ ko.seq.wait = .chain) →
          k'.seq.wait = .none ∧ k'.seq.pc = pc + 4) ∧
        ((∀ o ko, o ≠ b → s.block? o = some ko → ko.seq.wait ≠ .chain) → k'.seq.wait = .chain ∧ k'.seq.pc = pc)) ∧
    (∀ (n : BitVec 4) (nb : NBar), k.seq.streams = [] → k.seq.rows = [] → k.nbars[n.toNat]? = some nb →
      ∃ t k' h, exec (.marrive n) s = .next t ∧ OneBlock s t b ∧ t.block? b = some k' ∧ k'.seq = (go k.seq).seq ∧
        k'.groups = k.groups ∧ k'.nbars[n.toNat]? = some h ∧ h.m = nb.m + 1 ∧ h.a = nb.a) ∧
    (∀ (c : BitVec 16) (n : BitVec 4) (nb : NBar), k.nbars[n.toNat]? = some nb →
      ∃ t k' h, exec (.mwait c n) s = .next t ∧ OneBlock s t b ∧ t.block? b = some k' ∧ k'.groups = k.groups ∧
        k'.nbars[n.toNat]? = some h ∧ h.m = nb.m ∧
        (c.toNat ≤ nb.a.toNat → h.a = nb.a - BitVec.ofNat 32 c.toNat ∧ k'.seq = (go k.seq).seq) ∧
        (nb.a.toNat < c.toNat → h.a = nb.a ∧ k'.seq.wait = .mwait n.toNat c.toNat ∧ k'.seq.pc = pc)) ∧
    (∀ (l : BitVec 2) (c : BitVec 8) (back : BitVec 10) (armed : Bool) (left : Nat),
      k.seq.loops[l.toNat]? = some (armed, left) →
      let more : Nat := if armed then left else c.toNat
      let slots := if armed then k.seq.slots
        else level l.toNat (fun x => { x with armed := modifyAt (fun _ => x.cur) x.level x.armed }) k.seq
      ∃ t q, exec (.mloop l c back) s = .next t ∧ Becomes s t b { k with seq := q } ∧
        (0 < more → q.loops = k.seq.loops.set l.toNat (true, more - 1) ∧ q.pc = pc - BitVec.ofNat 56 (4 * back.toNat) ∧
          q.slots = level l.toNat (fun x => { x with cur := x.cur + x.step }) { k.seq with slots := slots }) ∧
        (more = 0 → q.loops = k.seq.loops.set l.toNat (false, 0) ∧ q.pc = pc + 4 ∧
          q.slots = level l.toNat (fun x => { x with cur := x.armed.getD x.level x.base }) { k.seq with slots := slots })) ∧
    (∀ i : BitVec 20, ∃ t, exec (.mjmp i) s = .next t ∧
      Becomes s t b { k with seq := { k.seq with pc := BitVec.ofInt 56 (pc.toNat + 4 * i.toInt), wait := .none } }) ∧
    (k.seq.streams = [] → k.seq.rows = [] → k.seq.chain = none →
      ∃ t, exec .mend s = .next t ∧ coreless { t with order := s.order } = coreless { s with blocks := t.blocks } ∧
        t.block? b = some { k with seq := stopped .idle { k.seq with chain := none, joint := 0, broken := false, west := [] } } ∧
        (∀ b', b' ≠ b → t.block? b' = s.block? b') ∧
        core? t k.stack k.core = (core? s k.stack k.core).map (without b))

/-- R283, R286, R288, R299, R300: the array goes to the sequencer that has waited longest; a row enters it, and updates its
accumulator row; banks are granted in turn, and return when a freed handle is used no more. That a grant takes the lowest free
slot (entry 38), and that a pass reads its row in one step (entry 35), are the model's choices.
Readings of the model that it rests on: entries 35, 37, 38 and 39. -/
def Obligations.MatrixEvents : Prop :=
  (∀ (s : State) (i j b : Nat) (c : Core) (k : Block) (rest : List Nat), core? s i j = some c → c.array = none →
    c.seqQueue = b :: rest → s.block? b = some k → k.phase = .resident →
    ∃ t, exec (.sequencerGrant i j) s = .next t ∧ coreless t = coreless { s with blocks := t.blocks } ∧
      core? t i j = some { c with array := some b, seqQueue := rest } ∧
      t.block? b = some { k with seq := { k.seq with state := .running } } ∧ ∀ b', b' ≠ b → t.block? b' = s.block? b') ∧
  (∀ (s : State) (b : Nat) (k : Block) (st : Stream) (ss : List Stream) (p : Plane) (h : Hdr), s.block? b = some k →
    seqRuns s b k = true → k.seq.streams = st :: ss → st.chain = false → k.seq.live = some p → h = Hdr.of st.act.header →
    rowFits h p = true → h.scale = 0 → st.base + st.row * st.stride + p.cols ≤ 4096 * accCount st.handle →
    st.act.space = .scratch → Unspoilt s k →
    ∃ t r, exec (.pass b) s = .next t ∧ Becomes s t b { k with seq := { k.seq with
        rows := k.seq.rows ++ [r]
        streams := if st.row + 1 < st.rows then { st with row := st.row + 1 } :: ss else ss } } ∧
      r.pc = st.pc ∧ r.plane = p ∧ r.handle = st.handle ∧ r.word = st.base + st.row * st.stride ∧ r.ovw = st.ovw ∧
      r.row.fmt = h.fmt ∧ r.row.cols = h.cols ∧ ∀ i, i < h.cols → r.row.elems[i]? = some
        (leNat (slotBytes k st.act (st.row * h.pitch, elemBytesOf h.fmt h.cols)) / 2 ^ (elemBits h.fmt * i) % 2 ^ elemBits h.fmt,
          none)) ∧
  (∀ (s : State) (b : Nat) (k : Block) (r : PendingRow) (rs : List PendingRow) (g : AccGrant) (slot : Nat),
    s.block? b = some k → k.seq.rows = r :: rs → slot = r.handle.toNat % 16 → k.accs[slot]? = some (some g) →
    elemFloat r.plane.fmt = false → r.plane.cells.length = r.plane.cols →
    ∃ t g', exec (.accumulatorUpdate b) s = .next t ∧ Becomes s t b { k with
        accs := k.accs.set slot (some g'), seq := { k.seq with rows := rs } } ∧
      { g' with words := g.words } = g ∧
      (∀ j cells, r.plane.cells[j]? = some cells → g'.word (r.word + j) = BitVec.ofInt 32
        ((if r.ovw then 0 else (g.word (r.word + j)).toInt) + (cells.map (fun c =>
          element r.row r.row.fmt c.pos * signedN (elemBits r.plane.fmt) c.raw)).sum)) ∧
      ∀ i, (i < r.word ∨ r.word + r.plane.cols ≤ i) → g'.word i = g.word i) ∧
  (∀ (s : State) (i j b n ticket slot : Nat) (c : Core) (k : Block) (rest : List (Nat × Nat × Nat)), core? s i j = some c →
    c.accQueue = (ticket, b, n) :: rest → s.block? b = some k →
    n + (k.accs.map (fun o => o.elim 0 (·.banks))).sum ≤ 16 → k.accs[slot]? = some none →
    (∀ y, y < slot → k.accs[y]? ≠ some none) → n ≤ banksFree s i j →
    ∃ t, exec (.accGrant i j) s = .next t ∧ coreless t = coreless { s with blocks := t.blocks } ∧
      core? t i j = some { c with accQueue := rest } ∧
      t.block? b = some { k with
        accGen := nextCount k.accGen
        accs := k.accs.set slot (some ⟨nextCount k.accGen, n, false, ticket, false, []⟩) } ∧
      ∀ b', b' ≠ b → t.block? b' = s.block? b') ∧
  (∀ (s : State) (b slot : Nat) (k : Block) (g : AccGrant), s.block? b = some k → k.accs[slot]? = some (some g) →
    slot < 16 → g.banks < 32 → g.freed = true → handleBusy s b k (handleOf slot g) = false →
    ∃ t, exec (.accBankReturn b slot) s = .next t ∧ Becomes s t b { k with accs := k.accs.set slot none })

/-- R330, R331, R335: srf.alloc takes the lowest free entry and answers its handle, or the status that R331 gives; srf.view
binds a view of a viewable surface in the same way. That a split surface made while the link is down is degraded from the
start is the reading of entry 86, and that a view keeps its parent's generation that of entry 31. -/
def Obligations.SurfaceCreation : Prop :=
  ∀ (d : Fld) (a : Src) (i j : Nat) (tr : Trans) (ws : List Word) (old e0 e : SrfEntry),
    (allocEntry old ws = some e0 → e0.kind = 1 ∧ e0.gen = nextCount old.gen ∧ e0.width = (ws.getD 1 0).toNat % 2 ^ 16 + 1 ∧
      e0.height = (ws.getD 1 0).toNat / 2 ^ 16 + 1 ∧ e0.layers = (ws.getD 2 0).toNat + 1 ∧
      e0.fmt = (ws.getD 0 0).toNat / 2 ^ 16 % 2 ^ 8 ∧ e0.pinned = (ws.getD 3 0).getLsbD 0 ∧
      e0.viewable = (ws.getD 3 0).getLsbD 1 ∧ e0.viewWrite = (ws.getD 3 0).getLsbD 2 ∧ e0.tileBytes ≤ 262144) ∧
    Uni (.srfAlloc d a) (Form.of [uDst d, uSrc 1 a 2])
      (fun x => Ready x ∧ Awake x ∧ DescAt x a 16 tr ws ∧ FreeAt x.s x.k.part i old ∧ allocEntry old ws = none)
      afterDesc (fun _ k => k) (fun x => put x d 1) (fun _ _ => True) ∧
    Uni (.srfAlloc d a) (Form.of [uDst d, uSrc 1 a 2])
      (fun x => Ready x ∧ Awake x ∧ DescAt x a 16 tr ws ∧ FreeAt x.s x.k.part i old ∧ allocEntry old ws = some e0 ∧
        e0.pinned = false ∧ (∀ q e', entry? x.s x.k.part q = some e' → e'.kind ≠ 1) ∧
        ∀ k < 2, 0 < e0.ownedBy k → banksOf x.s x.k.part k ≠ [])
      surfaceless (fun _ k => k)
      (fun x => put x d (if (List.range 2).any (fun k => decide (0 < e0.ownedBy k ∧ farRoom x.s x.k.part k < backingBytes e0 k))
        then 4 else BitVec.ofNat 32 (e0.gen.toNat * 2 ^ 16 + i)))
      (fun x t => if (List.range 2).any (fun k => decide (0 < e0.ownedBy k ∧ farRoom x.s x.k.part k < backingBytes e0 k))
        then t.parts = x.s.parts
        else ∃ e', EntryIs x.s t x.k.part i e' ∧
          { e' with count := e0.count, first := e0.first, backing := e0.backing, degraded := e0.degraded } = e0 ∧
          (e'.degraded = true ↔ e0.home = 2 ∧ x.s.linkDown = true)) ∧
    Uni (.srfView d a) ⟨[uDst d, uSrc 1 a 2], Accepts.plain, .priv⟩
      (fun x => Awake x ∧ DescAt x a 16 tr ws ∧ SrfAt x.s x.k.part j (ws.getD 0 0) e ∧ e.viewable = true ∧ e.samples = 0 ∧
        (ws.getD 1 0).toNat < 32 ∧ (ws.getD 1 0).toNat % 16 ∈ [0, 1, 2, 3, 7] ∧ ws.getD 2 0 = 0 ∧ ws.getD 3 0 = 0 ∧
        FreeAt x.s x.k.part i old)
      surfaceless (fun _ k => k)
      (fun x => put x d (BitVec.ofNat 32 (((nextCount old.gen).toNat % 15 + 1) * 2 ^ 12 + i)))
      (fun x t => ∃ v, EntryIs x.s t x.k.part i v ∧ v.kind = 2 ∧ v.gen = nextCount old.gen ∧ v.parent = j ∧ v.pgen = e.gen ∧
        v.fmt = (ws.getD 1 0).toNat % 16 ∧ v.write = (ws.getD 1 0).getLsbD 4)

/-- R332 to R334: srf.free voids the surface's hallmarks and releases the entry, at once or with the last access that passed its
check of the handle; srf.query reads the table; srf.pin and srf.evict set and clear the pin, and wait for tiles; none of them
does anything to a handle that is not valid. A wait that is over lets the lanes go on. That a view is valid only while its
parent's generation has not changed is the reading of entry 31.
Readings of the model that it rests on: entries 30, 31 and 34. -/
def Obligations.SurfaceState : Prop :=
  ∀ (d : Fld) (a : Src) (n : BitVec 6) (i j : Nat) (e v : SrfEntry),
    let h (x : Site) : Word := (x.gr.sreg a.f).val
    let fine (x : Site) : Prop := Ready x ∧ Clean [x.gr.sreg a.f]
    let at_ (x : Site) : Prop := fine x ∧ SrfAt x.s x.k.part i (h x) e
    let view_ (x : Site) : Prop := ViewAt x.s x.k.part i (h x) v j e
    let noSurface (x : Site) : Prop := fine x ∧ ∀ i' e', ¬ SrfAt x.s x.k.part i' (h x) e'
    let noView (x : Site) : Prop := ∀ i' v' j' e', ¬ ViewAt x.s x.k.part i' (h x) v' j' e'
    let bare (s : State) : State := { s with parts := [], moves := 0 }
    let freed (y : SrfEntry) : SrfEntry := { SrfEntry.reset with gen := y.gen, fresh := y.fresh }
    let waits (f : Instr) (pre : Site → Prop) (w : Site → Wait → Prop) (y : SrfEntry) : Prop :=
      ∀ x : Site, x.Issues → Clear (Form.of [uSrc 1 a]) x.k x.gr x.act x.hints → x.act ≠ [] → pre x →
        ∃ t r, exec f x.s = .next t ∧ w x r ∧ EntryIs x.s t x.k.part i y ∧ Does x t bare (fun k => k) (fun g => g)
          (fun _ u => { u with run := .blocked r, waitFrom := x.s.now x.k.stack x.k.core, held := some x.word })
    let resumes (f : Instr) (w : Wait → Prop) : Prop :=
      Uni f (Form.of [uSrc 1 a]) (fun x => ∀ l ∈ x.act, ∃ r, w r ∧ (x.gr.thread l).run = .blocked r) id (fun _ k => k)
        (fun _ g => g) (fun _ _ => True)
    let busy (x : Site) : Prop := ∃ b ∈ x.s.accesses, ∃ p ∈ b.spans, p.space = .srf x.k.part i
    (Uni (.srfFree a) (Form.of [uSrc 1 a]) (fun x => at_ x ∧ e.marks = [] ∧ ¬ busy x)
        bare (fun _ k => k) (fun _ g => g) (fun x t => EntryIs x.s t x.k.part i (freed e)) ∧
      (∀ x : Site, x.Issues → Clear (Form.of [uSrc 1 a]) x.k x.gr x.act x.hints → x.act ≠ [] → at_ x → ¬ busy x →
        ∃ t, exec (.srfFree a) x.s = .next t ∧ entry? t x.k.part i = some (freed e) ∧
          ∀ l ∈ x.act, ∃ u, t.thread? x.blk x.grp l = some u ∧ u.run = .ready ∧ u.pc = x.pc + 4) ∧
      waits (.srfFree a) (fun x => at_ x ∧ e.marks = [] ∧ busy x) (fun _ r => r = .srfFree i) { e with freeing := true } ∧
      Uni (.srfFree a) (Form.of [uSrc 1 a]) (fun x => fine x ∧ view_ x)
        bare (fun _ k => k) (fun _ g => g) (fun x t => EntryIs x.s t x.k.part i (freed v)) ∧
      Uni (.srfFree a) (Form.of [uSrc 1 a]) (fun x => noSurface x ∧ noView x)
        id (fun _ k => k) (fun _ g => g) (fun _ _ => True) ∧
      resumes (.srfFree a) (fun r => ∃ q, r = .srfFree q)) ∧
    (Uni (.srfPin a) (Form.of [uSrc 1 a])
        (fun x => at_ x ∧ e.pinned = false ∧ pinFits x.s x.k.part i = true ∧ ∀ t, t < e.tiles → e.tileState t = .resident)
        bare (fun _ k => k) (fun _ g => g) (fun x t => EntryIs x.s t x.k.part i { e with pinned := true }) ∧
      waits (.srfPin a)
        (fun x => at_ x ∧ e.pinned = false ∧ pinFits x.s x.k.part i = true ∧ ∃ t, t < e.tiles ∧ e.tileState t ≠ .resident)
        (fun _ r => r = .pin i) { e with pinned := true } ∧
      Uni (.srfPin a) (Form.of [uSrc 1 a])
        (fun x => noSurface x ∨ (at_ x ∧ (e.pinned = true ∨ pinFits x.s x.k.part i = false)))
        id (fun _ k => k) (fun _ g => g) (fun _ _ => True) ∧
      resumes (.srfPin a) (fun r => ∃ q, r = .pin q)) ∧
    (Uni (.srfEvict a) (Form.of [uSrc 1 a]) (fun x => at_ x ∧ ∀ p ∈ e.tileSt, p.2 ≠ .resident)
        bare (fun _ k => k) (fun _ g => g) (fun x t => EntryIs x.s t x.k.part i { e with pinned := false }) ∧
      waits (.srfEvict a) (fun x => at_ x ∧ ∃ p ∈ e.tileSt, p.2 = .resident)
        (fun _ r => ∃ since ts, r = .srfEvict i since ts ∧ ∀ t, t ∈ ts ↔ (t, TileState.resident) ∈ e.tileSt) { e with pinned := false } ∧
      Uni (.srfEvict a) (Form.of [uSrc 1 a]) noSurface id (fun _ k => k) (fun _ g => g) (fun _ _ => True) ∧
      resumes (.srfEvict a) (fun r => ∃ q since ts, r = .srfEvict q since ts)) ∧
    (let query (pre : Site → Prop) (w : Site → Word) : Prop :=
      Uni (.srfQuery d a n) (Form.of [uDst d, uSrc 1 a 2]) (fun x => Clean (x.gr.sregsAt a.f 2) ∧ pre x) id (fun _ k => k)
        (fun x => put x d (w x)) (fun _ _ => True)
      let tile (x : Site) : Nat := ((x.gr.sregsAt a.f 2).getD 1 Reg.mk0).val.toNat
      (n.toNat < 16 → query (fun x => SrfAt x.s x.k.part i (h x) e) (fun _ => BitVec.ofNat 32 (surfaceWord e n.toNat))) ∧
      (n.toNat < 16 → query view_ (fun _ => BitVec.ofNat 32 (viewWord v n.toNat))) ∧
      (n.toNat = 16 → query (fun x => SrfAt x.s x.k.part i (h x) e) (fun x => if tile x < e.tiles then
        BitVec.ofNat 32 (residency (e.tileState (tile x)) * 2 ^ 30 + e.owner (tile x) % 2 * 2 ^ 29 +
          (tileBank x.s x.k.part e (tile x)).2 % 2 ^ 11) else 0)) ∧
      (n.toNat = 17 → query (fun x => SrfAt x.s x.k.part i (h x) e) (fun _ => BitVec.ofNat 32 e.tileBytes)) ∧
      (n.toNat = 16 ∨ n.toNat = 17 → query view_ (fun _ => 0)) ∧
      (n.toNat < 18 → query (fun x => (∀ i' e', ¬ SrfAt x.s x.k.part i' (h x) e') ∧ noView x) (fun _ => 0)))

/-- R322, R324, R337, R338: a load or store of one lane at a pixel sample inside a surface is in flight at the sample's
bytes; a load outside it delivers 0, and a store outside it writes nothing; tiles become resident and are evicted.
Readings of the model that it rests on: entries 29, 30 and 97. -/
def Obligations.SurfaceAccesses : Prop :=
  (∀ (d : Fld) (a b : Src) (w : SurfW) (vol : Bool) (x : Site) (l i : Nat) (e : SrfEntry) (rs : List Reg) (size : Nat),
    x.act = [l] → rs = x.gr.vregsAt (x.gr.thread l) a.f 2 → Clean rs → 1 ≤ e.fmt → e.fmt ≤ 8 →
    size = (match w with
      | .b32 => 4
      | .b64 => 8
      | .b128 => 16
      | .fmt => if e.fmt = 3 then 8 else 4) →
    let at_ := sampleAt e (xOf rs) (sampleOf rs)
    let flies (x : Site) (f : Access) : Prop :=
      FliesTo f (.srf x.k.part i) (min size at_.2) (fun j => rowByte e (layerOf rs) (yOf rs) (at_.1 + j))
        (w = .fmt ∨ (at_.1 % size = 0 ∧ at_.1 / tileRun e = (at_.1 + min size at_.2 - 1) / tileRun e)) ∧
      Classed f vol false false vol
    (CanAccess x (Form.of [vDst d w.regs, vSrc 1 a 2, uSrc 2 b]) → Clean [x.gr.sreg b.f] →
      SrfAt x.s x.k.part i (x.gr.sreg b.f).val e →
      (Within e rs → ∃ t f, exec (.sld d a b w vol) x.s = .next t ∧
        Started x t (fun g => g) (fun _ u => { u.next with regs := markEmpty u.regs (x.gr.vi d) w.regs }) ∧
        t.accesses = x.s.accesses ++ [f] ∧ f.blk = x.blk ∧ f.tid = (x.gr.thread l).tid ∧ flies x f ∧
        f.dst = some ⟨false, x.grp, l, x.gr.vi d, w.regs⟩ ∧
        f.kind = (match w with
          | .b32 => .load .b32 false
          | .b64 => .load .b64 false
          | .b128 => .load .b128 false
          | .fmt => .pixel)) ∧
      (¬ Within e rs → ∃ t, exec (.sld d a b w vol) x.s = .next t ∧ t.accesses = x.s.accesses ∧
        Started x t (fun g => g) (fun _ u => u.next.setRegs (x.gr.vi d) (List.replicate w.regs ⟨0, .full⟩)))) ∧
    (CanAccess x (Form.of [uRead 0 d, vSrc 1 a 2, vSrc 2 b w.regs]) → Clean [x.gr.sreg d] →
      Clean (x.gr.vregsAt (x.gr.thread l) b.f w.regs) → SrfAt x.s x.k.part i (x.gr.sreg d).val e →
      (Within e rs → ∃ t f, exec (.sst d a b w vol) x.s = .next t ∧ Started x t (fun g => g) (fun _ u => u.next) ∧
        t.accesses = x.s.accesses ++ [f] ∧ f.blk = x.blk ∧ f.tid = (x.gr.thread l).tid ∧ flies x f ∧ f.dst = none ∧
        (w ≠ .fmt → f.kind = .store ((leBytes size (number (x.gr.vregsAt (x.gr.thread l) b.f w.regs))).take (min size at_.2)))) ∧
      (¬ Within e rs → ∃ t, exec (.sst d a b w vol) x.s = .next t ∧ t.accesses = x.s.accesses ∧
        Started x t (fun g => g) (fun _ u => u.next)))) ∧
  (∀ (s : State) (p i n : Nat) (e : SrfEntry), entry? s p i = some e → e.kind = 1 → n < e.tiles →
    let becomes (st : TileState → Prop) : Prop := ∃ t f, exec (.tileFetch p i n) s = .next t ∧ SameBytes s t ∧ t.blocks = s.blocks ∧
      entry? t p i = some f ∧ st (f.tileState n) ∧ f.kind = 1 ∧ f.gen = e.gen
    (e.tileState n = .absent ∧ tileWanted s p i n = true → becomes (· = .resident)) ∧
    (e.tileState n = .evicted ∧ tileWanted s p i n = true → becomes (fun st => st = .resident ∨ st = .fetching)) ∧
    (e.tileState n = .fetching ∨ e.tileState n = .moving → becomes (· = .resident)) ∧
    ((e.tileState n = .absent ∨ e.tileState n = .evicted) ∧ tileWanted s p i n = false → exec (.tileFetch p i n) s = .next s)) ∧
  (∀ (s : State) (p i n : Nat) (e : SrfEntry), entry? s p i = some e → e.kind = 1 →
    let becomes (st : TileState → Prop) : Prop := ∃ t f, exec (.saggerEviction p i n) s = .next t ∧ SameBytes s t ∧ EntryIs s t p i f ∧
      st (f.tileState n) ∧ ∀ m, m ≠ n → f.tileState m = e.tileState m
    (e.tileState n = .evicting → becomes (· = .evicted)) ∧
    (e.pinned = false → e.tileState n = .resident → (evictAsked s p i n = true ∨ evictNext s p i n = true) →
      becomes (fun st => st = .evicted ∨ st = .evicting)))

/-- R349 to R352, R373 to R376: qbind binds a queue that holds no call at once, and waits for one that does; a push appends a
record where the call buffer has room for it, and waits where it has not; a pop or a peek claims the lane's next return record,
which fills it at once where it has arrived; qstat reads the queue's state; a record leaves the call buffer for its unit, or is
answered; a return record arrives at its lane's claim, or stays in the return buffer.
Readings of the model that it rests on: entries 50 and 85. -/
def Obligations.QueueInstructions : Prop :=
  (∀ (d : Fld) (a : Src) (q : BitVec 4) (n : BitVec 5) (u : Queue) (e : Claim),
    let at_ (x : Site) : Prop := x.gr.queues[q.toNat]? = some u
    let bind_ (x : Site) : Prop := at_ x ∧ Clean [x.gr.sreg a.f]
    let busy (x : Site) : Prop := u.calls ≠ [] ∨ ∃ f ∈ x.s.calls, f.blk = x.blk ∧ f.grp = x.grp ∧ f.q = q.toNat
    let goal (x : Site) : Option Binding := boundTo (x.s.partOn x.k.part x.k.stack).params.encSlots (x.gr.sreg a.f).val
    let words : Nat := (u.calls.map (·.words.length)).sum
    let more (x : Site) (v : Bool) : Prop := v = true ↔ ∃ l w desc, l ∉ x.act ∧ x.gr.threads[l]? = some w ∧
      w.run = .blocked (.drain q.toNat desc)
    (∀ v : Bool, Uni (.qbind q a) (Form.of [uSrc 1 a]) (fun x => Ready x ∧ bind_ x ∧ ¬ busy x ∧ u.claims = [] ∧ more x v)
      id (fun _ k => k) (fun x => queueSet q.toNat ⟨goal x, v, u.calls, [], []⟩) (fun _ _ => True)) ∧
    (∀ x : Site, x.Issues → Clear (Form.of [uSrc 1 a]) x.k x.gr x.act x.hints → Ready x → bind_ x → ¬ busy x →
      u.claims = [e] → e.lane ∈ x.act → more x false →
      ∃ t, exec (.qbind q a) x.s = .next t ∧ Does x t id (fun k => k)
        (queueSet q.toNat ⟨goal x, false, u.calls, [], []⟩)
        (fun l v => (if l = e.lane then v.setRegs e.dst (drained e.k) else v).next)) ∧
    (∀ x : Site, x.Issues → Clear (Form.of [uSrc 1 a]) x.k x.gr x.act x.hints → x.act ≠ [] → Ready x → bind_ x → busy x →
      u.claims = [] →
      ∃ t, exec (.qbind q a) x.s = .next t ∧ Does x t id (fun k => k)
        (queueSet q.toNat { u with draining := true, returns := [] })
        (fun _ v => { v with
          run := .blocked (.drain q.toNat (x.gr.sreg a.f).val)
          waitFrom := x.s.now x.k.stack x.k.core
          held := some x.word })) ∧
    (∀ (v : Bool) (desc : Word), Uni (.qbind q a) (Form.of [uSrc 1 a])
      (fun x => at_ x ∧ more x v ∧ ∀ l ∈ x.act, (x.gr.thread l).run = .blocked (.drain q.toNat desc))
      id (fun _ k => k) (fun x => queueSet q.toNat { u with
        binding := boundTo (x.s.partOn x.k.part x.k.stack).params.encSlots desc
        draining := v }) (fun _ _ => True)) ∧
    (∀ (x : Site) (l : Nat), Alone x (Form.of [vSrc 1 a (n.toNat + 1)]) l →
      Clean (x.gr.vregsAt (x.gr.thread l) a.f (n.toNat + 1)) → at_ x →
      (u.draining = false ∧ words + n.toNat + 1 ≤ 64 →
        ∃ t r, exec (.qpush q a n) x.s = .next t ∧
          Does x t id (fun k => k) (queueSet q.toNat { u with calls := u.calls ++ [r] }) (fun _ v => v.next) ∧
          r.words = (x.gr.vregsAt (x.gr.thread l) a.f (n.toNat + 1)).map (·.val) ∧ r.lane = some l) ∧
      ((u.draining = true ∨ 64 < words + n.toNat + 1) → (x.gr.thread l).run = .ready →
        ∃ t, exec (.qpush q a n) x.s = .next t ∧ Does x t id (fun k => k) (fun g => g)
          (fun _ v => { v with run := .blocked (.room q.toNat (n.toNat + 1)), waitFrom := x.s.now x.k.stack x.k.core }))) ∧
    (∀ x : Site, x.Issues → Clear (Form.of [uSrc 1 a (n.toNat + 1)]) x.k x.gr x.act x.hints → x.act ≠ [] → at_ x →
      Clean (x.gr.sregsAt a.f (n.toNat + 1)) →
      (u.draining = false ∧ words + n.toNat + 1 ≤ 64 →
        ∃ t r, exec (.qpushS q a n) x.s = .next t ∧
          Does x t id (fun k => k) (queueSet q.toNat { u with calls := u.calls ++ [r] }) (fun _ v => v.next) ∧
          r.words = (x.gr.sregsAt a.f (n.toNat + 1)).map (·.val) ∧ r.lane = none) ∧
      ((u.draining = true ∨ 64 < words + n.toNat + 1) → Ready x →
        ∃ t, exec (.qpushS q a n) x.s = .next t ∧ Does x t id (fun k => k) (fun g => g)
          (fun _ v => { v with run := .blocked (.room q.toNat (n.toNat + 1)), waitFrom := x.s.now x.k.stack x.k.core }))) ∧
    (∀ (x : Site) (l : Nat) (peek : Bool), Alone x (Form.of [vDst d (n.toNat + 1)]) l → at_ x →
      let i : Instr := if peek then .qpeek d q n else .qpop d q n
      let mine := u.claims.filter (fun f => f.lane == l)
      let rest (r : ReturnRec) : List Nat := r.lanes.filter (fun o => o != l)
      (mine.length < 8 → (mine ≠ [] ∨ ∀ r ∈ u.returns, l ∉ r.lanes) →
        ∃ t, exec i x.s = .next t ∧ Does x t id (fun k => k)
          (queueSet q.toNat { u with claims := u.claims ++ [⟨l, x.gr.vi d, n.toNat + 1, peek⟩] })
          (fun _ v => { v.next with regs := markEmpty v.regs (x.gr.vi d) (n.toNat + 1) })) ∧
      (∀ rs r rs', mine = [] → u.returns = rs ++ r :: rs' → (∀ o ∈ rs, l ∉ o.lanes) → l ∈ r.lanes → r.words ≠ [] →
        (∀ o ∈ u.returns, o.lanes ≠ []) →
        ∃ t, exec i x.s = .next t ∧ Does x t id (fun k => k)
          (queueSet q.toNat { u with returns := (if peek then u.returns
            else if rest r = [] then rs ++ rs' else rs ++ { r with lanes := rest r } :: rs') })
          (fun _ v => v.next.setRegs (x.gr.vi d) (claimed (n.toNat + 1) r.words))) ∧
      (8 ≤ mine.length → (x.gr.thread l).run = .ready →
        ∃ t, exec i x.s = .next t ∧ Does x t id (fun k => k) (fun g => g)
          (fun _ v => { v with run := .blocked (.claim q.toNat), waitFrom := x.s.now x.k.stack x.k.core }))) ∧
    Uni (.qstat d q) (Form.of [uDst d])
      (fun x => at_ x ∧ (∀ f, u.binding = some f → f.type < 7) ∧ words ≤ 64 ∧ returnsUsed x.s x.blk x.grp q.toNat u < 256)
      id (fun _ k => k)
      (fun x => put x d (BitVec.ofNat 32 (u.binding.elim 7 (·.type) * 2 ^ 29 + (if u.binding.isSome then 2 ^ 28 else 0) +
        (if u.draining then 2 ^ 27 else 0) + (64 - words) * 2 ^ 20 + returnsUsed x.s x.blk x.grp q.toNat u * 2 ^ 12 +
        min 4095 (u.calls.length + (callsOf x.s x.blk x.grp q.toNat).length))))
      (fun _ _ => True)) ∧
  (∀ (s : State) (b g q : Nat) (k : Block) (gr : Group) (u : Queue) (r : CallRec) (rest : List CallRec),
    s.block? b = some k → s.group? b g = some gr → gr.queues[q]? = some u → u.calls = r :: rest →
    (k.phase = .resident ∨ k.phase = .evicted) → ctxFree s k = true →
    returnsUsed s b g q u + largestReturn (hdrType (r.words.getD 0 0)) (hdrOp (r.words.getD 0 0)) ≤ 128 →
    let left (t : State) (e : Call) : Prop := exec (.callDepart b g q) s = .next t ∧ t.calls = s.calls ++ [e] ∧
      t.moves = s.moves + 1 ∧ { t with blocks := s.blocks, calls := s.calls, moves := s.moves, order := s.order } = s ∧
      t.group? b g = some (queueSet q { u with calls := rest } gr) ∧
      e.blk = b ∧ e.grp = g ∧ e.q = q ∧ e.lane = r.lane ∧ e.words = r.words ∧ e.part = k.part ∧ e.stack = k.stack ∧
      e.pushed = r.pushed
    (∀ bd, u.binding = some bd → earlyCode s k.part (some bd) r.words = none → (bd.type ≠ 0 ∨ recMark r.words = none) →
      (bd.type = 1 → (∀ f ∈ s.calls, f.at_ ≠ .mesh) ∧ (s.calls.filter (fun f => f.unitType == 1)).length < 63) →
      ∃ t e, left t e ∧ e.unitType = bd.type ∧ e.at_ = .unit ∧ e.out = [] ∧ (bd.inst ≠ 255 → e.inst = bd.inst)) ∧
    ((u.binding = none ∨ ∃ bd, u.binding = some bd ∧ bd.type ≠ hdrType (r.words.getD 0 0)) →
      ∃ t e, left t e ∧ e.at_ = .performed ∧ e.out = [answerWords (hdrType (r.words.getD 0 0)) r.words 0x11 0]) ∧
    (∀ bd, u.binding = some bd → bd.type = hdrType (r.words.getD 0 0) → (r.words.getD 0 0).toNat % 2 ^ 9 ≠ 0 →
      ∃ t e, left t e ∧ e.at_ = .performed ∧ e.out = [answerWords e.unitType r.words 0x10 0])) ∧
  (∀ (s : State) (e : Call) (l : Nat) (gr : Group) (u : Queue) (r : List Word),
    s.calls.find? (fun f => f.id == e.id) = some e → e.out = [r] → e.lane = some l → recMark e.words = none →
    s.group? e.blk e.grp = some gr → gr.queues[e.q]? = some u → u.draining = false → (gr.thread l).live = true →
    (e.reserved = true ∨ returnsUsed s e.blk e.grp e.q u + r.length ≤ 128) →
    ∃ t, exec (.returnArrival e.id) s = .next t ∧ OneBlock s { t with calls := s.calls } e.blk ∧
      t.calls = s.calls.filter (fun f => f.id != e.id) ∧
      ((∀ m ∈ u.claims, m.lane ≠ l) →
        ∃ seen, t.group? e.blk e.grp = some (queueSet e.q { u with returns := u.returns ++ [⟨r, [l], seen⟩] } gr)) ∧
      (∀ as m bs, u.claims = as ++ m :: bs → (∀ y ∈ as, y.lane ≠ l) → m.lane = l → m.peek = false → r ≠ [] →
        queue? t e.blk e.grp e.q = some { u with claims := as ++ bs } ∧
        t.thread? e.blk e.grp l = (s.thread? e.blk e.grp l).map (fun v => v.setRegs m.dst (claimed m.k r))))

/-- R355 to R368, R377, R378: hmark.get draws the next hallmark of a domain; hmark.void and hmark.close end it, and with no call
left that carries it it retires; a close that waited takes effect when the calls before it have left; a draw is accepted, walked
and registered; a floor hallmark that nobody uses ends its holder's context. That the blocks of that context have ended in the very
next state is the reading of entry 15.
Readings of the model that it rests on: entries 15, 48, 49, 77 and 103. -/
def Obligations.Hallmarks : Prop :=
  (∀ (d : Fld) (a : Src) (i n : Nat) (e : SrfEntry) (as bs : List Mark) (m : Mark),
    let bare (s : State) : State := { s with parts := [] }
    let at_ (x : Site) : Prop := Ready x ∧ Clean [x.gr.sreg a.f] ∧ SrfAt x.s x.k.part i (x.gr.sreg a.f).val e ∧
      (x.s.linkHeld = false ∨ (if e.home = 2 then 0 else e.home) = x.k.stack)
    let quiet (x : Site) : Prop := x.s.linkHeld = false ∧ x.s.late = [] ∧
      ∀ u ∈ x.gr.threads, ∀ y since dst, u.run ≠ .blocked (.hmark y since dst)
    let marked_ (x : Site) : Prop := Clean [x.gr.sreg a.f] ∧ (x.gr.sreg a.f).val = markWord i n ∧
      MarkAt x.s x.k.part i n e as m bs ∧ quiet x
    Uni (.hmarkGet d a) (Form.of [uDst d, uSrc 1 a])
      (fun x => at_ x ∧ e.marks.length < 65536 ∧ e.next < 2 ^ 20)
      bare (fun _ k => k) (fun x => put x d (markWord i e.next))
      (fun x t => EntryIs x.s t x.k.part i { e with
        next := (e.next + 1) % 2 ^ 20
        marks := e.marks ++ [⟨e.next, .drawn, (x.k.job, x.k.stack), x.blk, [], false⟩] }) ∧
    (∀ x : Site, x.Issues → Clear (Form.of [uDst d, uSrc 1 a]) x.k x.gr x.act x.hints → x.act ≠ [] → at_ x →
      e.marks.length = 65536 →
      ∃ t since, exec (.hmarkGet d a) x.s = .next t ∧ Does x t (fun s => { s with moves := 0 }) (fun k => k) (hollow x d) (fun _ u =>
        { u with
          run := .blocked (.hmark i since (x.gr.si d))
          waitFrom := x.s.now x.k.stack x.k.core
          held := some x.word })) ∧
    (∀ since dst, Uni (.hmarkGet d a) (Form.of [uDst d, uSrc 1 a])
      (fun x => (∀ l ∈ x.act, (x.gr.thread l).run = .blocked (.hmark i since dst)) ∧ entry? x.s x.k.part i = some e ∧ e.kind = 1 ∧
        e.marks.length < 65536 ∧ e.next < 2 ^ 20 ∧ (x.s.linkHeld = false ∨ (if e.home = 2 then 0 else e.home) = x.k.stack))
      bare (fun _ k => k) (fun _ g => g.setSregs dst [⟨markWord i e.next, .full⟩])
      (fun x t => EntryIs x.s t x.k.part i { e with
        next := (e.next + 1) % 2 ^ 20
        marks := e.marks ++ [⟨e.next, .drawn, (x.k.job, x.k.stack), x.blk, [], false⟩] })) ∧
    Uni (.hmarkGet d a) (Form.of [uDst d, uSrc 1 a])
      (fun x => Ready x ∧ Clean [x.gr.sreg a.f] ∧ surface? x.s x.k.part (x.gr.sreg a.f).val = none)
      id (fun _ k => k) (fun x g => g.setSregs (x.gr.si d) [⟨0, .poisoned⟩]) (fun _ _ => True) ∧
    (∀ f ∈ [Instr.hmarkVoid a, .hmarkClose a],
      Uni f (Form.of [uSrc 1 a])
        (fun x => marked_ x ∧ (∀ y ∈ e.marks, Standing y) ∧ (∀ y ∈ x.s.calls, recMark y.words ≠ some (markWord i n)) ∧
          ∀ u ∈ x.gr.queues, ∀ y ∈ u.calls, recMark y.words ≠ some (markWord i n))
        bare (fun _ k => k) (fun _ g => g) (fun x t => EntryIs x.s t x.k.part i (retiredAt e as m bs)) ∧
      Uni f (Form.of [uSrc 1 a])
        (fun x => Clean [x.gr.sreg a.f] ∧ x.s.mark? x.k.part (x.gr.sreg a.f).val = none ∧ quiet x ∧
          (∀ y ∈ x.s.calls, recMark y.words ≠ some (x.gr.sreg a.f).val) ∧
          ∀ u ∈ x.gr.queues, ∀ y ∈ u.calls, recMark y.words ≠ some (x.gr.sreg a.f).val)
        id (fun _ k => k) (fun _ g => g) (fun _ _ => True)) ∧
    (∀ x : Site, x.Issues → Clear (Form.of [uSrc 1 a]) x.k x.gr x.act x.hints → x.act ≠ [] → marked_ x → Standing m →
      (x.s.calls.map (·.id)).Nodup →
      let ends (f : Call) : Prop := f.part = x.k.part ∧ f.at_ ≠ .performed ∧ recMark f.words = some (markWord i n)
      ∃ t, exec (.hmarkVoid a) x.s = .next t ∧ (∀ f ∈ x.s.calls, ¬ ends f → f ∈ t.calls) ∧
        (∀ f ∈ x.s.calls, ends f → f.reserved = true → ∀ y ∈ t.calls, y.id ≠ f.id) ∧
        (∀ f ∈ x.s.calls, ends f → f.reserved = false →
          { f with at_ := .performed, out := [answerWords f.unitType f.words 1 0] } ∈ t.calls) ∧
        ∀ y, t.mark? x.k.part (markWord i n) = some y → y.state = .retired)) ∧
  (∀ (s : State) (p i n b g now : Nat) (e : SrfEntry) (as bs : List Mark) (m : Mark), MarkAt s p i n e as m bs →
    (∀ y ∈ e.marks, Standing y) → s.late = [.mark ⟨true, p, markWord i n, b, g, now, []⟩] → s.linkHeld = false →
    (∀ gr, s.group? b g = some gr → ∀ u ∈ gr.queues, ∀ y ∈ u.calls, recMark y.words = some (markWord i n) → now < y.pushed) →
    (∀ y ∈ s.calls, recMark y.words ≠ some (markWord i n)) →
    ∃ t, exec (.closeEffect p (markWord i n)) s = .next t ∧ { t with parts := s.parts, late := s.late } = s ∧ t.late = [] ∧
      EntryIs s t p i (retiredAt e as m bs)) ∧
  (∀ (s : State) (c : Call) (i n : Nat) (e : SrfEntry) (as bs : List Mark) (m : Mark),
    s.calls.find? (fun f => f.id == c.id) = some c → recMark c.words = some (markWord i n) → c.at_ = .window →
    MarkAt s c.part i n e as m bs → nextToRegister s c.part (markWord i n) = true →
    ∃ t, exec (.drawAccept c.id) s = .next t ∧ { t with parts := s.parts, calls := s.calls } = s ∧
      t.calls = s.calls.map (fun f => if f.id = c.id then { f with at_ := .unit } else f) ∧
      EntryIs s t c.part i { e with marks := as ++ { m with state := .registering } :: bs }) ∧
  (∀ (s s1 : State) (c : Call) (ids : List Nat) (w : Walked), WithUnit s c 0 0 → drawCheck s c = .ok ids →
    (recMark c.words = none ∨ s.calls.find? (fun f => f.part == c.part && isDraw f && f.at_ == .unit &&
      recMark f.words == recMark c.words) = some c) →
    walkFromTri c (s.srf c.part (ids.headD 0)) (drawOf c.words) 0 ⟨[], 0, 0⟩ s (drawOf c.words).count = (s1, w, .ok ()) →
    s.linkHeld = false → c.cut = false → s.upsets = [] → s.order.past = [] → w.quads.length < 2 ^ 32 → w.skipped < 2 ^ 16 → w.culled < 2 ^ 16 →
    let ended (t : State) : Prop := ∃ recs, { t with calls := s.calls, parts := s.parts, moves := s.moves, order := s.order } = s ∧
      t.calls = s.calls.map (fun f => if f.id = c.id then { f with at_ := .walked, out := recs ++ [[status c 0 0 3,
        BitVec.ofNat 32 w.quads.length, BitVec.ofNat 32 (w.skipped * 2 ^ 16 + w.culled)]] } else f) ∧
      recs.flatMap (fun r => r.drop 1) = w.quads.flatMap (·.words) ∧ ∀ r ∈ recs, r.length = 12 ∨ r.length = 23
    (recMark c.words = none → ∃ t, exec (.drawAccept c.id) s = .next t ∧ ended t ∧ t.parts = s.parts) ∧
    (∀ i n e as m bs, recMark c.words = some (markWord i n) → MarkAt s c.part i n e as m bs → m.state = .registering →
      ∃ t v, exec (.registrationComplete c.part (markWord i n)) s = .next t ∧ ended t ∧
        EntryIs s t c.part i { e with marks := as ++ { m with state := .registered, intents := v } :: bs } ∧
        (∀ y, y ∈ v ↔ y ∈ m.intents ∨ ∃ j ∈ ids, ∃ z ∈ w.quads, y = tileBank s c.part (s.srf c.part j) z.tile))) ∧
  (∀ (s : State) (p i n : Nat) (e : SrfEntry) (m : Mark) (bs : List Mark) (cx : Ctx), MarkAt s p i n e [] m bs →
    (s.partOn p (if e.home = 2 then 0 else e.home)).hwdog.toNat = e.wclock → Standing m → markInUse s p (markWord i n) = false →
    s.ctx? p m.holder.2 m.holder.1 = some cx → cx.stop = .running → cx.terminated = false →
    ∃ t cx', exec (.hallmarkWatchdogExpiry p i) s = .next t ∧ t.ctx? p m.holder.2 m.holder.1 = some cx' ∧ cx'.terminated = true ∧
      cx'.park = [] ∧ (∀ y, t.mark? p (markWord i n) = some y → y.state = .retired) ∧
      ∀ k ∈ t.blocks, k.part = p → k.job = m.holder.1 → k.stack = m.holder.2 → k.phase = .complete ∨ k.phase = .cancelled)

/-- R391 to R419: a query whose memory is all present is answered; of a ray that cannot hit anything it misses, and of one leaf
it gives the leaf's triangle, whose hit is a point of the ray and of the triangle; depth, blend and clear calls change the
samples they name and no others; a texture call answers its texels; a tessellation answers its points and triangles; the
encoder opens a frame, appends bands, and ends it.
Readings of the model that it rests on: entries 51, 52, 54 to 56 and 104. -/
def Obligations.UnitCalls : Prop :=
  (∀ (s : State) (e : Call), WithUnit s e 0 1 → rayOf e.words = none → recMark e.words = none →
    ∃ t, exec (.rayQuery e.id) s = .next t ∧ Performed s t e [[status e 0 0 5, 0, 0, 0, 0]] id) ∧
  (∀ (s : State) (e : Call) (r : Ray), WithUnit s e 0 1 → rayOf e.words = some r → recMark e.words = none → s.upsets = [] →
    s.order.past = [] → (∀ va n p, unitPieces s e .load va n ≠ .wait p) →
    ∃ t rec, exec (.rayQuery e.id) s = .next t ∧ Performed s t e [rec] worked ∧
      (rec = [status e 0 0 5, 0, 0, 0, 0] ∨
        (∃ d b1 b2 z i, rec = [status e 0 d 5, b1, b2, z, i] ∧ (d = 1 ∨ d = 3)) ∨
        ∃ c d, rec = answerWords 0 e.words c d ∧ c ∈ [0x21, 0x22, 0x24, 0x25, 0x26, 0x30])) ∧
  (∀ (s : State) (e : Call) (r : Ray) (ps qs : List Piece) (leaf other : Ref), WithUnit s e 0 1 → rayOf e.words = some r →
    recMark e.words = none → s.upsets = [] → s.order.past = [] →
    let pair := s.readPieces ps
    let tri := wordsOfBytes (s.readPieces qs) 12
    unitPieces s e .load ((payWord e.words 1 ++ payWord e.words 0).setWidth 56) 64 = .ok ps → (∀ p ∈ ps, s.poisoned p = false) →
    refOf (leNat ((pair.drop 48).take 8)) = some leaf → refOf (leNat (pair.drop 56)) = some other → other.kind = 0 →
    leaf.kind = 2 → leaf.count = 1 → boxHit r r.tmax (wordsOfBytes pair 16) = true →
    unitPieces s e .load (BitVec.ofNat 56 leaf.addr) 48 = .ok qs → (∀ p ∈ qs, s.poisoned p = false) →
    (tri.getD 10 0).toNat < 2 → tri.getD 11 0 = 0 →
    ∃ t, exec (.rayQuery e.id) s = .next t ∧ Performed s t e [match triHit r r.tmax tri leaf.addr with
      | none => [status e 0 0 5, 0, 0, 0, 0]
      | some h => [status e 0 (if h.front then 3 else 1) 5, ratRound h.t, ratRound h.b1, ratRound h.b2,
          BitVec.ofNat 32 h.prim]] worked) ∧
  (∀ (r : Ray) (best : ℚ) (ws : List Word) (lo hi : V3), v3Of ws = some lo → v3Of (ws.drop 3) = some hi → r.d ≠ (0, 0, 0) →
    (boxHit r best ws = true ↔ ∃ z : ℚ, r.tmin ≤ z ∧ z ≤ best ∧ lo.1 ≤ r.o.1 + z * r.d.1 ∧ r.o.1 + z * r.d.1 ≤ hi.1 ∧
      lo.2.1 ≤ r.o.2.1 + z * r.d.2.1 ∧ r.o.2.1 + z * r.d.2.1 ≤ hi.2.1 ∧
      lo.2.2 ≤ r.o.2.2 + z * r.d.2.2 ∧ r.o.2.2 + z * r.d.2.2 ≤ hi.2.2)) ∧
  (∀ (r : Ray) (lim : ℚ) (ws : List Word) (addr : Nat) (h : Hit) (v0 v1 v2 : V3), triHit r lim ws addr = some h →
    v3Of ws = some v0 → v3Of (ws.drop 3) = some v1 → v3Of (ws.drop 6) = some v2 →
    r.tmin ≤ h.t ∧ h.t ≤ lim ∧ 0 ≤ h.b1 ∧ 0 ≤ h.b2 ∧ h.b1 + h.b2 ≤ 1 ∧
    r.o.1 + h.t * r.d.1 = v0.1 + h.b1 * (v1.1 - v0.1) + h.b2 * (v2.1 - v0.1) ∧
    r.o.2.1 + h.t * r.d.2.1 = v0.2.1 + h.b1 * (v1.2.1 - v0.2.1) + h.b2 * (v2.2.1 - v0.2.1) ∧
    r.o.2.2 + h.t * r.d.2.2 = v0.2.2 + h.b1 * (v1.2.2 - v0.2.2) + h.b2 * (v2.2.2 - v0.2.2)) ∧
  (∀ (s : State) (e : Call) (op i tile : Nat) (x : SrfEntry), op < 3 → WithUnit s e 1 op → bankTarget s e = .ok (i, tile) →
    entry? s e.part i = some x → ((s.linkDown = false ∧ s.link.idle = 0) ∨ x.owner tile = e.stack) → s.upsets = [] →
    bankTurn s e (tileBank s e.part x tile) = .go → x.poison = [] → x.bytes.wf = true →
    let ev : Instr := if op = 0 then .depthCall e.id else if op = 1 then .blendCall e.id else .clearCall e.id
    let old (p : Piece) : Nat := leNat (x.bytes.read p.addr p.len)
    ∃ t out y, exec ev s = .next t ∧ Performed s t e [out] worked ∧ entry? t e.part i = some y ∧
      y.kind = 1 ∧ y.gen = x.gen ∧
      (op = 0 → out = [status e 0 ((quadSamples s e i).filter (fun q => (depthSample x.fmt (payWord e.words 4) (payWord e.words 5)
            (planeDepth e x.S q) (old q.piece)).2)).length 2,
          mask (((quadSamples s e i).filter (fun q => (depthSample x.fmt (payWord e.words 4) (payWord e.words 5)
            (planeDepth e x.S q) (old q.piece)).2)).map (fun q => q.pix * x.S + q.num))] ∧
        (∀ q ∈ quadSamples s e i, y.bytes.read q.piece.addr 4 = leBytes 4 (depthSample x.fmt (payWord e.words 4)
          (payWord e.words 5) (planeDepth e x.S q) (old q.piece)).1)) ∧
      (op = 1 → out = [status e 0 0 1] ∧
        (∀ q ∈ quadSamples s e i, y.bytes.read q.piece.addr x.p = leBytes x.p (blendSample x.fmt e q.pix (old q.piece)))) ∧
      (op < 2 → ∀ z, (∀ q ∈ quadSamples s e i, z < q.piece.addr ∨ q.piece.addr + x.p ≤ z) → y.bytes.get z = x.bytes.get z) ∧
      (op = 2 → out = [status e 0 0 1] ∧
        let in_ (u v : Nat) : Prop := (payWord e.words 2).toNat % 2 ^ 16 ≤ u ∧ u < (payWord e.words 3).toNat % 2 ^ 16 ∧
          (payWord e.words 2).toNat / 2 ^ 16 ≤ v ∧ v < (payWord e.words 3).toNat / 2 ^ 16
        ∀ u v n, u < x.width → v < x.height → n < 2 ^ x.samples →
          let p := rowByte x ((payWord e.words 1).toNat % 2 ^ 11) v (sampleAt x u n).1
          (in_ u v → y.bytes.read p x.p = (leBytes 8 ((payWord e.words 4).toNat + (payWord e.words 5).toNat * 2 ^ 32)).take x.p) ∧
          (¬ in_ u v → y.bytes.read p x.p = x.bytes.read p x.p))) ∧
  (∀ (s : State) (e : Call) (ps : List Piece) (td : TexDesc), WithUnit s e 2 0 → turnCome s e = true → s.upsets = [] →
    s.order.past = [] → (∀ p ∈ ps, s.poisoned p = false) →
    unitPieces s e .load ((payWord e.words 1 ++ payWord e.words 0).setWidth 56) 32 = .ok ps →
    texDesc (wordsOfBytes (s.readPieces ps) 8) = some td →
    let texels (k : Nat) : List Texel := pixelTexels td e.words (quadLevels td e.words (Config.freeBit s.moves)) k
    let place (x : Texel) (p : Nat × Nat) : UnitRes (List Piece) := unitPieces s e .load
      (td.base + BitVec.ofNat 56 (td.offset x.level + p.2 * td.pitch x.level + p.1 * srfFmtBytes td.fmt)) (srfFmtBytes td.fmt)
    let bytes (x : Texel) (p : Nat × Nat) : List Byte := match place x p with
      | .ok qs => s.readPieces qs
      | _ => []
    let value (x : Texel) : List FV := match x.at_ with
      | none => List.replicate 4 (.fin false 0 0)
      | some p => (List.range 4).map (fun c => if c < srfChannels td.fmt then chanValue (chanOf td.fmt c) (leNat (bytes x p))
          else if c = 3 then oneF else .fin false 0 0)
    (∀ k < 4, ∀ x ∈ texels k, ∀ p, x.at_ = some p → ∃ qs, place x p = .ok qs ∧ ∀ q ∈ qs, s.poisoned q = false) →
    ∃ t, exec (.textureCall e.id) s = .next t ∧ Performed s t e [status e 0 0 17 ::
      (List.range 4).flatMap (fun k => pixelResult ((texels k).map (fun x => (value x, x.weight))))] worked) ∧
  (∀ (s : State) (e : Call) (quad : Bool) (f g : Nat), WithUnit s e 3 (if quad then 1 else 0) → turnCome s e = true →
    f = (payWord e.words 0).toNat % 2 ^ 6 + 1 → g = (payWord e.words 0).toNat / 2 ^ 8 % 2 ^ 6 + 1 →
    let points := if quad then (f + 1) * (g + 1) else (f + 1) * (f + 2) / 2
    let tris := if quad then 2 * f * g else f * f
    let kind (r : List Word) : Nat := (r.getD 0 0).toNat / 2 ^ 24 % 2 ^ 6
    let count (r : List Word) : Nat := (r.getD 0 0).toNat / 2 ^ 8 % 2 ^ 8
    ∃ t ps ts, exec (if quad then .tessellateQuad e.id else .tessellateTriangle e.id) s = .next t ∧
      Performed s t e (ps ++ ts) worked ∧
      (∀ r ∈ ps, kind r = 3 ∧ r.length = 1 + 2 * count r ∧ count r ≤ 15) ∧ (ps.map count).sum = points ∧
      (∀ r ∈ ts, kind r = 4 ∧ r.length = 1 + 2 * count r ∧ count r ≤ 15) ∧ (ts.map count).sum = tris ∧
      (∀ r ∈ (ps ++ ts).dropLast, (r.getD 0 0).getLsbD 30 = false) ∧
      (∀ r ∈ (ps ++ ts).getLast?, (r.getD 0 0).getLsbD 30 = true) ∧
      (∀ r ∈ ts, ∀ w ∈ r.drop 1, w.toNat % 2 ^ 16 < points ∧ w.toNat / 2 ^ 16 < points)) ∧
  (∀ (s : State) (e : Call) (k : Stack) (x x' : EncSlot) (op : Nat), s.stks[e.stack]? = some k → k.encs[e.inst]? = some x →
    e.inst ∈ (s.partOn e.part e.stack).params.encSlots → turnCome s e = true →
    let slot (t : State) : Option EncSlot := (t.stks[e.stack]?).bind (fun y => y.encs[e.inst]?)
    let bare (s : State) : State :=
      { worked s with
        stks := []
        mem := []
        poison := []
        upsets := []
        blocks := [] }
    let quiet (t : State) : Prop := (∀ k ∈ s.blocks, ∀ v ∈ k.allThreads, v.run ≠ .blocked .monitor) → t.blocks = s.blocks
    let fits (n : Nat) : Prop := ∃ ps, unitPieces s e .store (x'.out + BitVec.ofNat 56 x'.written) n = .ok ps
    let lies (t : State) (bs : List Byte) : Prop := ∀ pa, s.mem.wf = true →
      unitPieces s e .store (x'.out + BitVec.ofNat 56 x'.written) bs.length = .ok [⟨.mem, pa, bs.length⟩] →
      t.mem.read pa bs.length = bs
    let abandons (t : State) : Prop := Performed s t e [answerWords 4 e.words 0x24 0] bare ∧
      slot t = some { x with open_ := false, band := 0 }
    (∀ i y, WithUnit s e 4 0 → x.open_ = false → SrfAt s e.part i (payWord e.words 0) y →
      sourceCheck y x ((payWord e.words 1).getLsbD 8) ((payWord e.words 1).getLsbD 9) = none →
      x' = { x with
        open_ := true
        band := 0
        part := e.part
        surface := payWord e.words 0
        size := (y.width, y.height)
        key := (payWord e.words 1).getLsbD 8
        tenBit := (payWord e.words 1).getLsbD 9
        out := (payWord e.words 3 ++ payWord e.words 2).setWidth 56
        outSize := (payWord e.words 4).toNat
        written := 0
        baseQ := (payWord e.words 1).toNat % 2 ^ 8
        recon := []
        coded := [] } →
      (∀ n, n ≤ x'.outSize → fits n) →
      ∃ t m, exec (.frameBegin e.id) s = .next t ∧ quiet t ∧
        let coded := frameUnits m x'
        coded.take 3 = [0x12, 0x00, if x'.key then 0x0A else 0x1A] ∧
        (coded.length ≤ x'.outSize → Performed s t e [[status e 0 0 2, BitVec.ofNat 32 coded.length]] bare ∧
          slot t = some { x' with written := coded.length, coded := coded } ∧ lies t coded) ∧
        (x'.outSize < coded.length → abandons t)) ∧
    (∀ i y, WithUnit s e 4 1 → x.open_ = true → x.band = (payWord e.words 0).toNat % 2 ^ 6 → x' = x → SrfAt s e.part i x.surface y →
      y.poison = [] → s.upsets = [] → s.order.past = [] → s.linkDown = false → s.link.idle = 0 →
      (∀ n, x.written + n ≤ x.outSize → fits n) →
      let pix := s.readPieces (bandPieces s e.part i x.band)
      let samples := bandSamples x.tenBit x.size.1 ((List.range (pix.length / 4)).map (fun j => leNat ((pix.drop (4 * j)).take 4)))
      ∃ t m, exec (.bandEncode e.id) s = .next t ∧ quiet t ∧
        let coded := bandUnit m x samples
        coded.take 1 = [0x22] ∧
        (x.written + coded.length ≤ x.outSize →
          Performed s t e [[status e 0 0 3, BitVec.ofNat 32 x.written, BitVec.ofNat 32 coded.length]] bare ∧
          slot t = some { x with
            band := x.band + 1
            written := x.written + coded.length
            coded := x.coded ++ coded
            recon := Config.reconstruction ((if x.key then [] else x.stream) ++ (x.coded ++ coded)) } ∧ lies t coded) ∧
        (x.outSize < x.written + coded.length → abandons t)) ∧
    (WithUnit s e 4 2 → x.open_ = true → x.band = (x.size.2 + 63) / 64 →
      let n := if x.key then 0 else x.sinceKey + 1
      ∃ t, exec (.frameEnd e.id) s = .next t ∧ Performed s t e [[status e 0 0 3, BitVec.ofNat 32 x.written, BitVec.ofNat 32 n]] bare ∧
        slot t = some { x with
          open_ := false
          band := 0
          lastSize := some x.size
          sinceKey := n
          recon := []
          coded := []
          stream := (if x.key then [] else x.stream) ++ x.coded
          ref := Config.filtered ((if x.key then [] else x.stream) ++ x.coded) }) ∧
    (WithUnit s e 4 op → (op = 0 ∧ x.open_ = true) ∨ (op = 2 ∧ x.open_ = false) → x.band < 128 →
      ∃ t, exec (if op = 0 then .frameBegin e.id else .frameEnd e.id) s = .next t ∧
        Performed s t e [answerWords 4 e.words 0x23 ((if x.open_ then 128 else 0) + x.band)] bare ∧ slot t = some x))

/-- R424, R425, R444 to R450: what ctr.new, ctr.raise, ctr.post, ctr.wait, ctr.rd and cancel do to a counter; prio sets the
priority of the launch, and slice.rd reads what is left of the slice. That the blocks of a cancelled launch have ended in the very
next state is the reading of entry 15.
Readings of the model that it rests on: entries 15, 64, 67 and 68. -/
def Obligations.Counters : Prop :=
  ∀ (d : Fld) (a b : Src) (k i : Nat) (y : Counter) (w : Word),
    let clean (x : Site) : Prop := Clean [x.gr.sreg a.f] ∧ (x.gr.sreg a.f).val = w
    let at_ (x : Site) : Prop := clean x ∧ Names x.s x.k.part k i w y ∧ (x.s.linkHeld = false ∨ k = x.k.stack)
    let become (f : Counter) (x : Site) (t : State) : Prop := CounterIs x.s t x.k.part k i f
    let amount (x : Site) : Nat := (x.gr.sreg b.f).val.toNat
    let raise_ (pre : Site → Prop) (f : Site → Counter) : Prop :=
      Uni (.ctrRaise a b) (Form.of [uSrc 1 a, uSrc 2 b]) (fun x => at_ x ∧ Clean [x.gr.sreg b.f] ∧ pre x) bare (fun _ k => k)
        (fun _ g => g) (fun x => become (f x) x)
    let post_ (pre : Prop) (f : Counter) : Prop :=
      Uni (.ctrPost a) (Form.of [uSrc 1 a]) (fun x => at_ x ∧ Settled x ∧ pre) bare (fun _ k => k) (fun _ g => g) (become f)
    let waits (f : Instr) (pre : Site → Prop) (r : Wait) : Prop :=
      ∀ x : Site, x.Issues → Clear (Form.of [uSrc 1 a]) x.k x.gr x.act x.hints → x.act ≠ [] → Ready x → clean x → pre x →
        ∃ t, exec f x.s = .next t ∧ Does x t id (fun k => k) (fun g => g)
          (fun _ v => { v with run := .blocked r, waitFrom := x.s.now x.k.stack x.k.core })
    Uni (.ctrNew d a) (Form.of [uDst d, uSrc 1 a])
      (fun x => clean x ∧ w.toNat % 2 ^ 30 ≠ 0 ∧ ctrAt x.s x.k.part x.k.stack i = some y ∧ y.used = false ∧ x.k.stack < 2 ∧
        i < 1024 ∧ ∀ j f, j < i → ctrAt x.s x.k.part x.k.stack j = some f → f.used = true)
      inFlight (fun _ k => k) (fun x => hollow x d)
      (fun x t => Arriving x t d ⟨BitVec.ofNat 32 (w.toNat / 2 ^ 30 * 2 ^ 30 + x.k.stack * 2 ^ 29 +
          (nextCount y.gen).toNat * 2 ^ 10 + i), .full⟩ ∧
        CounterIs x.s t x.k.part x.k.stack i
          ⟨true, nextCount y.gen, BitVec.ofNat 2 (w.toNat / 2 ^ 30), w.toNat % 2 ^ 30, 0, .open, none, false, false, false, false⟩) ∧
    Uni (.ctrNew d a) (Form.of [uDst d, uSrc 1 a])
      (fun x => clean x ∧ (w.toNat % 2 ^ 30 = 0 ∨ ∀ f ∈ (x.s.partOn x.k.part x.k.stack).counters, f.used = true))
      inFlight (fun _ k => k) (fun x => hollow x d) (fun x t => t.parts = x.s.parts ∧ Arriving x t d ⟨0, .full⟩) ∧
    raise_ (fun x => y.state = .open ∧ y.total + amount x < 2 ^ 32) (fun x => { y with total := y.total + amount x }) ∧
    raise_ (fun x => y.state = .open ∧ 0 < amount x ∧ 2 ^ 32 ≤ y.total + amount x) (fun _ => { y with misuse := true }) ∧
    raise_ (fun x => y.state = .complete ∧ 0 < amount x) (fun _ => { y with misuse := true }) ∧
    raise_ (fun x => y.state = .cancelled ∨ amount x = 0) (fun _ => y) ∧
    post_ (y.state = .open ∧ y.posted + 1 ≠ y.total) { y with posted := y.posted + 1 } ∧
    post_ (y.state = .open ∧ y.posted + 1 = y.total ∧ y.parent = none) { y with posted := y.posted + 1, state := .complete } ∧
    post_ (y.state = .complete) { y with misuse := true } ∧
    post_ (y.state = .cancelled) y ∧
    (∀ (k' j : Nat) (p : Word) (z : Counter),
      Uni (.ctrPost a) (Form.of [uSrc 1 a])
        (fun x => at_ x ∧ Settled x ∧ y.state = .open ∧ y.posted + 1 = y.total ∧ y.parent = some p ∧
          Names x.s x.k.part k' j p z ∧ (k' ≠ k ∨ j ≠ i) ∧ (x.s.linkHeld = false ∨ k' = k) ∧ z.state = .open ∧ z.posted + 1 ≠ z.total)
        bare (fun _ k => k) (fun _ g => g)
        (fun x t => ctrAt t x.k.part k i = some { y with posted := y.posted + 1, state := .complete } ∧
          ctrAt t x.k.part k' j = some { z with posted := z.posted + 1 })) ∧
    (∀ as, waits (.ctrPost a) (fun x => as ≠ [] ∧ as = x.act.flatMap (held x)) (.fence as)) ∧
    Uni (.ctrWait a) (Form.of [uSrc 1 a])
      (fun x => clean x ∧ (x.s.linkHeld = false ∨ w = 0 ∨ w.toNat / 2 ^ 29 % 2 = x.k.stack) ∧
        (x.s.counter? x.k.part w = none ∨ (Names x.s x.k.part k i w y ∧ y.state = .complete)))
      unordered (fun _ k => k) (fun _ g => g) (fun _ _ => True) ∧
    waits (.ctrWait a) (fun x => Names x.s x.k.part k i w y ∧ y.state = .open) (.counter w) ∧
    Uni (.ctrRd d a) (Form.of [uDst d, uSrc 1 a])
      (fun x => at_ x ∧ y.deferred = false ∧ y.total - y.posted < 2 ^ 27)
      inFlight (fun _ k => k) (fun x => hollow x d)
      (fun x t => t.parts = x.s.parts ∧ Arriving x t d ⟨BitVec.ofNat 32 ((match y.state with
          | .open => 0
          | .complete => 1
          | .cancelled => 2) * 2 ^ 30 + (if y.rejected then 2 ^ 29 else 0) + (if y.misuse then 2 ^ 28 else 0) +
            (y.total - y.posted)), .full⟩) ∧
    Uni (.ctrRd d a) (Form.of [uDst d, uSrc 1 a])
      (fun x => clean x ∧ x.s.linkHeld = false ∧ x.s.counter? x.k.part w = none)
      inFlight (fun _ k => k) (fun x => hollow x d) (fun x t => t.parts = x.s.parts ∧ Arriving x t d ⟨0xC000_0000, .full⟩) ∧
    Uni (.cancel a) (Form.of [uSrc 1 a]) (fun x => at_ x ∧ y.state ≠ .open) bare (fun _ k => k) (fun _ g => g)
      (become { y with used := false }) ∧
    Uni (.cancel a) (Form.of [uSrc 1 a])
      (fun x => at_ x ∧ y.state = .open ∧ y.parent = none ∧
        ∀ l ∈ x.s.launches, recPart l.words ≠ x.k.part ∨ w ∉ recCounters l.words)
      bare (fun _ k => k) (fun _ g => g) (become { y with state := .cancelled }) ∧
    (∀ x : Site, x.Issues → Clear (Form.of [uSrc 1 a]) x.k x.gr x.act x.hints → x.act ≠ [] → at_ x → y.state = .open →
      ∃ t, exec (.cancel a) x.s = .next t ∧ ∀ n l, x.s.launches[n]? = some l → l.posted = false → recPart l.words = x.k.part →
        w ∈ recCounters l.words → t.launches[n]? = some { l with cancelled := true } ∧
        ∀ o ko, t.block? o = some ko → ko.launch = some n → ko.phase = .complete ∨ ko.phase = .cancelled) ∧
    Uni (.prio a) (Form.of [uSrc 1 a]) (fun x => clean x ∧ x.k.launch = some i) (fun s => { s with launches := [] })
      (fun _ k => k) (fun _ g => g)
      (fun x t => t.launches = x.s.launches.modify i (fun l =>
        { l with prio := min (min w.toNat 47) (x.s.partOn x.k.part x.k.stack).params.ceiling })) ∧
    (∀ cx : Ctx, Uni (.sliceRd d) (Form.of [uDst d])
      (fun x => Ready x ∧ x.s.ctx? x.k.part x.k.stack x.k.job = some cx ∧ (x.s.partOn x.k.part x.k.stack).params.sliceLen < 2 ^ 32)
      id (fun _ k => k)
      (fun x => put x d (BitVec.ofNat 32 ((x.s.partOn x.k.part x.k.stack).params.sliceLen - (cx.slice + 1)))) (fun _ _ => True))

/-- R421 to R436, R443, R473: an accepted record becomes a launch whose first block waits; a record that is not accepted flags
a counter that it names, or is reported; a block is placed on a core of its partition, or is deferred where the temperature
forbids it; a saved block is placed again with its registers; a column is held for a block long deferred; a block that has ended
is complete, and its launch posts when its last has. The number 8 of a rejected record's report is the choice of entry 70.
Readings of the model that it rests on: entries 58, 62, 65, 66 and 70. -/
def Obligations.Launches : Prop :=
  (∀ (a : Src) (tr : Trans) (ws : List Word) (x : Site), x.Issues → Clear (Form.of [uSrc 1 a 2]) x.k x.gr x.act x.hints →
    x.act ≠ [] → Awake x → DescAt x a 64 tr ws → launchesOpen x.s x.k.stack < 4096 → x.s.linkHeld = false → Settled x →
    let part := (ws.getD 8 0).toNat / 2 ^ 16 % 2 ^ 5
    let m (s : State) : State := { afterDesc s with parts := [] }
    (recordOk x.s x.k ws = true → ∃ t, exec (.launch a) x.s = .next t ∧
      Does x { t with blocks := t.blocks.take x.s.blocks.length, ctxs := x.s.ctxs, launches := x.s.launches } m
        (fun k => k) (fun g => g) (fun _ u => u.next) ∧
      t.launches = x.s.launches ++ [⟨x.k.stack, ws, x.k.priv, false, (ws.getD 8 0).toNat % 2 ^ 6, 0, 0, false, false,
        x.s.order.writes⟩] ∧
      t.blocks.length = x.s.blocks.length + ((ws.getD 8 0).toNat / 2 ^ 24 % 4 + 1) ∧
      (∀ i, i < (ws.getD 8 0).toNat / 2 ^ 24 % 4 + 1 → ∃ k, t.block? (x.s.blocks.length + i) = some k ∧
        k.launch = some x.s.launches.length ∧ k.lin = i ∧ k.phase = .waiting ∧ k.stack = x.k.stack ∧ k.part = part ∧
        k.job = ws.getD 12 0 ∧ k.entry.toNat = ((ws.getD 1 0).toNat % 2 ^ 24 * 2 ^ 32 + (ws.getD 0 0).toNat) ∧
        k.vregs = 8 * ((ws.getD 6 0).toNat % 2 ^ 5 + 1) ∧ k.sregs = 8 * ((ws.getD 6 0).toNat / 2 ^ 8 % 2 ^ 6 + 1) ∧
        k.trapGroup = false ∧ (k.priv = true → x.k.priv = true)) ∧
      (t.ctx? part x.k.stack (ws.getD 12 0)).isSome ∧
      ∀ n < 4, ∀ y, ws.getD (9 + n) 0 ≠ 0 → t.counter? part (ws.getD (9 + n) 0) = some y → y.fixed = true) ∧
    (recordOk x.s x.k ws = false → (∀ n < 4, ∀ y, x.s.counter? (if x.k.priv then part else x.k.part) (ws.getD (9 + n) 0) = some y →
        y.state = .open → (ws.getD (9 + n) 0).toNat / 2 ^ 30 ≠ n) →
      ∃ t, exec (.launch a) x.s = .next t ∧ Does x { t with reports := x.s.reports } afterDesc (fun k => k) (fun g => g)
        (fun _ u => u.next) ∧ t.reports = x.s.reports ++ [(x.k.stack, 8)]) ∧
    (∀ n y, recordOk x.s x.k ws = false → n < 4 → (ws.getD (9 + n) 0).toNat / 2 ^ 30 = n → y.state = .open →
      x.s.counter? (if x.k.priv then part else x.k.part) (ws.getD (9 + n) 0) = some y →
      (∀ j < n, ∀ z, x.s.counter? (if x.k.priv then part else x.k.part) (ws.getD (9 + j) 0) = some z →
        z.state = .open → (ws.getD (9 + j) 0).toNat / 2 ^ 30 ≠ j) →
      ∃ t z, exec (.launch a) x.s = .next t ∧
        t.counter? (if x.k.priv then part else x.k.part) (ws.getD (9 + n) 0) = some z ∧ z.rejected = true ∧ z.state = .cancelled)) ∧
  (∀ (s : State) (b : Nat) (k : Block) (pl : Place), s.block? b = some k → k.saved = false →
    asks s b k = true → allAsk s b = true →
    (choosePlace s b = some pl → firstToPlace s b k = true → ∃ t, exec (.blockPlacement b) s = .next t ∧ SameBytes s t ∧
      ∀ p ∈ pl, ∃ o, t.block? p.1 = some o ∧ o.phase = .resident ∧ o.core = p.2 ∧ (o.saved = false → Seeded o) ∧
        p.2 / 4 ∈ (s.partOn k.part k.stack).params.columns) ∧
    (choosePlace s b = none → k.trapGroup = false → placesOf s b ≠ [] → (k.phase = .waiting ∨ k.phase = .deferred) →
      ∃ t o, exec (.blockPlacement b) s = .next t ∧ t.block? b = some o ∧ o.phase = .deferred ∧
        { o with phase := k.phase, deferredFrom := k.deferredFrom } = k ∧
        o.deferredFrom = some (k.deferredFrom.getD (s.stack k.stack).us.toNat))) ∧
  (∀ (s s' : State) (b : Nat) (k : Block) (pl : Place), s.block? b = some k → k.saved = true → asks s b k = true →
    s' = s.mapBlock b (fun o => { o with phase := if o.phase = .evicted then .waiting else o.phase }) →
    (∀ o, s'.block? b = some o → asks s' b o = true ∧ firstToPlace s' b o = true) → allAsk s' b = true →
    choosePlace s' b = some pl → (b ∈ pl.map (·.1)) →
    ∃ t o, exec (.blockRestore b) s = .next t ∧ SameBytes s t ∧ t.block? b = some o ∧ o.phase = .resident ∧
      o.core / 4 ∈ (s.partOn k.part k.stack).params.columns ∧ o.groups.length = k.groups.length ∧
      ∀ g l u, s.thread? b g l = some u → u.run ≠ .blocked .monitor → ∃ v, t.thread? b g l = some v ∧ v.regs = u.regs ∧ v.pc = u.pc ∧ v.preds = u.preds ∧
        v.gen = u.gen ∧ v.hints = u.hints) ∧
  (∀ (s : State) (b t0 : Nat) (k : Block), s.block? b = some k → k.phase = .deferred → k.heldCol = none →
    k.deferredFrom = some t0 → t0 + 100000 ≤ (s.stack k.stack).us.toNat →
    (∀ o ∈ s.blocks, o.part = k.part → ((o.phase = .deferred ∨ o.phase = .waiting) → o.heldCol = none) ∧
      (mayHold s o = true → placedBefore s o k = false)) →
    ∃ t h, exec (.deferralHold b) s = .next t ∧ Becomes s t b { k with heldCol := h } ∧
      (∀ q, h = some q → q ∈ (s.partOn k.part k.stack).params.columns ∧ columnAdmitsEmpty s b q = true ∧
        ∀ q' ∈ (s.partOn k.part k.stack).params.columns, columnAdmitsEmpty s b q' = true →
          (s.vault k.stack q).reading ≤ (s.vault k.stack q').reading) ∧
      (h = none → ∀ q ∈ (s.partOn k.part k.stack).params.columns, columnAdmitsEmpty s b q = false)) ∧
  (∀ (s : State) (b n : Nat) (k : Block) (l : Launch), s.block? b = some k → k.phase = .resident → k.launch = some n →
    s.launches[n]? = some l → (∀ u ∈ k.allThreads, u.run = .exited ∨ u.run = .killed) →
    (k.seq.state = .idle ∨ k.seq.state = .faulted) → k.seq.rows = [] → (∀ e ∈ s.copies, e.blk ≠ b) → (∀ e ∈ s.calls, e.blk ≠ b) →
    (∀ e ∈ s.accesses, e.blk ≠ b) → (∀ g ∈ k.groups, ∀ u ∈ g.queues, u.calls = []) →
    ∃ t o, exec (.blockCompletion b) s = .next t ∧ t.block? b = some o ∧ o.phase = .complete ∧ SameBytes s t ∧
      (∀ b', b' ≠ b → t.block? b' = s.block? b') ∧
      (l.done + 1 ≠ l.blocks → t.parts = s.parts ∧ t.launches[n]? = some { l with done := l.done + 1 }) ∧
      (l.done + 1 = l.blocks → l.cancelled = false → t.launches[n]? = some { l with done := l.done + 1, posted := true } ∧
        ∀ id i q y, (recCounters l.words).find? (fun w => w != 0) = some id → Names s (recPart l.words) q i id y →
          (s.linkHeld = false ∨ q = l.stack) → y.state = .open → y.posted + 1 = y.total → y.parent = none →
          CounterIs s t (recPart l.words) q i { y with posted := y.posted + 1, state := .complete }))

/-- R452 to R454, R477, R490: what each system register reads as, what a write to each does, and that k.tlbinv begins an
invalidation for which its threads wait.
Readings of the model that it rests on: entries 57 and 74. -/
def Obligations.SystemRegisters : Prop :=
  ∀ (d : Fld) (n : BitVec 12) (x : Site) (cx : Ctx) (P : Part) (ps : PartStack) (v : Nat), x.Issues → x.act ≠ [] →
    x.s.ctx? x.k.part x.k.stack x.k.job = some cx → x.s.parts[x.k.part]? = some P → P.on[x.k.stack]? = some ps →
    let co := x.s.core x.k.stack x.k.core
    (∀ p ∈ registers x cx ps co (co.clusters.getD x.gr.cluster Cluster.reset), n.toNat = p.1 →
      Clear ⟨[uDst d], Accepts.plain, needOf n.toNat⟩ x.k x.gr x.act x.hints →
      ∃ t, exec (.kRd d n) x.s = .next t ∧ Does x t id (fun k => k) (put x d (BitVec.ofNat 32 p.2)) (fun _ u => u.next)) ∧
    (Clear (Form.of [uDst d]) x.k x.gr x.act x.hints →
      ∃ t, exec (.kCycleLoRead d) x.s = .next t ∧ Does x t id (fun k => k)
        (fun g => { put x d (BitVec.ofNat 32 co.cycles.toNat) g with cycleHi := BitVec.ofNat 32 (co.cycles.toNat / 2 ^ 32) })
        (fun _ u => u.next)) ∧
    (Clear ⟨[uRead 0 d], Accepts.plain, needOf n.toNat⟩ x.k x.gr x.act x.hints → Clean [x.gr.sreg d] →
      v = (x.gr.sreg d).val.toNat →
      (x.s.agenda ≠ [] → n.toNat ≠ 0x052 → kWritable n.toNat = true → ∃ t, exec (.kWr d n) x.s = .next t ∧
        t.agenda = x.s.agenda ++ [.kWrite x.blk x.grp n.toNat (x.gr.sreg d).val] ∧
        Does x t (fun s => { s with agenda := [] }) (fun k => k) (fun g => g) (fun _ u => u.next)) ∧
      (∀ p ∈ ctxWrites x.k.priv v cx, n.toNat = p.1 → cx.wps.length = 4 → x.s.agenda = [] → ∃ t, exec (.kWr d n) x.s = .next t ∧
        Does x t ctxless (fun k => k) (fun g => g) (fun _ u => u.next) ∧ CtxIs x.s t x.k.part x.k.stack x.k.job p.2) ∧
      (∀ p ∈ partWrites v ps, n.toNat = p.1 → x.s.agenda = [] → ∃ t, exec (.kWr d n) x.s = .next t ∧
        Does x t bare (fun k => k) (fun g => g) (fun _ u => u.next) ∧
        t.parts = x.s.parts.set x.k.part { P with on := P.on.set x.k.stack p.2 }) ∧
      (n.toNat = 0x102 → x.s.agenda = [] → ∃ t, exec (.kWr d n) x.s = .next t ∧
        Does x t id (fun k => k) (fun g => { g with evgrp := decide (v % 2 = 1) }) (fun _ u => u.next)) ∧
      (∀ f, ((f = .kWr d n ∧ n.toNat = 0x052) ∨ f = .tlbinvPartition d ∨ f = .tlbinvPage d) → needOf n.toNat = .priv →
        (Ready x → x.k.stack < x.s.stks.length → ∃ t i, exec f x.s = .next t ∧ SameBytes x.s t ∧
          (t.stack x.k.stack).invals = (x.s.stack x.k.stack).invals ++ [i] ∧ i.part = x.k.part ∧
          (i.va = none ∨ i.va = some ps.tlbva) ∧ (f = .tlbinvPartition d → i.va = none) ∧
          (f = .tlbinvPage d → i.va = some ps.tlbva) ∧ (f = .kWr d n → (i.va = none ↔ v % 2 = 1)) ∧ i.complete = false ∧
          (∀ l ∈ x.act, ∃ u, t.thread? x.blk x.grp l = some u ∧ u.regs = (x.gr.thread l).regs ∧ u.pc = x.pc ∧
            u.run = .blocked (.tlbinv (x.s.stack x.k.stack).invals.length)) ∧
          ∀ c ∈ (t.stack x.k.stack).cores, ∀ tr ∈ c.tlb, tr.part = x.k.part → i.covers tr.vpage tr.shift = false) ∧
        ((∀ l ∈ x.act, ∃ q, (x.gr.thread l).run = .blocked (.tlbinv q)) → ∃ t, exec f x.s = .next t ∧
          Does x t id (fun k => k) (fun g => g) (fun _ u => u.next)))) ∧
    (∀ (w : Word) (ms : List Move), x.s.agenda = .kWrite x.blk x.grp n.toNat w :: ms → cx.wps.length = 4 →
      (∀ p ∈ ctxWrites x.k.priv w.toNat cx, n.toNat = p.1 → ∃ t, step x.s = .next t ∧
        ctxless t = ctxless { x.s with agenda := ms, cur := .none } ∧ CtxIs x.s t x.k.part x.k.stack x.k.job p.2) ∧
      (∀ p ∈ partWrites w.toNat ps, n.toNat = p.1 → ∃ t, step x.s = .next t ∧ t.agenda = ms ∧
        t.parts = x.s.parts.set x.k.part { P with on := P.on.set x.k.stack p.2 }))

/-- R455 to R461, R475, R478, R479: trap, a word that is no instruction and a fetch that no page serves park their threads with
one record, or end the context where no handler can serve it; a trap group starts while records wait, reads them, and returns
with the action that it set; held records enter the queue as it has room. That a sixth hint word traps is the choice of entry 12,
and that the blocks of a terminated context have ended in the very next state the reading of entry 15.
Readings of the model that it rests on: entries 12, 14, 15 and 73. -/
def Obligations.TrapsAndHandler : Prop :=
  (∀ (c : BitVec 12) (x : Site) (cx : Ctx), x.Issues → Clear (Form.of []) x.k x.gr x.act x.hints → x.act ≠ [] → Placed x →
    (Served x cx → ∃ t, exec (.trap c) x.s = .next t ∧ Trapped x t cx 13 x.act x.word (BitVec.ofNat 32 c.toNat) 0) ∧
    (x.s.ctx? x.k.part x.k.stack x.k.job = some cx → (cx.tentry = 0 ∨ x.k.trapGroup = true) → cx.terminated = false →
      ∃ t, exec (.trap c) x.s = .next t ∧ Terminated t x.k.part x.k.stack x.k.job)) ∧
  (∀ (w : Word) (q : BitVec 2) (x : Site) (cx : Ctx), x.Issues → x.lanes ≠ [] → Placed x → Served x cx →
    (w.toNat / 2 ^ 26 ≠ 63 → ∃ t, exec (.illegalEncoding w) x.s = .next t ∧ Trapped x t cx 1 x.lanes w 0 0) ∧
    (w = x.word → 5 ≤ x.hints.length → ∃ t, exec (.illegalEncoding w) x.s = .next t ∧ Trapped x t cx 1 x.lanes w 0 0) ∧
    (∃ t, exec (.fetchFault q) x.s = .next t ∧ Trapped x t cx 6 x.lanes 0 5 x.pc)) ∧
  (∀ (w : Word) (q : BitVec 2) (s : State) (b : Nat) (k : Block) (pc : Addr) (v : Word) (cx : Ctx), Runs s b k pc v →
    s.ctx? k.part k.stack k.job = some cx → cx.tentry ≠ 0 → k.trapGroup = false → cx.held = [] → cx.park.length < 256 → k.seq.chain = none →
    ∀ f ∈ [Instr.illegalEncoding w, .fetchFault q],
      ∃ t r cy, exec f s = .next t ∧ t.block? b = some { k with seq := stopped .faulted k.seq } ∧
        t.ctx? k.part k.stack k.job = some cy ∧ cy.park = cx.park ++ [r] ∧ r.seq = true ∧ r.pc = pc ∧
        r.kind = (if f = .fetchFault q then 6 else 1) ∧ r.words.getD 5 0 = (if f = .fetchFault q then 5 else 0)) ∧
  (∀ (x : Site) (cx : Ctx) (r : ParkRecord) (rs : List ParkRecord), x.Issues → Clear ⟨[], Accepts.plain, .handler⟩ x.k x.gr x.act x.hints →
    x.act ≠ [] → x.s.ctx? x.k.part x.k.stack x.k.job = some cx → cx.park = r :: rs → cx.held = [] → cx.park.length ≤ 256 →
    (cx.tact.toNat < 4 → r.seq = false → r.blk ≠ x.blk → ∃ t, exec .tret x.s = .next t ∧
      CtxIs x.s t x.k.part x.k.stack x.k.job { cx with park := rs } ∧
      Does x { t with blocks := t.blocks.set r.blk ((x.s.block? r.blk).getD x.k) } ctxless (fun k => k) (fun g => g) (fun _ u => u.next) ∧
      ∀ l ∈ r.lanes, ∀ u, x.s.thread? r.blk r.grp l = some u → u.run = .parked →
        ∃ v, t.thread? r.blk r.grp l = some v ∧ v.run = .ready ∧ v.regs = u.regs ∧ v.preds = u.preds ∧
          v.pc = (match cx.tact.toNat with
            | 2 => r.pc + BitVec.ofNat 56 (4 * (r.hints + 1))
            | 3 => BitVec.ofNat 56 (cx.tpc.toNat / 4 * 4)
            | _ => u.pc) ∧ (cx.tact.toNat = 1 → v.unwatched = true)) ∧
    (cx.tact = 4 → r.seq = false → ∃ t, exec .tret x.s = .next t ∧ CtxIs x.s t x.k.part x.k.stack x.k.job { cx with park := rs } ∧
      ∀ l ∈ r.lanes, ∀ u, x.s.thread? r.blk r.grp l = some u → ∃ v, t.thread? r.blk r.grp l = some v ∧ v.run = .killed) ∧
    (cx.tact = 5 → cx.terminated = false → ∃ t, exec .tret x.s = .next t ∧ Terminated t x.k.part x.k.stack x.k.job) ∧
    (cx.tact.toNat < 5 → r.seq = true → ∃ t, exec .tret x.s = .next t ∧ CtxIs x.s t x.k.part x.k.stack x.k.job { cx with park := rs } ∧
      Does x t ctxless (fun k => k) (fun g => g) (fun _ u => u.next))) ∧
  (∀ (d : Fld) (a : Src) (cx : Ctx), Uni (.parkRd d a) ⟨[uDst d, uSrc 1 a], Accepts.plain, .handler⟩
    (fun x => Clean [x.gr.sreg a.f] ∧ x.s.ctx? x.k.part x.k.stack x.k.job = some cx) id (fun _ k => k)
    (fun x => let v := (x.gr.sreg a.f).val.toNat
      put x d (((cx.park[v / 16 % 256]?).map (fun r => r.words.getD (v % 16) 0)).getD 0)) (fun _ _ => True)) ∧
  (∀ (s : State) (part stack : Nat) (job : Word) (cx : Ctx), s.ctx? part stack job = some cx →
    ∃ t, exec (.heldRecordEntry part stack job) s = .next t ∧ ctxless t = ctxless s ∧
      CtxIs s t part stack job { cx with park := (cx.park ++ cx.held).take 256, held := (cx.park ++ cx.held).drop 256 }) ∧
  (∀ (s : State) (part stack : Nat) (job : Word) (cx : Ctx), s.ctx? part stack job = some cx → cx.terminated = false → cx.tentry ≠ 0 →
    cx.park ≠ [] → (∀ k ∈ s.blocks, k.trapGroup = true → k.part = part → k.stack = stack → k.job = job → k.phase = .complete ∨ k.phase = .cancelled) →
    ∃ t k, exec (.trapGroupStart part stack job) s = .next t ∧ t.blocks = s.blocks ++ [k] ∧ ctxless { t with blocks := s.blocks } = ctxless s ∧
      CtxIs s t part stack job { cx with tact := 0, tpc := 0 } ∧ k.trapGroup = true ∧ k.phase = .waiting ∧ k.entry = cx.tentry ∧
      k.job = cx.job ∧ k.stack = cx.stack ∧ k.groups.length = 1 ∧ k.vregs = 8 * (cx.talloc.toNat % 2 ^ 5 + 1) ∧
      k.sregs = 8 * (cx.talloc.toNat / 2 ^ 8 % 2 ^ 6 + 1) ∧ (k.priv = true → cx.tentryPriv = true))

/-- R46, R49, R59, R72, R452, R458: the conditions of an instruction are taken in the order of R72, and the threads they
affect take one trap with the detail of R458: a hint that is invalid, repeated or not accepted, on every thread of the bundle; a form
without its privilege, and a register beyond the allotment, on the threads whose guard is true; an empty source with
empty-action 1; a poisoned source of a comparison; and a misaligned address of an atomic.
Readings of the model that it rests on: entry 9. -/
def Obligations.ConditionsOfIssue : Prop :=
  (∀ (x : Site) (cx : Ctx) (d : Fld) (a b : Src) (v : SrcB) (n : BitVec 12), x.Issues → x.lanes ≠ [] → Placed x → Served x cx →
    ∀ p ∈ (uniformOps d a b).map (fun q => (q.1, Form.of [uDst d, uSrc 1 a, uSrc 2 b])) ++
        (vectorOps d a v).map (fun q => (q.1, Form.of [vDst d, vSrc 1 a, bSrc v])) ++
        ([(.halt, ⟨[], Accepts.plain, .priv⟩), (.snap, ⟨[], Accepts.plain, .priv⟩), (.tret, ⟨[], Accepts.plain, .handler⟩)] ++
        (if kReadable n.toNat then [(.kRd d n, ⟨[uDst d], Accepts.plain, needOf n.toNat⟩)] else []) : List (Instr × Form)),
      (¬ PlainHints x.hints →
        ∃ t, exec p.1 x.s = .next t ∧ Trapped x t cx 1 x.lanes x.word 0 0) ∧
      (PlainHints x.hints → x.act ≠ [] →
        (∀ c, needDetail p.2.need x.k = some c → ∃ t, exec p.1 x.s = .next t ∧ Trapped x t cx 6 x.act x.word c 0) ∧
        (needDetail p.2.need x.k = none → ∀ c, boundDetail x p.2.ops = some c →
          ∃ t, exec p.1 x.s = .next t ∧ Trapped x t cx 2 x.act x.word c 0))) ∧
  (∀ (x : Site) (cx : Ctx) (d : Fld) (a b : Src) (c : ICond) (sp : BitVec 2), x.Issues → x.act ≠ [] → Placed x → Served x cx →
    (∀ p ∈ uniformOps d a b, PlainHints x.hints →
      boundDetail x [uDst d, uSrc 1 a, uSrc 2 b] = none →
      (a.chk = true → (x.gr.sreg a.f).st = .empty → ∃ t, exec p.1 x.s = .next t ∧ Trapped x t cx 3 x.act x.word 0 0) ∧
      ((x.gr.sreg a.f).st ≠ .empty → b.chk = true → (x.gr.sreg b.f).st = .empty →
        ∃ t, exec p.1 x.s = .next t ∧ Trapped x t cx 3 x.act x.word 1 0)) ∧
    (Clear (Form.of [uSrc 1 a, uSrc 2 b]) x.k x.gr x.act x.hints →
      (x.gr.sreg a.f).st = .poisoned ∨ (x.gr.sreg b.f).st = .poisoned →
      (∀ r ∈ [x.gr.sreg a.f, x.gr.sreg b.f], r.st = .poisoned → r.val = 0) →
      ∃ t, exec (.scmp sp c a b) x.s = .next t ∧ Trapped x t cx 4 x.act x.word 0 0)) ∧
  (∀ (w64 : Bool) (d : Fld) (a b : Src) (o : AtOrd) (x : Site) (cx : Ctx) (l : Nat) (va : Addr), x.act = [l] → Placed x → Served x cx →
    va = BitVec.ofNat 56 (pairNat (x.gr.vregsAt (x.gr.thread l) a.f 2)) →
    ∀ p ∈ atoms w64 d a b o, va.toNat % (4 * width p.2.2) ≠ 0 →
    Clean (x.gr.vregsAt (x.gr.thread l) a.f 2 ++ x.gr.vregsAt (x.gr.thread l) b.f (operands p.2.1 p.2.2)) →
    CanAccess x ⟨[vDst d (width p.2.2), vSrc 1 a 2, vSrc 2 b (operands p.2.1 p.2.2)], ⟨false, false, false, false, true, true⟩, .any⟩ →
    ∃ t, exec p.1 x.s = .next t ∧ Trapped x { t with moves := x.s.moves } cx 5 [l] x.word 0 va)

/-- R470, R471, R480, R481, R517: ctx.save writes a stopped block's image, with status 0; ctx.load replaces the block's state by an
image that it accepts, and answers status 3 else; both answer status 1 where the block does not exist and 2 where it is not
stopped; halt asks for a debug stop, snap raises a trigger, and cap.rd reads the capability list.
Readings of the model that it rests on: entries 71, 72, 75 and 105. -/
def Obligations.ImagesAndPrivilege : Prop :=
  (∀ (a : Src) (tr ts : Trans) (ws : List Word) (b : Nat) (o : Block) (x : Site) (va : Addr) (pa : Nat), ImageAt x a tr ws b o →
    va = BitVec.ofNat 56 (pairNat (x.gr.sregsAt a.f 2)) → pa = ts.pa va.toNat → Regular o →
    let A := o.vregs
    let U := o.sregs
    let next (t : State) : Prop := ∀ l ∈ x.act, ∃ u, t.thread? x.blk x.grp l = some u ∧ u.pc = x.pc + 4 ∧ u.run = .ready ∧
      u.regs = (x.gr.thread l).regs
    (o.phase = .stopped → fillsPending x.s b = false → (recordsOf x.s b o).length ≤ 256 → (pendingFills x.s b).length ≤ 1024 →
      Mapped x .store va (2 ^ 24) ts →
      ∃ t n, exec (.ctxSave a) x.s = .next t ∧ next t ∧ t.block? b = some o ∧
        (∀ z, (z < pa ∨ pa + n ≤ z) → t.mem.get z = x.s.mem.get z) ∧ n ≤ 2 ^ 24 ∧
        t.memWord pa = 0x0101_0021 ∧ t.memWord (pa + 4) = BitVec.ofNat 32 (n / 64) ∧ t.memWord (pa + 8) = o.job ∧
        t.memWord (pa + 32) = BitVec.ofNat 32 o.scratchSize ∧ t.memWord (pa + 36) = BitVec.ofNat 32 o.groups.length ∧
        t.memWord (pa + 56) = 0 ∧
        (∀ g l u, x.s.thread? b g l = some u →
          t.memWord (pa + imageThread A U g l) = BitVec.ofNat 32 (lo u.start) ∧
          t.memWord (pa + imageThread A U g l + 4) = BitVec.ofNat 32 (hi u.start) ∧
          t.memWord (pa + imageThread A U g l + 12) = u.fmode ∧
          ∀ r v, u.regs[r]? = some v → t.memWord (pa + imageReg A U g l r) = v.val) ∧
        ∀ i, i < o.scratchSize → t.mem.get (pa + 64 + o.groups.length * imageSec A U + i) = o.scratch.get i) ∧
    (o.phase = .stopped → Mapped x .load va (64 + o.groups.length * imageSec A U + o.scratchSize) ts → Mapped x .store va 64 ts →
      x.s.poison = [] → x.s.linkDown = false →
      ∃ t, exec (.ctxLoad a) x.s = .next t ∧ next t ∧ (∀ z, (z < pa + 56 ∨ pa + 60 ≤ z) → t.mem.get z = x.s.mem.get z) ∧
        (imageOk x.s b o (x.s.mem.read pa (64 + o.groups.length * imageSec A U + o.scratchSize)) = false →
          t.memWord (pa + 56) = 3 ∧ t.block? b = some o) ∧
        (imageOk x.s b o (x.s.mem.read pa (64 + o.groups.length * imageSec A U + o.scratchSize)) = true →
          t.memWord (pa + 56) = 0 ∧ (∃ k, t.block? b = some k ∧ k.phase = .stopped) ∧
          ∀ g l u, x.s.thread? b g l = some u → ∃ v, t.thread? b g l = some v ∧
            v.preds = BitVec.ofNat 8 (x.s.memWord (pa + imageThread A U g l + 8)).toNat ∧
            (∀ r, r < A → (v.regs[r]?).map (·.val) = some (x.s.memWord (pa + imageReg A U g l r))) ∧ v.run = u.run)) ∧
    (o.phase ≠ .stopped → Mapped x .store va 64 ts → ∀ f ∈ [Instr.ctxSave a, .ctxLoad a],
      ∃ t, exec f x.s = .next t ∧ next t ∧ t.memWord (pa + 56) = 2 ∧ t.block? b = some o)) ∧
  (∀ (a : Src) (tr ts : Trans) (ws : List Word) (x : Site) (va : Addr), ImageSite x a tr ws →
    imageTarget x.s x.k (ws.getD 2 0) (ws.getD 3 0) = none → va = BitVec.ofNat 56 (pairNat (x.gr.sregsAt a.f 2)) →
    Mapped x .store va 64 ts → ∀ f ∈ [Instr.ctxSave a, .ctxLoad a], ∃ t, exec f x.s = .next t ∧
      t.memWord (ts.pa va.toNat + 56) = 1 ∧ ∀ b, b ≠ x.blk → t.block? b = x.s.block? b) ∧
  (∀ cx : Ctx, Uni .halt ⟨[], Accepts.plain, .priv⟩ (fun x => x.s.ctx? x.k.part x.k.stack x.k.job = some cx) ctxless (fun _ k => k)
    (fun _ g => g) (fun x t => CtxIs x.s t x.k.part x.k.stack x.k.job { cx with stop := asked cx.stop })) ∧
  (∀ x : Site, x.Issues → Clear ⟨[], Accepts.plain, .priv⟩ x.k x.gr x.act x.hints → x.act ≠ [] →
    let word : Word := BitVec.ofNat 32 (x.s.moduleNum * 2 ^ 20 + x.s.snapCount)
    ∃ t, exec .snap x.s = .next t ∧ SameBytes x.s t ∧ flightFrame { t with snapCount := x.s.snapCount } = flightFrame x.s ∧
      t.snapCount = (x.s.snapCount + 1) % 2 ^ 20 ∧
      (∀ b k, x.s.block? b = some k → ∃ k', t.block? b = some k' ∧
        { k' with groups := k.groups, issued := k.issued, snapDue := k.snapDue } = k ∧
        k'.snapDue = if k.phase = .resident ∨ k.phase = .evicted ∨ k.phase = .stopped then k.snapDue ++ [word] else k.snapDue) ∧
      (∀ l ∈ x.act, t.thread? x.blk x.grp l = (x.s.thread? x.blk x.grp l).map (fun u => (issuedThread x.hints u).next)) ∧
      ∀ b g l, ¬ (b = x.blk ∧ g = x.grp ∧ l ∈ x.lanes) → t.thread? b g l = x.s.thread? b g l) ∧
  (∀ (d : Fld) (a : Src) (n v : Nat),
    let bits_ (l : List Bool) : Nat := ((List.range l.length).map (fun i => 2 ^ i * bit01 (l.getD i false))).sum
    let slots (s : State) (p k : Nat) : Nat := ((s.partOn p k).params.encSlots.map (fun e => 2 ^ e)).sum
    Uni (.capRd d a) (Form.of [uDst d, uSrc 1 a])
      (fun x => Clean [x.gr.sreg a.f] ∧ (x.gr.sreg a.f).val.toNat = n ∧
        (n = 0 → v = 0x0100_0006) ∧
        (n = 1 → v = 32 * 2 ^ 24 + bits_ (x.s.stks.map (fun k => k.sec == 1)) % 2 ^ 8 * 2 ^ 16 + 2048) ∧
        (n = 2 → v = bits_ (x.s.ports.map Port.up) % 2 ^ 4 * 2 ^ 28 + bits_ (x.s.ports.map (·.billets)) % 2 ^ 4 * 2 ^ 24 + 2 +
          bit01 (!x.s.link.failed)) ∧
        (n = 3 → v = 2 ^ 31 + x.k.part % 2 ^ 5 * 2 ^ 26 + (x.s.partOn x.k.part 0).params.columns.length % 2 ^ 6 * 2 ^ 20 +
          (x.s.partOn x.k.part 1).params.columns.length % 2 ^ 6 * 2 ^ 14 +
          ((x.s.partOn x.k.part 0).params.slices.length + (x.s.partOn x.k.part 1).params.slices.length) % 2 ^ 7 * 2 ^ 7) ∧
        (n = 4 → v = (x.s.stack x.k.stack).sec % 2 ^ 8 * 2 ^ 24 + (x.s.stack x.k.stack).dbg % 2 ^ 8 * 2 ^ 16 +
          (x.s.stack x.k.stack).version.toNat) ∧
        (n = 5 → v = (x.s.stack 0).reserveCores % 2 ^ 8 * 2 ^ 24 + (x.s.stack 1).reserveCores % 2 ^ 8 * 2 ^ 16 +
          (x.s.stack 0).reserveBanks % 2 ^ 8 * 2 ^ 8 + (x.s.stack 1).reserveBanks % 2 ^ 8) ∧
        (n = 6 → v = slots x.s x.k.part 1 % 2 ^ 16 * 2 ^ 16 + slots x.s x.k.part 0 % 2 ^ 16) ∧ (6 < n → v = 0))
      id (fun _ k => k) (fun x => put x d (BitVec.ofNat 32 v)) (fun _ _ => True))

/-- R369, R436 to R439, R460, R465 to R469, R474, R482 to R484, R488: a stop withdraws the calls that wait and saves every block;
an evicted block keeps its state; a slice that ends stops the context where another waits; a wait that outlasts its watchdog ends
the context or faults the sequencer; a breakpoint and the end of a step stop the context; a block latches a trigger once. That the
blocks of a terminated context have ended in the very next state is the reading of entry 15.
Readings of the model that it rests on: entries 15, 59, 60, 63, 76, 90 and 113. -/
def Obligations.ContextEvents : Prop :=
  (∀ (s : State) (part stack b : Nat) (job : Word) (cx : Ctx) (k : Block), s.ctx? part stack job = some cx → s.block? b = some k →
    k.part = part → k.stack = stack → k.job = job → (k.phase = .resident ∨ k.phase = .evicted) →
    (∀ b' o, b' ≠ b → s.block? b' = some o → o.part = part → o.stack = stack → o.job = job → o.phase ≠ .resident ∧ o.phase ≠ .evicted) →
    (∀ q, cx.stop = .stopping q → (s.calls.map (·.id)).Nodup → ∃ t, exec (.contextStop part stack job) s = .next t ∧ SameBytes s t ∧
      t.calls = s.calls.filter (fun e => !(e.blk == b && callWaits s e)) ∧ t.ctxs = s.ctxs ∧
      ∀ g q u, queue? s b g q = some u → queue? t b g q = some { u with calls :=
        (s.calls.filter (fun e => e.blk == b && callWaits s e && e.grp == g && e.q == q)).map (fun e =>
          ⟨e.words, e.lane, e.pushed, s.callSeen e.id⟩) ++ u.calls }) ∧
    (∀ q, cx.stop = .stopping q → k.seq.rows = [] → (∀ e ∈ s.calls, e.blk ≠ b) → (s.partOn cx.part stack).pending = none →
      ∃ t o, exec (.stopComplete part stack job) s = .next t ∧ SameBytes s t ∧ t.block? b = some o ∧ o.saved = true ∧ Keeps s t b ∧
        (∀ c ∈ t.copies, c.blk = b → c.slot = false) ∧
        (q = true → o.phase = .stopped ∧ CtxIs s t part stack job { cx with stop := .stopped true }) ∧
        (q = false → o.phase = .waiting ∧ t.ctx? part stack job = some { cx with stop := .running }))) ∧
  (∀ (s : State) (b : Nat) (k : Block), s.block? b = some k → evictable s b k = true →
    (k.missing ≠ [] ∨ (longestIdle s k = true ∧ roomWanted s k.part k.stack = true)) →
    ∃ t o, exec (.blockEviction b) s = .next t ∧ SameBytes s t ∧ t.block? b = some o ∧ o.phase = .evicted ∧ o.saved = true ∧
      Keeps s t b ∧ (∀ b', b' ≠ b → t.block? b' = s.block? b') ∧
      (∀ c, core? t k.stack k.core = some c → c.array ≠ some b ∧ b ∉ c.seqQueue)) ∧
  (∀ (s : State) (part stack : Nat) (job : Word) (cx : Ctx), s.ctx? part stack job = some cx → cx.stop = .running →
    (s.partOn cx.part stack).params.sliceLen ≤ cx.slice →
    ∃ t z, exec (.sliceExpiry part stack job) s = .next t ∧ { t with ctxs := s.ctxs } = s ∧ t.ctx? part stack job = some z ∧
      ((∃ b k, s.block? b = some k ∧ waitsFor s part stack job b k = true) → z = { cx with stop := .stopping false, slice := 0 }) ∧
      ((∀ b k, s.block? b = some k → waitsFor s part stack job b k = false) → z = { cx with slice := 0 })) ∧
  (∀ (s : State) (b g l : Nat) (k : Block) (gr : Group) (u : Thread) (cx : Ctx), s.block? b = some k → s.group? b g = some gr →
    gr.threads[l]? = some u → (k.phase = .resident ∨ k.phase = .evicted) → s.ctx? k.part k.stack k.job = some cx → cx.stop = .running →
    cx.terminated = false →
    ((s.partOn k.part k.stack).bwdog.toNat = k.bwdog → (∃ n < 16, u.run = .blocked (.gate n true) ∨ u.run = .blocked (.gate n false) ∨ u.run = .blocked (.nbar n)) →
      ∃ t, exec (.barrierWatchdogExpiry b) s = .next t ∧ Terminated t k.part k.stack k.job) ∧
    ((s.partOn k.part k.stack).rwdog.toNat = u.rwdog → u.run = .blocked .regroupRegs →
      ∃ t, exec (.regroupWatchdogExpiry b g l) s = .next t ∧ Terminated t k.part k.stack k.job) ∧
    (∀ n m, (s.partOn k.part k.stack).bwdog.toNat = k.bwdog → (∀ v ∈ k.allThreads, barrierWait v = none) → k.seq.state = .running →
      k.seq.wait = .mwait n m → (k.nbars.getD n NBar.fresh).a.toNat < m → n < 16 → k.seq.chain = none → cx.tentry ≠ 0 →
      k.trapGroup = false → cx.held = [] → cx.park.length < 256 →
      ∃ t r cy, exec (.barrierWatchdogExpiry b) s = .next t ∧
        t.block? b = some { k with seq := stopped .faulted k.seq } ∧ t.ctx? k.part k.stack k.job = some cy ∧
        cy.park = cx.park ++ [r] ∧ r.seq = true ∧ r.kind = 8 ∧ r.pc = k.seq.pc ∧ r.words.getD 5 0 = BitVec.ofNat 32 (32 + n)) ∧
    (∀ q, k.phase = .resident → u.hints = [] → canIssue s b g k gr l u = true → breakpointFor s k gr l u u.pc = some q →
      ∃ t, exec (.breakpointMatch b g l q) s = .next t ∧ SameBytes s t ∧ t.thread? b g l = some { u with bpSkip := u.bpSkip ||| BitVec.ofNat 8 (2 ^ q) } ∧
        CtxIs s t k.part k.stack k.job { cx with stop := .stopping true } ∧
        ∀ st, s.stks[k.stack]? = some st → st.trace.length < st.traceSize → st.traceDropped = 0 →
          ∃ w, (t.stack k.stack).trace = st.trace ++ [w] ∧ w.length = 8 ∧ (w.getD 0 0).toNat / 2 ^ 28 = 1 ∧ w.getD 4 0 = k.job ∧
            w.getD 5 0 = BitVec.ofNat 32 q) ∧
    (∀ p, cx.step = some p → cx.stepped = true →
      ∃ t, exec (.debugStepEnd k.part k.stack k.job) s = .next t ∧ ctxless t = ctxless s ∧
        CtxIs s t k.part k.stack k.job { cx with step := none, stepped := false, stop := .stopping true })) ∧
  (∀ (s : State) (b : Nat) (k : Block) (v : Word) (rest : List Word), s.block? b = some k →
    (k.phase = .resident ∨ k.phase = .evicted ∨ k.phase = .stopped) →
    ((v.toNat / 2 ^ 20 = s.moduleNum ∧ v.toNat % 2 ^ 20 ≠ s.snapCount ∧ k.snapDue = v :: rest) ∨
      (v.toNat / 2 ^ 20 ≠ s.moduleNum ∧ k.snapDue = rest ∧ ∀ w ∈ k.snapLatched, w.toNat / 2 ^ 20 ≠ v.toNat / 2 ^ 20)) →
    ∃ t o, exec (.snapshotTrigger b v) s = .next t ∧ Becomes s t b o ∧ o.snapDue = rest ∧
      { o with snap := k.snap, snapDue := k.snapDue, snapLatched := k.snapLatched } = k ∧
      o.snap = ⟨v, if k.phase = .resident then (s.core k.stack k.core).cycles else 0, BitVec.ofNat 32 k.issued,
        BitVec.ofNat 32 (min (k.charge.1 / k.charge.2 / 256) (2 ^ 32 - 1)), BitVec.ofNat 32 (s.stack k.stack).us.toNat⟩ ∧
      (v.toNat / 2 ^ 20 ≠ s.moduleNum → v ∈ o.snapLatched))

/-- R434, R437, R491 to R499: a reading sets a vault's temperature and its throttle; resident blocks accrue the refresh charge; a
window closes its counts and asks for a slower state where the clusters stall; a step ends in the state asked for; and a
measurement sets the average and the effective cap, cuts the floors to it, and applies or lifts one measure.
Readings of the model that it rests on: entries 69 and 80 to 82. -/
def Obligations.PowerEvents : Prop :=
  (∀ (s : State) (i j : Nat) (ts : List Nat) (st : Stack) (v : Vault) (n : Nat), s.stks[i]? = some st → st.vaults[j]? = some v →
    ts[j]? = some n → s.upsets = [] →
    ∃ t st' v', exec (.vaultReading i ts) s = .next t ∧ t.stks[i]? = some st' ∧ st'.vaults[j]? = some v' ∧
      { v' with reading := v.reading, forecast := v.forecast, throttled := v.throttled } = v ∧ v'.reading = n ∧ v'.forecast = n ∧
      (1150 < n → v'.throttled = true) ∧ (n ≤ 1100 → v'.throttled = false) ∧ (1100 < n → n ≤ 1150 → v'.throttled = v.throttled) ∧
      (∀ b k, s.block? b = some k → k.stack = i → k.phase = .resident → ∃ k', t.block? b = some k' ∧ k'.unread = false) ∧
      (j < 32 → 1150 < n → v.throttled = false → ∀ q < 4, ∀ c, core? s i (4 * j + q) = some c → c.step = none → c.state ≠ 4 →
        ∃ c' p, core? t i (4 * j + q) = some c' ∧ c'.step = some p ∧ p.cluster = none ∧ p.target = 4 ∧ p.cause = 2)) ∧
  (∀ (s : State) (i : Nat), ∃ t, exec (.refreshCharge i) s = .next t ∧ { t with blocks := s.blocks } = s ∧
    ∀ b k, s.block? b = some k → ∃ k', t.block? b = some k' ∧ { k' with charge := k.charge } = k ∧
      (k.phase ≠ .resident ∨ k.stack ≠ i → k' = k) ∧
      (k.phase = .resident → k.stack = i → k.charge.2 ≠ 0 →
        let v := s.vault i (k.core / 4)
        let heat (o : Block) : Nat := classHeat (blockClass s o)
        let all := ((s.blocks.filter (fun o => o.phase == .resident && o.stack == i && o.core / 4 == k.core / 4)).map heat).sum
        let temp := if k.unread then v.forecast else v.reading
        let r := if temp ≤ 850 then 3 else if temp ≤ 950 then 6 else if temp ≤ 1050 then 12 else if temp ≤ 1150 then 24 else 48
        k'.charge.2 ≠ 0 ∧ (k'.charge.1 : ℚ) / k'.charge.2 = (k.charge.1 : ℚ) / k.charge.2 + 8500 * (r / 100) * heat k / all)) ∧
  (∀ (s : State) (i j : Nat) (c : Core), core? s i j = some c → c.clusters.length = 4 →
    ∃ t c', exec (.windowEnd i j) s = .next t ∧ SameBytes s t ∧ core? t i j = some c' ∧ c'.state = c.state ∧
      (∀ (q : Nat) (a : Cluster), c.clusters[q]? = some a → ∃ b : Cluster, c'.clusters[q]? = some b ∧ b.near = a.near ∧
        b.i = BitVec.ofNat 32 a.curI ∧ b.m = BitVec.ofNat 32 a.curM ∧ b.c = BitVec.ofNat 32 a.curC ∧ b.n = a.n + 1 ∧
        b.curI = 0 ∧ b.curM = 0 ∧ b.curC = 0) ∧
      (c.step = none → 0 < windowSum s i j (fun a => a.curC) → (∀ a ∈ c.clusters, a.curC < 2 ^ 32 ∧ a.curM < 2 ^ 32) →
        6 * windowSum s i j (fun a => a.curC) ≤ 10 * windowSum s i j (fun a => a.curM) →
        (c.state < 4 → ∃ p, c'.step = some p ∧ p.cluster = none ∧ p.target = c.state + 1 ∧ p.cause = 0) ∧
        (c.state = 4 → c'.denial = 1 ∧ (c.pdeny ≠ 0xFFFF_FFFF → c'.pdeny = c.pdeny + 1)))) ∧
  (∀ (s : State) (i j : Nat) (c : Core) (p : PowerStep), core? s i j = some c → c.step = some p →
    p.ends ≤ 10 * (s.stack i).us.toNat → c.want = [] →
    ∃ t c', exec (.powerStepEnd i j) s = .next t ∧ SameBytes s t ∧ core? t i j = some c' ∧ c'.step = none ∧
      (p.cluster = none → c'.state = p.target ∧ c'.clusters = c.clusters) ∧
      (∀ q, p.cluster = some q → c'.state = c.state ∧
        c'.clusters = c.clusters.modify q (fun a => { a with near := decide (p.target = 1), streak := 0 }))) ∧
  (∀ (s : State) (w f : Nat), let ws := (w :: s.powers).take 100
    let below := ws.sum + 50 * ws.length ≤ s.capHost * ws.length
    ∃ t, exec (.powerMeasurement w f) s = .next t ∧ t.avgPower = w ∧ t.powers = ws ∧ t.capEff = capInForce s ∧ t.capNew = false ∧
    t.capHost = s.capHost ∧ floorSum t (·.floorEff) = min (floorSum s (·.params.powerFloor)) (capInForce s) ∧
    (190 ≤ s.capHost → f ≤ s.capHost → ¬ below → t.measures = s.measures ∧ t.underCap = 0) ∧
    (190 ≤ s.capHost → f ≤ s.capHost → below → t.underCap = s.underCap + 1 ∧
      t.measures = if 9 ≤ s.underCap then s.measures.drop 1 else s.measures) ∧
    (190 ≤ s.capHost → s.capHost < f → t.underCap = 0 ∧ (t.measures = s.measures ∨
      ∃ m, t.measures = m :: s.measures ∧ 1 ≤ m.kind ∧ m.kind ≤ 4 ∧ m.cores ≠ [] ∧ (s.part m.part).live = true)))

/-- R500 to R502, R507, R509 to R511: what the host and other modules read and write by a partition's tables; keepalives,
routes and sessions. That the host reaches the module through stack 0 while it is present, and the number 7 of a report, are the
choices of entries 116 and 70.
Readings of the model that it rests on: entries 69, 70, 90 and 116. -/
def Obligations.HostAndFabric : Prop :=
  (∀ (s : State) (p : Nat) (P : Part) (va : Addr) (bs : List Byte) (n : Nat) (tr : Trans), s.parts[p]? = some P → P.hostQueue = [] →
    s.mem.wf = true →
    let k := hostSide s
    (InWindow s p va bs.length → SeenAt s k p .store va bs.length tr →
      (Reaches s k (tr.pa va.toNat) bs.length → ∃ t, exec (.hostWrite p va bs) s = .next t ∧
        BytesPut s t (tr.pa va.toNat) bs ∧ memless t = memless s) ∧
      ((∀ j < bs.length, s.unreachablePA (tr.pa va.toNat + j) k = true) →
        exec (.hostWrite p va bs) s = .next { s with hostErrors := s.hostErrors ++ [(k, 7, p + 1)] })) ∧
    (InWindow s p va n → SeenAt s k p .load va n tr → s.upsets = [] → s.order.past = [] → s.poison = [] →
      Reaches s k (tr.pa va.toNat) n →
      ∃ t, exec (.hostRead p va n) s = .next t ∧ { t with hostReplies := s.hostReplies, moves := s.moves } = s ∧
        t.hostReplies = s.hostReplies ++ [some ((List.range n).map (fun j => s.mem.get (tr.pa va.toNat + j)))]) ∧
    (¬ InWindow s p va bs.length → exec (.hostWrite p va bs) s = .next s) ∧
    (¬ InWindow s p va n → exec (.hostRead p va n) s = .next { s with hostReplies := s.hostReplies ++ [none] })) ∧
  (∀ (s : State) (src k p : Nat) (va : Addr) (bs : List Byte) (tr : Trans), s.mem.wf = true → s.fabricIn = [] →
    (SeenAt s k p .store va bs.length tr → Reaches s k (tr.pa va.toNat) bs.length →
      ∀ f ∈ [FabricOp.store va bs, .copy va bs, .billet va [(0, bs)]],
      ∃ t, exec (.fabricOpArrival src (k, p) f) s = .next t ∧ BytesPut s t (tr.pa va.toNat) bs ∧ memless t = memless (heard src s)) ∧
    (SeenAt s k p .load va 8 tr → s.upsets = [] → s.order.past = [] → s.poison = [] → Reaches s k (tr.pa va.toNat) 8 →
      ∃ t, exec (.fabricOpArrival src (k, p) (.fsemRd va)) s = .next t ∧
        { t with fabricReplies := s.fabricReplies } = heard src s ∧
        t.fabricReplies = s.fabricReplies ++ [(src, some (BitVec.ofNat 32 (min ((s.memWord (tr.pa va.toNat)).toNat +
          (s.memWord (tr.pa va.toNat + 4)).toNat * 2 ^ 32) (2 ^ 32 - 1))))]) ∧
    (∀ a : Word, SeenAt s k p .store va 8 tr → va.toNat % 8 = 0 → s.poison = [] → s.upsets = [] → a ≠ 0 →
      Reaches s k (tr.pa va.toNat) 8 →
      ∃ t, exec (.fabricOpArrival src (k, p) (.fsemInc va a)) s = .next t ∧
        (∀ z, (z < tr.pa va.toNat ∨ tr.pa va.toNat + 8 ≤ z) → t.mem.get z = s.mem.get z) ∧
        (t.memWord (tr.pa va.toNat)).toNat + (t.memWord (tr.pa va.toNat + 4)).toNat * 2 ^ 32 =
          ((s.memWord (tr.pa va.toNat)).toNat + (s.memWord (tr.pa va.toNat + 4)).toNat * 2 ^ 32 + a.toNat) % 2 ^ 64)) ∧
  (∀ (s : State) (i m : Nat) (q : Bool) (P : Port), s.ports[i]? = some P → i < 4 →
    exec (.keepalive i) s = .next { s with ports := s.ports.set i (if 1000 ≤ P.sent then { P with sent := 0 } else P) } ∧
    exec (.keepaliveArrival i m) s = .next (heard m { s with ports := s.ports.set i { P with heard := true, quiet := 0 } }) ∧
    exec (.neighbourSessionSetUp i q) s = .next { s with ports := s.ports.set i { P with session := true, billets := q } } ∧
    exec (.moduleUnreachable m) s = .next (if m ∈ s.unreachable ∨ (∀ r ∈ s.routes, r.1 ≠ m) ∨ ∃ r ∈ s.routes, r.1 = m ∧ r.2 < 100000 then s
      else { s with unreachable := m :: s.unreachable, msix := s.msix ++ [(0, 3, 0)] }))

/-- R441, R499, R504: creating, resizing and destroying a partition, invalidation, the power cap, floors, and rows of the
fabric table; each command completes with a status, or waits for earlier commands of its partition. That the blocks of a
destroyed partition's contexts have ended in the very next state is the reading of entry 15; which stacks answer the cap and a
row, and where storage is reserved, are the choices of entry 116.
Readings of the model that it rests on: entries 15, 78, 82, 83, 87, 110 and 116. -/
def Obligations.PartitionCommands : Prop :=
  (∀ (s : State) (p : Nat) (p0 p1 : PartParams) (tb wi mb : Addr), Direct s →
    let ks := (List.range 2).filter (fun k => (if k = 0 then p0 else p1).columns ≠ [])
    (ks = [] → exec (.create p p0 p1 tb wi mb) s = .next (answered s 0 1)) ∧
    (ks ≠ [] → (∃ k ∈ ks, ¬ Up s k) → exec (.create p p0 p1 tb wi mb) s = .next (ks.foldl (fun s k => answered s k 4) s)) ∧
    (ks ≠ [] → (∀ k ∈ ks, Up s k) → (32 ≤ p ∨ (s.part p).live = true ∨ tb.toNat % 4096 ≠ 0 ∨
      paramsOk p0 = false ∨ paramsOk p1 = false) →
      exec (.create p p0 p1 tb wi mb) s = .next (ks.foldl (fun s k => answered s k 1) s)) ∧
    (ks ≠ [] → (∀ k ∈ ks, Up s k) → p < 32 → (s.part p).live = false → tb.toNat % 4096 = 0 → paramsOk p0 = true → paramsOk p1 = true →
      (paramsFree s p 0 p0 = false ∨ paramsFree s p 1 p1 = false) →
      exec (.create p p0 p1 tb wi mb) s = .next (ks.foldl (fun s k => answered s k 2) s)) ∧
    (∀ P : Part, ks ≠ [] → (∀ k ∈ ks, Up s k) → p < 32 → s.parts[p]? = some P → P.live = false → tb.toNat % 4096 = 0 →
      paramsOk p0 = true → paramsOk p1 = true → paramsFree s p 0 p0 = true → paramsFree s p 1 p1 = true →
      ∃ t Q, exec (.create p p0 p1 tb wi mb) s = .next t ∧ t.mem = s.mem ∧ t.parts[p]? = some Q ∧ Q.live = true ∧ Q.table = tb ∧
        Q.window = wi ∧ Q.mailbox = mb ∧ Q.on.map (·.params) = [p0, p1] ∧ Q.on.map (·.floorEff) = [p0.powerFloor, p1.powerFloor] ∧
        (∀ k ∈ ks, (Q.on[k]?).map (·.storage) = some [(Config.storageBase p k false, Config.backingRoom p k),
          (Config.storageBase p k true, Config.contextRoom p k)]) ∧
        (∀ e ∈ Q.srfs, e.kind = 0) ∧ (∀ q, q ≠ p → t.parts[q]? = s.parts[q]?) ∧
        (∀ i st, s.stks[i]? = some st → i < 2 → t.stks[i]? = some { st with
          cmdStatus := if i ∈ ks then st.cmdStatus ++ [0] else st.cmdStatus
          encs := st.encs.mapIdx (fun n e => if n ∈ (if i = 0 then p0 else p1).encSlots then EncSlot.reset else e) }) ∧
        t.launches.length = s.launches.length + ks.length ∧
        ∀ k ∈ ks, ∃ l ∈ t.launches.drop s.launches.length, l.stack = k ∧ l.dispatcher = true ∧ l.priv = true ∧
          (l.words.getD 8 0).toNat / 2 ^ 16 % 2 ^ 5 = p ∧ l.words.getD 5 0 = 0)) ∧
  (∀ (s : State) (p i : Nat) (v : PartParams) (P : Part) (q : PartStack), Direct s → s.parts[p]? = some P → P.on[i]? = some q →
    let same : Prop := ∀ c, c ∈ v.columns ↔ c ∈ q.params.columns
    (resizing s p = true → exec (.resize p i v) s = .next { s with cmds := [.resize p i v] }) ∧
    (resizing s p = false → ¬ Up s i → exec (.resize p i v) s = .next (answered s i 4)) ∧
    (resizing s p = false → Up s i → i < 2 → P.live = true → paramsOk v = true →
      let fits : Prop := bankList v = bankList q.params ∨
        (refit s.moves (bankList v).length i [] (surfacesOn s p i)).isSome = true
      let placed (s : State) : State := onStack (onPartStack s p i (fun q => { q with
        params := v
        floorEff := v.powerFloor
        pending := none })) i (fun st => { st with
          encs := st.encs.mapIdx (fun n e => if n ∈ v.encSlots ∧ n ∉ q.params.encSlots then EncSlot.reset else e) })
      (paramsFree s p i v = false ∨ ¬ fits → exec (.resize p i v) s = .next (answered s i 2)) ∧
      (paramsFree s p i v = true → (bankList v = bankList q.params ∨ surfacesOn s p i = []) →
        (same → ∃ t, exec (.resize p i v) s = .next t ∧ { t with moves := s.moves } = answered (placed s) i 0) ∧
        (¬ same → (∀ cx ∈ s.ctxs, cx.part = p → cx.stack ≠ i) → ∃ t, exec (.resize p i v) s = .next t ∧
          { t with moves := s.moves } = answered (placed s) i 0)) ∧
      (paramsFree s p i v = true → fits → same → bankList v ≠ bankList q.params →
        ∃ t, exec (.resize p i v) s = .next t ∧ (t.stack i).cmdStatus = (s.stack i).cmdStatus ++ [0] ∧ (t.partOn p i).params = v ∧
          ∀ j e, (j, e) ∈ surfacesOn s p i → ∃ e', entry? t p j = some e' ∧ e'.bytes = e.bytes ∧ e'.gen = e.gen ∧
            e'.pinned = e.pinned ∧ e'.home = e.home ∧ e'.count[i]? = (e.count[i]?).map (fun _ => min (bankList v).length (e.ownedBy i)) ∧
            ∀ n, e'.tileState n = .resident → tileBank t p e' n = tileBank s p e n ∨ e.owner n ≠ i) ∧
      (∀ cx, paramsFree s p i v = true → fits → ¬ same → s.ctx? p i cx.job = some cx → cx.terminated = false →
        cx.stop = .running → ∃ t, exec (.resize p i v) s = .next t ∧
          { t with ctxs := s.ctxs } = onPartStack s p i (fun q => { q with pending := some v }) ∧
          t.ctx? p i cx.job = some { cx with stop := .stopping false }) ∧
      (∀ cx z, q.pending = none → (bankList v = bankList q.params ∨ surfacesOn s p i = []) → s.ctxs = [cx] → cx.part = p →
        cx.stack = i → cx.terminated = false → cx.stop = .stopping z → (∀ k ∈ s.blocks, k.phase ≠ .resident ∧ k.phase ≠ .evicted) →
        ∃ t, exec (.stopComplete p i cx.job) (onPartStack s p i (fun q => { q with pending := some v })) = .next t ∧
          { t with moves := s.moves, ctxs := [], blocks := [] } = { answered (placed s) i 0 with ctxs := [], blocks := [] } ∧
          t.ctxs = [if z then { cx with stop := .stopped true } else { cx with stop := .running }]))) ∧
  (∀ (s : State) (p : Nat), s.cur ≠ .command → (∃ c ∈ s.cmds, cmdPart c = some p) →
    exec (.destroy p) s = .next { s with cmds := s.cmds ++ [.destroy p] } ∧
    (∀ v, exec (.invalidate p v) s = .next { s with cmds := s.cmds ++ [.invalidate p v] }) ∧
    (∀ i v, exec (.resize p i v) s = .next { s with cmds := s.cmds ++ [.resize p i v] }) ∧
    ∀ i w, exec (.floor p i w) s = .next { s with cmds := s.cmds ++ [.floor p i w] }) ∧
  (∀ (s : State) (p : Nat) (P : Part), Direct s → s.parts[p]? = some P →
    let ks := (List.range 2).filter (fun k => (s.partOn p k).params.columns ≠ [])
    (resizing s p = true → exec (.destroy p) s = .next { s with cmds := [.destroy p] } ∧
      ∀ v, exec (.invalidate p v) s = .next { s with cmds := [.invalidate p v] }) ∧
    (resizing s p = false → P.live = false → exec (.destroy p) s = .next (answered s 0 1) ∧
      ∀ v, exec (.invalidate p v) s = .next (answered s 0 1)) ∧
    (resizing s p = false → P.live = true → (∃ k ∈ ks, ¬ Up s k) →
      exec (.destroy p) s = .next (ks.foldl (fun s k => answered s k 4) s) ∧
      ∀ v, exec (.invalidate p v) s = .next (ks.foldl (fun s k => answered s k 4) s)) ∧
    (resizing s p = false → P.live = true → (∀ k ∈ ks, Up s k) →
      (∃ t Q, exec (.destroy p) s = .next t ∧ t.parts[p]? = some Q ∧ Q.live = false ∧ (∀ e ∈ Q.srfs, e.kind = 0) ∧
        (∀ c ∈ t.ctxs, c.part ≠ p) ∧
        (∀ b k cx, s.block? b = some k → s.ctx? k.part k.stack k.job = some cx → cx.part = p → cx.terminated = false →
          ∃ k', t.block? b = some k' ∧ (k'.phase = .complete ∨ k'.phase = .cancelled)) ∧
        ∀ k ∈ ks, (t.stack k).cmdStatus = (s.stack k).cmdStatus ++ [0]) ∧
      ∀ v, ∃ t, exec (.invalidate p v) s = .next t ∧ SameBytes s t ∧ t.parts = s.parts ∧ ∀ k ∈ ks,
        (t.stack k).cmdStatus = (s.stack k).cmdStatus ∧
        (∃ i, (t.stack k).invals = (s.stack k).invals ++ [i] ∧ i.part = p ∧ i.va = v ∧ i.command = true ∧ i.complete = false) ∧
        ∀ c ∈ (t.stack k).cores, ∀ tr ∈ c.tlb, tr.part = p → ∃ a, v = some a ∧ tr.vpage ≠ a.toNat / 2 ^ tr.shift)) ∧
  (∀ (s : State) (w : Nat), Direct s → let ks := (List.range 2).filter (fun k => present s k)
    (ks = [] → exec (.cap w) s = .next (answered s 0 4)) ∧
    (ks ≠ [] → exec (.cap w) s = .next (if w < 65536 then ks.foldl (fun s k => answered s k 0) { s with capHost := w, capNew := true }
      else ks.foldl (fun s k => answered s k 1) s))) ∧
  (∀ (s : State) (p i w : Nat), Direct s → (¬ Up s i → exec (.floor p i w) s = .next (answered s i 4)) ∧
    (Up s i → exec (.floor p i w) s = .next (if w < 65536 ∧ (s.part p).live = true then
      answered (onPartStack s p i (fun q => { q with
        params := { q.params with powerFloor := w }
        pending := q.pending.map (fun v => { v with powerFloor := w })
        floorEff := w })) i 0
      else answered s i 1))) ∧
  (∀ (s : State) (p r : Nat) (v : BitVec 128), Direct s →
    let ks := (List.range 2).filter (fun k => (s.partOn p k).params.columns ≠ [])
    ((s.part p).live = false → exec (.fabricRow p r v) s = .next (answered s 0 1)) ∧
    ((s.part p).live = true → (∃ k ∈ ks, ¬ Up s k) → exec (.fabricRow p r v) s = .next (ks.foldl (fun s k => answered s k 4) s)) ∧
    ((s.part p).live = true → (∀ k ∈ ks, Up s k) → exec (.fabricRow p r v) s = .next
      (if r < 4096 ∧ v.toNat / 2 ^ 56 % 2 ^ 52 = 0 ∧ v.toNat % 2 ^ 35 = 0 then
        ks.foldl (fun s k => answered s k 0) (onPart s p (fun P => { P with fabric := P.fabric.set r v }))
      else ks.foldl (fun s k => answered s k 1) s)))

/-- R506, R512 to R516, R518, R520: attestation, boot, a new image, reset of a stack, parts brought into service from the
reserve, rows remapped, and the stack link. Whether the image is read and its digest found whole is free (entry 89); a vault whose
last spare lane is asked for is reported with the number 3 of entry 70.
Readings of the model that it rests on: entries 70, 88, 89, 111 and 116. -/
def Obligations.StackCommands : Prop :=
  (∀ (s : State) (i : Nat) (st : Stack) (n : BitVec 512), Direct s → s.stks[i]? = some st →
    (st.sec = 0 ∨ st.heldReset = true → exec (.attest i n) s = .next (answered s i 4)) ∧
    (st.sec ≠ 0 → st.heldReset = false → ∃ t r, exec (.attest i n) s = .next t ∧
      t = answered (onStack { s with moves := s.moves + 1 } i (fun st => { st with reports := st.reports ++ [r] })) i 0 ∧
      r.length = 272 ∧ leNat (r.take 64) = n.toNat ∧ leNat ((r.drop 64).take 64) = (Config.digest st.image).toNat ∧
      leNat ((r.drop 128).take 4) = st.sec % 2 ^ 8 * 2 ^ 24 + st.dbg % 2 ^ 8 * 2 ^ 16 + st.version.toNat ∧
      leNat ((r.drop 132).take 4) = st.rollback.toNat ∧ leNat ((r.drop 136).take 4) = if st.dbg = 2 then 1 else 0)) ∧
  (∀ (s : State) (i : Nat) (st : Stack), s.stks[i]? = some st →
    (st.sec ≠ 0 → exec (.boot i) s = .next s) ∧
    (st.sec = 0 → s.late = [] →
      let f : Nat := if Config.imageRead s.moves = false then 1 else if Config.imageHashed s.moves = false then 2
        else if Config.signed st.image = false then 3 else if (Config.version st.image).toNat < st.rollback.toNat then 4 else 0
      let s1 : State := { s with moves := s.moves + 1 }
      let t := onStack s1 i (fun st => { st with
        sec := 1
        bootStep := 0
        heldReset := false
        version := Config.version st.image
        rollback := BitVec.ofNat 32 (Config.version st.image).toNat })
      exec (.boot i) s = .next (if f ≠ 0 then onStack s1 i (fun st => { st with
          sec := 2
          bootStep := f
          heldReset := false })
        else if t.linkDown then t else { t with parts := t.parts.map (marked false) })) ∧
    (∀ m, Direct s → exec (.firmwareUpdate i m) s =
      .next (if st.sec = 2 then answered (onStack s i (fun st => { st with image := m, sec := 0 })) i 0
        else if st.sec = 0 then answered s i 4 else s)) ∧
    (∃ t x, exec (.p3Entry i) s = .next t ∧ t.stks[i]? = some x ∧ x.heldReset = true ∧ x.sec = 0 ∧ x.dbg = 0 ∧
      (∀ c ∈ t.ctxs, c.stack ≠ i) ∧ (∀ k ∈ t.blocks, k.stack = i → k.phase = .complete ∨ k.phase = .cancelled) ∧
      (0, 3, 0) ∈ t.msix ∧ t.linkDown = true ∧ (∀ c ∈ s.ctxs, c.stack ≠ i → c ∈ t.ctxs) ∧
      (s.linkDown = false → ∀ P ∈ t.parts, ∀ e ∈ P.srfs, e.kind = 1 → e.home = 2 → e.degraded = true))) ∧
  (let bare (st : Stack) : Stack := { st with errorsIn := [] }
   ∀ (s : State) (p : RetPart), Direct s → (¬ Up s (retStack p) → exec (.retire p) s = .next (answered s (retStack p) 4)) ∧
    (Up s (retStack p) → partExists p = false → exec (.retire p) s = .next (answered s (retStack p) 1)) ∧
    (Up s (retStack p) → partExists p = true → spent s p = true →
      let worn (st : Stack) : Stack := { st with degradedParts := st.degradedParts ++ [p] }
      ((∀ i v l, p ≠ .lane i v l) → exec (.retire p) s = .next (answered (onStack s (retStack p) worn) (retStack p) 0)) ∧
      ∀ i v l, p = .lane i v l → exec (.retire p) s = .next { answered (onStack s i (fun st => { worn st with
        vaults := st.vaults.modify v (fun x => { x with degraded := true }) })) i 0 with reports := s.reports ++ [(i, 3)] }) ∧
    (Up s (retStack p) → partExists p = true → spent s p = false →
      (∀ i v y b r, p = .dramRow i v y b r → exec (.retire p) s =
        .next (answered (onStack s i (fun st => { st with
          vaults := st.vaults.modify v (fun x => { x with rowRemaps :=
            if (y, b, r) ∈ x.rowRemaps then x.rowRemaps else x.rowRemaps ++ [(y, b, r)] })
          retired := st.retired ++ [p]
          errorsIn := st.errorsIn.filter (fun q => q.1 ≠ p) })) i 0)) ∧
      (∀ i b, p = .bank i b → ∃ t, exec (.retire p) s = .next t ∧
        { t with stks := s.stks, parts := s.parts, reports := s.reports, upsets := s.upsets } = s ∧
        t.stks.map bare = (answered (onStack s i (fun st => { st with
          reserveBanks := st.reserveBanks - 1
          retired := st.retired ++ [p] })) i 0).stks.map bare ∧ (∀ x ∈ (t.stack i).errorsIn, x.1 ≠ p) ∧
        ∀ q j e, entry? s q j = some e → ∃ e', entry? t q j = some e' ∧ e'.bytes = e.bytes ∧ e'.gen = e.gen ∧ e'.pinned = e.pinned ∧
          (∀ n, e'.kind = 1 → e'.tileState n = .resident → tileBank t q e' n ≠ (i, b)) ∧
          (∀ n, tileBank s q e n ≠ (i, b) → e'.tileState n = e.tileState n)) ∧
      (∀ i v l, p = .lane i v l → l ∉ (s.vault i v).pendingSwaps → (∀ q ∈ (s.vault i v).swaps, q.1 ≠ l) → exec (.retire p) s =
        .next (answered (onStack s i (fun st => { st with
          vaults := st.vaults.modify v (fun x => if (laneRole x l).isNone then { x with swaps := x.swaps ++ [(l, l)] }
            else { x with pendingSwaps := x.pendingSwaps ++ [l] })
          retired := st.retired ++ [p]
          errorsIn := st.errorsIn.filter (fun q => q.1 ≠ p) })) i 0)) ∧
      (∀ i c, p = .core i c → ∃ t, exec (.retire p) s = .next t ∧ SameBytes s t ∧ t.parts = s.parts ∧ t.blocks = s.blocks ∧
        (t.stack i).reserveCores = (s.stack i).reserveCores - 1 ∧ (t.stack i).retired = (s.stack i).retired ++ [p] ∧
        (∀ x ∈ (t.stack i).errorsIn, x.1 ≠ p) ∧
        (t.stack i).cmdStatus = (s.stack i).cmdStatus ++ [0] ∧
        ∀ b k cx, s.block? b = some k → k.phase = .resident → k.stack = i → k.core = c → s.ctx? k.part i k.job = some cx →
          cx.stop = .running → t.ctx? k.part i k.job = some { cx with stop := .stopping false }))) ∧
  (∀ (s : State) (i v y b r : Nat) (st : Stack) (x : Vault), i < 2 → v < 32 → y < 8 → s.stks[i]? = some st → st.vaults[v]? = some x →
    let tired := 4 ≤ (st.errorsIn.filter (fun q => q.1 = .dramRow i v y b r ∧ q.2.2 = false ∧
      st.us.toNat < q.2.1 + 86400000000)).length
    ((y, b, r) ∈ x.rowRemaps ∨ ¬ tired → exec (.dramRowRemap i v y b r) s = .next s) ∧
    ((y, b, r) ∉ x.rowRemaps → tired → 32 ≤ (x.rowRemaps.filter (fun q => q.1 = y ∧ q.2.1 = b)).length → exec (.dramRowRemap i v y b r) s =
      .next (onStack s i (fun st => { st with degradedParts := st.degradedParts ++ [.dramRow i v y b r] }))) ∧
    ((y, b, r) ∉ x.rowRemaps → tired → (x.rowRemaps.filter (fun q => q.1 = y ∧ q.2.1 = b)).length < 32 → exec (.dramRowRemap i v y b r) s =
      .next (onStack s i (fun st => { st with
        vaults := st.vaults.modify v (fun z => { z with rowRemaps := z.rowRemaps ++ [(y, b, r)] }) })))) ∧
  (∀ s : State,
    (s.link.failed = true ∨ s.link.idle < 100000 → exec .linkFailure s = .next s) ∧
    (s.link.failed = false → 100000 ≤ s.link.idle → s.linkDown = true →
      exec .linkFailure s = .next { s with link := { s.link with failed := true } }) ∧
    (100000 ≤ s.link.idle → s.linkDown = false → ∃ t, exec .linkFailure s = .next t ∧ t.link = { s.link with failed := true } ∧
      t.parts = s.parts.map (marked true) ∧ { t with link := s.link, parts := s.parts, msix := s.msix, calls := s.calls } = s ∧
      t.calls.map (·.id) = s.calls.map (·.id) ∧ (∀ f ∈ s.calls, f.at_ ≠ .walked → f.at_ ≠ .unit → f ∈ t.calls) ∧
      (∀ f j js, f ∈ s.calls → isDraw f = true → drawCheck s f = .ok (j :: js) →
        ((s.srf f.part j).home = 2 ∨ (s.srf f.part j).home ≠ f.stack) →
        (f.at_ = .unit → { f with cut := true } ∈ t.calls) ∧
        (f.at_ = .walked → ∃ f' ∈ t.calls, f'.id = f.id ∧ ∀ r ∈ f'.out, (r.getD 0 0).toNat / 2 ^ 24 % 2 ^ 6 ≠ 0)) ∧
      t.msix = s.msix ++ ((List.range s.parts.length).filter (fun p => (s.parts[p]?).any splitWhole)).map (fun p => (p + 1, 2, 0))) ∧
    (s.link.failed = true → s.late = [] →
      let t : State := { s with link := ⟨false, 0⟩ }
      exec .linkReturn s = .next (if t.linkDown then t else { t with parts := s.parts.map (marked false) })) ∧
    (s.link.failed = false → exec .linkReturn s = .next s ∧
      (s.late = [] → exec .flitRetry s = .next { s with link := { s.link with idle := 0 } })) ∧
    (s.link.failed = true → exec .flitRetry s = .next s))

/-- R482 to R485, R519, R520: debug commands stop, resume and step a context, set breakpoints and the trace area, and change the
debug state, where the stack's debug state and the function permit it.
Readings of the model that it rests on: entries 79, 84 and 112. -/
def Obligations.DebugCommands : Prop :=
  (∀ (s : State) (p i : Nat) (job : Word) (cx : Ctx), Direct s → s.ctx? p i job = some cx → MayDebug s i p →
    (∃ t, exec (.debugStop p i job) s = .next t ∧ ctxless t = ctxless (answered s i 0) ∧ CtxIs s t p i job { cx with stop := asked cx.stop }) ∧
    (cx.stop = .stopping true → ∃ t, exec (.debugResume p i job) s = .next t ∧ ctxless t = ctxless (answered s i 0) ∧
      CtxIs s t p i job { cx with stop := .stopping false, step := none, stepped := false }) ∧
    (cx.stop = .stopped true → (s.partOn p i).pending = none → ∃ t cy, exec (.debugResume p i job) s = .next t ∧
      t.ctx? p i job = some cy ∧ cy = { cx with stop := .running, step := none, stepped := false } ∧ (∀ b k, s.block? b = some k → t.block? b = some
        (if k.part = p ∧ k.stack = i ∧ k.job = job ∧ k.phase = .stopped then { k with phase := .waiting } else k))) ∧
    (cx.stop ≠ .stopped true → cx.stop ≠ .stopping true → exec (.debugResume p i job) s = .next (answered s i 1)) ∧
    (∀ (v : Word) (g l b gi : Nat) (k : Block) (gr : Group) (u : Thread), cx.stop = .stopped true → s.block? b = some k → k.part = p → k.stack = i →
      k.job = job → k.trapGroup = false → k.lin = v.toNat → k.phase = .stopped → s.group? b gi = some gr → gr.num = g →
      gr.threads[l]? = some u → u.live = true → ∃ t cy, exec (.debugStep p i job v g l) s = .next t ∧ t.ctx? p i job = some cy ∧
        cy = { cx with stop := .running, step := some (v, g, l), stepped := false } ∧
        t.block? b = some { k with phase := .waiting } ∧ (t.stack i).cmdStatus = (s.stack i).cmdStatus ++ [0]) ∧
    (∀ (v : Word) (g l : Nat), cx.stop ≠ .stopped true → exec (.debugStep p i job v g l) s = .next (answered s i 1))) ∧
  (∀ (s : State) (p i : Nat) (job : Word) (n c : Nat), Direct s →
    (¬ Up s i ∧ c = 4 ∨ Up s i ∧ c = 3 ∧ ((s.stack i).dbg = 0 ∨ (s.stack i).dbg = 1 ∧ (s.part p).dbgEnable = false)) →
    exec (.debugStop p i job) s = .next (answered s i c) ∧ exec (.debugResume p i job) s = .next (answered s i c) ∧
    (∀ v g l, exec (.debugStep p i job v g l) s = .next (answered s i c)) ∧
    ∀ bp : Breakpoint, bp.part = p → exec (.debugBreakpoint i n bp) s = .next (answered s i c)) ∧
  (∀ (s : State) (p i : Nat) (job : Word), Direct s → s.ctx? p i job = none → MayDebug s i p →
    exec (.debugStop p i job) s = .next (answered s i 1) ∧ exec (.debugResume p i job) s = .next (answered s i 1) ∧
    ∀ v g l, exec (.debugStep p i job v g l) s = .next (answered s i 1)) ∧
  (∀ (s : State) (i n : Nat) (bp : Breakpoint), Direct s → MayDebug s i bp.part →
    exec (.debugBreakpoint i n bp) s = .next (if n < 8 ∧ bp.pc.toNat % 4 = 0 then
      answered (onStack s i (fun st => { st with bps := st.bps.set n bp })) i 0 else answered s i 1)) ∧
  (∀ (s : State) (i n p th : Nat) (a c : Bool), Direct s → p < 32 →
    (Up s i → ¬ MayDebug s i p → exec (.debugTraceArea i (32 * n + p) a c th) s = .next (answered s i 3)) ∧
    (MayDebug s i p → exec (.debugTraceArea i (32 * n + p) a c th) s = .next (if 2 ≤ th ∧ th ≤ 32 then
      answered (onStack s i (fun st => { st with
        trace := []
        traceSize := n
        tracePart := p
        traceArrival := a
        traceConflict := c
        traceThreshold := th })) i 0 else answered s i 1))) ∧
  (∀ (s : State) (i d : Nat), Direct s → (¬ Up s i → exec (.debugState i d) s = .next (answered s i 4)) ∧
    (Up s i → 3 ≤ d → exec (.debugState i d) s = .next (answered s i 1)) ∧
    (Up s i → d = 2 → ((s.stack i).unlockFuse = false ∨ (s.stack i).dbg = 0) → exec (.debugState i d) s = .next (answered s i 3)) ∧
    (Up s i → d < 3 → (d = 2 → (s.stack i).unlockFuse = true ∧ (s.stack i).dbg ≠ 0) →
      ((∃ c ∈ s.ctxs, c.stack = i ∧ (c.stop = .stopped true ∨ c.stop = .stopping true ∨ c.step ≠ none)) →
        exec (.debugState i d) s = .next { s with cmds := [.debugState i d] }) ∧
      ((∀ c ∈ s.ctxs, c.stack = i → c.stop ≠ .stopped true ∧ c.stop ≠ .stopping true ∧ c.step = none) →
        exec (.debugState i d) s = .next (answered (onStack s i (fun st => { st with dbg := d })) i 0))))

/-- R70, R72, R79, R284: a step whose next move is an issue bundle fetches the word at its address, and where the word decodes to an
instruction, the step is exec of that instruction; lanes that wait inside a word go on in it without a fetch; a word of a
sequencer is fetched likewise; an event is exec of that event.
Readings of the model that it rests on: entries 1, 13, 91 and 93. -/
def Obligations.StepRunsDecoded : Prop :=
  ∀ (s t : State) (ms : List Move) (b g : Nat) (pc : Addr) (hs : List Hint) (w : Word) (i : Instr) (k : Block),
    let s0 : State := { s with agenda := ms, cur := .none }
    (∀ gr lanes, s.agenda = .issue b g pc hs lanes :: ms → s0.block? b = some k → s0.group? b g = some gr →
      let ls := (readyLanes s0 b g k gr).filter (fun l => lanes.contains l && (gr.thread l).key == (pc, hs))
      (∀ l ∈ lanes, (gr.thread l).key = (pc, hs) → l ∈ ls) → ls ≠ [] →
      ((hs ≠ [] ∨ ∀ l ∈ ls, breakpointFor s0 k gr l (gr.thread l) pc = none) → (∀ l ∈ ls, (gr.thread l).run.inside = false) →
        fetchWord s0 k.stack k.core k.part k.priv pc = (t, .word w) → decodeWord w = .ok i →
        step s = onNext (fun u => { u with cur := .none })
          (onNext (afterIssue k (!isHint i)) (exec i { t with cur := .bundle b g ls pc hs w }))) ∧
      ((∀ l ∈ ls, (gr.thread l).run.inside = true ∧ (gr.thread l).held = some w) → decodeWord w = .ok i →
        step s = onNext (fun u => { u with cur := .none })
          (onNext (afterIssue k (!isHint i)) (exec i { s0 with cur := .bundle b g ls pc hs w })))) ∧
    (s.agenda = .seq b :: ms → s0.block? b = some k → seqRuns s0 b k = true →
      fetchWord s0 k.stack k.core k.part k.priv k.seq.pc = (t, .word w) → decodeWord w = .ok i →
      step s = onNext (fun u => { u with cur := .none }) (exec i { t with cur := .seq b k.seq.pc w })) ∧
    (s.agenda = .event i :: ms → step s = onNext (fun u => { u with cur := .none }) (exec i s0)) ∧
    (∀ tr, outcome (coreLookup s0 k.stack k.core k.part pc) pc .fetch k.priv = .ok tr → s.poison = [] → s.upsets = [] →
      s.order.past = [] → s.unreachablePA (tr.pa pc.toNat) k.stack = false →
        ∃ u, fetchWord s0 k.stack k.core k.part k.priv pc = (u, .word (s.memWord (tr.pa pc.toNat)))) ∧
    (∀ u, step s = .next u → u.cur = .none)

/-- R69, R71: words written out from the encodings decode to the instructions that they stand for; a word of a reserved row, and one
with a reserved bit set, to none. -/
def Obligations.SampleWords : Prop :=
  (∀ p ∈ ([(0x18408700, .saddI32 4 ⟨2, false⟩ ⟨7, false⟩), (0x1C100160, .scmp 1 .ltN ⟨0, false⟩ ⟨1, false⟩), (0x28001003, .winSImm 3),
      (0x0C500008, .bru true 1 8), (0x10600040, .call 6 64), (0x14000020, .exit), (0x14000548, .conv ⟨5, false⟩),
      (0xFC000123, .hintImm 0x123), (0x2C245678, .smovi 2 0x45678), (0x50510188, .shflXor 5 ⟨4, false⟩ (.uni ⟨1, false⟩)),
      (0x503200A8, .v2s 3 ⟨8, false⟩ (.uni ⟨0, false⟩)), (0x5860420C, .madI32 6 ⟨1, false⟩ ⟨2, false⟩ 3),
      (0x38408630, .lea 4 ⟨2, false⟩ (.vec ⟨6, false⟩) 3), (0x447042B0, .sel 7 true 3 ⟨1, false⟩ (.vec ⟨2, false⟩)),
      (0x48A10600, .cmp true 2 .eq ⟨4, false⟩ (.vec ⟨6, false⟩)), (0x3C10101F, .andB32Imm 1 ⟨0, false⟩ 31)] : List (Word × Instr)),
    decodeWord p.1 = .ok p.2) ∧
  (∀ i, decodeWord 0x00000000 ≠ .ok i ∧ decodeWord 0x14000021 ≠ .ok i)

/-- Decoding the word that encodes a well-formed instruction gives the instruction back, with every operand as it was. -/
def Obligations.DecodeOfEncode : Prop :=
  ∀ (i : Instr) (w : Word), wellFormed i = true → encode i = some w → decodeWord w = .ok i

/-- Every step keeps device physical memory, every scratchpad and every surface's bytes in their canonical form; and reset has it. -/
def Obligations.StepKeepsMemory : Prop :=
  MemInv State.reset ∧ ∀ s t : State, MemInv s → step s = .next t → MemInv t

/-- R15, R455: every step answers a next state, for every trap is one.
Readings of the model that it rests on: entry 1. -/
def Obligations.EveryStepAnswers : Prop := ∀ s : State, Safe s
end

