-- ==== Sys2Proof/Laws/State.lean ====
section
/-!
SUPPORT. What each update of the state leaves: one lemma per field and update, and the lemmas that say what reading a
part of the state gives after another part was changed.
-/

namespace Sys2Proof.Machine

/-! Lists. -/

theorem getElem?_modifyAt {α : Type} (f : α → α) (i j : Nat) (as : List α) :
    (modifyAt f i as)[j]? = if j = i then (as[j]?).map f else as[j]? := by
  induction as generalizing i j with
  | nil => simp [modifyAt]
  | cons a as ih =>
    cases i with
    | zero => cases j <;> simp [modifyAt]
    | succ i => cases j with
      | zero => simp [modifyAt]
      | succ j => simp [modifyAt, ih]

@[simp] theorem length_modifyAt {α : Type} (f : α → α) (i : Nat) (as : List α) :
    (modifyAt f i as).length = as.length := by
  induction as generalizing i with
  | nil => simp [modifyAt]
  | cons a as ih => cases i <;> simp [modifyAt, ih]

theorem getElem?_mapFrom {α : Type} (f : Nat → α → α) (i j : Nat) (as : List α) :
    (mapFrom f i as)[j]? = (as[j]?).map (f (i + j)) := by
  induction as generalizing i j with
  | nil => simp [mapFrom]
  | cons a as ih =>
    cases j with
    | zero => simp [mapFrom]
    | succ j => simp [mapFrom, ih]; congr 2; omega

@[simp] theorem length_mapFrom {α : Type} (f : Nat → α → α) (i : Nat) (as : List α) :
    (mapFrom f i as).length = as.length := by
  induction as generalizing i with
  | nil => simp [mapFrom]
  | cons a as ih => simp [mapFrom, ih]

theorem getElem?_mapAt {α : Type} (is : List Nat) (f : Nat → α → α) (as : List α) (j : Nat) :
    (mapAt is f as)[j]? = (as[j]?).map (fun a => if is.contains j then f j a else a) := by
  simp [mapAt, getElem?_mapFrom]

@[simp] theorem length_mapAt {α : Type} (is : List Nat) (f : Nat → α → α) (as : List α) :
    (mapAt is f as).length = as.length := by simp [mapAt]

/-! A block changed. -/

@[simp] theorem mapBlock_stks (s : State) (b : Nat) (f : Block → Block) : (s.mapBlock b f).stks = s.stks := rfl
@[simp] theorem mapBlock_parts (s : State) (b : Nat) (f : Block → Block) : (s.mapBlock b f).parts = s.parts := rfl
@[simp] theorem mapBlock_ctxs (s : State) (b : Nat) (f : Block → Block) : (s.mapBlock b f).ctxs = s.ctxs := rfl
@[simp] theorem mapBlock_launches (s : State) (b : Nat) (f : Block → Block) : (s.mapBlock b f).launches = s.launches := rfl
@[simp] theorem mapBlock_mem (s : State) (b : Nat) (f : Block → Block) : (s.mapBlock b f).mem = s.mem := rfl
@[simp] theorem mapBlock_poison (s : State) (b : Nat) (f : Block → Block) : (s.mapBlock b f).poison = s.poison := rfl
@[simp] theorem mapBlock_upsets (s : State) (b : Nat) (f : Block → Block) : (s.mapBlock b f).upsets = s.upsets := rfl
@[simp] theorem mapBlock_accesses (s : State) (b : Nat) (f : Block → Block) : (s.mapBlock b f).accesses = s.accesses := rfl
@[simp] theorem mapBlock_copies (s : State) (b : Nat) (f : Block → Block) : (s.mapBlock b f).copies = s.copies := rfl
@[simp] theorem mapBlock_calls (s : State) (b : Nat) (f : Block → Block) : (s.mapBlock b f).calls = s.calls := rfl
@[simp] theorem mapBlock_link (s : State) (b : Nat) (f : Block → Block) : (s.mapBlock b f).link = s.link := rfl
@[simp] theorem mapBlock_cur (s : State) (b : Nat) (f : Block → Block) : (s.mapBlock b f).cur = s.cur := rfl
@[simp] theorem mapBlock_agenda (s : State) (b : Nat) (f : Block → Block) : (s.mapBlock b f).agenda = s.agenda := rfl
@[simp] theorem mapBlock_order (s : State) (b : Nat) (f : Block → Block) : (s.mapBlock b f).order = s.order := rfl
@[simp] theorem mapBlock_covered (s : State) (b : Nat) (f : Block → Block) : (s.mapBlock b f).covered = s.covered := rfl
@[simp] theorem mapBlock_hostErrors (s : State) (b : Nat) (f : Block → Block) : (s.mapBlock b f).hostErrors = s.hostErrors := rfl
@[simp] theorem mapBlock_time (s : State) (b : Nat) (f : Block → Block) : (s.mapBlock b f).time = s.time := rfl
@[simp] theorem mapBlock_capNew (s : State) (b : Nat) (f : Block → Block) : (s.mapBlock b f).capNew = s.capNew := rfl
@[simp] theorem mapBlock_powers (s : State) (b : Nat) (f : Block → Block) : (s.mapBlock b f).powers = s.powers := rfl
@[simp] theorem mapBlock_vectors (s : State) (b : Nat) (f : Block → Block) : (s.mapBlock b f).vectors = s.vectors := rfl
@[simp] theorem mapBlock_cmds (s : State) (b : Nat) (f : Block → Block) : (s.mapBlock b f).cmds = s.cmds := rfl
@[simp] theorem mapBlock_barReplies (s : State) (b : Nat) (f : Block → Block) : (s.mapBlock b f).barReplies = s.barReplies := rfl
@[simp] theorem mapBlock_fabricIn (s : State) (b : Nat) (f : Block → Block) : (s.mapBlock b f).fabricIn = s.fabricIn := rfl
@[simp] theorem mapBlock_late (s : State) (b : Nat) (f : Block → Block) : (s.mapBlock b f).late = s.late := rfl
@[simp] theorem mapBlock_reports (s : State) (b : Nat) (f : Block → Block) : (s.mapBlock b f).reports = s.reports := rfl
@[simp] theorem mapBlock_msix (s : State) (b : Nat) (f : Block → Block) : (s.mapBlock b f).msix = s.msix := rfl
@[simp] theorem mapBlock_moves (s : State) (b : Nat) (f : Block → Block) : (s.mapBlock b f).moves = s.moves := rfl

theorem block?_mapBlock (s : State) (b c : Nat) (f : Block → Block) :
    (s.mapBlock b f).block? c = if c = b then (s.block? c).map f else s.block? c := by
  simp [State.block?, State.mapBlock, getElem?_modifyAt]

theorem group?_eq (s : State) (b g : Nat) : s.group? b g = (s.block? b).bind (fun k => k.groups[g]?) := rfl
theorem thread?_eq (s : State) (b g l : Nat) : s.thread? b g l = (s.group? b g).bind (fun x => x.threads[l]?) := rfl

/-! A group and lanes changed. -/

@[simp] theorem mapGroup_mem (s : State) (b g : Nat) (f : Group → Group) : (s.mapGroup b g f).mem = s.mem := rfl
@[simp] theorem mapGroup_ctxs (s : State) (b g : Nat) (f : Group → Group) : (s.mapGroup b g f).ctxs = s.ctxs := rfl
@[simp] theorem mapGroup_order (s : State) (b g : Nat) (f : Group → Group) : (s.mapGroup b g f).order = s.order := rfl
@[simp] theorem mapGroup_agenda (s : State) (b g : Nat) (f : Group → Group) : (s.mapGroup b g f).agenda = s.agenda := rfl
@[simp] theorem mapGroup_cur (s : State) (b g : Nat) (f : Group → Group) : (s.mapGroup b g f).cur = s.cur := rfl
@[simp] theorem mapGroup_moves (s : State) (b g : Nat) (f : Group → Group) : (s.mapGroup b g f).moves = s.moves := rfl
@[simp] theorem mapGroup_stks (s : State) (b g : Nat) (f : Group → Group) : (s.mapGroup b g f).stks = s.stks := rfl
@[simp] theorem mapGroup_parts (s : State) (b g : Nat) (f : Group → Group) : (s.mapGroup b g f).parts = s.parts := rfl
@[simp] theorem mapGroup_accesses (s : State) (b g : Nat) (f : Group → Group) :
    (s.mapGroup b g f).accesses = s.accesses := rfl

@[simp] theorem mapLanes_mem (s : State) (b g : Nat) (ls : List Nat) (f : Nat → Thread → Thread) :
    (s.mapLanes b g ls f).mem = s.mem := rfl
@[simp] theorem mapLanes_ctxs (s : State) (b g : Nat) (ls : List Nat) (f : Nat → Thread → Thread) :
    (s.mapLanes b g ls f).ctxs = s.ctxs := rfl
@[simp] theorem mapLanes_order (s : State) (b g : Nat) (ls : List Nat) (f : Nat → Thread → Thread) :
    (s.mapLanes b g ls f).order = s.order := rfl
@[simp] theorem mapLanes_agenda (s : State) (b g : Nat) (ls : List Nat) (f : Nat → Thread → Thread) :
    (s.mapLanes b g ls f).agenda = s.agenda := rfl
@[simp] theorem mapLanes_cur (s : State) (b g : Nat) (ls : List Nat) (f : Nat → Thread → Thread) :
    (s.mapLanes b g ls f).cur = s.cur := rfl
@[simp] theorem mapLanes_moves (s : State) (b g : Nat) (ls : List Nat) (f : Nat → Thread → Thread) :
    (s.mapLanes b g ls f).moves = s.moves := rfl
@[simp] theorem mapLanes_stks (s : State) (b g : Nat) (ls : List Nat) (f : Nat → Thread → Thread) :
    (s.mapLanes b g ls f).stks = s.stks := rfl
@[simp] theorem mapLanes_parts (s : State) (b g : Nat) (ls : List Nat) (f : Nat → Thread → Thread) :
    (s.mapLanes b g ls f).parts = s.parts := rfl
@[simp] theorem mapLanes_accesses (s : State) (b g : Nat) (ls : List Nat) (f : Nat → Thread → Thread) :
    (s.mapLanes b g ls f).accesses = s.accesses := rfl

theorem group?_mapGroup (s : State) (b g c h : Nat) (f : Group → Group) :
    (s.mapGroup b g f).group? c h = if c = b ∧ h = g then (s.group? c h).map f else s.group? c h := by
  simp only [group?_eq, State.mapGroup, block?_mapBlock]
  by_cases hc : c = b <;> by_cases hh : h = g <;> cases s.block? c <;>
    simp [hc, hh, getElem?_modifyAt]

theorem thread?_mapLanes (s : State) (b g c h l : Nat) (ls : List Nat) (f : Nat → Thread → Thread) :
    (s.mapLanes b g ls f).thread? c h l =
      if c = b ∧ h = g ∧ l ∈ ls then (s.thread? c h l).map (f l) else s.thread? c h l := by
  simp only [thread?_eq, State.mapLanes, group?_mapGroup]
  by_cases hb : c = b ∧ h = g
  · obtain ⟨rfl, rfl⟩ := hb
    cases hg : s.group? c h <;> simp [getElem?_mapAt]
    by_cases hl : l ∈ ls <;> simp [hl]
  · simp [hb]; intro a b; exact absurd ⟨a, b⟩ hb

/-- Blocks keep all but their groups when a group or lanes change. -/
theorem block?_mapGroup (s : State) (b g c : Nat) (f : Group → Group) :
    (s.mapGroup b g f).block? c =
      if c = b then (s.block? c).map (fun k => { k with groups := modifyAt f g k.groups }) else s.block? c := by
  simp [State.mapGroup, block?_mapBlock]

theorem block?_mapLanes (s : State) (b g c : Nat) (ls : List Nat) (f : Nat → Thread → Thread) :
    (s.mapLanes b g ls f).block? c =
      if c = b then (s.block? c).map (fun k => { k with
        groups := modifyAt (fun k => { k with threads := mapAt ls f k.threads }) g k.groups }) else s.block? c := by
  simp [State.mapLanes, block?_mapGroup]

theorem group?_mapLanes (s : State) (b g c h : Nat) (ls : List Nat) (f : Nat → Thread → Thread) :
    (s.mapLanes b g ls f).group? c h =
      if c = b ∧ h = g then (s.group? c h).map (fun k => { k with threads := mapAt ls f k.threads })
      else s.group? c h := by
  simp [State.mapLanes, group?_mapGroup]

/-! A context changed. -/

@[simp] theorem mapCtx_blocks (s : State) (p k : Nat) (j : Word) (f : Ctx → Ctx) : (s.mapCtx p k j f).blocks = s.blocks := rfl
@[simp] theorem mapCtx_mem (s : State) (p k : Nat) (j : Word) (f : Ctx → Ctx) : (s.mapCtx p k j f).mem = s.mem := rfl
@[simp] theorem mapCtx_parts (s : State) (p k : Nat) (j : Word) (f : Ctx → Ctx) : (s.mapCtx p k j f).parts = s.parts := rfl
@[simp] theorem mapCtx_stks (s : State) (p k : Nat) (j : Word) (f : Ctx → Ctx) : (s.mapCtx p k j f).stks = s.stks := rfl
@[simp] theorem mapCtx_order (s : State) (p k : Nat) (j : Word) (f : Ctx → Ctx) : (s.mapCtx p k j f).order = s.order := rfl
@[simp] theorem mapCtx_cur (s : State) (p k : Nat) (j : Word) (f : Ctx → Ctx) : (s.mapCtx p k j f).cur = s.cur := rfl
@[simp] theorem mapCtx_moves (s : State) (p k : Nat) (j : Word) (f : Ctx → Ctx) : (s.mapCtx p k j f).moves = s.moves := rfl
@[simp] theorem mapCtx_block? (s : State) (p k : Nat) (j : Word) (f : Ctx → Ctx) (b : Nat) :
    (s.mapCtx p k j f).block? b = s.block? b := rfl
@[simp] theorem mapCtx_group? (s : State) (p k : Nat) (j : Word) (f : Ctx → Ctx) (b g : Nat) :
    (s.mapCtx p k j f).group? b g = s.group? b g := rfl
@[simp] theorem mapCtx_thread? (s : State) (p k : Nat) (j : Word) (f : Ctx → Ctx) (b g l : Nat) :
    (s.mapCtx p k j f).thread? b g l = s.thread? b g l := rfl

/-! What happens before what changed (R222). -/

@[simp] theorem mapOrder_stks (s : State) (f : Order → Order) : (s.mapOrder f).stks = s.stks := rfl
@[simp] theorem mapOrder_parts (s : State) (f : Order → Order) : (s.mapOrder f).parts = s.parts := rfl
@[simp] theorem mapOrder_ctxs (s : State) (f : Order → Order) : (s.mapOrder f).ctxs = s.ctxs := rfl
@[simp] theorem mapOrder_launches (s : State) (f : Order → Order) : (s.mapOrder f).launches = s.launches := rfl
@[simp] theorem mapOrder_blocks (s : State) (f : Order → Order) : (s.mapOrder f).blocks = s.blocks := rfl
@[simp] theorem mapOrder_mem (s : State) (f : Order → Order) : (s.mapOrder f).mem = s.mem := rfl
@[simp] theorem mapOrder_poison (s : State) (f : Order → Order) : (s.mapOrder f).poison = s.poison := rfl
@[simp] theorem mapOrder_upsets (s : State) (f : Order → Order) : (s.mapOrder f).upsets = s.upsets := rfl
@[simp] theorem mapOrder_accesses (s : State) (f : Order → Order) : (s.mapOrder f).accesses = s.accesses := rfl
@[simp] theorem mapOrder_copies (s : State) (f : Order → Order) : (s.mapOrder f).copies = s.copies := rfl
@[simp] theorem mapOrder_calls (s : State) (f : Order → Order) : (s.mapOrder f).calls = s.calls := rfl
@[simp] theorem mapOrder_link (s : State) (f : Order → Order) : (s.mapOrder f).link = s.link := rfl
@[simp] theorem mapOrder_cur (s : State) (f : Order → Order) : (s.mapOrder f).cur = s.cur := rfl
@[simp] theorem mapOrder_agenda (s : State) (f : Order → Order) : (s.mapOrder f).agenda = s.agenda := rfl
@[simp] theorem mapOrder_moves (s : State) (f : Order → Order) : (s.mapOrder f).moves = s.moves := rfl
@[simp] theorem mapOrder_order (s : State) (f : Order → Order) : (s.mapOrder f).order = f s.order := rfl
@[simp] theorem mapOrder_block? (s : State) (f : Order → Order) (b : Nat) : (s.mapOrder f).block? b = s.block? b := rfl
@[simp] theorem mapOrder_group? (s : State) (f : Order → Order) (b g : Nat) : (s.mapOrder f).group? b g = s.group? b g := rfl
@[simp] theorem mapOrder_thread? (s : State) (f : Order → Order) (b g l : Nat) :
    (s.mapOrder f).thread? b g l = s.thread? b g l := rfl
@[simp] theorem draw_order (s : State) : s.draw.order = s.order := rfl
@[simp] theorem draw_blocks (s : State) : s.draw.blocks = s.blocks := rfl
@[simp] theorem draw_mem (s : State) : s.draw.mem = s.mem := rfl
@[simp] theorem draw_moves (s : State) : s.draw.moves = s.moves + 1 := rfl

/-! Threads. -/

@[simp] theorem goto_pc (t : Thread) (pc : Addr) : (t.goto pc).pc = pc := rfl
@[simp] theorem goto_hints (t : Thread) (pc : Addr) : (t.goto pc).hints = [] := rfl
@[simp] theorem goto_run (t : Thread) (pc : Addr) : (t.goto pc).run = .ready := rfl
@[simp] theorem goto_regs (t : Thread) (pc : Addr) : (t.goto pc).regs = t.regs := rfl
@[simp] theorem goto_preds (t : Thread) (pc : Addr) : (t.goto pc).preds = t.preds := rfl
@[simp] theorem next_pc (t : Thread) : t.next.pc = t.pc + 4 := rfl
@[simp] theorem next_regs (t : Thread) : t.next.regs = t.regs := rfl
@[simp] theorem next_preds (t : Thread) : t.next.preds = t.preds := rfl
@[simp] theorem next_hints (t : Thread) : t.next.hints = [] := rfl
@[simp] theorem next_run (t : Thread) : t.next.run = .ready := rfl
@[simp] theorem setRegs_regs (t : Thread) (i : Nat) (vs : List Reg) : (t.setRegs i vs).regs = writeRun i vs t.regs := rfl
@[simp] theorem setRegs_preds (t : Thread) (i : Nat) (vs : List Reg) : (t.setRegs i vs).preds = t.preds := rfl
@[simp] theorem setRegs_pc (t : Thread) (i : Nat) (vs : List Reg) : (t.setRegs i vs).pc = t.pc := rfl
@[simp] theorem setPred_regs (t : Thread) (p : BitVec 3) (v : Bool) : (t.setPred p v).regs = t.regs := rfl
@[simp] theorem setPred_pc (t : Thread) (p : BitVec 3) (v : Bool) : (t.setPred p v).pc = t.pc := rfl

/-! Runs of registers. -/

@[simp] theorem length_writeRun {α : Type} (i : Nat) (vs as : List α) : (writeRun i vs as).length = as.length := by
  induction as generalizing i vs with
  | nil => cases vs <;> cases i <;> simp [writeRun]
  | cons a as ih => cases vs <;> cases i <;> simp [writeRun, ih]

/-- A register after a run was written: the value written, or what it held. -/
theorem getElem?_writeRun {α : Type} (i j : Nat) (vs as : List α) :
    (writeRun i vs as)[j]? = if i ≤ j ∧ j < i + vs.length ∧ j < as.length then vs[j - i]? else as[j]? := by
  induction as generalizing i j vs with
  | nil => cases vs <;> cases i <;> simp [writeRun]
  | cons a as ih =>
    cases vs with
    | nil => cases i <;> simp [writeRun] <;> omega
    | cons v vs =>
      cases i with
      | zero =>
        cases j with
        | zero => simp [writeRun]
        | succ j => simp [writeRun, ih]
      | succ i =>
        cases j with
        | zero => simp [writeRun]
        | succ j =>
          simp only [writeRun, List.getElem?_cons_succ, ih, List.length_cons]
          by_cases h : i ≤ j ∧ j < i + (vs.length + 1) ∧ j < as.length
          · have : i + 1 ≤ j + 1 ∧ j + 1 < i + 1 + (vs.length + 1) ∧ j + 1 < as.length + 1 := by omega
            simp [h, this]
          · have : ¬ (i + 1 ≤ j + 1 ∧ j + 1 < i + 1 + (vs.length + 1) ∧ j + 1 < as.length + 1) := by omega
            rw [if_neg h, if_neg this]

end Sys2Proof.Machine
end

