-- ==== Sys2Proof/Laws/Bundle.lean ====
section
/-!
SUPPORT. What a bundle does that passes orders 1 to 4 of R72: the conditions find nothing, the body runs for the active
lanes, and a register form leaves everything else as it was.
-/

namespace Sys2Proof.Machine

theorem raise_nil (s : State) (b g : Nat) (pc : Addr) (n : Nat) (w : Word) : raise s b g pc n w [] = s := by
  simp [raise]

theorem boundFails_none {k : Block} {g : Group} {ops : List Opd}
    (h : ∀ o ∈ ops, if o.uni then g.si o.f + o.n ≤ k.sregs else g.vi o.f + o.n ≤ k.vregs) :
    boundFails k g ops = none := by
  rw [boundFails, List.findSome?_eq_none_iff]
  intro o ho
  have := h o ho
  unfold boundOf
  cases hu : o.uni <;> simp [hu] at this ⊢ <;> omega

theorem emptiesOf_pass {g : Group} {t : Thread} {ops : List Opd}
    (h : ∀ o ∈ ops, (o.read = true ∨ o.write = true) → ∀ r ∈ opdRegs g t o, r.st ≠ .empty) :
    emptiesOf g t ops = .pass := by
  have key : ∀ o ∈ ops, (o.read = true ∨ o.write = true) → opdEmpty g t o = false := by
    intro o ho hr
    simp only [opdEmpty, List.any_eq_false]
    intro r hm
    have := h o ho hr r hm
    simpa [Reg.isEmpty] using this
  have h1 : ops.filter (fun o => o.read && opdEmpty g t o) = [] := by
    rw [List.filter_eq_nil_iff]
    intro o ho hc
    simp only [Bool.and_eq_true] at hc
    rw [key o ho (Or.inl hc.1)] at hc
    exact absurd hc.2 (by simp)
  have h2 : ops.filter (fun o => o.write && opdEmpty g t o) = [] := by
    rw [List.filter_eq_nil_iff]
    intro o ho hc
    simp only [Bool.and_eq_true] at hc
    rw [key o ho (Or.inr hc.1)] at hc
    exact absurd hc.2 (by simp)
  simp [emptiesOf, h1, h2]

/-- The state after a bundle has issued: the issue is counted, and the lanes whose guard is false have gone on. -/
def issuedState (s : State) (k : Block) (gr : Group) (is : Issue) : State :=
  let gf := is.lanes.filter (fun l => !guardOf is.hints (gr.thread l))
  let s2 := if is.lanes.isEmpty then s
    else noteIssue s is k is.lanes (is.lanes.any (fun l => freshIssue (gr.thread l).run))
  if gf.isEmpty then s2 else s2.advance is.blk is.grp gf

/-- The state in which the body of a bundle runs: it has issued, and the tokens that it reads are noted. -/
def bodyState (s : State) (fm : Form) (k : Block) (gr : Group) (is : Issue) : State :=
  noteTokens (issuedState s k gr is) is.blk is.grp gr fm.ops (activeLanes gr is.lanes is.hints)

/-- A bundle that meets no condition of orders 1 to 4 runs its body for its active lanes, and takes the traps that the
body answers. -/
theorem runBundle_clear {s : State} {fm : Form} {body : Body} {k : Block} {gr : Group} {is : Issue}
    (hc : Clear fm k gr (activeLanes gr is.lanes is.hints) is.hints) :
    runBundle s fm body k gr is =
      let act := activeLanes gr is.lanes is.hints
      let r := if act.isEmpty then (bodyState s fm k gr is, []) else body { is with act := act } (bodyState s fm k gr is)
      raise r.1 is.blk is.grp is.pc is.hints.length is.word r.2 := by
  have hh := hc.hints
  have early : earlyFails fm k gr (activeLanes gr is.lanes is.hints) = none := by
    unfold earlyFails
    by_cases ha : activeLanes gr is.lanes is.hints = []
    · simp [ha]
    · simp [ha, hc.need ha, boundFails_none (hc.bound ha)]
  have chk : (activeLanes gr is.lanes is.hints).map (fun l =>
        (l, if (gr.thread l).run.inside then Empties.pass else emptiesOf gr (gr.thread l) fm.ops)) =
      (activeLanes gr is.lanes is.hints).map (fun l => (l, Empties.pass)) := by
    apply List.map_congr_left
    intro l hl
    rw [emptiesOf_pass (fun o ho hr r hm => hc.full o ho hr l hl r hm), ite_self]
  unfold runBundle
  simp only [hh, Bool.not_true, Bool.false_eq_true, if_false]
  simp only [activeLanes] at early chk
  simp only [early, chk]
  simp [bodyState, issuedState, activeLanes, List.filterMap_map, Function.comp_def, List.filter_map]

/-- The same of the meaning of a thread's word. -/
theorem withForm_clear {s : State} {fm : Form} {body : Body} {b g : Nat} {lanes : List Nat} {pc : Addr}
    {hs : List Hint} {w : Word} {k : Block} {gr : Group} (hi : Issuing s b g lanes pc hs w k gr)
    (hc : Clear fm k gr (activeLanes gr lanes hs) hs) :
    withForm fm body s = .next (
      let act := activeLanes gr lanes hs
      let s1 := bodyState s fm k gr ⟨b, g, lanes, [], pc, hs, w⟩
      let r := if act.isEmpty then (s1, []) else body ⟨b, g, lanes, act, pc, hs, w⟩ s1
      raise r.1 b g pc hs.length w r.2) := by
  simp only [withForm, hi.cur, hi.block, hi.group]
  exact congrArg _ (runBundle_clear (is := ⟨b, g, lanes, [], pc, hs, w⟩) hc)

/-! The state in which the body runs. -/

/-- The group that the body of a bundle sees. -/
def bodyGroup (gr : Group) (lanes : List Nat) (hs : List Hint) : Group :=
  { gr with
    threads := mapFrom (fun l t =>
      if lanes.contains l then (if guardOf hs (gr.thread l) then issuedThread hs t else (issuedThread hs t).next) else t)
      0 gr.threads }

theorem group?_mapBlock_keep (s : State) (b : Nat) (f : Block → Block) (hf : ∀ k, (f k).groups = k.groups) (c g : Nat) :
    (s.mapBlock b f).group? c g = s.group? c g := by
  simp only [group?_eq, block?_mapBlock]
  split
  · cases s.block? c <;> simp [hf]
  · rfl

theorem noteIssue_thread? (s : State) (is : Issue) (k : Block) (ls : List Nat) (fr : Bool) (b g l : Nat) :
    (noteIssue s is k ls fr).thread? b g l =
      if b = is.blk ∧ g = is.grp ∧ l ∈ ls then (s.thread? b g l).map (issuedThread is.hints) else s.thread? b g l := by
  have h1 : (s.mapLanes is.blk is.grp ls (fun _ t => issuedThread is.hints t)).thread? b g l =
      if b = is.blk ∧ g = is.grp ∧ l ∈ ls then (s.thread? b g l).map (issuedThread is.hints) else s.thread? b g l :=
    thread?_mapLanes ..
  rw [← h1]
  cases fr
  · rfl
  · simp only [thread?_eq]
    have h2 : (noteIssue s is k ls true).group? b g = ((s.mapLanes is.blk is.grp ls
        (fun _ t => issuedThread is.hints t)).mapBlock is.blk (fun b => { b with issued := b.issued + 1 })).group? b g := rfl
    rw [h2, group?_mapBlock_keep]
    intro _
    rfl

theorem noteIssue_block? (s : State) (is : Issue) (k : Block) (ls : List Nat) (fr : Bool) (b : Nat) :
    (noteIssue s is k ls fr).block? b =
      if b = is.blk then (s.block? b).map (fun x => { x with
        groups := modifyAt (fun y => { y with threads := mapAt ls (fun _ t => issuedThread is.hints t) y.threads })
          is.grp x.groups
        issued := if fr then x.issued + 1 else x.issued }) else s.block? b := by
  have h1 : (s.mapLanes is.blk is.grp ls (fun _ t => issuedThread is.hints t)).block? b =
      if b = is.blk then (s.block? b).map (fun x => { x with
        groups := modifyAt (fun y => { y with threads := mapAt ls (fun _ t => issuedThread is.hints t) y.threads })
          is.grp x.groups }) else s.block? b := block?_mapLanes ..
  cases fr
  · exact h1
  · have h2 : (noteIssue s is k ls true).block? b = ((s.mapLanes is.blk is.grp ls
        (fun _ t => issuedThread is.hints t)).mapBlock is.blk (fun b => { b with issued := b.issued + 1 })).block? b := rfl
    rw [h2, block?_mapBlock, h1]
    split
    · cases s.block? b <;> simp
    · rfl

theorem noteIssue_frame (s : State) (is : Issue) (k : Block) (ls : List Nat) (fr : Bool) :
    frameOf (noteIssue s is k ls fr) = frameOf s := by
  cases fr
  · rfl
  · simp only [noteIssue, frameOf, State.mapCtx, State.mapBlock, State.mapLanes, State.mapGroup, if_true,
      List.map_map, State.mk.injEq, true_and, and_true]
    apply List.map_congr_left
    intro c _
    by_cases h : (c.part == k.part && c.stack == k.stack && c.job == k.job) = true <;> simp [Function.comp, h]

theorem mapLanes_frame (s : State) (b g : Nat) (ls : List Nat) (f : Nat → Thread → Thread) :
    frameOf (s.mapLanes b g ls f) = frameOf s := rfl

theorem mapGroup_frame (s : State) (b g : Nat) (f : Group → Group) : frameOf (s.mapGroup b g f) = frameOf s := rfl

theorem mem_of_frame {s t : State} (hf : frameOf t = frameOf s) : t.mem = s.mem := by
  have h := congrArg State.mem hf
  exact h

theorem parts_of_frame {s t : State} (hf : frameOf t = frameOf s) : t.parts = s.parts := by
  have h := congrArg State.parts hf
  exact h

theorem cur_of_frame {s t : State} (hf : frameOf t = frameOf s) : t.cur = s.cur := by
  have h := congrArg State.cur hf
  exact h

/-- Equal frames and blocks that keep their scratchpads hold the same bytes. -/
theorem sameBytes_of {s t : State} (hf : frameOf t = frameOf s)
    (hb : ∀ b, (t.block? b).map (·.scratch) = (s.block? b).map (·.scratch)) : SameBytes s t := by
  intro sp a
  cases sp with
  | mem =>
    simp [State.bytesOf, mem_of_frame hf]
  | scratch b =>
    have := hb b
    simp only [State.bytesOf, State.block?] at this ⊢
    cases h1 : s.blocks[b]? <;> cases h2 : t.blocks[b]? <;> simp_all
  | srf p e =>
    simp [State.bytesOf, State.srf, State.part, parts_of_frame hf]

theorem thread_eq_getD (g : Group) (l : Nat) (h : l < g.threads.length) : g.threads[l]? = some (g.thread l) := by
  simp [Group.thread, h]

/-- What the issue leaves of a thread. -/
theorem issuedState_thread? (s : State) (k : Block) (gr : Group) (is : Issue) (b g l : Nat) :
    (issuedState s k gr is).thread? b g l =
      if b = is.blk ∧ g = is.grp ∧ l ∈ is.lanes then
        (s.thread? b g l).map (fun x => if guardOf is.hints (gr.thread l) then issuedThread is.hints x
          else (issuedThread is.hints x).next)
      else s.thread? b g l := by
  unfold issuedState
  have note : ∀ b g l, (if is.lanes.isEmpty then s
        else noteIssue s is k is.lanes (is.lanes.any (fun l => freshIssue (gr.thread l).run))).thread? b g l =
      if b = is.blk ∧ g = is.grp ∧ l ∈ is.lanes then (s.thread? b g l).map (issuedThread is.hints)
      else s.thread? b g l := by
    intro b g l
    split
    · rename_i h
      simp only [List.isEmpty_iff] at h
      simp [h]
    · exact noteIssue_thread? ..
  simp only []
  split
  · rename_i h
    rw [note]
    by_cases hc : b = is.blk ∧ g = is.grp ∧ l ∈ is.lanes
    · simp only [hc, and_self, if_true]
      have : guardOf is.hints (gr.thread l) = true := by
        have := List.isEmpty_iff.mp h
        rw [List.filter_eq_nil_iff] at this
        have := this l hc.2.2
        simpa using this
      simp [this]
    · simp [hc]
  · rw [State.advance, thread?_mapLanes, note]
    by_cases hc : b = is.blk ∧ g = is.grp ∧ l ∈ is.lanes
    · by_cases hgd : guardOf is.hints (gr.thread l) = true
      · simp [hc, hgd]
      · simp only [Bool.not_eq_true] at hgd
        simp [hc, hgd, Option.map_map, Function.comp_def]
    · have : ¬ (b = is.blk ∧ g = is.grp ∧ l ∈ is.lanes.filter (fun l => !guardOf is.hints (gr.thread l))) := by
        intro h
        exact hc ⟨h.1, h.2.1, (List.mem_filter.mp h.2.2).1⟩
      rw [if_neg hc, if_neg this, if_neg hc]

theorem noteIssue_group? (s : State) (is : Issue) (k : Block) (ls : List Nat) (fr : Bool) (b g : Nat) :
    (noteIssue s is k ls fr).group? b g =
      if b = is.blk ∧ g = is.grp then
        (s.group? b g).map (fun y => { y with threads := mapAt ls (fun _ t => issuedThread is.hints t) y.threads })
      else s.group? b g := by
  have h1 := group?_mapLanes s is.blk is.grp b g ls (fun _ t => issuedThread is.hints t)
  rw [← h1]
  cases fr
  · rfl
  · have h2 : (noteIssue s is k ls true).group? b g = ((s.mapLanes is.blk is.grp ls
        (fun _ t => issuedThread is.hints t)).mapBlock is.blk (fun b => { b with issued := b.issued + 1 })).group? b g := rfl
    rw [h2, group?_mapBlock_keep]
    intro _
    rfl

/-- The group after the issue: its own registers as they were, its threads issued. -/
theorem issuedState_group? {s : State} {k : Block} {gr : Group} {is : Issue} (hg : s.group? is.blk is.grp = some gr) :
    ∃ x, (issuedState s k gr is).group? is.blk is.grp = some x ∧ { x with threads := gr.threads } = gr := by
  unfold issuedState
  simp only []
  split <;> split <;> simp [State.advance, group?_mapLanes, noteIssue_group?, hg]

theorem issuedState_group?_ne {s : State} {k : Block} {gr : Group} {is : Issue} (b g : Nat)
    (h : ¬ (b = is.blk ∧ g = is.grp)) : (issuedState s k gr is).group? b g = s.group? b g := by
  unfold issuedState
  simp only []
  split <;> split <;> simp only [State.advance, group?_mapLanes, noteIssue_group?, if_neg h]

theorem issuedState_frame (s : State) (k : Block) (gr : Group) (is : Issue) :
    frameOf (issuedState s k gr is) = frameOf s := by
  unfold issuedState
  simp only []
  split <;> split <;> simp only [State.advance, mapLanes_frame, noteIssue_frame]

/-- Blocks after the issue keep all but their groups and their count of bundles. -/
theorem issuedState_block? (s : State) (k : Block) (gr : Group) (is : Issue) (b : Nat) :
    (b ≠ is.blk → (issuedState s k gr is).block? b = s.block? b) ∧
    (∀ x, s.block? b = some x → ∃ y, (issuedState s k gr is).block? b = some y ∧
      { y with groups := x.groups, issued := x.issued } = x) := by
  unfold issuedState
  simp only []
  constructor
  · intro h
    split <;> split <;> simp only [State.advance, block?_mapLanes, noteIssue_block?, if_neg h]
  · intro x hx
    by_cases hb : b = is.blk
    · subst hb
      split <;> split <;> simp [State.advance, block?_mapLanes, noteIssue_block?, hx]
    · split <;> split <;> simp [State.advance, block?_mapLanes, noteIssue_block?, hx, hb]

/-! Noting what is read changes only what is handed on. -/

theorem Order.keeps_fold {α : Type} (f : Order → α → Order) (hf : ∀ o a, { f o a with chans := [] } = { o with chans := [] })
    (l : List α) (o : Order) : { l.foldl f o with chans := [] } = { o with chans := [] } := by
  induction l generalizing o with
  | nil => rfl
  | cons a l ih => rw [List.foldl_cons, ih, hf]

theorem Order.putChan_keeps (o : Order) (c : Handed) (is : List Nat) :
    { o.putChan c is with chans := [] } = { o with chans := [] } := by
  unfold Order.putChan
  split <;> rfl

theorem noteTokens_frame (s : State) (b gi : Nat) (g : Group) (ops : List Opd) (act : List Nat) :
    frameOf (noteTokens s b gi g ops act) = frameOf s := by
  have h : { (noteTokens s b gi g ops act).order with chans := [] } = { s.order with chans := [] } := by
    simp only [noteTokens, State.mapOrder]
    split
    · exact Order.keeps_fold _ (fun o r => Order.keeps_fold _ (fun o t => Order.putChan_keeps ..) _ _) _ _
    · exact (Order.keeps_fold (fun o r => o.setChan (.token b gi r) []) (fun o r => rfl) _ _).trans
        (Order.keeps_fold _ (fun o r => Order.keeps_fold _ (fun o t => Order.putChan_keeps ..) _ _) _ _)
  unfold frameOf
  rw [h]
  rfl

/-! The state in which the body runs. -/

theorem bodyState_thread? (s : State) (fm : Form) (k : Block) (gr : Group) (is : Issue) (b g l : Nat) :
    (bodyState s fm k gr is).thread? b g l =
      if b = is.blk ∧ g = is.grp ∧ l ∈ is.lanes then
        (s.thread? b g l).map (fun x => if guardOf is.hints (gr.thread l) then issuedThread is.hints x
          else (issuedThread is.hints x).next)
      else s.thread? b g l := issuedState_thread? s k gr is b g l

theorem bodyState_group? {s : State} {fm : Form} {k : Block} {gr : Group} {is : Issue}
    (hg : s.group? is.blk is.grp = some gr) :
    ∃ x, (bodyState s fm k gr is).group? is.blk is.grp = some x ∧ { x with threads := gr.threads } = gr :=
  issuedState_group? hg

theorem bodyState_group?_ne {s : State} {fm : Form} {k : Block} {gr : Group} {is : Issue} (b g : Nat)
    (h : ¬ (b = is.blk ∧ g = is.grp)) : (bodyState s fm k gr is).group? b g = s.group? b g :=
  issuedState_group?_ne b g h

theorem bodyState_frame (s : State) (fm : Form) (k : Block) (gr : Group) (is : Issue) :
    frameOf (bodyState s fm k gr is) = frameOf s := by
  rw [bodyState, noteTokens_frame, issuedState_frame]

theorem bodyState_block? (s : State) (fm : Form) (k : Block) (gr : Group) (is : Issue) (b : Nat) :
    (b ≠ is.blk → (bodyState s fm k gr is).block? b = s.block? b) ∧
    (∀ x, s.block? b = some x → ∃ y, (bodyState s fm k gr is).block? b = some y ∧
      { y with groups := x.groups, issued := x.issued } = x) := issuedState_block? s k gr is b

theorem bodyState_cur (s : State) (fm : Form) (k : Block) (gr : Group) (is : Issue) : (bodyState s fm k gr is).cur = s.cur :=
  cur_of_frame (bodyState_frame s fm k gr is)

theorem group_threads_ext {x y : Group} (h : { x with threads := y.threads } = y)
    (ht : ∀ l : Nat, x.threads[l]? = y.threads[l]?) : x = y := by
  have := List.ext_getElem? ht
  rw [← h, ← this]

theorem bodyState_bodyGroup {s : State} {fm : Form} {k : Block} {gr : Group} {is : Issue}
    (hg : s.group? is.blk is.grp = some gr) :
    (bodyState s fm k gr is).group? is.blk is.grp = some (bodyGroup gr is.lanes is.hints) := by
  obtain ⟨x, hx, hr⟩ := bodyState_group? (fm := fm) (k := k) hg
  rw [hx]
  congr 1
  apply group_threads_ext
  · simp only [bodyGroup]
    rw [← hr]
  · intro l
    have h1 := bodyState_thread? s fm k gr is is.blk is.grp l
    simp only [thread?_eq, hx, hg, Option.bind_some, true_and] at h1
    rw [h1]
    simp only [bodyGroup, getElem?_mapFrom, Nat.zero_add, List.contains_iff_mem]
    split <;> simp

/-- The body's state itself: the bundle is issued, and the lanes whose guard is false have gone on. -/
theorem bodyState_executed {s : State} (fm : Form) {b g : Nat} {lanes : List Nat} {pc : Addr} {hs : List Hint} {w : Word}
    {k : Block} {gr : Group} (hi : Issuing s b g lanes pc hs w k gr) :
    Executed s (bodyState s fm k gr ⟨b, g, lanes, [], pc, hs, w⟩) b g lanes (activeLanes gr lanes hs) hs
      (fun x => x) (fun _ x => x) := by
  have hbs := bodyState_block? s fm k gr ⟨b, g, lanes, [], pc, hs, w⟩
  have hth := bodyState_thread? s fm k gr ⟨b, g, lanes, [], pc, hs, w⟩
  refine ⟨sameBytes_of (bodyState_frame ..) ?_, bodyState_frame .., fun b' h => (hbs b').1 h,
    fun x hx => ((hbs b).2 x hx), fun g' h => bodyState_group?_ne _ _ (by simp [h]), ?_, ?_, ?_, ?_⟩
  · intro c
    cases hc' : s.block? c with
    | none =>
      by_cases hcb : c = b
      · subst hcb; rw [hi.block] at hc'; cases hc'
      · rw [(hbs c).1 hcb, hc']
    | some x =>
      obtain ⟨y, hy, hxy⟩ := (hbs c).2 x hc'
      rw [hy, ← hxy]; rfl
  · intro x hx
    obtain ⟨y, hy, hyx⟩ := bodyState_group? (s := s) (fm := fm) (k := k) (gr := gr) (is := ⟨b, g, lanes, [], pc, hs, w⟩) hi.group
    have : gr = x := Option.some.inj (hi.group.symm.trans hx)
    subst this
    exact ⟨y, hy, hyx⟩
  · intro l hl
    have := List.mem_filter.mp hl
    rw [hth]
    simp [this.1, this.2]
  · intro l hl hn
    rw [hth]
    have : guardOf hs (gr.thread l) = false := by
      by_contra hgd
      exact hn (List.mem_filter.mpr ⟨hl, by simpa using hgd⟩)
    simp [hl, this]
  · intro l hl
    rw [hth]
    simp [hl]

/-- What a body does to the threads of its active lanes, after what it does to its group. -/
theorem Executed.body {s s1 : State} {b g : Nat} {lanes act : List Nat} {hs : List Hint} {F : Group → Group}
    {fg : Group → Group} {G fl : Nat → Thread → Thread}
    {k : Block} (hb : s.block? b = some k) (h : Executed s s1 b g lanes act hs (fun x => x) (fun _ x => x))
    (hF : ∀ x, (F x).threads = x.threads)
    (hg : ∀ x y, s.group? b g = some x → { y with threads := x.threads } = x →
      { F y with threads := (fg x).threads } = fg x)
    (hG : ∀ l ∈ act, ∀ x, s.thread? b g l = some x → G l (issuedThread hs x) = fl l (issuedThread hs x))
    (hsub : ∀ l ∈ act, l ∈ lanes) :
    Executed s ((s1.mapGroup b g F).mapLanes b g act G) b g lanes act hs fg fl := by
  have hthr : ∀ c x l, ((s1.mapGroup b g F).thread? c x l) = s1.thread? c x l := by
    intro c x l
    simp only [thread?_eq, group?_mapGroup]
    split
    · cases s1.group? c x <;> simp [hF]
    · rfl
  refine ⟨sameBytes_of ?_ ?_, ?_, ?_, ?_, ?_, ?_, ?_, ?_, ?_⟩
  · rw [mapLanes_frame, mapGroup_frame, h.frame]
  · intro c
    rw [block?_mapLanes, block?_mapGroup]
    by_cases hc : c = b
    · subst hc
      obtain ⟨y, hy, hxy⟩ := h.block k hb
      have := congrArg Block.scratch hxy
      rw [hy, hb]
      simpa using this
    · simp [hc, h.blocks c hc]
  · rw [mapLanes_frame, mapGroup_frame, h.frame]
  · intro b' hb
    simp [block?_mapLanes, block?_mapGroup, hb, h.blocks b' hb]
  · intro x hx
    obtain ⟨y, hy, hxy⟩ := h.block x hx
    rw [block?_mapLanes, block?_mapGroup, hy, if_pos rfl, if_pos rfl]
    exact ⟨_, rfl, hxy⟩
  · intro g' hg'
    simp [group?_mapLanes, group?_mapGroup, hg', h.groups g' hg']
  · intro x hx
    obtain ⟨y, hy, hxy⟩ := h.group x hx
    rw [group?_mapLanes, group?_mapGroup, hy]
    simp only [and_self, if_true, Option.map_some]
    exact ⟨_, rfl, hg x y hx hxy⟩
  · intro l hl
    rw [thread?_mapLanes, hthr, h.active l hl]
    cases hx : s.thread? b g l with
    | none => simp
    | some x => simp [hl, hG l hl x hx]
  · intro l hl hn
    rw [thread?_mapLanes, hthr, h.passive l hl hn]
    simp [hn]
  · intro l hl
    have : l ∉ act := fun h' => hl (hsub l h')
    rw [thread?_mapLanes, hthr, h.others l hl]
    simp [this]

theorem activeLanes_sub {gr : Group} {lanes : List Nat} {hs : List Hint} :
    ∀ l ∈ activeLanes gr lanes hs, l ∈ lanes := fun _ hl => (List.mem_filter.mp hl).1

/-- The thread of an active lane as the body sees it. -/
theorem bodyGroup_thread {s : State} {b g : Nat} {lanes : List Nat} {pc : Addr} {hs : List Hint} {w : Word}
    {k : Block} {gr : Group} (hi : Issuing s b g lanes pc hs w k gr) {l : Nat} (hl : l ∈ activeLanes gr lanes hs) :
    (bodyGroup gr lanes hs).thread l = issuedThread hs (gr.thread l) := by
  have hll := (List.mem_filter.mp hl)
  have h1 : (bodyGroup gr lanes hs).threads[l]? = some (issuedThread hs (gr.thread l)) := by
    simp only [bodyGroup, getElem?_mapFrom, thread_eq_getD gr l (hi.inGroup l hll.1), Nat.zero_add]
    simp [hll.1, hll.2]
  simp [Group.thread, h1]

theorem mapGroup_self (s : State) (b g : Nat) : s.mapGroup b g (fun x => x) = s := by
  have h : ∀ {α : Type} (i : Nat) (as : List α), modifyAt (fun x => x) i as = as := by
    intro α i as
    induction as generalizing i with
    | nil => simp [modifyAt]
    | cons a as ih => cases i <;> simp [modifyAt, ih]
  simp [State.mapGroup, State.mapBlock, h]

/-- A per-thread form that traps in no active lane has executed. -/
theorem perLane_executed {s : State} {fm : Form} {b g : Nat} {lanes : List Nat} {pc : Addr} {hs : List Hint} {w : Word}
    {k : Block} {gr : Group} (hi : Issuing s b g lanes pc hs w k gr)
    (hc : Clear fm k gr (activeLanes gr lanes hs) hs)
    {f : Issue → Block → Group → Nat → Thread → LaneRes} {fl : Nat → Thread → Thread}
    (hf : ∀ k', { k' with groups := k.groups, issued := k.issued } = k → ∀ l ∈ activeLanes gr lanes hs,
      ∀ x, gr.threads[l]? = some x →
      (f ⟨b, g, lanes, activeLanes gr lanes hs, pc, hs, w⟩ k' (bodyGroup gr lanes hs) l (issuedThread hs x)).thread
        (issuedThread hs x) = fl l (issuedThread hs x) ∧
      (f ⟨b, g, lanes, activeLanes gr lanes hs, pc, hs, w⟩ k' (bodyGroup gr lanes hs) l (issuedThread hs x)).trap? l
        = none) :
    ∃ t, withForm fm (perLane f) s = .next t ∧
      Executed s t b g lanes (activeLanes gr lanes hs) hs (fun x => x) fl := by
  obtain ⟨k', hk', hkk⟩ := (bodyState_block? s fm k gr ⟨b, g, lanes, [], pc, hs, w⟩ b).2 k hi.block
  have hgb : (bodyState s fm k gr ⟨b, g, lanes, [], pc, hs, w⟩).group? b g = some (bodyGroup gr lanes hs) :=
    bodyState_bodyGroup (fm := fm) (k := k) (is := ⟨b, g, lanes, [], pc, hs, w⟩) hi.group
  have htr : (activeLanes gr lanes hs).filterMap (fun l => (f ⟨b, g, lanes, activeLanes gr lanes hs, pc, hs, w⟩ k'
      (bodyGroup gr lanes hs) l ((bodyGroup gr lanes hs).thread l)).trap? l) = [] := by
    rw [List.filterMap_eq_nil_iff]
    intro l hl
    rw [bodyGroup_thread hi hl]
    exact (hf k' hkk l hl _ (thread_eq_getD gr l (hi.inGroup l (activeLanes_sub l hl)))).2
  have hb := bodyState_executed fm hi
  refine ⟨_, withForm_clear hi hc, ?_⟩
  by_cases ha : activeLanes gr lanes hs = []
  · simp only [ha, List.isEmpty_nil, if_true, raise_nil]
    rw [ha] at hb
    exact ⟨hb.bytes, hb.frame, hb.blocks, hb.block, hb.groups, hb.group, fun l hl => (by cases hl), hb.passive, hb.others⟩
  · have hne : (activeLanes gr lanes hs).isEmpty = false := by simpa using ha
    simp only [hne, perLane, hk', hgb, htr, raise_nil, Bool.false_eq_true, if_false]
    rw [← mapGroup_self (bodyState s fm k gr ⟨b, g, lanes, [], pc, hs, w⟩) b g]
    refine Executed.body hi.block hb (fun _ => rfl) (fun x y _ h => h) ?_ activeLanes_sub
    intro l hl x hx
    have : gr.threads[l]? = some x := by
      rw [thread?_eq, hi.group] at hx
      exact hx
    exact (hf k' hkk l hl x this).1

/-- A form that executes once per bundle and does not trap has executed. -/
theorem perBundle_executed {s : State} {fm : Form} {b g : Nat} {lanes : List Nat} {pc : Addr} {hs : List Hint} {w : Word}
    {k : Block} {gr : Group} (hi : Issuing s b g lanes pc hs w k gr)
    (hc : Clear fm k gr (activeLanes gr lanes hs) hs)
    {f : Issue → Block → Group → GroupRes} {fg : Group → Group}
    (hf : ∀ k', { k' with groups := k.groups, issued := k.issued } = k → activeLanes gr lanes hs ≠ [] →
      ∃ G, f ⟨b, g, lanes, activeLanes gr lanes hs, pc, hs, w⟩ k' (bodyGroup gr lanes hs) = .ok G ∧
        G.threads = (bodyGroup gr lanes hs).threads ∧ { G with threads := (fg gr).threads } = fg gr) :
    ∃ t, withForm fm (perBundle f) s = .next t ∧
      Executed s t b g lanes (activeLanes gr lanes hs) hs
        (fun y => if activeLanes gr lanes hs = [] then y else fg y) (fun _ x => x.next) := by
  obtain ⟨k', hk', hkk⟩ := (bodyState_block? s fm k gr ⟨b, g, lanes, [], pc, hs, w⟩ b).2 k hi.block
  have hgb : (bodyState s fm k gr ⟨b, g, lanes, [], pc, hs, w⟩).group? b g = some (bodyGroup gr lanes hs) :=
    bodyState_bodyGroup (fm := fm) (k := k) (is := ⟨b, g, lanes, [], pc, hs, w⟩) hi.group
  have hb := bodyState_executed fm hi
  refine ⟨_, withForm_clear hi hc, ?_⟩
  by_cases ha : activeLanes gr lanes hs = []
  · simp only [ha, List.isEmpty_nil, if_true, raise_nil]
    rw [ha] at hb
    exact ⟨hb.bytes, hb.frame, hb.blocks, hb.block, hb.groups, hb.group, fun l hl => (by cases hl), hb.passive, hb.others⟩
  · obtain ⟨G, hG, hGt, hGg⟩ := hf k' hkk ha
    have hne : (activeLanes gr lanes hs).isEmpty = false := by simpa using ha
    simp only [hne, perBundle, hk', hgb, hG, raise_nil, Bool.false_eq_true, if_false, State.advance, if_neg ha]
    have hsame : (bodyState s fm k gr ⟨b, g, lanes, [], pc, hs, w⟩).mapGroup b g (fun _ => G) =
        (bodyState s fm k gr ⟨b, g, lanes, [], pc, hs, w⟩).mapGroup b g (fun x => { G with threads := x.threads }) := by
      have hk2 : k'.groups[g]? = some (bodyGroup gr lanes hs) := by
        rw [group?_eq, hk'] at hgb; exact hgb
      have e : ∀ (i : Nat) (as : List Group), as[i]? = some (bodyGroup gr lanes hs) →
          modifyAt (fun _ => G) i as = modifyAt (fun x => { G with threads := x.threads }) i as := by
        intro i as
        induction as generalizing i with
        | nil => simp
        | cons a as ih =>
          cases i with
          | zero => intro h; simp only [List.getElem?_cons_zero, Option.some.injEq] at h; simp [modifyAt, h, ← hGt]
          | succ i => intro h; simp only [List.getElem?_cons_succ] at h; simp [modifyAt, ih i h]
      have e2 : ∀ (i : Nat) (as : List Block), as[i]? = some k' →
          modifyAt (fun (k : Block) => { k with groups := modifyAt (fun _ => G) g k.groups }) i as =
          modifyAt (fun (k : Block) => { k with groups := modifyAt (fun x => { G with threads := x.threads }) g k.groups }) i as := by
        intro i as
        induction as generalizing i with
        | nil => simp
        | cons a as ih =>
          cases i with
          | zero => intro h; simp only [List.getElem?_cons_zero, Option.some.injEq] at h; simp [modifyAt, h, e g _ hk2]
          | succ i => intro h; simp only [List.getElem?_cons_succ] at h; simp [modifyAt, ih i h]
      unfold State.mapGroup State.mapBlock
      rw [e2 b _ hk']
    rw [hsame]
    refine Executed.body hi.block hb (fun _ => rfl) ?_ (fun _ _ _ _ => rfl) activeLanes_sub
    intro x y hx _
    have : gr = x := Option.some.inj (hi.group.symm.trans hx)
    subst this
    exact hGg

end Sys2Proof.Machine
end

