-- ==== Sys2Proof/Laws/Memory.lean ====
section
/-!
SUPPORT. Memory: what a byte reads as after a write, that every operation keeps the canonical form, and what a write to
one space leaves of the others.
-/

namespace Sys2Proof.Machine

/-! The canonical form. -/

@[simp] theorem wf_nil : Memory.wf [] = true := rfl

/-- A listed entry is not 0, lies below the next, and the rest is canonical. -/
theorem wf_cons (a : Nat) (v : Byte) (m : Memory) :
    Memory.wf ((a, v) :: m) = true ↔ v ≠ 0 ∧ (∀ c ∈ m.head?, a < c.1) ∧ m.wf = true := by
  cases m with
  | nil => simp [Memory.wf]
  | cons c m => simp [Memory.wf, and_assoc]

/-- Every entry of a canonical memory lies at or above its head. -/
theorem wf_head_lt {a : Nat} {v : Byte} {m : Memory} (h : Memory.wf ((a, v) :: m) = true) :
    ∀ c ∈ m, a < c.1 := by
  induction m generalizing a v with
  | nil => simp
  | cons d m ih =>
    obtain ⟨-, hd, hm⟩ := (wf_cons a v (d :: m)).mp h
    have had : a < d.1 := hd d rfl
    intro c hc
    rcases List.mem_cons.mp hc with rfl | hc
    · exact had
    · exact lt_trans had (ih (v := d.2) hm c hc)

/-- An address below every entry reads as 0. -/
theorem get_of_lt {m : Memory} {x : Nat} (h : ∀ c ∈ m, x < c.1) : m.get x = 0 := by
  cases m with
  | nil => rfl
  | cons c m =>
    have := h c (by simp)
    obtain ⟨a, v⟩ := c
    simp only [Memory.get]
    rw [if_neg (by simp at this; omega), if_pos this]

/-- The entries of a memory after a byte is set lie at the address or were there before. -/
theorem head_set (m : Memory) (x : Nat) (v : Byte) (n : Nat) (hn : n < x) (h : ∀ c ∈ m.head?, n < c.1)
    (hm : m.wf = true) : ∀ c ∈ (m.set x v).head?, n < c.1 := by
  cases m with
  | nil =>
    rw [Memory.set]; split <;> simp [hn]
  | cons d m =>
    obtain ⟨a, w⟩ := d
    have ha : n < a := h (a, w) rfl
    simp only [Memory.set]
    split
    · split <;> simp [ha, hn]
    · split
      · split
        · cases m with
          | nil => simp
          | cons e m =>
            intro c hc
            simp at hc
            subst hc
            exact lt_trans ha (wf_head_lt hm e (by simp))
        · simp [hn]
      · simp [ha]

/-- Setting a byte keeps the canonical form. -/
theorem set_wf {m : Memory} (h : m.wf = true) (x : Nat) (v : Byte) : (m.set x v).wf = true := by
  induction m with
  | nil =>
    rw [Memory.set]
    split
    · rfl
    · exact (wf_cons x v []).mpr ⟨‹_›, by simp, rfl⟩
  | cons c m ih =>
    obtain ⟨a, w⟩ := c
    obtain ⟨hw, hh, hm⟩ := (wf_cons a w m).mp h
    simp only [Memory.set]
    split
    · split
      · exact h
      · exact (wf_cons x v ((a, w) :: m)).mpr ⟨‹_›, by simpa using ‹x < a›, h⟩
    · split
      · split
        · exact hm
        · rename_i hx hv
          exact (wf_cons x v m).mpr ⟨hv, by rw [← hx]; exact hh, hm⟩
      · exact (wf_cons a w _).mpr ⟨hw, head_set m x v a (by omega) hh hm, ih hm⟩

/-- Reading after a byte is set gives the byte there, and what was there elsewhere. -/
theorem get_set {m : Memory} (h : m.wf = true) (x : Nat) (v : Byte) (y : Nat) :
    (m.set x v).get y = if y = x then v else m.get y := by
  induction m with
  | nil =>
    by_cases hv : v = 0
    · simp [Memory.set, hv, Memory.get]
    · simp only [Memory.set, if_neg hv, Memory.get]
      by_cases hy : y = x
      · simp [hy]
      · simp [hy, Ne.symm hy]
  | cons c m ih =>
    obtain ⟨a, w⟩ := c
    obtain ⟨hw, hh, hm⟩ := (wf_cons a w m).mp h
    have hlt : ∀ c ∈ m, a < c.1 := wf_head_lt h
    simp only [Memory.set]
    split
    · rename_i hxa
      split
      · rename_i hv
        by_cases hy : y = x
        · subst hy; simp [Memory.get, hv, show a ≠ y by omega, hxa]
        · simp [hy]
      · by_cases hy : y = x
        · subst hy; simp [Memory.get]
        · simp only [Memory.get, if_neg (Ne.symm hy), if_neg hy]
          by_cases hyx : y < x
          · simp [hyx, show a ≠ y by omega, show y < a by omega]
          · simp [hyx]
    · rename_i hxa
      split
      · rename_i hax
        subst hax
        split
        · rename_i hv
          by_cases hy : y = a
          · subst hy; simp [hv, get_of_lt hlt]
          · simp only [hy, if_false, Memory.get, if_neg (Ne.symm hy)]
            by_cases hya : y < a
            · simp [hya, get_of_lt (fun c hc => lt_trans hya (hlt c hc))]
            · simp [hya]
        · by_cases hy : y = a
          · subst hy; simp [Memory.get]
          · simp [Memory.get, hy, Ne.symm hy]
      · rename_i hax
        simp only [Memory.get]
        by_cases hy : y = x
        · subst hy; simp [hax, hxa, ih hm]
        · rw [ih hm]; simp [hy]

/-! Runs of bytes. -/

/-- Writing a run keeps the canonical form. -/
theorem write_wf {m : Memory} (h : m.wf = true) (a : Nat) (vs : List Byte) : (m.write a vs).wf = true := by
  induction vs generalizing m a with
  | nil => exact h
  | cons v vs ih => exact ih (set_wf h a v) (a + 1)

/-- Reading after a run is written gives the run's bytes, and what was there outside it. -/
theorem get_write {m : Memory} (h : m.wf = true) (a : Nat) (vs : List Byte) (y : Nat) :
    (m.write a vs).get y = if a ≤ y ∧ y < a + vs.length then vs.getD (y - a) 0 else m.get y := by
  induction vs generalizing m a with
  | nil => simp [Memory.write, show ¬ (a ≤ y ∧ y < a) by omega]
  | cons v vs ih =>
    rw [Memory.write, ih (set_wf h a v), get_set h]
    by_cases hy : y = a
    · subst hy; simp
    · by_cases hin : a + 1 ≤ y ∧ y < a + 1 + vs.length
      · have : y - a = (y - (a + 1)) + 1 := by omega
        simp [hin, this, show a ≤ y ∧ y < a + (vs.length + 1) by omega]
      · rw [if_neg hin, if_neg hy, if_neg (by simp; omega)]

@[simp] theorem length_read (m : Memory) (a n : Nat) : (m.read a n).length = n := by
  induction n generalizing a with
  | zero => rfl
  | succ n ih => simp [Memory.read, ih]

/-- Byte i of a run. -/
theorem getElem?_read (m : Memory) (a n i : Nat) : (m.read a n)[i]? = if i < n then some (m.get (a + i)) else none := by
  induction n generalizing a i with
  | zero => simp [Memory.read]
  | succ n ih =>
    cases i with
    | zero => simp [Memory.read]
    | succ i => simp [Memory.read, ih, show a + 1 + i = a + (i + 1) by omega]

/-- Reading a run that has just been written gives it back. -/
theorem read_write {m : Memory} (h : m.wf = true) (a : Nat) (vs : List Byte) : (m.write a vs).read a vs.length = vs := by
  apply List.ext_getElem?
  intro i
  rw [getElem?_read]
  by_cases hi : i < vs.length
  · rw [if_pos hi, get_write h, if_pos (by omega)]; simp [hi]
  · rw [if_neg hi]; simp [Nat.le_of_not_lt hi]

/-- Reading a run that a write does not meet. -/
theorem read_write_other {m : Memory} (h : m.wf = true) (a : Nat) (vs : List Byte) (b n : Nat)
    (hd : b + n ≤ a ∨ a + vs.length ≤ b) : (m.write a vs).read b n = m.read b n := by
  apply List.ext_getElem?
  intro i
  rw [getElem?_read, getElem?_read]
  by_cases hi : i < n
  · rw [if_pos hi, if_pos hi, get_write h, if_neg (by omega)]
  · rw [if_neg hi, if_neg hi]

/-! Spaces. -/

/-- Marking poison changes no bytes. -/
@[simp] theorem setPoison_mem (s : State) (l : List Nat) (sp : Space) : (s.setPoison l sp).mem = s.mem := by
  cases sp <;> rfl

@[simp] theorem clearPoison_mem (s : State) (p : Piece) : (s.clearPoison p).mem = s.mem := by
  simp only [State.clearPoison]; split <;> simp

/-- A write of a piece of device physical memory is a write there. -/
theorem writePiece_mem (s : State) (a n : Nat) (vs : List Byte) :
    (s.writePiece ⟨.mem, a, n⟩ vs).mem = s.mem.write a (vs.take n) := by
  simp [State.writePiece, State.setBytes, State.bytesOf]

/-- A write of a piece elsewhere leaves device physical memory as it is. -/
theorem writePiece_mem_other (s : State) (p : Piece) (vs : List Byte) (h : p.space ≠ .mem) :
    (s.writePiece p vs).mem = s.mem := by
  obtain ⟨sp, a, n⟩ := p
  cases sp with
  | mem => exact absurd rfl h
  | scratch b => simp [State.writePiece, State.setBytes]
  | srf p e => simp [State.writePiece, State.setBytes, State.mapSrf, State.mapPart]

/-- Writing pieces keeps device physical memory canonical. -/
theorem writePieces_mem_wf (s : State) (ps : List Piece) (vs : List Byte) (h : s.mem.wf = true) :
    (s.writePieces ps vs).mem.wf = true := by
  induction ps generalizing s vs with
  | nil => exact h
  | cons p ps ih =>
    apply ih
    obtain ⟨sp, a, n⟩ := p
    cases sp with
    | mem => rw [writePiece_mem]; exact write_wf h a _
    | scratch b => rw [writePiece_mem_other _ _ _ (by simp)]; exact h
    | srf p e => rw [writePiece_mem_other _ _ _ (by simp)]; exact h

/-- A fold of steps that leave device physical memory as it is leaves it so. -/
theorem foldl_mem {α : Type} {f : State → α → State} (h : ∀ s a, (f s a).mem = s.mem) (l : List α) (s : State) :
    (l.foldl f s).mem = s.mem := by
  induction l generalizing s with
  | nil => rfl
  | cons a l ih => rw [List.foldl_cons, ih, h]

/-- What a read that meets an upset cell records, or a monitor's check, or an entry of the order of writes, changes no byte. -/
@[simp] theorem noteUpset_mem (s : State) (sp : Space) (gr bit kind : Nat) : (noteUpset s sp gr bit kind).mem = s.mem := by
  have base : ∀ s1 : State, s1.mem = s.mem → (match partOf s sp gr with
      | some q => s1.wear q.1 q.2 (kind == 2)
      | none => s1).mem = s.mem := by
    intro s1 h; split <;> exact h
  cases sp with
  | mem => exact base _ (by simp only [logArray]; split <;> rfl)
  | scratch b => exact base _ rfl
  | srf p e => exact base _ (by dsimp only; split <;> rfl)

@[simp] theorem meetUpset_mem (s : State) (sp : Space) (gr : Nat) : (meetUpset s sp gr).mem = s.mem := by
  simp only [meetUpset]
  repeat' split
  all_goals simp

@[simp] theorem meetUpsets_mem (s : State) (ps : List Piece) : (meetUpsets s ps).mem = s.mem := by
  unfold meetUpsets
  split
  · rfl
  · exact foldl_mem (fun s (p : Piece) => foldl_mem (fun s g => meetUpset_mem s p.space g) _ _) _ _

@[simp] theorem checkMonitor_mem (s : State) (b g l : Nat) : (checkMonitor s b g l).mem = s.mem := by
  simp only [checkMonitor]
  repeat' split
  all_goals simp [State.mapLanes, State.mapGroup, State.mapBlock]

@[simp] theorem monitorCheck_mem (s : State) (ps : List Piece) : (monitorCheck s ps).mem = s.mem :=
  foldl_mem (fun _ _ => foldl_mem (fun _ _ => checkMonitor_mem ..) _ _) _ _

@[simp] theorem orders_mem (s : State) (p : Party) (is : List Nat) : (s.orders p is).mem = s.mem := by
  unfold State.orders; split <;> rfl

@[simp] theorem followed_mem (b : Nat) (w : Who) (is : List Nat) (s : State) (t : Thread) :
    (followed b w is s t).mem = s.mem := by
  unfold followed; dsimp only; split <;> rfl

@[simp] theorem passes_mem (s : State) (w : Who) (ps : List Piece) : (s.passes w ps).mem = s.mem := by
  unfold State.passes; split <;> rfl

@[simp] theorem passOn_mem (s : State) (w : Who) (is : List Nat) : (passOn s w is).mem = s.mem := by
  refine foldl_mem (fun s p => ?_) _ _
  split
  · split
    · rfl
    · exact foldl_mem (fun s t => followed_mem ..) _ _
  · rfl

@[simp] theorem noteWrite_mem (w : Who) (chain : List Release) (s : State) (p : Piece) :
    (noteWrite w chain s p).mem = s.mem := passOn_mem ..

/-- Upsets that a write overwrites leave the bytes as they are. -/
@[simp] theorem clearUpsets_mem (s : State) (p : Piece) : (clearUpsets s p).mem = s.mem := rfl

/-- Everything a write of bytes can do keeps device physical memory canonical. -/
theorem writeBytes_mem_wf (s : State) (w : Who) (ps : List Piece) (vs : List Byte) (chain : List Release)
    (h : s.mem.wf = true) : (writeBytes s w ps vs chain).mem.wf = true := by
  simp only [writeBytes, monitorCheck_mem, State.writeAs]
  refine writePieces_mem_wf _ _ _ ?_
  rw [foldl_mem (fun s p => noteWrite_mem w chain s p), passes_mem, foldl_mem (fun s p => clearUpsets_mem s p)]
  exact h

/-! Reads. -/

/-- Where no cell is upset, a read meets none. -/
theorem meetUpsets_none {s : State} (h : s.upsets = []) (ps : List Piece) : meetUpsets s ps = s := by
  simp [meetUpsets, h]

/-- Where no cell is upset, the host fails no request. -/
@[simp] theorem hostFails_none {s : State} (h : s.upsets = []) (p : Piece) : s.hostFails p = false := by
  simp [State.hostFails, h]

/-- An access before which no load of its thread waits for its page passes none. -/
theorem passes_none {s : State} {w : Who} (h : ∀ a ∈ s.accesses, a.before w = false) (ps : List Piece) :
    s.passes w ps = s := by
  have : s.accesses.any (·.before w) = false := by simpa using h
  simp [State.passes, this]

/-- Where no older byte is kept and no load is passed, a read gives what memory holds, and nothing is recorded of it (R215,
R223). -/
theorem readAs_now {s : State} (h : s.order.past = []) {w : Who} (hw : ∀ a ∈ s.accesses, a.before w = false) (l : Look)
    (ps : List Piece) (n : Nat) : s.readAs w l ps n = (s, s.readPieces ps) := by
  simp [State.readAs, passes_none hw, h]

/-- What a read gives where no cell is upset and no older byte is kept: nothing where a granule is poisoned or the memory
cannot be reached, and else the bytes. -/
theorem readBytes_now {s : State} (hu : s.upsets = []) (ho : s.order.past = []) (stack : Nat) {w : Who}
    (hw : ∀ a ∈ s.accesses, a.before w = false) (l : Look) (ps : List Piece) (n : Nat) :
    readBytes s stack w l ps n = (s, if ps.any (fun p => s.poisoned p || (p.space == .mem && s.unreachablePA p.addr stack))
      then none else some (s.readPieces ps)) := by
  simp only [readBytes, meetUpsets_none hu, readAs_now ho hw, hostFails_none hu, Bool.false_or]
  split <;> rfl

/-- Reset has the invariant of memory. -/
theorem reset_memInv : MemInv State.reset := by
  refine ⟨rfl, by simp [State.reset], ?_⟩
  intro p hp e he
  simp only [State.reset, List.mem_replicate] at hp
  obtain ⟨-, rfl⟩ := hp
  simp only [Part.reset, List.mem_replicate] at he
  obtain ⟨-, rfl⟩ := he
  rfl

/-! What a thread's accesses must follow. -/

@[simp] theorem still_none {s : State} (h : s.accesses = []) (as : List Nat) : s.still as = [] := by simp [State.still, h]

theorem behindOf_none {s : State} (h : s.accesses = []) (b tid : Nat) : behindOf s b tid = [] := by
  unfold behindOf
  split
  · rfl
  · exact still_none h _

end Sys2Proof.Machine
end

