-- ==== Sys2Proof/Tests/Slice0.lean ====
section
/-!
SUPPORT. Tests: an ill-formed term for each check of WellFormed; words written out from the encodings of spec/02_encoding.md;
and single steps whose results the rules give.
-/

namespace Sys2Proof.Tests

open Sys2Proof.Machine

-- The proofs of this file are checked one after another, so that they do not all hold memory at once.
set_option Elab.async false

/-- A source whose empty-action bit is 0. -/
def r (n : Nat) : Src := ⟨BitVec.ofNat 6 n, false⟩
def v (n : Nat) : SrcB := .vec (r n)
def u (n : Nat) : SrcB := .uni (r n)

/-! Ill-formed terms, refused (R47, R60, R63 to R70). -/

/-- R47: a register group that is named by no multiple of its size. -/
theorem test_wf_refuses_misaligned : ∀ i ∈ ([.call 3 0, .callx 4 (r 3), .ret (r 1), .saddI64 2 (r 2) (r 5), .mulWideI32 3 (r 0) (v 0),
    .addI64 2 (r 2) (v 3), .lea 2 (r 3) (v 0) 1, .cmp true 0 .eq (r 2) (u 3), .ldG 2 (r 4) 0 .b128 .ord, .ldG 4 (r 3) 0 .b32 .ord,
    .stG 0 (r 2) (r 3) .b64 .ord, .ldSp 1 (r 0) 0 .b64 .ord, .stSp 0 (r 0) (r 2) .b128 .ord, .ldK 3 (r 0) 0 .b64,
    .prefetchL2 (r 1) 0, .ldNfB64 3 (r 2) 0, .ldNfB128 2 (r 2) 0, .floatAdd .f64 2 (r 2) (v 3), .fclass .f64 0 (r 1),
    .dot2 .f64 2 (r 2) (v 4), .dot4 .f32 1 (r 2) (v 4), .fma .f64 2 (r 2) (r 4) 5, .floatCmp .f64 0 .eq (r 1) (v 2), .rcpF64 1 (r 2),
    .castFloat 1 (r 0) .f64 .f32 false .ne, .castIntFloat 1 (r 0) true .i64 .f32 true .ne, .rngSeed (r 1),
    .atomAdd true 1 (r 2) (r 4) .rlx, .atomCas false 0 (r 2) (r 3) .rlx, .atomMinN32 0 (r 1) (r 0) .rlx, .atomMinN64 2 (r 2) (r 3) .rlx,
    .atomredAddI32 (r 1) (r 0) .rlx, .atomredAddI64 (r 2) (r 3) .rlx, .monArm (r 1), .fsemInc (r 1) (r 0), .xcopy .none 0 (r 4),
    .mseqStart (r 1), .srfAlloc 0 (r 1), .sld 1 (r 2) (r 0) .b64 false, .sst 0 (r 2) (r 1) .b64 false, .launch (r 1), .ctxSave (r 3)] :
    List Instr), wfError i = some .misaligned := by decide +kernel

/-- R60, R63 to R69: a code value that is reserved. -/
theorem test_wf_refuses_codes : ∀ i ∈ ([.hintMod ⟨false, false, false, false, 0, 5⟩, .srdsp 0 24, .dot2 .f64 0 (r 0) (u 0),
    .dot4 .f64 0 (r 0) (v 0), .dot4 .f32 0 (r 0) (u 0), .castFloat 0 (r 0) .f32 .f32 false .ne, .castFloat 0 (r 0) .e2m1 .f32 false .ne,
    .castIntFloat 0 (r 0) true .i32 .f32 false .ne, .pack 0 (r 0) .i8 0 false .ne, .pack 0 (r 0) .e4m3 4 true .ne, .fenceX 0 1,
    .fenceX 1 0, .mchain 3 3, .mwait 0 0, .mloop 0 0 0, .srfQuery 0 (r 0) 18, .kRd 0 0x052, .kRd 0 0x003, .kWr 0 0x000] : List Instr),
    wfError i = some .reservedCode := by decide +kernel

/-! Words written out bit by bit: major at [31:26], d at [25:20], a at [19:14], b at [13:8], the minor code at [7:4] (R43 to R48). -/

/-- R54 to R61, R63, R64: hints, control and uniform words. -/
theorem test_decode_uniform :
    decodeWord (0x3F * 2 ^ 26 + 0 * 2 ^ 22 + 0x123) = .ok (.hintImm 0x123) ∧
    decodeWord (0x3F * 2 ^ 26 + 3 * 2 ^ 22) = .ok .hintYield ∧
    decodeWord (0x01 * 2 ^ 26 + 0xFFFFE) = .ok (.bra 0xFFFFE) ∧
    decodeWord (0x04 * 2 ^ 26 + 6 * 2 ^ 20 + 64) = .ok (.call 6 64) ∧
    decodeWord (0x05 * 2 ^ 26 + 2 * 2 ^ 4) = .ok .exit ∧
    decodeWord (0x06 * 2 ^ 26 + 4 * 2 ^ 20 + 2 * 2 ^ 14 + 7 * 2 ^ 8) = .ok (.saddI32 4 (r 2) (r 7)) ∧
    decodeWord (0x06 * 2 ^ 26 + 4 * 2 ^ 20 + 2 * 2 ^ 14 + 6 * 2 ^ 8 + 13 * 2 ^ 4) = .ok (.saddI64 4 (r 2) (r 6)) ∧
    decodeWord (0x0B * 2 ^ 26 + 2 * 2 ^ 20 + 0x45678) = .ok (.smovi 2 0x45678) := by decide +kernel

/-- R65: vector integer words; bit 3 is sb, bits 2 and 1 are the empty-action bits ea and eb. -/
theorem test_decode_vector :
    decodeWord (0x0C * 2 ^ 26 + 5 * 2 ^ 20 + 2 * 2 ^ 14 + 3 * 2 ^ 8) = .ok (.addI32 5 (r 2) (v 3)) ∧
    decodeWord (0x0C * 2 ^ 26 + 5 * 2 ^ 20 + 2 * 2 ^ 14 + 3 * 2 ^ 8 + 1 * 2 ^ 4 + 2 ^ 3 + 2 ^ 2 + 2 ^ 1) =
      .ok (.subI32 5 ⟨2, true⟩ (.uni ⟨3, true⟩)) ∧
    decodeWord (0x10 * 2 ^ 26 + 2 * 2 ^ 20 + 20) = .ok (.movi 2 20) ∧
    decodeWord (0x14 * 2 ^ 26 + 5 * 2 ^ 20 + 4 * 2 ^ 14 + 1 * 2 ^ 8 + 8 * 2 ^ 4 + 2 ^ 3) = .ok (.shflXor 5 (r 4) (u 1)) ∧
    decodeWord (0x16 * 2 ^ 26 + 6 * 2 ^ 20 + 1 * 2 ^ 14 + 2 * 2 ^ 8 + 3 * 2 ^ 2) = .ok (.madI32 6 (r 1) (r 2) 3) := by decide +kernel

/-- R66: fn3 at [7:5] is the width, ord2 at [4:3] the class; a store's offset stands in d. -/
theorem test_decode_memory :
    decodeWord (0x18 * 2 ^ 26 + 4 * 2 ^ 20 + 2 * 2 ^ 14 + 3 * 2 ^ 8 + 4 * 2 ^ 5 + 2 * 2 ^ 3) = .ok (.ldG 4 (r 2) 3 .b32 .acq) ∧
    decodeWord (0x19 * 2 ^ 26 + 5 * 2 ^ 20 + 2 * 2 ^ 14 + 6 * 2 ^ 8 + 3 * 2 ^ 5 + 3 * 2 ^ 3) = .ok (.stG 5 (r 2) (r 6) .b64 .rel) ∧
    decodeWord (0x1A * 2 ^ 26 + 4 * 2 ^ 20 + 7 * 2 ^ 14 + 1 * 2 ^ 8 + 3 * 2 ^ 5 + 1 * 2 ^ 3) = .ok (.ldSp 4 (r 7) 1 .i16 .vol) ∧
    decodeWord (0x1C * 2 ^ 26 + 4 * 2 ^ 20 + 7 * 2 ^ 14 + 1 * 2 ^ 8 + 6 * 2 ^ 5) = .ok (.ldK 4 (r 7) 1 .b128) ∧
    decodeWord (0x1D * 2 ^ 26 + 4 * 2 ^ 20 + 2 * 2 ^ 14 + 5 * 2 ^ 5) = .ok (.ldNfB128 4 (r 2) 0) := by decide +kernel

/-- R67: float words; cast has the destination format at b[5:3], the source format at b[2:0], and the rounding in fn4[2:0]. -/
theorem test_decode_float :
    decodeWord (0x20 * 2 ^ 26 + 4 * 2 ^ 20 + 2 * 2 ^ 14 + 6 * 2 ^ 8) = .ok (.floatAdd .f32 4 (r 2) (v 6)) ∧
    decodeWord (0x21 * 2 ^ 26 + 4 * 2 ^ 20 + 2 * 2 ^ 14 + 6 * 2 ^ 8 + 2 * 2 ^ 4 + 2 ^ 3) = .ok (.floatMul .f64 4 (r 2) (u 6)) ∧
    decodeWord (0x26 * 2 ^ 26 + 4 * 2 ^ 20 + 2 * 2 ^ 14 + 6 * 2 ^ 8 + 9 * 2 ^ 2) = .ok (.fma .f16 4 (r 2) (r 6) 9) ∧
    decodeWord (0x2A * 2 ^ 26 + 4 * 2 ^ 20 + 2 * 2 ^ 14 + 0 * 2 ^ 11 + 2 * 2 ^ 8 + 1 * 2 ^ 4) = .ok (.castFloat 4 (r 2) .f32 .f16 false .tz) ∧
    decodeWord (0x2D * 2 ^ 26 + 4 * 2 ^ 20 + 1 * 2 ^ 4) = .ok (.rngNext 4) := by decide +kernel

/-- R68: atomic and synchronisation words. -/
theorem test_decode_atomics :
    decodeWord (0x30 * 2 ^ 26 + 4 * 2 ^ 20 + 2 * 2 ^ 14 + 6 * 2 ^ 8 + 7 * 2 ^ 5 + 3 * 2 ^ 3) = .ok (.atomCas false 4 (r 2) (r 6) .ar) ∧
    decodeWord (0x33 * 2 ^ 26 + 2 * 2 ^ 14 + 6 * 2 ^ 8 + 7 * 2 ^ 5 + 2 * 2 ^ 3) = .ok (.atomredAddI64 (r 2) (r 6) .rel) ∧
    decodeWord (0x34 * 2 ^ 26 + 6 * 2 ^ 14 + 1 * 2 ^ 8) = .ok (.fence .device .acq) ∧
    decodeWord (0x34 * 2 ^ 26 + 4 * 2 ^ 20 + (2 * 2 ^ 4 + 9) * 2 ^ 14 + 6 * 2 ^ 8 + 5 * 2 ^ 4) = .ok (.gateFold 4 .orB32 9 (v 6)) ∧
    decodeWord (0x34 * 2 ^ 26 + 4 * 2 ^ 20 + 2 * 2 ^ 14 + 12 * 2 ^ 4) = .ok (.fsemRd 4 (r 2)) := by decide +kernel

/-- R69, R302: copies, accumulators, the matrix stream, surfaces and queues. -/
theorem test_decode_engines :
    decodeWord (0x35 * 2 ^ 26 + 4 * 2 ^ 20 + 8 * 2 ^ 14 + 5 * 2 ^ 4) = .ok (.xcopy .gath 4 (r 8)) ∧
    decodeWord (0x37 * 2 ^ 26 + 4 * 2 ^ 20 + 2 * 2 ^ 14 + 6 * 2 ^ 8 + 2 * 2 ^ 4 + 2 ^ 3) = .ok (.accLd 4 (r 2) (u 6)) ∧
    decodeWord (0x38 * 2 ^ 26 + 8 * 2 ^ 20 + 1 * 2 ^ 18 + 7 * 2 ^ 10 + 5) = .ok (.mloop 1 7 5) ∧
    decodeWord (0x39 * 2 ^ 26 + 4 * 2 ^ 20 + 2 * 2 ^ 14) = .ok (.srfAlloc 4 (r 2)) ∧
    decodeWord (0x3A * 2 ^ 26 + 4 * 2 ^ 20 + 2 * 2 ^ 14 + 9 * 2 ^ 8 + 1 * 2 ^ 5 + 1 * 2 ^ 3) = .ok (.sld 4 (r 2) (r 9) .b64 true) ∧
    decodeWord (0x3B * 2 ^ 26 + 4 * 2 ^ 20 + 2 * 2 ^ 14 + 9 * 2 ^ 8 + 1 * 2 ^ 4) = .ok (.qpush 4 (r 2) 9) := by decide +kernel

/-- R69, R452: work and system words; the register number of k.rd is a ∥ b. -/
theorem test_decode_system :
    decodeWord (0x3C * 2 ^ 26 + 4 * 2 ^ 20 + 2 * 2 ^ 14 + 1 * 2 ^ 4) = .ok (.ctrNew 4 (r 2)) ∧
    decodeWord (0x3D * 2 ^ 26 + 4 * 2 ^ 20 + 0x010 * 2 ^ 8) = .ok (.kRd 4 0x010) ∧
    decodeWord (0x3D * 2 ^ 26 + 4 * 2 ^ 20 + 0x005 * 2 ^ 8) = .ok (.kRd 4 0x005) ∧
    decodeWord (0x3D * 2 ^ 26 + 0xABC * 2 ^ 8 + 2 * 2 ^ 4) = .ok (.trap 0xABC) ∧
    decodeWord (0x3D * 2 ^ 26 + 4 * 2 ^ 20 + 2 * 2 ^ 14 + 9 * 2 ^ 4) = .ok (.capRd 4 (r 2)) := by decide +kernel

/-- R70: a reserved major, a reserved minor code, a reserved bit, a misaligned group and a reserved code value. -/
theorem test_decode_refuses :
    decodeWord 0 = .error .reservedMajor ∧ decodeWord 0xFFFF_FFFF = .error .reservedMinor ∧
    decodeWord (0x05 * 2 ^ 26 + 2 * 2 ^ 4 + 1) = .error .reservedBits ∧
    decodeWord (0x04 * 2 ^ 26 + 3 * 2 ^ 20) = .error .misaligned ∧
    decodeWord (0x2A * 2 ^ 26) = .error .reservedCode := by decide +kernel

/-- R43, R9: the least significant byte lies at the lowest address. -/
theorem test_decode_bytes : decode [0x00, 0x87, 0x40, 0x18, 0xAA] = .ok (.saddI32 4 (r 2) (r 7), [0xAA]) := by decide +kernel

/-! Single steps, on a word placed after reset. -/

/-- The state after the step that runs a placed word, or reset. -/
def ran (w : Nat) (f : Machine.State → Machine.State := fun s => s) : Machine.State :=
  match step (f (State.reset.withFetchWord 32 w)) with
  | .next t => t
  | _ => State.reset

/-- Lane 3 of the placed block. -/
def lane3 (s : Machine.State) : Option Thread := s.thread? 0 0 3

/-- R125: movi of −2 writes FFFF_FFFE to v5, and the thread goes on. -/
theorem test_step_movi : (lane3 (ran (0x10 * 2 ^ 26 + 5 * 2 ^ 20 + 0xFFFFE))).map (fun t => (t.regs[5]?, t.pc)) =
    some (some ⟨0xFFFF_FFFE, .full⟩, 0x104) := by decide +kernel

/-- R96: bra by −4 words. -/
theorem test_step_bra : (lane3 (ran (0x01 * 2 ^ 26 + 0xFFFFC))).map (·.pc) = some 0xF0 := by decide +kernel

/-- R98: call links the next word in its pair. -/
theorem test_step_call : (lane3 (ran (0x04 * 2 ^ 26 + 6 * 2 ^ 20 + 64))).map (fun t => (t.regs[6]?, t.regs[7]?, t.pc)) =
    some (some ⟨0x104, .full⟩, some ⟨0, .full⟩, 0x200) := by decide +kernel

/-- R133: lanes of lane 3 with all 32 active is 32 ∥ 3 ∥ 3. -/
theorem test_step_lanes : (lane3 (ran (0x14 * 2 ^ 26 + 4 * 2 ^ 4))).map (fun t => t.regs[0]?) = some (some ⟨0x00200303, .full⟩) := by
  decide +kernel

/-- R100: exit ends the thread. -/
theorem test_step_exit : (lane3 (ran (0x05 * 2 ^ 26 + 2 * 2 ^ 4))).map (·.run) = some .exited := by decide +kernel

/-- R70, R455, R475: a word that is no instruction raises the illegal trap; with no handler the context is terminated. -/
theorem test_step_illegal : (ran 0).ctxs.map (·.terminated) = [true] := by decide +kernel

/-- R176: a store of v4 to the address in v2:v3 is in flight to the page of its address. -/
theorem test_step_store : (ran (0x19 * 2 ^ 26 + 2 * 2 ^ 14 + 4 * 2 ^ 8 + 2 * 2 ^ 5)).accesses.map (fun a => (a.pieces, a.dst)) =
    List.replicate 32 ([⟨.mem, 0x4000_0000, 4⟩], none) := by decide +kernel

/-- R417: black is Y 16 and white is 235, or 64 and 940 in ten bits; a block of red pixels has Y 63, Cb 102 and Cr 240. -/
theorem test_samples : [lumaCode false (0, 0, 0), lumaCode false (1, 1, 1), lumaCode true (0, 0, 0), lumaCode true (1, 1, 1)] =
    [16, 235, 64, 940] ∧ bandSamples false 2 (List.replicate 4 0xFF) = [63, 63, 63, 63, 102, 240] := by decide +kernel

/-- R413: an empty temporal delimiter is two bytes. -/
theorem test_temporal_delimiter : obu 2 [] = [0x12, 0] := by decide +kernel

end Sys2Proof.Tests
end

