-- ==== Sys2Proof/Tests/Witness.lean ====
section
/-!
SUPPORT. Witnesses: for each statement of Obligations, a concrete state and operands that meet the hypotheses of its
clauses together.
-/

namespace Sys2Proof.Tests

open Sys2Proof.Machine Sys2Proof.Claims

-- The proofs of this file are checked one after another, so that they do not all hold memory at once.
set_option Elab.async false

/-! A small machine: one block of two threads with 32 registers of each file, on core 0 of stack 0. -/

/-- Register i of a file of 32: 0x2000 at 2, 8 at 4, 1 at 6, 0 elsewhere. -/
def file : List Reg :=
  (List.range 32).map (fun i => ⟨if i = 2 then 0x2000 else if i = 4 then 8 else if i = 6 then 1 else 0, .full⟩)

def thr (l : Nat) : Thread := { Thread.fresh l 0x100 32 true with regs := file }

def grp0 : Group := { Group.fresh 0 2 0x100 32 32 with threads := [thr 0, thr 1], sregs := file }

def blk0 : Block :=
  { Block.fresh none 0 0 0 placedJob false true (2, 1, 1) 32 32 1024 0x100 0 with
    phase := .resident
    groups := [grp0] }

/-- The state that runs a bundle of the lanes given, of the block's only group. -/
def run (k : Block) (lanes : List Nat) (hs : List Hint := []) (f : Machine.State → Machine.State := fun s => s) : Machine.State :=
  let s0 : Machine.State := { State.reset with
    stks := State.reset.stks.map (fun t => { t with sec := 1 })
    ctxs := [Ctx.fresh placedJob 0 0]
    blocks := [k]
    mem := placedTables []
    cur := .bundle 0 0 lanes 0x100 hs 0 }
  f (s0.mapPart 0 (fun p => { p with
      live := true
      table := 0x1000
      on := p.on.map (fun q => { q with params := { q.params with columns := [0] } }) }))

/-- The site of that bundle. -/
def site (k : Block) (lanes : List Nat) (hs : List Hint := []) (f : Machine.State → Machine.State := fun s => s) : Site :=
  ⟨run k lanes hs f, 0, 0, lanes, 0x100, hs, 0, k, k.groups.headD grp0⟩

/-- Both threads; one thread; and one of a trap group. -/
def both : Site := site blk0 [0, 1]
def one : Site := site blk0 [0]
def oneTrap : Site := site { blk0 with trapGroup := true } [0]

/-! Checkers of the shared hypotheses. -/

def issues (x : Site) : Bool :=
  decide (x.s.cur = .bundle x.blk x.grp x.lanes x.pc x.hints x.word) && decide (x.s.block? x.blk = some x.k) &&
  decide (x.s.group? x.blk x.grp = some x.gr) && decide (∀ l ∈ x.lanes, l < x.gr.threads.length) &&
  decide (∀ l ∈ x.lanes, (x.gr.thread l).pc = x.pc ∧ (x.gr.thread l).hints = x.hints) &&
  decide (∀ l ∈ x.lanes, (x.gr.thread l).live = true)

theorem issues_ok {x : Site} (h : issues x = true) : x.Issues := by
  simp only [issues, Bool.and_eq_true, decide_eq_true_eq] at h
  exact ⟨h.1.1.1.1.1, h.1.1.1.1.2, h.1.1.1.2, h.1.1.2, h.1.2, h.2⟩

/-- Order 1 to 4 of R72 find nothing. -/
def clear (x : Site) (fm : Form) : Bool :=
  hintsOk fm.acc x.hints && decide (x.act ≠ [] → needFails fm.need x.k = none) &&
  decide (x.act ≠ [] → ∀ o ∈ fm.ops, if o.uni then x.gr.si o.f + o.n ≤ x.k.sregs else x.gr.vi o.f + o.n ≤ x.k.vregs) &&
  decide (∀ o ∈ fm.ops, (o.read = true ∨ o.write = true) → ∀ l ∈ x.act, ∀ r ∈ opdRegs x.gr (x.gr.thread l) o, r.st ≠ .empty)

theorem clear_ok {x : Site} {fm : Form} (h : clear x fm = true) : Clear fm x.k x.gr x.act x.hints := by
  simp only [clear, Bool.and_eq_true, decide_eq_true_eq] at h
  exact ⟨h.1.1.1, h.1.1.2, h.1.2, h.2⟩

/-- The bundle issues, and meets the form. -/
def Meets (x : Site) (fm : Form) : Prop := x.Issues ∧ Clear fm x.k x.gr x.act x.hints

theorem meets_one {x : Site} {fm : Form} (h : (issues x && clear x fm) = true) : Meets x fm := by
  simp only [Bool.and_eq_true] at h
  exact ⟨issues_ok h.1, clear_ok h.2⟩

/-- The forms are met by the bundle of a site. -/
theorem meets_all {x : Site} {fms : List Form} (h : (issues x && fms.all (clear x)) = true) : ∀ fm ∈ fms, Meets x fm := by
  simp only [Bool.and_eq_true, List.all_eq_true] at h
  exact fun fm hf => ⟨issues_ok h.1, clear_ok (h.2 fm hf)⟩

/-- The bundle can access memory with each of the forms. -/
theorem access_all {x : Site} {fms : List Form} (h : (issues x && fms.all (clear x) &&
    decide ((x.s.core x.k.stack x.k.core).sweepTo ≤ x.s.now x.k.stack x.k.core) && decide (x.s.upsets = [])) = true) :
    ∀ fm ∈ fms, CanAccess x fm := by
  simp only [Bool.and_eq_true, List.all_eq_true, decide_eq_true_eq] at h
  exact fun fm hf => ⟨issues_ok h.1.1.1, clear_ok (h.1.1.2 fm hf), h.1.2, h.2⟩

theorem access_one {x : Site} {fm : Form} (h : (issues x && clear x fm &&
    decide ((x.s.core x.k.stack x.k.core).sweepTo ≤ x.s.now x.k.stack x.k.core) && decide (x.s.upsets = [])) = true) :
    CanAccess x fm := by
  simp only [Bool.and_eq_true, decide_eq_true_eq] at h
  exact ⟨issues_ok h.1.1.1, clear_ok h.1.1.2, h.1.2, h.2⟩

theorem alone_one {x : Site} {fm : Form} {l : Nat} (h : (issues x && clear x fm && decide (x.act = [l])) = true) :
    Alone x fm l := by
  simp only [Bool.and_eq_true, decide_eq_true_eq] at h
  exact ⟨issues_ok h.1.1, clear_ok h.1.2, h.2⟩

/-! Register forms. -/

/-- Hints: no kind is pending. -/
theorem witness_HintWords : both.Issues ∧ both.hints = [] := ⟨issues_ok (by decide +kernel), rfl⟩

theorem witness_BranchesAndCalls :
    (∀ fm ∈ [Form.imm [], Form.imm [vDst 8 2], Form.of [vDst 8 2, vSrc 1 (r 2) 2], Form.of [vSrc 1 (r 2) 2]], Meets both fm) ∧
    both.act = [0, 1] ∧ ∀ l ∈ both.act, ∀ y ∈ both.gr.vregsAt (both.gr.thread l) 2 2, y.st ≠ .poisoned :=
  ⟨meets_all (by decide +kernel), by decide +kernel, by decide +kernel⟩

theorem witness_Nop : Meets both (Form.of []) := meets_one (by decide +kernel)

/-- The window instructions at the highest value below an allotment of 32. -/
theorem witness_Windows :
    (∀ fm ∈ [Form.of [uSrc 2 (r 6)], Form.imm []], Meets both fm) ∧
    ((both.gr.sreg 6).st ≠ .poisoned ∧ (both.gr.sreg 6).val.toNat ≤ 31 ∧ 8 * (both.gr.sreg 6).val.toNat < both.k.vregs ∧
      8 * (both.gr.sreg 6).val.toNat < both.k.sregs) ∧
    0 ≤ Claims.immC both.hints 3 ∧ Claims.immC both.hints 3 ≤ 31 ∧ 8 * Claims.immC both.hints 3 < both.k.vregs :=
  ⟨meets_all (by decide +kernel), by decide +kernel, by decide +kernel⟩

theorem witness_UniformArithmetic : ∀ fm ∈ [Form.of [uDst 8, uSrc 1 (r 2), uSrc 2 (r 4)], Form.imm [uDst 8, uSrc 1 (r 2)],
    Form.of [uDst 8, uSrc 1 (r 2)], Form.of [uDst 8 2, uSrc 1 (r 2) 2, uSrc 2 (r 4) 2]], Meets both fm :=
  meets_all (by decide +kernel)

theorem witness_UniformConstant : Meets both (Form.imm [uDst 8]) := meets_one (by decide +kernel)

theorem witness_UniformCompareSelectSpecial :
    (∀ fm ∈ [Form.of [uSrc 1 (r 2), uSrc 2 (r 4)], Form.of [uDst 8, uSrc 1 (r 2), uSrc 2 (r 4)], Form.of [uDst 8]], Meets both fm) ∧
    (both.gr.sreg 2).st ≠ .poisoned ∧ (both.gr.sreg 4).st ≠ .poisoned :=
  ⟨meets_all (by decide +kernel), by decide +kernel⟩

theorem witness_VectorWords : ∀ fm ∈ [Form.of [vDst 8, vSrc 1 (r 2), bSrc (v 4)], Form.of [vDst 8, vSrc 1 (r 2), bSrc (u 4)],
    Form.of [vMod 8, vSrc 1 (r 2), bSrc (v 4)]], Meets both fm := meets_all (by decide +kernel)

/-- With the modifier sat, and without it. -/
theorem witness_VectorSaturation :
    (∀ fm ∈ [(⟨[vDst 8, vSrc 1 (r 2), bSrc (v 4)], ⟨false, true, false, false, false, false⟩, .any⟩ : Form),
      ⟨[vDst 8, vSrc 1 (r 2)], ⟨true, true, false, false, false, false⟩, .any⟩], Meets both fm ∧
      Meets (site { blk0 with groups := [{ grp0 with threads := [{ thr 0 with hints := [.mod ⟨true, false, false, false, 0, 0⟩] }] }] }
        [0] [.mod ⟨true, false, false, false, 0, 0⟩]) fm) :=
  fun fm hf => ⟨meets_all (fms := [_, _]) (by decide +kernel) fm hf, meets_all (fms := [_, _]) (by decide +kernel) fm hf⟩

theorem witness_VectorUnaryAndConstants : ∀ fm ∈ [Form.imm [vDst 8, vSrc 1 (r 2)], Form.of [vDst 8, vSrc 1 (r 2)],
    Form.of [vDst 8, vSrc 1 (r 2), vSrc 2 (r 4), vRead 3 6], Form.imm [vDst 8]], Meets both fm := meets_all (by decide +kernel)

theorem witness_VectorPairs : ∀ fm ∈ [Form.of [vDst 8 2, vSrc 1 (r 2), bSrc (v 4)], Form.of [vDst 8 2, vSrc 1 (r 2) 2, bSrc (v 4) 2],
    Form.of [vDst 8 2, vSrc 1 (r 2) 2, bSrc (u 4)]], Meets both fm := meets_all (by decide +kernel)

theorem witness_VectorPredicates :
    (∀ fm ∈ [Form.of [vDst 8, vSrc 1 (r 2), bSrc (v 4)], Form.of [vSrc 1 (r 2), bSrc (v 4)], Form.of [vSrc 1 (r 2) 2, bSrc (v 4) 2],
      Form.of []], Meets both fm) ∧
    (∀ l ∈ both.act, ∀ y ∈ both.gr.vregsAt (both.gr.thread l) 2 2 ++ both.gr.bRegs (both.gr.thread l) (v 4) 2, y.st ≠ .poisoned) :=
  ⟨meets_all (by decide +kernel), by decide +kernel⟩

theorem witness_CrossLane :
    (∀ fm ∈ [Form.of [], Form.of [vDst 8], Form.of [vDst 8, vSrc 1 (r 2)], Form.of [vDst 8, vSrc 1 (r 2), bSrc (v 4)],
      Form.of [vDst 8, uSrc 1 (r 2)], Form.of [uDst 8, vSrc 1 (r 2), bSrc (v 4)], Form.of [uDst 8, vSrc 1 (r 2)]], Meets both fm) ∧
    both.lanes.Nodup ∧ ∀ l ∈ both.lanes, l < 32 :=
  ⟨meets_all (by decide +kernel), by decide +kernel, by decide +kernel⟩

/-! Memory. -/

/-- The page of the small machine. -/
def tr0 : Trans := ⟨0, 0, 30, 0x4000_0000, 0x0C⟩

/-- An access in flight, of thread 0, to the bytes at 0x40002000. -/
def acc (kind : AccKind) (n : Nat) (dst : Option FillDst) : Access :=
  ⟨5, 5, [], 0, 0, 0, kind, dst, [⟨.mem, 0x4000_2000, n⟩], false, false, false, [], 0x2000, [], false, false, false, 0, [], [], 0, [], 0, [], 0⟩

/-- The small machine with that access in flight, and its performance due. -/
def withAcc (a : Access) : Machine.State := run blk0 [0] [] (fun s => { s with
  accesses := [a]
  agenda := [.perform 5] })

def inFlight (a : Access) : Bool :=
  decide ((withAcc a).accesses.find? (fun b => b.id == a.id) = some a) && decide ((withAcc a).block? a.blk = some blk0) &&
  decide (blk0.find a.tid = some (0, 0))

theorem inFlight_ok {a : Access} (h : inFlight a = true) : InFlight (withAcc a) a blk0 0 0 := by
  simp only [inFlight, Bool.and_eq_true, decide_eq_true_eq] at h
  exact ⟨h.1.1, h.1.2, h.2⟩

def reachable (a : Access) (n : Nat) : Bool :=
  decide (a.pieces = [⟨.mem, 0x4000_2000, n⟩]) && decide (a.later = [] ∧ a.off = 0 ∧ a.got = []) &&
  !peerWaits (withAcc a) blk0.stack a.pieces && mayPerform (withAcc a) a &&
  !(withAcc a).poisoned ⟨.mem, 0x4000_2000, n⟩ && decide ((withAcc a).upsets = []) && !(withAcc a).unreachablePA 0x4000_2000 blk0.stack

theorem reachable_ok {a : Access} {n : Nat} (h : reachable a n = true) : Reachable (withAcc a) blk0 a 0x4000_2000 n := by
  simp only [reachable, Bool.and_eq_true, decide_eq_true_eq, Bool.not_eq_true'] at h
  exact ⟨h.1.1.1.1.1.1, h.1.1.1.1.1.2, h.1.1.1.1.2, h.1.1.1.2, h.1.1.2, h.1.2, h.2⟩

def load0 : Access := acc (.load .b32 false) 4 (some ⟨false, 0, 0, 8, 1⟩)
def store0 : Access := acc (.store [1, 2, 3, 4]) 4 none
def atom0 : Access := acc (.atom .add true 1 0) 8 none
def inc0 : Access := acc (.fsemInc 3 ⟨false, 0, 0, 0, 0, 0, 0, 0, 0⟩) 8 none

/-- Global loads: the offset field at its least value, in an ordinary load and in ld.nf; then a load in flight. -/
theorem witness_GlobalLoads :
    (one.act = [0] ∧ addressOf one.hints 0 4 (one.gr.vregsAt (one.gr.thread 0) 2 2) = 0x2000 ∧
      Clean (one.gr.vregsAt (one.gr.thread 0) 2 2) ∧ watchMask one.s one.k (one.gr.thread 0) 0x2000 4 watchLoad = 0 ∧
      (0x2000 : Addr).toNat % 65536 + 4 ≤ 65536 ∧
      ∀ fm ∈ [(⟨[vDst 8 1, vSrc 1 (r 2) 2], ⟨true, false, false, false, false, true⟩, .any⟩ : Form),
        ⟨[vDst 8 1, vSrc 1 (r 2) 2], Accepts.immOnly, .any⟩], CanAccess one fm) ∧
    InFlight (withAcc load0) load0 blk0 0 0 ∧
    Reachable (withAcc load0) blk0
      load0 0x4000_2000 4 :=
  ⟨⟨by decide +kernel, by decide +kernel, by unfold Clean; decide +kernel, by decide +kernel, by decide +kernel,
    access_all (by decide +kernel)⟩, inFlight_ok (by decide +kernel), reachable_ok (by decide +kernel)⟩

/-- Global stores, and a store in flight. -/
theorem witness_GlobalStores :
    (one.act = [0] ∧ addressOf one.hints 0 4 (one.gr.vregsAt (one.gr.thread 0) 2 2) = 0x2000 ∧
      Clean (one.gr.vregsAt (one.gr.thread 0) 2 2 ++ one.gr.vregsAt (one.gr.thread 0) 4 1) ∧ inWindow 0x2000 = false ∧
      watchMask one.s one.k (one.gr.thread 0) 0x2000 4 watchStore = 0 ∧
      CanAccess one ⟨[vSrc 1 (r 2) 2, vSrc 2 (r 4) 1], ⟨true, false, false, false, false, true⟩, .any⟩ ∧
      outcome (laneLookup one.s 0 0 0 0 0 0x2000) 0x2000 .store true = .ok tr0) ∧
    (withAcc store0).mem.wf = true ∧
    InFlight (withAcc store0) store0 blk0 0 0 ∧
    mayPerform (withAcc store0) store0 = true ∧ peerWaits (withAcc store0) 0 store0.pieces = false ∧
    (withAcc store0).unreachablePA 0x4000_2000 0 = false ∧ (withAcc store0).agenda = [.perform 5] :=
  ⟨⟨by decide +kernel, by decide +kernel, by unfold Clean; decide +kernel, by decide +kernel, by decide +kernel,
    access_one (by decide +kernel), by decide +kernel⟩, by decide +kernel, inFlight_ok (by decide +kernel), by decide +kernel,
    by decide +kernel, by decide +kernel, rfl⟩

/-- Scratchpad: the last word of a reserve of 12 bytes, at 8; and one of 10 bytes, which the word at 8 passes. -/
theorem witness_ScratchpadAccesses :
    let x := site { blk0 with scratchSize := 12 } [0]
    x.act = [0] ∧ CanAccess x ⟨[vDst 8 1, vSrc 1 (r 4)], Accepts.immOnly, .any⟩ ∧ Clean [x.gr.vreg (x.gr.thread 0) 4] ∧
    offsetOf x.hints 0 4 (x.gr.vreg (x.gr.thread 0) 4) + 4 = x.k.scratchSize ∧
    CanAccess x ⟨[vSrc 1 (r 4), vSrc 2 (r 6) 1], Accepts.immOnly, .any⟩ ∧
    Clean (x.gr.vreg (x.gr.thread 0) 4 :: x.gr.vregsAt (x.gr.thread 0) 6 1) ∧
    let y := site { blk0 with scratchSize := 10 } [0];
    CanAccess y ⟨[vDst 8 1, vSrc 1 (r 4)], Accepts.immOnly, .any⟩ ∧ 4 ≤ y.k.scratchSize ∧
      offsetOf y.hints 0 4 (y.gr.vreg (y.gr.thread 0) 4) % 10 = 8 :=
  ⟨by decide +kernel, access_one (by decide +kernel), by unfold Clean; decide +kernel, by decide +kernel,
    access_one (by decide +kernel), by unfold Clean; decide +kernel, access_one (by decide +kernel), by decide, by decide +kernel⟩

/-- A launch whose constant image is 8 bytes at 0x3000. -/
def imaged : Site := site { blk0 with launch := some 0 } [0] [] (fun s => { s with
  launches := [⟨0, [0, 0, 0, 0, 0, 0, 0, 0, 0, 0, 0, 0, 0, 0x3000, 0, 8], false, false, 0, 0, 0, false, false, 0⟩] })

/-- Constant loads: the first word past an image of 8 bytes, and its last. -/
theorem witness_ConstantLoads :
    imaged.act = [0] ∧ CanAccess imaged ⟨[vDst 8 1, vSrc 1 (r 4)], Accepts.immOnly, .any⟩ ∧
    CanAccess imaged ⟨[vDst 8 1, vSrc 1 (r 8)], Accepts.immOnly, .any⟩ ∧
    Clean [imaged.gr.vreg (imaged.gr.thread 0) 4] ∧ Clean [imaged.gr.vreg (imaged.gr.thread 0) 8] ∧
    ((constImage imaged.s imaged.k).2 = offsetOf imaged.hints 0 4 (imaged.gr.vreg (imaged.gr.thread 0) 4)) ∧
    (offsetOf imaged.hints 1 4 (imaged.gr.vreg (imaged.gr.thread 0) 8) + 4 = (constImage imaged.s imaged.k).2) ∧
    outcome (coreLookup imaged.s 0 0 0 0x3004) 0x3004 .load true = .ok tr0 ∧
    (constImage imaged.s imaged.k).1 + 4 = 0x3004 :=
  ⟨by decide +kernel, access_one (by decide +kernel), access_one (by decide +kernel), by unfold Clean; decide +kernel,
    by unfold Clean; decide +kernel, by decide +kernel, by decide +kernel, by decide +kernel, by decide +kernel⟩

theorem witness_PrefetchAndProbe :
    CanAccess one ⟨[vSrc 1 (r 2) 2], ⟨true, false, false, false, false, true⟩, .any⟩ ∧
    (∀ l ∈ one.act, Clean (one.gr.vregsAt (one.gr.thread l) 2 2)) ∧ one.act = [0] ∧
    CanAccess one ⟨[vDst 8, vSrc 1 (r 2) 2], Accepts.immOnly, .any⟩ :=
  ⟨access_one (by decide +kernel), by unfold Clean; decide +kernel, by decide +kernel, access_one (by decide +kernel)⟩

/-- Atomics: a word, a pair, and cas, which names two of each; and one in flight. -/
theorem witness_Atomics :
    (one.act = [0] ∧ outcome (laneLookup one.s 0 0 0 0 0 0x2000) 0x2000 .store true = .ok tr0 ∧
      BitVec.ofNat 56 (pairNat (one.gr.vregsAt (one.gr.thread 0) 2 2)) = 0x2000 ∧
      region? (tr0.pa 0x2000) ≠ some .host ∧ watchMask one.s one.k (one.gr.thread 0) 0x2000 8 watchAtomic = 0 ∧
      watchMask one.s one.k (one.gr.thread 0) 0x2000 4 watchAtomic = 0 ∧
      Clean (one.gr.vregsAt (one.gr.thread 0) 2 2 ++ one.gr.vregsAt (one.gr.thread 0) 4 4) ∧
      ∀ fm ∈ [(⟨[vDst 8 1, vSrc 1 (r 2) 2, vSrc 2 (r 4) 1], ⟨false, false, false, false, true, true⟩, .any⟩ : Form),
        ⟨[vDst 8 2, vSrc 1 (r 2) 2, vSrc 2 (r 4) 4], ⟨false, false, false, false, true, true⟩, .any⟩,
        ⟨[vSrc 1 (r 2) 2, vSrc 2 (r 4) 2], ⟨false, false, false, false, true, true⟩, .any⟩], CanAccess one fm) ∧
    InFlight (withAcc atom0) atom0 blk0 0 0 ∧
    Reachable (withAcc atom0) blk0 atom0 0x4000_2000 8 ∧
    atomInt .add 64 0 1 0 = some 1 :=
  ⟨⟨by decide +kernel, by decide +kernel, by decide +kernel, by decide +kernel, by decide +kernel, by decide +kernel,
    by unfold Clean; decide +kernel, access_all (by decide +kernel)⟩, inFlight_ok (by decide +kernel), reachable_ok (by decide +kernel), by decide⟩

/-! Floats. -/

theorem witness_FloatArithmetic : ∀ t ∈ [FTy.f32, .f64, .f16, .bf16], ∀ f ∈ floatForms t 8 (r 4) (r 12) 16 (v 20),
    clear both f.form = true ∧ both.Issues :=
  fun t ht f hf => ⟨(by decide +kernel : ∀ t ∈ [FTy.f32, .f64, .f16, .bf16], ∀ f ∈ floatForms t 8 (r 4) (r 12) 16 (v 20),
    clear both f.form = true) t ht f hf, issues_ok (by decide +kernel)⟩

theorem witness_FloatTests :
    (∀ t ∈ [FTy.f32, .f64, .f16, .bf16],
      clear both ⟨[vSrc 1 (r 4) t.regs, bSrc (v 12) t.regs], ⟨false, false, true, false, false, false⟩, .any⟩ = true) ∧
    both.Issues ∧ ∀ l ∈ both.act, Clean (sources both (r 4) (v 12) 2 2 (both.gr.thread l)) :=
  ⟨by decide +kernel, issues_ok (by decide +kernel), by unfold Clean; decide +kernel⟩

theorem witness_FloatConversions : ∀ fm ∈ [Form.of [vDst 8 1, vSrc 1 (r 4) 1], Form.of [vDst 8 2, vSrc 1 (r 4) 1],
    Form.of [vDst 8 1, vSrc 1 (r 4) 2], Form.of [vMod 8, vSrc 1 (r 4)]], Meets both fm := meets_all (by decide +kernel)

theorem witness_GeneratorAndMode :
    (∀ fm ∈ [Form.of [vSrc 1 (r 2) 2], Form.of [vDst 8], Form.of [vSrc 1 (r 2)]], Meets both fm) ∧
    (∀ l ∈ both.act, Clean (both.gr.vregsAt (both.gr.thread l) 2 2)) ∧ ∀ l ∈ both.act, Clean [both.gr.vreg (both.gr.thread l) 2] :=
  ⟨meets_all (by decide +kernel), by unfold Clean; decide +kernel, by unfold Clean; decide +kernel⟩

/-! Synchronisation. -/

/-- The bundle of thread 0, with a load of it in flight. -/
def busy : Site := site blk0 [0] [] (fun s => { s with accesses := [load0] })

/-- A fence that finds nothing in flight, and fences that find a load. -/
theorem witness_Fences :
    (Meets both (Form.of []) ∧ (∀ l ∈ both.act, pending both l (fun _ => true) = []) ∧
      ∀ l ∈ both.act, (both.gr.thread l).run = .ready) ∧
    Alone busy (Form.of []) 0 ∧ pending busy 0 (fun a => FenceClass.ar != .acq || a.kind.reads) ≠ [] ∧
    pending busy 0 (fun _ => (1 : BitVec 6).getLsbD 0) ≠ [] ∧ (busy.gr.thread 0).run = .ready :=
  ⟨⟨meets_one (by decide +kernel), by decide +kernel, by decide +kernel⟩, alone_one (by decide +kernel), by decide +kernel,
    by decide +kernel, by decide +kernel⟩

def gate0 : Gate := ⟨false, [], 0, none, false, none, none, none, [], []⟩

/-- Thread 0 stands to arrive at barrier 15 last: thread 1 has arrived. -/
def last : Site := site { blk0 with gates := blk0.gates.set 15 { gate0 with arrived := [1] } } [0]

/-- Block barriers 0 and 15: an arrival while thread 1 has still to arrive, the last arrival, and gate.wait with and without an
arrival of its own. -/
theorem witness_BlockBarriers :
    (∀ fm ∈ [Form.of [], Form.of [vDst 8, bSrc (v 4)]], Arrives one fm 0 0 gate0 ∧ Arrives one fm 0 15 gate0) ∧
    (Alone one (Form.of []) 0 ∧ (one.gr.thread 0).gatePending.getLsbD 15 = false) ∧
    (let x := site { blk0 with groups := [{ grp0 with threads := [{ thr 0 with gatePending := 0x8000 }, thr 1] }] } [0];
      Alone x (Form.of []) 0 ∧ (x.gr.thread 0).gatePending.getLsbD 15 = true) ∧
    ∀ fm ∈ [Form.of [], Form.of [vDst 8, bSrc (v 4)]], ArrivesLast last fm 0 15 { gate0 with arrived := [1] } := by
  refine ⟨fun fm hf => ⟨⟨?_, rfl, by decide +kernel, thr 1, ?_, by decide +kernel, by decide +kernel, by decide +kernel⟩,
    ⟨?_, rfl, by decide +kernel, thr 1, ?_, by decide +kernel, by decide +kernel, by decide +kernel⟩⟩,
    ⟨alone_one (by decide +kernel), by decide +kernel⟩, ⟨alone_one (by decide +kernel), by decide +kernel⟩,
    fun fm hf => ⟨?_, rfl, by decide +kernel, by decide +kernel⟩⟩
  · exact ⟨(meets_all (x := one) (by decide +kernel) fm hf).1, (meets_all (x := one) (by decide +kernel) fm hf).2, by decide +kernel⟩
  · decide +kernel
  · exact ⟨(meets_all (x := one) (by decide +kernel) fm hf).1, (meets_all (x := one) (by decide +kernel) fm hf).2, by decide +kernel⟩
  · decide +kernel
  · exact ⟨(meets_all (x := last) (by decide +kernel) fm hf).1, (meets_all (x := last) (by decide +kernel) fm hf).2, by decide +kernel⟩

/-- Threads whose later accesses follow a load in flight: thread 1 waits at barrier 15, at which the load's thread has arrived,
and thread 0 has waited for it before. -/
def behind0 : Site := site { blk0 with
  groups := [{ grp0 with threads := [{ thr 0 with behind := [5] }, { thr 1 with run := .blocked (.gate 15 true) }] }]
  gates := blk0.gates.set 15 { gate0 with arrived := [1], before := [5], ended := [5] } } [0] [] (fun s => { s with accesses := [load0] })

theorem witness_Behind :
    ArrivesLast behind0 (Form.of []) 0 15 { gate0 with arrived := [1], before := [5], ended := [5] } ∧
    behind0.s.accesses.any (fun e => e.id == 5) = true ∧ behind0.k.find 0 = some (0, 0) ∧
    (behind0.s.thread? 0 0 1).map (·.run) = some (.blocked (.gate 15 true)) ∧
    (behind0.gr.thread 0).gatePending.getLsbD 15 = false :=
  ⟨⟨alone_one (by decide +kernel), rfl, by decide +kernel, by decide +kernel⟩, by decide +kernel, by decide +kernel, by decide +kernel,
    by decide +kernel⟩

/-- A load that its core's L1 may satisfy, where the L1 holds its line. -/
def cached : Machine.State := (withAcc { load0 with l1 := true }).mapCore 0 0 (fun c => { c with
  l1 := [(0x4000_2000 / 128, 0)] })

theorem witness_CachedLoad :
    cached.accesses.any (fun a => a.id == 5 && a.l1) = true ∧ (cached.core 0 0).l1.any (fun x => x.1 == 0x4000_2000 / 128) = true ∧
    0x4000_2000 % 128 + 4 ≤ 128 := by decide +kernel

/-- Numbered barriers 0 and 15; the barrier's count of completed phases is the thread's own, and beyond it. -/
theorem witness_NumberedBarriers :
    (Alone one (Form.of []) 0 ∧ one.k.nbars[0]? = some NBar.fresh ∧ one.k.nbars[15]? = some NBar.fresh ∧
      pending one 0 (fun _ => true) = [] ∧ (one.gr.thread 0).nbarCount.getD 15 0 = 0) ∧
    (let x := site { blk0 with nbars := blk0.nbars.set 15 ⟨0, 1, none, none, none⟩ } [0];
      Alone x (Form.of []) 0 ∧ x.k.nbars[15]? = some ⟨0, 1, none, none, none⟩ ∧ (x.gr.thread 0).nbarCount.getD 15 0 ≠ 1) :=
  ⟨⟨alone_one (by decide +kernel), by decide +kernel, by decide +kernel, by decide +kernel, by decide +kernel⟩,
    alone_one (by decide +kernel), by decide +kernel, by decide +kernel⟩

/-- Thread 0 with a monitor on the word at 0x40002000, which reads 0. -/
def watching (w : Word) (q : Run) : Site :=
  site { blk0 with groups := [{ grp0 with threads := [{ thr 0 with monitor := some ⟨0x2000, 0x4000_2000, 30, w, false⟩, run := q }, thr 1] }] } [0]

theorem witness_Monitors :
    (one.act = [0] ∧ CanAccess one ⟨[vSrc 1 (r 2) 2], ⟨false, false, false, false, true, false⟩, .any⟩ ∧
      BitVec.ofNat 56 (pairNat (one.gr.vregsAt (one.gr.thread 0) 2 2)) = 0x2000 ∧
      Clean (one.gr.vregsAt (one.gr.thread 0) 2 2) ∧ watchMask one.s one.k (one.gr.thread 0) 0x2000 4 watchLoad = 0 ∧
      held one 0 = [] ∧ outcome (laneLookup one.s 0 0 0 0 0 0x2000) 0x2000 .load true = .ok tr0 ∧
      Numbered one.s ∧ one.s.poisoned ⟨.mem, 0x4000_2000, 4⟩ = false ∧ one.s.unreachablePA 0x4000_2000 0 = false) ∧
    (Alone one (Form.of []) 0 ∧ (one.gr.thread 0).monitor = none) ∧
    (Alone (watching 0 .ready) (Form.of []) 0 ∧
      ((watching 0 .ready).gr.thread 0).monitor = some ⟨0x2000, 0x4000_2000, 30, 0, false⟩ ∧ (watching 0 .ready).s.upsets = [] ∧
      (watching 0 .ready).s.unreachablePA 0x4000_2000 0 = false ∧
      (watching 0 .ready).s.poisoned ⟨.mem, 0x4000_2000, 4⟩ = false ∧ (watching 0 .ready).s.memWord 0x4000_2000 = 0) ∧
    (Alone (watching 1 .ready) (Form.of []) 0 ∧
      ((watching 1 .ready).gr.thread 0).monitor = some ⟨0x2000, 0x4000_2000, 30, 1, false⟩ ∧
      (watching 1 .ready).s.memWord 0x4000_2000 ≠ 1) ∧
    (let s := (watching 1 (.blocked .monitor)).s;
      s.memWord 0x4000_2000 ≠ 1 ∧ (s.thread? 0 0 0).map (·.run) = some (.blocked .monitor) ∧
      (s.block? 0).map (·.phase) = some .resident) :=
  ⟨⟨by decide +kernel, access_one (by decide +kernel), by decide +kernel, by unfold Clean; decide +kernel, by decide +kernel,
    by decide +kernel, by decide +kernel, by unfold Numbered; decide +kernel, by decide +kernel, by decide +kernel⟩,
    ⟨alone_one (by decide +kernel), by decide +kernel⟩,
    ⟨alone_one (by decide +kernel), by decide +kernel, rfl, by decide +kernel, by decide +kernel, by decide +kernel⟩,
    ⟨alone_one (by decide +kernel), by decide +kernel, by decide +kernel⟩,
    by decide +kernel, by decide +kernel, by decide +kernel⟩

/-- Threads that wait at a semaphore of another module. -/
def far : Block := { blk0 with groups := [{ grp0 with threads := [{ thr 0 with run := .blocked (.fsem 0xFF80_0000_0000_00 1) }, thr 1] }] }

/-- The bundle of both threads, where the page maps host memory. -/
def hosted : Site := site blk0 [0, 1] [] (fun s => { s with mem := s.mem.write 0x3000 (leBytes 8 0x80_0000_0000_00C5) })

def trHost : Trans := ⟨0, 0, 30, 0x80_0000_0000_0000, 0x0C⟩

/-- A wait at a semaphore in host memory. -/
theorem witness_HostSemaphore :
    hosted.act ≠ [] ∧ CanAccess hosted (Form.of [uSrc 1 (r 2) 2, uSrc 2 (r 4)]) ∧ SemAt hosted (r 2) .load 0x2000 trHost ∧
    Clean [hosted.gr.sreg 4] ∧ Ready hosted ∧ Numbered hosted.s ∧ region? (trHost.pa 0x2000) = some .host ∧
    hosted.s.poisoned ⟨.mem, trHost.pa 0x2000, 8⟩ = false ∧ hosted.s.unreachablePA (trHost.pa 0x2000) hosted.k.stack = false :=
  ⟨by decide +kernel, access_one (by decide +kernel), ⟨by decide +kernel, by unfold Clean; decide +kernel, by decide, by decide +kernel,
    by decide +kernel⟩, by unfold Clean; decide +kernel, by unfold Ready; decide +kernel, by unfold Numbered; decide +kernel,
    by decide +kernel, by decide +kernel, by decide +kernel⟩

/-- Semaphores: at 0x2000, in uniform registers; an increment in flight; a wait at one in the fabric window. -/
theorem witness_Semaphores :
    (both.act ≠ [] ∧ (∀ fm ∈ [Form.of [uSrc 1 (r 2) 2, uSrc 2 (r 4)], Form.of [uDst 8, uSrc 1 (r 2) 2]], CanAccess both fm) ∧
      SemAt both (r 2) .store 0x2000 tr0 ∧ SemAt both (r 2) .load 0x2000 tr0 ∧ Clean [both.gr.sreg 4] ∧ Ready both ∧ Numbered both.s ∧
      (∀ l ∈ both.act, held both l = []) ∧ region? (tr0.pa 0x2000) ≠ some .host ∧
      peerWaits both.s 0 [⟨.mem, 0x4000_2000, 8⟩] = false ∧ both.s.poisoned ⟨.mem, 0x4000_2000, 8⟩ = false ∧ both.s.unreachablePA 0x4000_2000 0 = false) ∧
    InFlight (withAcc inc0) inc0 blk0 0 0 ∧
    Reachable (withAcc inc0) blk0 inc0 0x4000_2000 8 ∧
    (let x := site far [1];
      x.s.block? 0 = some far ∧ far.phase = .resident ∧ inWindow 0xFF80_0000_0000_00 = true ∧
      (x.s.thread? 0 0 0).map (·.run) = some (.blocked (.fsem 0xFF80_0000_0000_00 1)) ∧
      x.s.unreachable.contains (rowModule (fabricRowOf x.s 0 0xFF80_0000_0000_00)) = false) :=
  ⟨⟨by decide +kernel, access_all (by decide +kernel), ⟨by decide +kernel, by unfold Clean; decide +kernel, by decide, by decide +kernel,
    by decide +kernel⟩, ⟨by decide +kernel, by unfold Clean; decide +kernel, by decide, by decide +kernel, by decide +kernel⟩,
    by unfold Clean; decide +kernel, by unfold Ready; decide +kernel, by unfold Numbered; decide +kernel, by decide +kernel, by decide +kernel,
    by decide +kernel, by decide +kernel, by decide +kernel⟩, inFlight_ok (by decide +kernel),
    reachable_ok (by decide +kernel), by decide +kernel, rfl, by decide +kernel, by decide +kernel, by decide +kernel⟩

end Sys2Proof.Tests
end

