-- ==== Sys2Proof/Tests/Witness2.lean ====
section
/-!
SUPPORT. Witnesses, continued: control, copies, memory events, accumulators and the matrix stream.
-/

namespace Sys2Proof.Tests

open Sys2Proof.Machine Sys2Proof.Claims

-- The proofs of this file are checked one after another, so that they do not all hold memory at once.
set_option Elab.async false

theorem witness_Exit : Meets both (Form.of []) ∧ both.act ≠ [] := ⟨meets_one (by decide +kernel), by decide +kernel⟩

/-- Thread 0 alone with a mask in s8. -/
def masked (m : Word) : Site :=
  site { blk0 with groups := [{ grp0 with sregs := file.set 8 ⟨m, .full⟩ }] } [0]

/-- A conv episode of thread 0 that began 256 cycles ago, and a thread that waits at it. -/
def episode : Machine.State :=
  run { blk0 with
    convs := [⟨0, 0x100, [], 0⟩]
    groups := [{ grp0 with threads := [{ thr 0 with run := .blocked (.conv 3) }, thr 1] }] } [0] []
    (fun s => s.mapCore 0 0 (fun c => { c with cycles := 256 }))

/-- Memory whose word at 0x100 is regroup v4. -/
def regroupWord : Machine.State → Machine.State :=
  fun s => { s with mem := s.mem.write 0x4000_0100 (leBytes 4 (0x05 * 2 ^ 26 + 4 * 2 ^ 14 + 3 * 2 ^ 4)) }

/-- Thread 0 waits at that word for its registers. -/
def waiting : Machine.State :=
  run { blk0 with groups := [{ grp0 with threads := [{ thr 0 with run := .blocked .regroupRegs }, thr 1] }] } [0] [] regroupWord

/-- Both threads have arrived in a window: it is complete, and it is 256 cycles old. -/
def arrivedBoth (q : Run) : Machine.State :=
  run { blk0 with
    window := some ⟨0, [(0, 0, 8), (0, 1, 8)]⟩
    groups := [{ grp0 with threads := [{ thr 0 with run := q }, { thr 1 with run := q }] }] } [0] []
    (fun s => s.mapCore 0 0 (fun c => { c with cycles := 256 }))

/-- conv: a mask of its own lane, and one that names thread 1, which has not come; an episode that is over; regroup: an arrival, a
late arrival, and a window that closes. -/
theorem witness_ConvergenceAndRegrouping :
    (Alone (masked 1) (Form.of [uSrc 2 (r 8)]) 0 ∧ Clean [(masked 1).gr.sreg 8] ∧
      ∀ j < (masked 1).gr.threads.length, j ≠ 0 → ((masked 1).gr.sreg 8).val.getLsbD j = false) ∧
    (Alone (masked 2) (Form.of [uSrc 2 (r 8)]) 0 ∧ Clean [(masked 2).gr.sreg 8] ∧ ((masked 2).gr.sreg 8).val.getLsbD 1 = true ∧
      ((masked 2).gr.thread 1).live = true ∧ convAt 0x200 [] ((masked 2).gr.thread 1) = false) ∧
    ((episode.block? 0).bind (fun k => k.convs.find? (fun f => f.grp == 0 && f.pc == 0x100 && decide (f.began + 256 ≤ episode.now 0 0))) =
      some ⟨0, 0x100, [], 0⟩) ∧
    (Meets both (Form.of [vSrc 1 ⟨4, true⟩]) ∧ Meets both (Form.of [⟨1, false, 4, 1, false, false, false⟩]) ∧
      ∀ l ∈ both.act, Clean [both.gr.vreg (both.gr.thread l) 4] ∧ ∀ y ∈ (both.gr.thread l).regs, y.st ≠ .empty) ∧
    ((waiting.thread? 0 0 0).map (·.run) = some (.blocked .regroupRegs) ∧
      (waiting.thread? 0 0 0).bind (regroupKey waiting ((waiting.block? 0).getD blk0) ((waiting.group? 0 0).getD grp0)) = some 8) ∧
    ((arrivedBoth (.blocked .regroupWindow)).now 0 0 = 256 ∧
      ((arrivedBoth (.blocked .regroupWindow)).block? 0).bind (·.window) = some ⟨0, [(0, 0, 8), (0, 1, 8)]⟩ ∧
      ∀ l < 2, ((arrivedBoth (.blocked .regroupWindow)).thread? 0 0 l).isSome) :=
  ⟨⟨alone_one (by decide +kernel), by unfold Clean; decide +kernel, by decide +kernel⟩,
    ⟨alone_one (by decide +kernel), by unfold Clean; decide +kernel, by decide +kernel, by decide +kernel, by decide +kernel⟩,
    by decide +kernel,
    ⟨meets_one (by decide +kernel), meets_one (by decide +kernel), by unfold Clean; decide +kernel⟩,
    ⟨by decide +kernel, by decide +kernel⟩, by decide +kernel, by decide +kernel, by decide +kernel⟩

/-! Copies. -/

/-- A descriptor in s8 to s15: 16 bytes within scratchpad, from 0 to 64, or of a length that no copy has. -/
def copying (len : Word) : Site :=
  site { blk0 with groups := [{ grp0 with sregs := (file.take 8) ++
    ([0, 0x4000_0000, 64, 0x4000_0000, len, 0, 0, 0] : List Word).map full ++ file.drop 16 }] } [0]

/-- That copy in flight. -/
def copy0 : Copy :=
  ⟨3, 0, 0, 0, 0, 20, .none, [0, 0x4000_0000, 64, 0x4000_0000, 16, 0, 0, 0], [], [], [], 0, 0, 0, false, true, []⟩

def withCopy (c : Copy) : Machine.State := run blk0 [0] [] (fun s => { s with copies := [c] })

theorem witness_CopyInstructions :
    (∀ fm ∈ [Form.of [uDst 20, uSrc 1 (r 8) 8], Form.of [uName 1 20], Form.of [uDst 20, uName 1 21]], Meets (copying 16) fm) ∧
    (copying 16).act ≠ [] ∧ Clean ((copying 16).gr.sregsAt 8 8) ∧ copiesOn (copying 16).s 0 0 +
      ((slotTickets (copying 16).s 0 0).filter (· < slotTicket (copying 16).s (copying 16).gr (copying 16).act)).length < 256 ∧
    (copying 16).s.order.past = [] ∧ (copying 16).s.upsets = [] ∧
    (copying 16).k.scratchPoison = [] ∧ copyOk (CopyDesc.of (uniWords (copying 16) (r 8) 8)) .none [] = true ∧
    Meets (copying 0) (Form.of [uDst 20, uSrc 1 (r 8) 8]) ∧ Clean ((copying 0).gr.sregsAt 8 8) ∧
    copyOk (CopyDesc.of (uniWords (copying 0) (r 8) 8)) .none [] = false :=
  ⟨meets_all (by decide +kernel), by decide +kernel, by unfold Clean; decide +kernel, by decide +kernel, rfl, rfl, rfl, by decide +kernel,
    meets_one (by decide +kernel), by unfold Clean; decide +kernel, by decide +kernel⟩

/-- The first chunk of the copy; and copies that are done, cancelled and failed. -/
theorem witness_CopyProgress :
    ((withCopy copy0).copies.find? (fun e => e.id == copy0.id) = some copy0 ∧ (withCopy copy0).block? 0 = some blk0 ∧
      copyRuns (withCopy copy0) copy0 = true ∧ (∀ w ∈ copy0.waits, w.1 = 0 → w.2 ∉ blk0.missing) ∧
      (∀ cx ∈ (withCopy copy0).ctxs, cx.step = none) ∧ 0 ∉ copy0.done ∧ chunkStart copy0 0 = 0 ∧ (0 : Nat) < 16 ∧ 0 + 16 ≤ 64 ∧
      64 + 16 ≤ blk0.scratchSize ∧ (withCopy copy0).upsets = [] ∧ (withCopy copy0).order.past = [] ∧ blk0.scratch.wf = true ∧ blk0.scratchPoison = []) ∧
    (∀ c ∈ [{ copy0 with units := 16, bytes := 16 }, { copy0 with cancelled := true }, { copy0 with status := 5 }],
      (withCopy c).copies.find? (fun e => e.id == c.id) = some c ∧ c.slot = true ∧ c.status < 8 ∧ c.bytes < 2 ^ 29 ∧
      (unitCount (CopyDesc.of c.desc) c.xf ≤ c.units ∨ c.cancelled = true ∨ c.status ≠ 0)) ∧
    unitCount (CopyDesc.of copy0.desc) copy0.xf ≤ 16 :=
  ⟨by decide +kernel, by decide +kernel, by decide +kernel⟩

/-! Memory events. -/

/-- A load and a store of host memory in flight. -/
def hostLoad : Access := { load0 with pieces := [⟨.mem, 0x80_0000_0000_0000, 4⟩] }

def hostStore : Access := { store0 with pieces := [⟨.mem, 0x80_0000_0000_0000, 4⟩] }

/-- A vault that has been charged with three errors of lane 263 within 10 ms, and one that is to swap it. -/
def vault0 (swap : Bool) : Machine.State := run blk0 [0] [] (fun s => s.mapVault 1 31 (fun v => { v with
  charges := [(263, 0), (263, 0), (263, 0)]
  pendingSwaps := if swap then [263] else [] }))

theorem witness_MemoryEvents :
    ((run blk0 [0]).part 0).hostQueue = [] ∧
    (InFlight (withAcc hostLoad) hostLoad blk0 0 0 ∧ region? 0x80_0000_0000_0000 = some .host ∧
      mayPerform (withAcc hostLoad) hostLoad = true) ∧
    (InFlight (withAcc hostStore) hostStore blk0 0 0 ∧ mayPerform (withAcc hostStore) hostStore = true) ∧
    (∃ st v, (vault0 false).stks[1]? = some st ∧ st.vaults[31]? = some v ∧
      3 ≤ (v.charges.filter (fun c => c.1 == 263 && decide (st.us.toNat < c.2 + 10000))).length ∧ 263 ∉ v.pendingSwaps ∧
      ∀ p ∈ v.swaps, p.1 ≠ 263 ∧ p.2 ≠ 263) ∧
    (∃ st v, (vault0 true).stks[1]? = some st ∧ st.vaults[31]? = some v ∧ 263 ∈ v.pendingSwaps ∧ (∀ p ∈ v.swaps, p.2 ≠ 264) ∧
      ∀ y, 264 ≤ y → y < 264 → ∃ p ∈ v.swaps, p.2 = y) :=
  ⟨rfl, ⟨inFlight_ok (by decide +kernel), by decide +kernel, by decide +kernel⟩,
    ⟨inFlight_ok (by decide +kernel), by decide +kernel⟩, ⟨_, _, rfl, rfl, by decide +kernel, by decide +kernel, by decide +kernel⟩,
    ⟨_, _, rfl, rfl, by decide +kernel, by decide +kernel, fun y h1 h2 => absurd h1 (by omega)⟩⟩

end Sys2Proof.Tests
end

