-- ==== Sys2Proof/Tests/Witness3.lean ====
section
/-!
SUPPORT. Witnesses, continued: accumulators, the matrix stream and surfaces.
-/

namespace Sys2Proof.Tests

open Sys2Proof.Machine Sys2Proof.Claims

-- The proofs of this file are checked one after another, so that they do not all hold memory at once.
set_option Elab.async false

/-- A bundle that issues and meets a form, with an active lane. -/
def UniAt (x : Site) (fm : Form) : Prop := x.Issues ∧ Clear fm x.k x.gr x.act x.hints ∧ x.act ≠ []

theorem uni_at {x : Site} {fm : Form} (h : (issues x && clear x fm && !x.act.isEmpty) = true) : UniAt x fm := by
  simp only [Bool.and_eq_true, Bool.not_eq_true'] at h
  exact ⟨issues_ok h.1.1, clear_ok h.1.2, fun e => by simp [e] at h⟩

/-- Clean, as a Bool. -/
theorem clean_ok {rs : List Reg} (h : rs.all (fun r => r.st != .poisoned) = true) : Clean rs := by
  simp only [List.all_eq_true, bne_iff_ne] at h
  exact h

theorem ready_ok {x : Site} (h : x.lanes.all (fun l => (x.gr.thread l).run == .ready) = true) : Ready x := by
  simp only [List.all_eq_true, beq_iff_eq] at h
  exact h

/-- Threads 0 and 1 with uniform registers of some values. -/
def withS (vs : List (Nat × Word)) (fk : Block → Block := fun k => k) (f : Machine.State → Machine.State := fun s => s) : Site :=
  site (fk { blk0 with groups := [{ grp0 with sregs := vs.foldl (fun l p => l.set p.1 ⟨p.2, .full⟩) file }] }) [0, 1] [] f

theorem forall2 {α : Type} {P : α → Prop} {a b : α} (ha : P a) (hb : P b) : ∀ x ∈ [a, b], P x := by
  simp only [List.forall_mem_cons, List.not_mem_nil, false_implies, implies_true, and_true]
  exact ⟨ha, hb⟩

theorem forall4 {α : Type} {P : α → Prop} {a b c d : α} (ha : P a) (hb : P b) (hc : P c) (hd : P d) : ∀ x ∈ [a, b, c, d], P x := by
  simp only [List.forall_mem_cons, List.not_mem_nil, false_implies, implies_true, and_true]
  exact ⟨ha, hb, hc, hd⟩

/-! Accumulators. -/

/-- Two banks in slot 15. -/
def grant0 : AccGrant := ⟨1, 2, false, 0, false, []⟩

def granted : Site := withS [(8, 0x1020F)] (fun k => { k with accs := k.accs.set 15 (some grant0) })

/-- The same with an acc.ld in flight. -/
def grantedBusy : Site := withS [(8, 0x1020F)] (fun k => { k with accs := k.accs.set 15 (some grant0) })
  (fun s => { s with accesses := [{ load0 with kind := .accLd 0x1020F 0 }] })

/-- Thread 0 alone, with the index of a word in r10. -/
def accOne (w : Word) : Site := site { blk0 with
  accs := blk0.accs.set 15 (some grant0)
  groups := [{ grp0 with
    sregs := file.set 8 ⟨0x1020F, .full⟩
    threads := [{ thr 0 with regs := file.set 10 ⟨w, .full⟩ }, thr 1] }] } [0]

def seqSite (st : SeqState) : Site := withS [] (fun k => { k with seq := { k.seq with state := st } })

/-- acc.alloc of no banks, of one and of all 16; a valid handle, in use and not; acc.ld of the last word of the grant and of the
first after it; the sequencer in each of its states. -/
theorem witness_AccumulatorInstructions :
    (UniAt both (Form.of [uDst 10, uSrc 1 (r 8)]) ∧ Ready both ∧ Clean [both.gr.sreg 8] ∧ (both.gr.sreg 8).val.toNat = 0) ∧
    (∀ n ∈ [(1 : Nat), 16], let x := withS [(8, BitVec.ofNat 32 n)];
      UniAt x (Form.of [uDst 10, uSrc 1 (r 8)]) ∧ Ready x ∧ Clean [x.gr.sreg 8] ∧ (x.gr.sreg 8).val.toNat = n ∧ 0 < n ∧
      n + (x.k.accs.map (fun o => o.elim 0 (·.banks))).sum ≤ 16 ∧ x.k.accs.length = 16 ∧ x.k.accs[0]? = some none ∧
      (∀ h ∈ x.k.accs, h = none) ∧ (x.s.core x.k.stack x.k.core).accQueue = [] ∧ n ≤ banksFree x.s x.k.stack x.k.core) ∧
    (∀ x ∈ [granted, grantedBusy], UniAt x (Form.of [uSrc 1 (r 8)]) ∧ Clean [x.gr.sreg 8] ∧ x.k.accs[15]? = some (some grant0) ∧
      grant0.gen ≠ 0 ∧ (x.gr.sreg 8).val = handleOf 15 grant0) ∧
    handleBusy granted.s granted.blk granted.k 0x1020F = false ∧ handleBusy grantedBusy.s grantedBusy.blk grantedBusy.k 0x1020F = true ∧
    (∀ n ∈ [(8191 : Nat), 8192], let x := accOne (BitVec.ofNat 32 n);
      Alone x (Form.of [vDst 12, uSrc 1 (r 8), bSrc (v 10)]) 0 ∧
      Clean (x.gr.sreg 8 :: x.gr.bRegs (x.gr.thread 0) (v 10) 1) ∧
      (((x.gr.bRegs (x.gr.thread 0) (v 10) 1).getD 0 Reg.mk0).val.toNat + 0) % 2 ^ 32 = n) ∧
    (∀ st ∈ [SeqState.idle, .faulted, .pending, .running], let x := seqSite st;
      UniAt x (Form.of [uSrc 1 (r 2) 2]) ∧ UniAt x (Form.of []) ∧ Clean (x.gr.sregsAt 2 2) ∧ x.k.seq.state = st ∧ x.k.seq.chain = none) := by
  refine ⟨⟨uni_at (by decide +kernel), ready_ok (by decide +kernel), clean_ok (by decide +kernel), by decide +kernel⟩,
    forall2 ?_ ?_, forall2 ?_ ?_, by decide +kernel, by decide +kernel, forall2 ?_ ?_, forall4 ?_ ?_ ?_ ?_⟩
  · exact ⟨uni_at (by decide +kernel), ready_ok (by decide +kernel), clean_ok (by decide +kernel), by decide +kernel⟩
  · exact ⟨uni_at (by decide +kernel), ready_ok (by decide +kernel), clean_ok (by decide +kernel), by decide +kernel⟩
  · exact ⟨uni_at (by decide +kernel), clean_ok (by decide +kernel), by decide +kernel⟩
  · exact ⟨uni_at (by decide +kernel), clean_ok (by decide +kernel), by decide +kernel⟩
  · exact ⟨alone_one (by decide +kernel), clean_ok (by decide +kernel), by decide +kernel⟩
  · exact ⟨alone_one (by decide +kernel), clean_ok (by decide +kernel), by decide +kernel⟩
  all_goals exact ⟨uni_at (by decide +kernel), uni_at (by decide +kernel), clean_ok (by decide +kernel), by decide +kernel⟩

/-! The matrix stream. -/

/-- A tile of R rows and C columns of int8 at 0 of scratchpad, in a slot. -/
def tile (fmt rows cols : Nat) : OpSlot :=
  ⟨BitVec.ofNat 128 ((cols - 1) * 2 ^ 32 + (rows - 1) * 2 ^ 16 + fmt), .scratch, 0, 0, 0, 16, 0, 0, [0, 0, 0, 0]⟩

/-- Accumulator rows from word 0 of the grant in slot 15, a row 2 words long. -/
def accTile : OpSlot := ⟨0, .acc, 0x1020F, 2, 0, 0, 0, 0, [0, 0, 0, 0]⟩

/-- A plane of two columns of int8, every weight 0. -/
def plane0 : Plane := ⟨5, 2, 128, List.replicate 2 ((List.range 128).map (fun r => ⟨r, 0, none⟩))⟩

def seq0 : Sequencer := { Sequencer.clear .running 0x100 with
  slots := [some (tile 5 2 2), some accTile, some (tile 7 1 2), none, none, none, none, some (tile 5 2 2)]
  live := some plane0 }

def seqBlock (q : Sequencer) : Block := { blk0 with
  seq := q
  accs := blk0.accs.set 15 (some grant0)
  nbars := blk0.nbars.set 15 ⟨4, 0, none, none, none⟩
  launch := some 0 }

/-- The sequencer of a block runs a word at 0x100, with other blocks beside it. -/
def seqRun (k : Block) (ks : List Block) : Machine.State := run k [] [] (fun s => { (s.mapCore 0 0 (fun c => { c with array := some 0 })) with
  blocks := k :: ks
  cur := .seq 0 0x100 0xE000_0000 })

theorem runs_ok {k : Block} {ks : List Block} (h : decide ((seqRun k ks).block? 0 = some k) = true) :
    Runs (seqRun k ks) 0 k 0x100 0xE000_0000 := ⟨rfl, of_decide_eq_true h⟩

theorem witness_StreamMatrixWords :
    let k := seqBlock seq0
    let s := seqRun k []
    Runs s 0 k 0x100 0xE000_0000 ∧ Unspoilt s k ∧
    ((slotOf (leNat ((List.range 32).map (fun j => k.scratch.get ((32 * 0x1FFFF + j) % k.scratchSize))))).isSome = true) ∧
    ((∀ r ∈ k.seq.rows, r.old = false) ∧ k.seq.slots[7]? = some (some (tile 5 2 2)) ∧
      (Hdr.of (tile 5 2 2).header).weightsOk = true ∧ (Hdr.of (tile 5 2 2).header).sparse = 0 ∧
      (Hdr.of (tile 5 2 2).header).scale = 0 ∧ (Hdr.of (tile 5 2 2).header).layout = 0 ∧
      planeOf (Hdr.of (tile 5 2 2).header) ((lineRuns (Hdr.of (tile 5 2 2).header)).map (slotBytes k (tile 5 2 2)))
        ((scaleRuns (Hdr.of (tile 5 2 2).header)).map (slotBytes k (tile 5 2 2)))
        (((metaRun (Hdr.of (tile 5 2 2).header)).map (slotBytes k (tile 5 2 2))).headD []) = some plane0) ∧
    (k.seq.slots[0]? = some (some (tile 5 2 2)) ∧ k.seq.slots[1]? = some (some accTile) ∧ k.seq.live = some plane0 ∧
      rowFits (Hdr.of (tile 5 2 2).header) plane0 = true ∧
      accRange k accTile (Hdr.of (tile 5 2 2).header).rows plane0.cols = some (0x1020F, 0, 2)) ∧
    ((k.seq.streams = [] ∧ k.seq.rows = []) ∧ k.seq.slots[2]? = some (some (tile 7 1 2)) ∧
      (Hdr.of (tile 7 1 2).header).drainOk = true ∧
      accRange k accTile (Hdr.of (tile 7 1 2).header).rows (Hdr.of (tile 7 1 2).header).cols = some (0x1020F, 0, 2) ∧
      accGrantOf k 0x1020F = some grant0 ∧ k.scratch.wf = true ∧ (Hdr.of (tile 7 1 2).header).rows = 1 ∧
      (tile 7 1 2).cur.toNat + 8 ≤ k.scratchSize) :=
  ⟨runs_ok (by decide +kernel), ⟨rfl, rfl, rfl⟩, by decide +kernel, by decide +kernel, by decide +kernel, by decide +kernel⟩

/-- A member of a chain of two on cores 0 and 1, which waits for the other. -/
def mate : Block := { blk0 with
  core := 1
  launch := some 0
  seq := { seq0 with
    chain := some (2, 0)
    pos := 1
    wait := .chain } }

/-- The chain of one; the chain of four that waits, and the chain of two that is complete; barriers 15; loops; the end. -/
theorem witness_StreamControlWords :
    let k := seqBlock seq0
    (Runs (seqRun k []) 0 k 0x100 0xE000_0000 ∧ k.seq.pc = 0x100 ∧ k.seq.streams = [] ∧ k.seq.rows = [] ∧ k.seq.chain = none ∧
      k.seq.broken = false ∧ k.seq.wait = .none ∧ (0 : BitVec 2).toNat ≤ k.core % 4 ∧ k.core % 4 < 0 + 1 + 1 ∧
      chainClashes (seqRun k []) k 4 0 = [] ∧ k.launch ≠ none ∧
      (∀ o ko, o ≠ 0 → (seqRun k []).block? o = some ko → ko.seq.wait ≠ .chain)) ∧
    (Runs (seqRun k [mate]) 0 k 0x100 0xE000_0000 ∧ chainClashes (seqRun k [mate]) k 2 0 = [] ∧
      ∀ p, p < 2 → p ≠ k.core % 4 - 0 → ∃ o ko, o ≠ 0 ∧ (seqRun k [mate]).block? o = some ko ∧ ko.launch = k.launch ∧
        ko.stack = k.stack ∧ ko.core / 4 = k.core / 4 ∧ ko.phase = .resident ∧ ko.seq.chain = some (2, 0) ∧ ko.seq.pos = p ∧
        ko.seq.wait = .chain) ∧
    (k.nbars[15]? = some ⟨4, 0, none, none, none⟩ ∧ (4 : BitVec 16).toNat ≤ (4 : Word).toNat ∧ (4 : Word).toNat < (5 : BitVec 16).toNat) ∧
    k.seq.loops[3]? = some (false, 0) := by
  refine ⟨⟨runs_ok (by decide +kernel), rfl, rfl, rfl, rfl, rfl, rfl, by decide +kernel, by decide +kernel, by decide +kernel, by decide, ?_⟩,
    ⟨runs_ok (by decide +kernel), by decide +kernel, ?_⟩, by decide +kernel, by decide +kernel⟩
  · intro o ko ho h
    match o, ho, h with
    | o + 1, _, h => exact absurd h (by simp [seqRun, run, State.mapPart, State.mapCore, State.mapStack, State.block?])
  · intro p hp hq
    have : p = 1 := by
      have : (seqBlock seq0).core % 4 - 0 = 0 := by decide +kernel
      omega
    exact ⟨1, mate, by decide, by decide +kernel, by decide +kernel, rfl, by decide +kernel, rfl, rfl, this ▸ rfl, rfl⟩

def stream0 : Stream := ⟨0x100, 0xE000_0000, tile 5 2 2, 0x1020F, 0, 2, false, false, 0, 2⟩

def row0 : PendingRow := ⟨0x100, false, ⟨5, 2, false, [(1, none), (2, none)]⟩, plane0, 0x1020F, 0, false⟩

/-- Core 0, with a block that waits for the array and a request for all 16 banks. -/
def wanting : Machine.State :=
  run { blk0 with seq := Sequencer.clear .pending 0x100 } [0] [] (fun s => s.mapCore 0 0 (fun c => { c with
    seqQueue := [0]
    accQueue := [(9, 0, 16)] }))

theorem witness_MatrixEvents :
    (core? wanting 0 0 = some (wanting.core 0 0) ∧ (wanting.core 0 0).array = none ∧ (wanting.core 0 0).seqQueue = [0] ∧
      (wanting.block? 0).isSome = true ∧ (wanting.block? 0).map (·.phase) = some .resident) ∧
    (let k := seqBlock { seq0 with streams := [stream0] };
      let s := seqRun k [];
      s.block? 0 = some k ∧ seqRuns s 0 k = true ∧ k.seq.live = some plane0 ∧ rowFits (Hdr.of stream0.act.header) plane0 = true ∧
        (Hdr.of stream0.act.header).scale = 0 ∧ stream0.base + stream0.row * stream0.stride + plane0.cols ≤ 4096 * accCount stream0.handle ∧
        stream0.act.space = .scratch ∧ s.upsets = [] ∧ k.scratchPoison = []) ∧
    (let k := seqBlock { seq0 with rows := [row0] };
      (seqRun k []).block? 0 = some k ∧ 15 = row0.handle.toNat % 16 ∧ k.accs[15]? = some (some grant0) ∧
        elemFloat row0.plane.fmt = false ∧ row0.plane.cells.length = row0.plane.cols) ∧
    ((wanting.core 0 0).accQueue = [(9, 0, 16)] ∧
      (∀ k, wanting.block? 0 = some k → 16 + (k.accs.map (fun o => o.elim 0 (·.banks))).sum ≤ 16 ∧ k.accs[0]? = some none) ∧
      16 ≤ banksFree wanting 0 0) ∧
    (let k := { blk0 with accs := blk0.accs.set 15 (some { grant0 with freed := true }) };
      (run k [0]).block? 0 = some k ∧ k.accs[15]? = some (some { grant0 with freed := true }) ∧
        handleBusy (run k [0]) 0 k (handleOf 15 { grant0 with freed := true }) = false) :=
  ⟨by decide +kernel, by decide +kernel, by decide +kernel, ⟨by decide +kernel, fun k h => by
    have : some k = some { blk0 with seq := Sequencer.clear .pending 0x100 } := h.symm.trans (by decide +kernel)
    injection this with e
    subst e
    decide +kernel, by decide +kernel⟩, by decide +kernel⟩

/-! Surfaces. -/

/-- Words at 0x2000 of the small machine. -/
def placed (ws : List Word) (s : Machine.State) : Machine.State :=
  { s with mem := s.mem.write 0x4000_2000 (ws.flatMap (fun w => leBytes 4 w.toNat)) }

/-- Sagger slice 0 of both stacks for partition 0. -/
def sliced (s : Machine.State) : Machine.State := s.mapPart 0 (fun p => { p with
  on := p.on.map (fun q => { q with params := { q.params with slices := [0] } }) })

/-- A surface at an entry of partition 0. -/
def withSrf (i : Nat) (e : SrfEntry) (s : Machine.State) : Machine.State :=
  s.mapPart 0 (fun p => { p with srfs := p.srfs.set i e })

def desc (a n : Nat) (tr : Trans) (ws : List Word) (x : Site) : Bool :=
  ((x.gr.sregsAt (BitVec.ofNat 6 a) 2).all (fun r => r.st != .poisoned)) && decide (pairNat (x.gr.sregsAt (BitVec.ofNat 6 a) 2) = 0x2000) &&
  decide (0x2000 % n = 0) && decide (outcome (coreLookup x.s x.k.stack x.k.core x.k.part 0x2000) 0x2000 .load x.k.priv = .ok tr) &&
  decide (x.s.upsets = []) && !x.s.poisoned ⟨.mem, tr.pa 0x2000, n⟩ && !x.s.unreachablePA (tr.pa 0x2000) x.k.stack &&
  decide (x.s.accesses = []) && decide (x.s.order.past = []) && !peerWaits x.s x.k.stack [⟨.mem, tr.pa 0x2000, n⟩] && decide (ws = (List.range (n / 4)).map (fun i => x.s.memWord (tr.pa 0x2000 + 4 * i)))

theorem desc_ok {a n : Nat} {tr : Trans} {ws : List Word} {x : Site} (h : desc a n tr ws x = true) : DescAt x (r a) n tr ws := by
  simp only [desc, Bool.and_eq_true, decide_eq_true_eq, Bool.not_eq_true'] at h
  obtain ⟨⟨⟨⟨⟨⟨⟨⟨⟨⟨h1, h2⟩, h3⟩, h4⟩, h5⟩, h6⟩, h7⟩, h8⟩, h10⟩, h11⟩, h9⟩ := h
  have h2' : pairNat (x.gr.sregsAt (r a).f 2) = 0x2000 := h2
  refine ⟨clean_ok h1, ?_, ?_, h5, ?_, ?_, h10, ?_, ?_, ?_⟩
  · rw [h2']; exact h3
  · rw [h2']; exact h4
  · rw [h2']; exact h6
  · rw [h2']; exact h7
  · rw [h2']; exact h11
  · exact fun l _ => ⟨behindOf_none h8 _ _, fun e he => by simp [Claims.pending, h8] at he⟩
  · rw [h2']; exact h9

theorem settled_none {x : Site} (h : x.s.accesses = []) : Settled x := fun l _ => by
  simp [held, Claims.pending, h, behindOf_none h]

/-- A surface of 16 by 16 pixels of 4 bytes, in one tile, of generation 1. -/
def srf0 : SrfEntry := ((allocEntry SrfEntry.reset [0x0001_0000, 0x000F_000F, 0, 2]).getD SrfEntry.reset)

theorem srf0_is : allocEntry SrfEntry.reset [0x0001_0000, 0x000F_000F, 0, 2] = some srf0 ∧ srf0.kind = 1 ∧ srf0.pinned = false ∧
    srf0.viewable = true ∧ srf0.samples = 0 ∧ srf0.tiles = 1 ∧ srf0.gen = 1 ∧ srf0.freeing = false ∧ srf0.fmt = 1 ∧
    srf0.width = 16 ∧ srf0.height = 16 ∧ srf0.layers = 1 ∧ srf0.marks = [] ∧ srf0.tileSt = [] := by decide +kernel

theorem no_surface {s : Machine.State} {p : Nat} (h : ((s.parts[p]?).elim true (fun q => q.srfs.all (fun e => e.kind != 1))) = true) :
    ∀ q e, entry? s p q = some e → e.kind ≠ 1 := by
  intro q e he
  simp only [entry?, Option.bind_eq_some_iff] at he
  obtain ⟨P, hP, hq⟩ := he
  rw [hP] at h
  simp only [Option.elim_some, List.all_eq_true, bne_iff_ne] at h
  exact h e (List.mem_of_getElem? hq)

theorem free_at {s : Machine.State} {p : Nat} {e : SrfEntry} (h : (decide (entry? s p 0 = some e) && decide (e.kind = 0)) = true) :
    FreeAt s p 0 e := by
  simp only [Bool.and_eq_true, decide_eq_true_eq] at h
  exact ⟨h.1, h.2, fun _ _ hj => absurd hj (by omega)⟩

/-- The surface at entry 7 and a descriptor of a view of it, of format 7 with the right to write. -/
def viewed : Site := withS [] (fun k => k) (fun s => withSrf 7 srf0 (placed [0x0001_0007, 23, 0, 0] s))

/-- A descriptor of an odd kind; one of a surface; one of a view. -/
theorem witness_SurfaceCreation :
    (let x := withS [] (fun k => k) (placed [0xFFFF_FFFF]);
      UniAt x (Form.of [uDst 10, uSrc 1 (r 2) 2]) ∧ Ready x ∧ Awake x ∧ DescAt x (r 2) 16 tr0 [0xFFFF_FFFF, 0, 0, 0] ∧
      FreeAt x.s x.k.part 0 SrfEntry.reset ∧ allocEntry SrfEntry.reset [0xFFFF_FFFF, 0, 0, 0] = none) ∧
    (let x := withS [] (fun k => k) (fun s => sliced (placed [0x0001_0000, 0x000F_000F, 0, 2] s));
      UniAt x (Form.of [uDst 10, uSrc 1 (r 2) 2]) ∧ Ready x ∧ Awake x ∧ DescAt x (r 2) 16 tr0 [0x0001_0000, 0x000F_000F, 0, 2] ∧
      FreeAt x.s x.k.part 0 SrfEntry.reset ∧ (∀ q e', entry? x.s x.k.part q = some e' → e'.kind ≠ 1) ∧
      ∀ k < 2, 0 < srf0.ownedBy k → banksOf x.s x.k.part k ≠ []) ∧
    (UniAt viewed ⟨[uDst 10, uSrc 1 (r 2) 2], Accepts.plain, .priv⟩ ∧ Awake viewed ∧
      DescAt viewed (r 2) 16 tr0 [0x0001_0007, 23, 0, 0] ∧ SrfAt viewed.s viewed.k.part 7 0x0001_0007 srf0 ∧
      FreeAt viewed.s viewed.k.part 0 SrfEntry.reset) := by
  refine ⟨⟨uni_at (by decide +kernel), ready_ok (by decide +kernel), ?_, desc_ok (by decide +kernel), free_at (by decide +kernel), by decide +kernel⟩,
    ⟨uni_at (by decide +kernel), ready_ok (by decide +kernel), ?_, desc_ok (by decide +kernel), free_at (by decide +kernel),
      no_surface (by decide +kernel), by decide +kernel⟩,
    uni_at (by decide +kernel), ?_, desc_ok (by decide +kernel),
    ⟨by decide +kernel, by decide, srf0_is.2.1, by decide +kernel, by decide +kernel⟩, free_at (by decide +kernel)⟩
  all_goals (unfold Awake; decide +kernel)

/-- The handle of entry 5 in s8, and the surface there. -/
def onSrf (e : SrfEntry) : Site := withS [(8, 0x0001_0005), (9, 0)] (fun k => k) (fun s => sliced (withSrf 5 e s))

theorem srf_at {x : Site} {i : Nat} {h : Word} {e : SrfEntry} (c : (decide (entry? x.s x.k.part i = some e) && decide (i < 4096) &&
    decide (e.kind = 1) && decide (e.freeing = false) && decide (h.toNat = e.gen.toNat * 2 ^ 16 + i)) = true) : SrfAt x.s x.k.part i h e := by
  simp only [Bool.and_eq_true, decide_eq_true_eq] at c
  exact ⟨c.1.1.1.1, c.1.1.1.2, c.1.1.2, c.1.2, c.2⟩

theorem witness_SurfaceState :
    (∀ e ∈ [srf0, { srf0 with tileSt := [(0, .resident)] }], let x := onSrf e;
      UniAt x (Form.of [uSrc 1 (r 8)]) ∧ Ready x ∧ Clean [x.gr.sreg 8] ∧ SrfAt x.s x.k.part 5 (x.gr.sreg 8).val e ∧ e.marks = [] ∧
      x.s.accesses = [] ∧ e.pinned = false ∧ UniAt x (Form.of [uDst 10, uSrc 1 (r 8) 2]) ∧ Clean (x.gr.sregsAt 8 2)) ∧
    (let e : SrfEntry := { srf0 with tileSt := [(0, .resident)] };
      pinFits (onSrf e).s 0 5 = true ∧ ∀ t, t < e.tiles → e.tileState t = .resident) ∧
    (∀ p ∈ srf0.tileSt, p.2 ≠ .resident) ∧
    (Ready both ∧ Clean [both.gr.sreg 8] ∧ (both.gr.sreg 8).val = 0 ∧ UniAt both (Form.of [uSrc 1 (r 8)]) ∧
      ∀ v, entry? both.s both.k.part 0 = some v → v.kind ≠ 2 ∧ (v.kind = 1 → v.gen ≠ 0)) := by
  refine ⟨forall2 ?_ ?_, by decide +kernel, by decide +kernel, ready_ok (by decide +kernel), clean_ok (by decide +kernel), by decide +kernel,
    uni_at (by decide +kernel), ?_⟩
  · exact ⟨uni_at (by decide +kernel), ready_ok (by decide +kernel), clean_ok (by decide +kernel), srf_at (by decide +kernel), by decide +kernel,
      by decide +kernel, by decide +kernel, uni_at (by decide +kernel), clean_ok (by decide +kernel)⟩
  · exact ⟨uni_at (by decide +kernel), ready_ok (by decide +kernel), clean_ok (by decide +kernel), srf_at (by decide +kernel), by decide +kernel,
      by decide +kernel, by decide +kernel, uni_at (by decide +kernel), clean_ok (by decide +kernel)⟩
  · intro v hv
    have e : entry? both.s both.k.part 0 = some SrfEntry.reset := by decide +kernel
    rw [e] at hv
    injection hv with hv
    subst hv
    decide

/-- A view of the surface at entry 5, at entry 7, with its handle in s8. -/
def view0 : SrfEntry := { SrfEntry.reset with
  kind := 2
  gen := 1
  parent := 5
  pgen := 1
  fmt := 7
  write := true }

def onView : Site := withS [(8, 0x2007), (9, 0)] (fun k => k) (fun s => withSrf 7 view0 (withSrf 5 srf0 s))

/-- The surface with an access of it in flight, and threads that wait at a word of it. -/
def srfBusy : Site := withS [(8, 0x0001_0005), (9, 0)] (fun k => k) (fun s => { (sliced (withSrf 5 srf0 s)) with
  accesses := [{ load0 with pieces := [⟨.srf 0 5, 0, 4⟩] }] })
def srfWaits (w : Wait) : Site :=
  site { blk0 with groups := [{ grp0 with threads := [{ thr 0 with run := .blocked w }, { thr 1 with run := .blocked w }] }] } [0, 1]

/-- A view; a surface that is accessed, and whose tile a pin must fetch; threads whose waits are over. -/
theorem witness_SurfaceWaits :
    (UniAt onView (Form.of [uSrc 1 (r 8)]) ∧ Ready onView ∧ Clean [onView.gr.sreg 8] ∧
      ViewAt onView.s onView.k.part 7 (onView.gr.sreg 8).val view0 5 srf0 ∧ UniAt onView (Form.of [uDst 10, uSrc 1 (r 8) 2]) ∧
      Clean (onView.gr.sregsAt 8 2)) ∧
    (UniAt srfBusy (Form.of [uSrc 1 (r 8)]) ∧ Ready srfBusy ∧ SrfAt srfBusy.s srfBusy.k.part 5 (srfBusy.gr.sreg 8).val srf0 ∧
      (∃ b ∈ srfBusy.s.accesses, ∃ p ∈ b.spans, p.space = .srf 0 5) ∧ pinFits srfBusy.s 0 5 = true ∧ srf0.tileState 0 ≠ .resident) ∧
    (∀ w ∈ [Wait.srfFree 5, .pin 5], UniAt (srfWaits w) (Form.of [uSrc 1 (r 8)]) ∧
      ∀ l ∈ (srfWaits w).act, ((srfWaits w).gr.thread l).run = .blocked w) ∧
    (UniAt (srfWaits (.srfEvict 5 0 [0])) (Form.of [uSrc 1 (r 8)]) ∧
      ∀ l ∈ (srfWaits (.srfEvict 5 0 [0])).act, ((srfWaits (.srfEvict 5 0 [0])).gr.thread l).run = .blocked (.srfEvict 5 0 [0])) := by
  refine ⟨⟨uni_at (by decide +kernel), ready_ok (by decide +kernel), clean_ok (by decide +kernel),
      ⟨by decide +kernel, by decide, rfl, by decide +kernel, by decide +kernel⟩, uni_at (by decide +kernel), clean_ok (by decide +kernel)⟩,
    ⟨uni_at (by decide +kernel), ready_ok (by decide +kernel), srf_at (by decide +kernel), ?_, by decide +kernel, by decide +kernel⟩,
    forall2 ⟨uni_at (by decide +kernel), by decide +kernel⟩ ⟨uni_at (by decide +kernel), by decide +kernel⟩,
    uni_at (by decide +kernel), by decide +kernel⟩
  exact ⟨{ load0 with pieces := [⟨.srf 0 5, 0, 4⟩] }, by decide +kernel, ⟨.srf 0 5, 0, 4⟩, by decide +kernel, rfl⟩

/-- Thread 0 with coordinates in r20 and r21, and the surface's handle in s8. -/
def at_ (x y : Nat) : Site := site { blk0 with groups := [{ grp0 with
  sregs := file.set 8 ⟨0x0001_0005, .full⟩
  threads := [{ thr 0 with regs := file.set 20 ⟨BitVec.ofNat 32 (y * 2 ^ 16 + x), .full⟩ }, thr 1] }] } [0] [] (fun s => sliced (withSrf 5 srf0 s))

/-- A tile that an access needs; a resident tile that an srf.evict waits for. -/
def tileIn (t : TileState) : SrfEntry := { srf0 with tileSt := [(0, t)] }

def needing (e : SrfEntry) : Machine.State := (site blk0 [0] [] (fun s => { (withSrf 5 e s) with
  accesses := [{ load0 with pieces := [⟨.srf 0 5, 0, 4⟩] }] })).s
def evicting : Machine.State := (site { blk0 with
  groups := [{ grp0 with threads := [{ thr 0 with run := .blocked (.srfEvict 5 0 [0]) }, thr 1] }] } [1] []
  (withSrf 5 { srf0 with tileSt := [(0, .resident)] })).s

/-- The last pixel of the surface, and the first outside it. -/
theorem witness_SurfaceAccesses :
    (∀ p ∈ [((15 : Nat), (15 : Nat)), (16, 15)], let x := at_ p.1 p.2;
      x.act = [0] ∧ Clean (x.gr.vregsAt (x.gr.thread 0) 20 2) ∧ Clean [x.gr.sreg 8] ∧ SrfAt x.s x.k.part 5 (x.gr.sreg 8).val srf0 ∧
      Clean (x.gr.vregsAt (x.gr.thread 0) 24 4) ∧
      xOf (x.gr.vregsAt (x.gr.thread 0) 20 2) = p.1 ∧ yOf (x.gr.vregsAt (x.gr.thread 0) 20 2) = p.2 ∧
      layerOf (x.gr.vregsAt (x.gr.thread 0) 20 2) = 0 ∧ sampleOf (x.gr.vregsAt (x.gr.thread 0) 20 2) = 0 ∧
      (∀ fm ∈ [Form.of [vDst 12 1, vSrc 1 (r 20) 2, uSrc 2 (r 8)], Form.of [vDst 12 4, vSrc 1 (r 20) 2, uSrc 2 (r 8)]], CanAccess x fm) ∧
      ∀ fm ∈ [Form.of [uRead 0 8, vSrc 1 (r 20) 2, vSrc 2 (r 24) 1], Form.of [uRead 0 8, vSrc 1 (r 20) 2, vSrc 2 (r 24) 4]],
        CanAccess x fm) ∧
    (∀ e ∈ [srf0, tileIn .evicted], entry? (needing e) 0 5 = some e ∧ 0 < e.tiles ∧ e.kind = 1 ∧
      (e.tileState 0 = .absent ∨ e.tileState 0 = .evicted) ∧ tileWanted (needing e) 0 5 0 = true ∧
      tileWanted (onSrf e).s 0 5 0 = false) ∧
    (∀ t ∈ [TileState.fetching, .moving, .evicting], entry? (needing (tileIn t)) 0 5 = some (tileIn t) ∧ 0 < (tileIn t).tiles ∧
      (tileIn t).tileState 0 = t) ∧
    (entry? evicting 0 5 = some { srf0 with tileSt := [(0, .resident)] } ∧ evictAsked evicting 0 5 0 = true) := by
  refine ⟨forall2 ?_ ?_, by decide +kernel, by decide +kernel, by decide +kernel⟩
  · exact ⟨by decide +kernel, clean_ok (by decide +kernel), clean_ok (by decide +kernel), srf_at (by decide +kernel),
      clean_ok (by decide +kernel), by decide +kernel, by decide +kernel, by decide +kernel, by decide +kernel,
      access_all (by decide +kernel), access_all (by decide +kernel)⟩
  · exact ⟨by decide +kernel, clean_ok (by decide +kernel), clean_ok (by decide +kernel), srf_at (by decide +kernel),
      clean_ok (by decide +kernel), by decide +kernel, by decide +kernel, by decide +kernel, by decide +kernel,
      access_all (by decide +kernel), access_all (by decide +kernel)⟩

end Sys2Proof.Tests
end

