-- ==== Sys2Proof/Tests/Witness4.lean ====
section
/-!
SUPPORT. Witnesses, continued: queues, hallmarks, units, counters and launches.
-/

namespace Sys2Proof.Tests

open Sys2Proof.Machine Sys2Proof.Claims

-- The proofs of this file are checked one after another, so that they do not all hold memory at once.
set_option Elab.async false

/-! Queues. -/

/-- A record that calls for a tessellation of a triangle into one, and what 32 words of it are. -/
def tess : CallRec := ⟨[0x6004_0000, 0], some 0, 0, []⟩
def long : CallRec := ⟨List.replicate 32 0, some 0, 0, []⟩

def queue0 : Queue := ⟨some ⟨3, 0⟩, false, [], [], []⟩

/-- Threads 0 and 1 (or 0 alone) with a queue 15, which run or wait. -/
def queued (u : Queue) (lanes : List Nat := [0, 1]) (q : Run := .ready) (f : Machine.State → Machine.State := fun s => s) : Site :=
  site { blk0 with groups := [{ grp0 with
    queues := grp0.queues.set 15 u
    threads := [{ thr 0 with run := q }, { thr 1 with run := q }] }] } lanes [] f

theorem queued_is {u : Queue} {lanes : List Nat} {q : Run} {f : Machine.State → Machine.State} :
    (queued u lanes q f).gr.queues[15]? = some u := by
  have h : grp0.queues.length = 16 := by decide +kernel
  simp only [queued, site, List.headD_cons]
  simp [h]

def call0 : Call := ⟨7, 0, 0, 0, 0, 15, some 0, [0x6004_0000, 0], 3, 0, .performed, false, [[0x4000_0000, 9]], 0, false⟩

theorem witness_QueueInstructions :
    (∀ u ∈ [queue0, { queue0 with claims := [⟨1, 8, 3, false⟩] }], let x := queued u;
      UniAt x (Form.of [uSrc 1 (r 8)]) ∧ Ready x ∧ x.gr.queues[15]? = some u ∧ Clean [x.gr.sreg 8] ∧ u.calls = [] ∧ x.s.calls = [] ∧
      ∀ e ∈ u.claims, e.lane ∈ x.act) ∧
    (let u : Queue := { queue0 with calls := [tess] };
      UniAt (queued u) (Form.of [uSrc 1 (r 8)]) ∧ Ready (queued u) ∧ Clean [(queued u).gr.sreg 8] ∧ u.calls ≠ [] ∧ u.claims = []) ∧
    (let x := queued { queue0 with draining := true } [0, 1] (.blocked (.drain 15 0x6000_0000));
      UniAt x (Form.of [uSrc 1 (r 8)]) ∧ Clean [x.gr.sreg 8] ∧ ∀ l ∈ x.act, (x.gr.thread l).run = .blocked (.drain 15 0x6000_0000)) ∧
    (∀ u ∈ [{ queue0 with calls := [long] }, { queue0 with calls := [long, tess] }],
      (Alone (queued u [0]) (Form.of [vSrc 1 (r 0) 32]) 0 ∧ Clean ((queued u [0]).gr.vregsAt ((queued u [0]).gr.thread 0) 0 32) ∧
        ((queued u [0]).gr.thread 0).run = .ready) ∧
      UniAt (queued u) (Form.of [uSrc 1 (r 0) 32]) ∧ Clean ((queued u).gr.sregsAt 0 32) ∧ Ready (queued u) ∧ u.draining = false) ∧
    (([long].map (·.words.length)).sum + 32 ≤ 64 ∧ 64 < ([long, tess].map (·.words.length)).sum + 32) ∧
    (∀ u ∈ [queue0, { queue0 with returns := [⟨[0x4000_0000], [1], []⟩, ⟨[0x4000_0000, 9], [0, 1], []⟩] },
        { queue0 with claims := [⟨0, 8, 1, false⟩] }, { queue0 with claims := List.replicate 8 ⟨0, 8, 1, false⟩ }],
      Alone (queued u [0]) (Form.of [vDst 8 2]) 0 ∧ ((queued u [0]).gr.thread 0).run = .ready ∧
      UniAt (queued u) (Form.of [uDst 8]) ∧ returnsUsed (queued u).s 0 0 15 u < 256) := by
  refine ⟨forall2 ?_ ?_, ⟨uni_at (by decide +kernel), ready_ok (by decide +kernel), clean_ok (by decide +kernel), by decide +kernel⟩,
    ⟨uni_at (by decide +kernel), clean_ok (by decide +kernel), by decide +kernel⟩, forall2 ?_ ?_, by decide +kernel,
    forall4 ?_ ?_ ?_ ?_⟩
  · exact ⟨uni_at (by decide +kernel), ready_ok (by decide +kernel), queued_is, clean_ok (by decide +kernel), rfl, rfl, by decide +kernel⟩
  · exact ⟨uni_at (by decide +kernel), ready_ok (by decide +kernel), queued_is, clean_ok (by decide +kernel), rfl, rfl, by decide +kernel⟩
  · exact ⟨⟨alone_one (by decide +kernel), clean_ok (by decide +kernel), by decide +kernel⟩, uni_at (by decide +kernel),
      clean_ok (by decide +kernel), ready_ok (by decide +kernel), rfl⟩
  · exact ⟨⟨alone_one (by decide +kernel), clean_ok (by decide +kernel), by decide +kernel⟩, uni_at (by decide +kernel),
      clean_ok (by decide +kernel), ready_ok (by decide +kernel), rfl⟩
  all_goals exact ⟨alone_one (by decide +kernel), by decide +kernel, uni_at (by decide +kernel), by decide +kernel⟩

/-- A record that leaves its call buffer: to the unit that it is bound to, from a queue that is not bound, and with reserved bits. -/
theorem witness_QueueInstructions_departure :
    (∀ p ∈ [((some ⟨3, 0⟩ : Option Binding), tess), (none, tess), (some ⟨3, 0⟩, { tess with words := [0x6004_0001, 0] })],
      let u : Queue := { queue0 with binding := p.1, calls := [p.2] };
      let x := queued u;
      x.s.block? 0 = some x.k ∧ x.s.group? 0 0 = some x.gr ∧ x.gr.queues[15]? = some u ∧ x.k.phase = .resident ∧ ctxFree x.s x.k = true ∧
      returnsUsed x.s 0 0 15 u + largestReturn (hdrType (p.2.words.getD 0 0)) (hdrOp (p.2.words.getD 0 0)) ≤ 128) ∧
    earlyCode (queued queue0).s 0 (some ⟨3, 0⟩) tess.words = none ∧ hdrType (tess.words.getD 0 0) = 3 ∧
    (0x6004_0001 : Word).toNat % 2 ^ 9 ≠ 0 := by
  refine ⟨?_, by decide +kernel⟩
  simp only [List.forall_mem_cons, List.not_mem_nil, false_implies, implies_true, and_true]
  exact ⟨⟨by decide +kernel, by decide +kernel, queued_is, by decide +kernel, by decide +kernel, by decide +kernel⟩,
    ⟨by decide +kernel, by decide +kernel, queued_is, by decide +kernel, by decide +kernel, by decide +kernel⟩,
    ⟨by decide +kernel, by decide +kernel, queued_is, by decide +kernel, by decide +kernel, by decide +kernel⟩⟩

/-- A return record that arrives at a claim of its lane, and one that no claim waits for. -/
theorem witness_QueueInstructions_arrival :
    ∀ u ∈ [queue0, { queue0 with claims := [⟨1, 4, 1, false⟩, ⟨0, 8, 2, false⟩] }],
      let x := queued u [0, 1] .ready (fun s => { s with calls := [call0] });
      x.s.calls.find? (fun f => f.id == call0.id) = some call0 ∧ call0.out = [[0x4000_0000, 9]] ∧ call0.lane = some 0 ∧
      recMark call0.words = none ∧ x.s.group? call0.blk call0.grp = some x.gr ∧ x.gr.queues[call0.q]? = some u ∧ u.draining = false ∧
      (x.gr.thread 0).live = true ∧ returnsUsed x.s call0.blk call0.grp call0.q u + 2 ≤ 128 :=
  forall2 ⟨by decide +kernel, rfl, rfl, by decide +kernel, by decide +kernel, queued_is, rfl, by decide +kernel, by decide +kernel⟩
    ⟨by decide +kernel, rfl, rfl, by decide +kernel, by decide +kernel, queued_is, rfl, by decide +kernel, by decide +kernel⟩

/-! Hallmarks. -/

def lastMark : Nat := 0xFFFFF

/-- A hallmark of the highest number. -/
def mark0 (st : MarkState) : Mark := ⟨lastMark, st, (placedJob, 0), 0, [], false⟩

def srfM (ms : List Mark) : SrfEntry := { srf0 with
  next := lastMark
  floor := lastMark
  wclock := 10000
  marks := ms }

theorem mark_at {s : Machine.State} {m : Mark} (h : (decide (entry? s 0 5 = some (srfM [m])) && decide (m.seq = lastMark)) = true) :
    MarkAt s 0 5 lastMark (srfM [m]) [] m [] := by
  simp only [Bool.and_eq_true, decide_eq_true_eq] at h
  exact ⟨h.1, srf0_is.2.1, by decide, rfl, h.2, by simp [srfM]⟩

/-- Uniform register 8 holds the hallmark. -/
def marked0 (ms : List Mark) (f : Machine.State → Machine.State := fun s => s) : Site :=
  withS [(8, 0x005F_FFFF)] (fun k => k) (fun s => f (withSrf 5 (srfM ms) s))

/-- A draw of one triangle at 0x2000 to the surface, with the hallmark or without it. -/
def draw0 (h : Bool) (p : CallAt) : Call := ⟨3, 0, 0, 0, 0, 15, some 0,
  (if h then [0x0020_0200, 0x005F_FFFF] else [0x001C_0000]) ++ [0, 0, 0x2000, 0, 0, 0x0002_0002, 0x0001_0005], 0, 0, p, false, [], 0, false⟩

def drawing (h : Bool) (p : CallAt) (ms : List Mark) : Machine.State :=
  (marked0 ms (fun s => placed [0, 0, 0, 0x4180_0000, 0, 0, 0, 0x4180_0000, 0] { s with calls := [draw0 h p] })).s

/-- A window with no room. -/
def full0 : List Mark := List.replicate 65536 (mark0 .drawn)

/-- hmark.get of the last number, in a full window, after a wait at it, and of a handle that is not valid. -/
theorem witness_Hallmarks_get :
    (let x := withS [(8, 0x0001_0005)] (fun k => k) (withSrf 5 (srfM []));
      UniAt x (Form.of [uDst 10, uSrc 1 (r 8)]) ∧ Ready x ∧ Clean [x.gr.sreg 8] ∧ SrfAt x.s x.k.part 5 (x.gr.sreg 8).val (srfM []) ∧
      (srfM []).marks.length < 65536 ∧ (srfM []).next + 1 = 2 ^ 20 ∧ x.s.linkHeld = false) ∧
    (let x := withS [(8, 0x0001_0005)] (fun k => k) (withSrf 5 (srfM full0));
      UniAt x (Form.of [uDst 10, uSrc 1 (r 8)]) ∧ Ready x ∧ Clean [x.gr.sreg 8] ∧ SrfAt x.s x.k.part 5 (x.gr.sreg 8).val (srfM full0) ∧
      (srfM full0).marks.length = 65536 ∧ x.s.linkHeld = false) ∧
    (let x := site { blk0 with groups := [{ grp0 with threads := [{ thr 0 with run := .blocked (.hmark 5 0 10) }, { thr 1 with
        run := .blocked (.hmark 5 0 10) }] }] } [0, 1] [] (withSrf 5 (srfM []));
      UniAt x (Form.of [uDst 11, uSrc 1 (r 8)]) ∧ (∀ l ∈ x.act, (x.gr.thread l).run = .blocked (.hmark 5 0 10)) ∧
      entry? x.s x.k.part 5 = some (srfM []) ∧ x.s.linkHeld = false) ∧
    (UniAt both (Form.of [uDst 10, uSrc 1 (r 8)]) ∧ Ready both ∧ Clean [both.gr.sreg 8] ∧ surface? both.s both.k.part (both.gr.sreg 8).val = none) :=
  ⟨⟨uni_at (by decide +kernel), ready_ok (by decide +kernel), clean_ok (by decide +kernel), srf_at (by decide +kernel),
      by decide +kernel, by decide +kernel, by decide +kernel⟩,
    ⟨uni_at (by decide +kernel), ready_ok (by decide +kernel), clean_ok (by decide +kernel),
      ⟨rfl, by decide, rfl, rfl, by decide +kernel⟩, List.length_replicate, by decide +kernel⟩,
    ⟨uni_at (by decide +kernel), by decide +kernel, by decide +kernel, by decide +kernel⟩,
    uni_at (by decide +kernel), ready_ok (by decide +kernel), clean_ok (by decide +kernel), by decide +kernel⟩

/-- A hallmark that is drawn, closed and voided at once; one that is not; one with a draw; one whose close waits. -/
theorem witness_Hallmarks_end :
    (let x := marked0 [mark0 .drawn];
      UniAt x (Form.of [uSrc 1 (r 8)]) ∧ Clean [x.gr.sreg 8] ∧ (x.gr.sreg 8).val = markWord 5 lastMark ∧
      MarkAt x.s x.k.part 5 lastMark (srfM [mark0 .drawn]) [] (mark0 .drawn) [] ∧ Standing (mark0 .drawn) ∧
      (∀ y ∈ (srfM [mark0 .drawn]).marks, Standing y) ∧ x.s.linkHeld = false ∧ x.s.calls = [] ∧
      x.s.late = [] ∧ (∀ u ∈ x.gr.threads, u.run = .ready) ∧ ∀ u ∈ x.gr.queues, u.calls = []) ∧
    (UniAt both (Form.of [uSrc 1 (r 8)]) ∧ Clean [both.gr.sreg 8] ∧ both.s.mark? both.k.part (both.gr.sreg 8).val = none ∧
      both.s.linkHeld = false ∧ both.s.late = [] ∧ both.s.calls = [] ∧ (∀ u ∈ both.gr.threads, u.run = .ready) ∧
      ∀ u ∈ both.gr.queues, u.calls = []) ∧
    (let x := marked0 [mark0 .registering] (fun s => { s with calls := [draw0 true .unit] });
      UniAt x (Form.of [uSrc 1 (r 8)]) ∧ Clean [x.gr.sreg 8] ∧ (x.gr.sreg 8).val = markWord 5 lastMark ∧
      MarkAt x.s x.k.part 5 lastMark (srfM [mark0 .registering]) [] (mark0 .registering) [] ∧ Standing (mark0 .registering) ∧
      x.s.linkHeld = false ∧ x.s.late = [] ∧ (∀ u ∈ x.gr.threads, u.run = .ready) ∧ (x.s.calls.map (·.id)).Nodup) ∧
    (let m := mark0 .registered; let x := marked0 [m] (fun s => { s with late := [.mark ⟨true, 0, markWord 5 lastMark, 0, 0, 9, []⟩] });
      MarkAt x.s 0 5 lastMark (srfM [m]) [] m [] ∧ (∀ y ∈ (srfM [m]).marks, Standing y) ∧
      x.s.late = [.mark ⟨true, 0, markWord 5 lastMark, 0, 0, 9, []⟩] ∧ x.s.linkHeld = false ∧
      x.s.group? 0 0 = some x.gr ∧ (∀ u ∈ x.gr.queues, u.calls = []) ∧ x.s.calls = []) := by
  refine ⟨⟨uni_at (by decide +kernel), clean_ok (by decide +kernel), by decide +kernel, mark_at (by decide +kernel), .inl rfl, ?_,
      by decide +kernel, rfl, rfl, by decide +kernel, by decide +kernel⟩,
    ⟨uni_at (by decide +kernel), clean_ok (by decide +kernel), by decide +kernel⟩,
    ⟨uni_at (by decide +kernel), clean_ok (by decide +kernel), by decide +kernel, mark_at (by decide +kernel), .inr (.inl rfl),
      by decide +kernel, rfl, by decide +kernel, by decide +kernel⟩,
    mark_at (by decide +kernel), ?_, rfl, by decide +kernel, by decide +kernel, by decide +kernel, rfl⟩
  · intro y hy
    simp only [srfM, List.mem_singleton] at hy
    exact hy ▸ .inl rfl
  · intro y hy
    simp only [srfM, List.mem_singleton] at hy
    exact hy ▸ .inr (.inr rfl)

/-- A draw that waits in its window, one that is walked without a hallmark, and one with it; the watchdog of the floor. -/
theorem witness_Hallmarks_draw :
    (let s := drawing true .window [mark0 .drawn];
      s.calls.find? (fun f => f.id == 3) = some (draw0 true .window) ∧ recMark (draw0 true .window).words = some (markWord 5 lastMark) ∧
      MarkAt s 0 5 lastMark (srfM [mark0 .drawn]) [] (mark0 .drawn) [] ∧ nextToRegister s 0 (markWord 5 lastMark) = true) ∧
    (∀ h ∈ [false, true], let s := drawing h .unit [mark0 .registering]; let c := draw0 h .unit;
      WithUnit s c 0 0 ∧ drawCheck s c = .ok [5] ∧
      (s.calls.find? (fun f => f.part == c.part && isDraw f && f.at_ == .unit && recMark f.words == recMark c.words) = some c) ∧
      let w := walkFromTri c (s.srf c.part 5) (drawOf c.words) 0 ⟨[], 0, 0⟩ s (drawOf c.words).count;
      w.2.2 = .ok () ∧ w.2.1.quads.length = 1 ∧ w.2.1.skipped = 0 ∧ w.2.1.culled = 0 ∧ s.linkHeld = false ∧ c.cut = false ∧ s.upsets = [] ∧
      s.order.past = [] ∧
      MarkAt s 0 5 lastMark (srfM [mark0 .registering]) [] (mark0 .registering) []) ∧
    recMark (draw0 false .unit).words = none ∧
    (let s := (marked0 [mark0 .drawn]).s;
      (s.partOn 0 0).hwdog.toNat = (srfM [mark0 .drawn]).wclock ∧ srf0.home = 0 ∧ markInUse s 0 (markWord 5 lastMark) = false ∧
      s.ctx? 0 0 placedJob = some (Ctx.fresh placedJob 0 0) ∧ (Ctx.fresh placedJob 0 0).stop = .running ∧
      (Ctx.fresh placedJob 0 0).terminated = false) := by
  refine ⟨⟨by decide +kernel, by decide +kernel, mark_at (by decide +kernel), by decide +kernel⟩, forall2 ?_ ?_, by decide +kernel,
    by decide +kernel⟩
  · exact ⟨⟨by decide +kernel, rfl, by decide, by decide +kernel, rfl⟩, by decide +kernel, by decide +kernel, by decide +kernel,
      by decide +kernel, by decide +kernel, by decide +kernel, by decide +kernel, rfl, by decide +kernel, rfl, mark_at (by decide +kernel)⟩
  · exact ⟨⟨by decide +kernel, rfl, by decide, by decide +kernel, rfl⟩, by decide +kernel, by decide +kernel, by decide +kernel,
      by decide +kernel, by decide +kernel, by decide +kernel, by decide +kernel, rfl, by decide +kernel, rfl, mark_at (by decide +kernel)⟩

/-! Units. -/

/-- A call of a type with its words, which its unit has. -/
def unitCall (type : Nat) (ws : List Word) : Call := ⟨3, 0, 0, 0, 0, 15, some 0, ws, type, 7, .unit, false, [], 0, false⟩

/-- That call beside a surface at entry 5, with words at 0x2000 and an encoder slot. -/
def served (c : Call) (e : SrfEntry) (ws : List Word) (x : EncSlot) : Machine.State :=
  (site blk0 [0] [] (fun s => placed ws (sliced (withSrf 5 e { s with
    calls := [c]
    stks := s.stks.map (fun k => { k with encs := k.encs.set 7 x })
    parts := s.parts.map (fun p => { p with on := p.on.map (fun q => { q with params := { q.params with encSlots := [7] } }) }) })))).s

def closedSlot : EncSlot := ⟨false, 0, 0, 0, (0, 0), false, false, 0, 0, 0, none, 0, 0, [], [], [], []⟩
def openSlot (band : Nat) : EncSlot := ⟨true, band, 0, 0x0001_0005, (16, 16), true, false, 0x2000, 16, 0, none, 0, 0, [], [], [], []⟩

theorem with_unit {s : Machine.State} {e : Call} {type op : Nat} (h : (decide (s.calls.find? (fun f => f.id == e.id) = some e) &&
    decide (e.unitType = type) && decide (type < 8) && decide ((e.words.getD 0 0).toNat / 2 ^ 23 % 2 ^ 6 = op) &&
    decide (e.at_ = .unit)) = true) : WithUnit s e type op := by
  simp only [Bool.and_eq_true, decide_eq_true_eq] at h
  exact ⟨h.1.1.1.1, h.1.1.1.2, h.1.1.2, h.1.2, h.2⟩

theorem fits_ok {s : Machine.State} {e : Call} {va : Addr} {m : Nat} (h : ((List.range (m + 1)).all (fun n =>
    match unitPieces s e .store va n with
    | .ok _ => true
    | _ => false)) = true) : ∀ n, n ≤ m → ∃ ps, unitPieces s e .store va n = .ok ps := by
  intro n hn
  have := List.all_eq_true.mp h n (List.mem_range.mpr (by omega))
  revert this
  cases unitPieces s e .store va n <;> simp

/-- Where memory holds nothing, no table has an entry: no access of a unit waits for a page. -/
theorem unit_never_waits {s : Machine.State} (hm : s.mem = []) (hu : s.upsets = []) (ho : s.order.past = []) (e : Call) (va : Addr) (n : Nat) (p : List Addr) :
    unitPieces s e .load va n ≠ .wait p := by
  have hw : ∀ a, walk s e.stack e.part a = .state none := by
    intro a
    have hz : s.memDWord (entryAddr a.toNat (s.part e.part).table.toNat 0) = 0 := by
      simp only [State.memDWord, hm]
      rfl
    unfold walk
    split
    · rfl
    · simp only [walkFrom, entryAt, ho, List.isEmpty_nil, if_true, hz, hostFails_none hu]
      rfl
  simp only [unitPieces, hw, outcome]
  split
  · simp
  · rename_i h
    have hp : ∀ qs : List (Addr × Nat), (qs.map (fun q => (q.1, q.2, Tr.missing))) ≠ [] →
        (badCause (qs.map (fun q => (q.1, q.2, Tr.missing)))).isSome = true := by
      intro qs hq
      cases qs with
      | nil => exact absurd rfl hq
      | cons => rfl
    have hn : (partsOf va n).map (fun q => (q.1, q.2, Tr.missing)) = [] := by
      by_contra hc
      exact h (hp _ hc)
    exact absurd (List.map_eq_nil_iff.mp hn) (by unfold partsOf; dsimp only; split <;> simp)

/-- A ray along z from below, and its call; a node of a leaf and nothing, and the leaf's triangle. -/
def ray0 : Ray := ⟨(1 / 4, 1 / 4, -1), (0, 0, 1), 0, 2, false, false, false⟩

def rayCall : Call := unitCall 0 ([0x0080_0000, 0x2000, 0] ++
  [0x3E80_0000, 0x3E80_0000, 0xBF80_0000, 0, 0, 0, 0x3F80_0000, 0x4000_0000, 0, 0, 0])

def treeWords : List Word :=
  [0, 0, 0, 0x3F80_0000, 0x3F80_0000, 0] ++ [0, 0, 0, 0, 0, 0] ++ [0x2040, 0x8000_0000, 0, 0] ++
  [0, 0, 0, 0x3F80_0000, 0, 0, 0, 0x3F80_0000, 0, 9, 0, 0]

theorem witness_UnitCalls_trees :
    (let s : Machine.State := { served rayCall srf0 [] closedSlot with mem := [] };
      WithUnit s rayCall 0 1 ∧ rayOf rayCall.words = some ray0 ∧ recMark rayCall.words = none ∧ s.upsets = [] ∧ s.order.past = [] ∧
      ∀ va n p, unitPieces s rayCall .load va n ≠ .wait p) ∧
    (let s := served rayCall srf0 treeWords closedSlot; let pair := s.readPieces [⟨.mem, 0x4000_2000, 64⟩];
      WithUnit s rayCall 0 1 ∧ s.upsets = [] ∧ s.order.past = [] ∧
      unitPieces s rayCall .load ((payWord rayCall.words 1 ++ payWord rayCall.words 0).setWidth 56) 64 = .ok [⟨.mem, 0x4000_2000, 64⟩] ∧
      s.poisoned ⟨.mem, 0x4000_2000, 64⟩ = false ∧ refOf (leNat ((pair.drop 48).take 8)) = some ⟨2, 1, 0x2040⟩ ∧
      refOf (leNat (pair.drop 56)) = some ⟨0, 1, 0⟩ ∧ boxHit ray0 ray0.tmax (wordsOfBytes pair 16) = true ∧
      unitPieces s rayCall .load 0x2040 48 = .ok [⟨.mem, 0x4000_2040, 48⟩] ∧ s.poisoned ⟨.mem, 0x4000_2040, 48⟩ = false ∧
      ((wordsOfBytes (s.readPieces [⟨.mem, 0x4000_2040, 48⟩]) 12).getD 10 0).toNat < 2 ∧
      (wordsOfBytes (s.readPieces [⟨.mem, 0x4000_2040, 48⟩]) 12).getD 11 0 = 0) :=
  ⟨⟨with_unit (by decide +kernel), by decide +kernel, by decide +kernel, rfl, rfl, unit_never_waits rfl rfl rfl rayCall⟩,
    with_unit (by decide +kernel), by decide +kernel⟩

/-- A query without a direction, and a ray that meets a triangle. -/
theorem witness_UnitCalls_rays :
    (let e := unitCall 0 (0x0080_0000 :: List.replicate 12 0); let s := served e srf0 [] closedSlot;
      WithUnit s e 0 1 ∧ rayOf e.words = none ∧ recMark e.words = none) ∧
    (let r : Ray := ⟨(1 / 4, 1 / 4, -1), (0, 0, 1), 0, 2, false, false, false⟩;
      let ws : List Word := [0, 0, 0, 0x3F80_0000, 0, 0, 0, 0x3F80_0000, 0, 9, 0];
      (triHit r 2 ws 0).isSome = true ∧ (v3Of ws).isSome = true ∧ (v3Of (ws.drop 3)).isSome = true ∧ (v3Of (ws.drop 6)).isSome = true) :=
  ⟨⟨with_unit (by decide +kernel), by decide +kernel, by decide +kernel⟩, by decide +kernel⟩

/-- Depth, blend and clear calls at the last quad of a surface. -/
theorem witness_UnitCalls_banks :
    (let e := unitCall 1 [0x2000_0000, 0x0001_0005, 0x001C_0070, 0, 0xF, 0, 0, 0, 0, 0]; let x := { srf0 with fmt := 7 };
      let s := served e x [] closedSlot;
      WithUnit s e 1 0 ∧ bankTarget s e = .ok (5, 0) ∧ entry? s 0 5 = some x ∧ s.linkHeld = false ∧
      bankTurn s e (tileBank s e.part x 0) = .go ∧ x.poison = [] ∧ x.bytes.wf = true) ∧
    (let e := unitCall 1 ([0x2080_0000, 0x0001_0005, 0x001C_0070, 0, 0xF, 0] ++ List.replicate 8 0);
      let s := served e srf0 [] closedSlot;
      WithUnit s e 1 1 ∧ bankTarget s e = .ok (5, 0) ∧ entry? s 0 5 = some srf0 ∧ s.linkHeld = false ∧
      bankTurn s e (tileBank s e.part srf0 0) = .go ∧ srf0.poison = [] ∧ srf0.bytes.wf = true) ∧
    (let e := unitCall 1 [0x2100_0000, 0x0001_0005, 0, 0x000F_000F, 0x0010_0010, 0, 0]; let s := served e srf0 [] closedSlot;
      WithUnit s e 1 2 ∧ bankTarget s e = .ok (5, 0) ∧ entry? s 0 5 = some srf0 ∧ s.linkHeld = false ∧
      bankTurn s e (tileBank s e.part srf0 0) = .go) :=
  ⟨⟨with_unit (by decide +kernel), by decide +kernel⟩, ⟨with_unit (by decide +kernel), by decide +kernel⟩,
    with_unit (by decide +kernel), by decide +kernel⟩

/-- A texture of 16 by 16 texels at 0x2100, and tessellations of the greatest factors. -/
theorem witness_UnitCalls_filters :
    (let e := unitCall 2 ([0x4030_0000, 0x2000, 0, 0] ++ List.replicate 9 0);
      let s := served e srf0 [0x2100, 0x0100_0000, 0x000F_000F, 0] closedSlot;
      let ps : List Piece := [⟨.mem, 0x4000_2000, 32⟩]; let td : TexDesc := ⟨0x2100, 1, 16, 16, 1⟩;
      WithUnit s e 2 0 ∧ turnCome s e = true ∧ s.upsets = [] ∧ (∀ p ∈ ps, s.poisoned p = false) ∧
      unitPieces s e .load ((payWord e.words 1 ++ payWord e.words 0).setWidth 56) 32 = .ok ps ∧
      texDesc (wordsOfBytes (s.readPieces ps) 8) = some td ∧ (∀ f, quadLevels td e.words f = quadLevels td e.words false) ∧
      (texPixels e td (quadLevels td e.words false) [0, 1, 2, 3] s.draw).2 = .ok (List.replicate 16 0)) ∧
    (∀ quad ∈ [false, true], let e := unitCall 3 [if quad then 0x6084_0000 else 0x6004_0000, 0x3F3F]; let s := served e srf0 [] closedSlot;
      WithUnit s e 3 (if quad then 1 else 0) ∧ turnCome s e = true ∧ (payWord e.words 0).toNat % 2 ^ 6 + 1 = 64 ∧
      (payWord e.words 0).toNat / 2 ^ 8 % 2 ^ 6 + 1 = 64) :=
  ⟨⟨with_unit (by decide +kernel), by decide +kernel, rfl, by decide +kernel, by decide +kernel, by decide +kernel, by decide +kernel,
    by decide +kernel⟩, forall2 ⟨with_unit (by decide +kernel), by decide +kernel⟩ ⟨with_unit (by decide +kernel), by decide +kernel⟩⟩

/-- A frame that begins, its only band, its end, and calls that find the slot in the wrong state. -/
theorem witness_UnitCalls_encoder :
    (let e := unitCall 4 [0x8014_0000, 0x0001_0005, 0x100, 0x2000, 0, 16]; let s := served e srf0 [] closedSlot;
      (s.stks[0]?).bind (fun k => k.encs[7]?) = some closedSlot ∧ 7 ∈ (s.partOn 0 0).params.encSlots ∧ turnCome s e = true ∧
      WithUnit s e 4 0 ∧ closedSlot.open_ = false ∧ SrfAt s e.part 5 (payWord e.words 0) srf0 ∧
      sourceCheck srf0 closedSlot ((payWord e.words 1).getLsbD 8) ((payWord e.words 1).getLsbD 9) = none ∧
      ∀ n, n ≤ 16 → ∃ ps, unitPieces s e .store 0x2000 n = .ok ps) ∧
    (let e := unitCall 4 [0x8084_0000, 0]; let s := served e srf0 [] (openSlot 0);
      (s.stks[0]?).bind (fun k => k.encs[7]?) = some (openSlot 0) ∧ 7 ∈ (s.partOn 0 0).params.encSlots ∧ turnCome s e = true ∧
      WithUnit s e 4 1 ∧ (openSlot 0).open_ = true ∧ (openSlot 0).band = (payWord e.words 0).toNat % 2 ^ 6 ∧
      SrfAt s e.part 5 (openSlot 0).surface srf0 ∧ srf0.poison = [] ∧ s.linkHeld = false ∧
      ∀ n, 0 + n ≤ 16 → ∃ ps, unitPieces s e .store 0x2000 n = .ok ps) ∧
    (let e := unitCall 4 [0x8100_0000]; let s := served e srf0 [] (openSlot 1);
      (s.stks[0]?).bind (fun k => k.encs[7]?) = some (openSlot 1) ∧ turnCome s e = true ∧ WithUnit s e 4 2 ∧
      (openSlot 1).band = ((openSlot 1).size.2 + 63) / 64) ∧
    (let e := unitCall 4 [0x8100_0000]; let s := served e srf0 [] closedSlot; WithUnit s e 4 2 ∧ closedSlot.open_ = false) ∧
    (let e := unitCall 4 [0x8014_0000, 0x0001_0005, 0x100, 0x2000, 0, 16]; let s := served e srf0 [] (openSlot 1);
      WithUnit s e 4 0 ∧ (openSlot 1).open_ = true) := by
  refine ⟨⟨by decide +kernel, by decide +kernel, by decide +kernel, with_unit (by decide +kernel), rfl, ?_, by decide +kernel,
      fits_ok (by decide +kernel)⟩,
    ⟨by decide +kernel, by decide +kernel, by decide +kernel, with_unit (by decide +kernel), rfl, by decide +kernel, ?_, rfl, by decide +kernel,
      fun n hn => fits_ok (m := 16) (by decide +kernel) n (by omega)⟩,
    ⟨by decide +kernel, by decide +kernel, with_unit (by decide +kernel), by decide +kernel⟩, ⟨with_unit (by decide +kernel), rfl⟩,
    with_unit (by decide +kernel), rfl⟩
  · exact ⟨by decide +kernel, by decide, srf0_is.2.1, by decide +kernel, by decide +kernel⟩
  · exact ⟨by decide +kernel, by decide, srf0_is.2.1, by decide +kernel, by decide +kernel⟩

end Sys2Proof.Tests
end

