-- ==== Sys2Proof/Tests/Witness5.lean ====
section
/-!
SUPPORT. Witnesses, continued: counters, launches, system registers and traps.
-/

namespace Sys2Proof.Tests

open Sys2Proof.Machine Sys2Proof.Claims

-- The proofs of this file are checked one after another, so that they do not all hold memory at once.
set_option Elab.async false

/-! Counters. -/

/-- Counter i of partition 0 on stack 0. -/
def withCtr (i : Nat) (y : Counter) (s : Machine.State) : Machine.State :=
  s.mapPart 0 (fun p => { p with on := p.on.modify 0 (fun o => { o with counters := o.counters.set i y }) })

def ctr0 (st : CtrState) (total posted : Nat) (parent : Option Word := none) : Counter :=
  ⟨true, 1, 2, total, posted, st, parent, false, false, false, false⟩

/-- Counter 1023 in s8 and an amount in s9. -/
def onCtr (y : Counter) (amount : Word := 1) (f : Machine.State → Machine.State := fun s => s) : Site :=
  withS [(8, 0x8000_07FF), (9, amount)] (fun k => k) (fun s => f (withCtr 1023 y s))

theorem names_ok {s : Machine.State} {i : Nat} {id : Word} {y : Counter} (h : (decide (ctrAt s 0 0 i = some y) &&
    decide (id.toNat = y.level.toNat * 2 ^ 30 + 0 * 2 ^ 29 + y.gen.toNat * 2 ^ 10 + i) && decide (i < 1024) && decide (id ≠ 0) &&
    decide (y.used = true) && decide ((s.part 0).live = true) && !(s.partOn 0 0).params.columns.isEmpty) = true) :
    Names s 0 0 i id y := by
  simp only [Bool.and_eq_true, decide_eq_true_eq, Bool.not_eq_true'] at h
  exact ⟨h.1.1.1.1.1.1, h.1.1.1.1.1.2, ⟨by decide, h.1.1.1.1.2, h.1.1.1.2⟩, h.1.1.2, h.1.2, fun e => by simp [e] at h⟩

def at1023 (x : Site) (y : Counter) : Bool :=
  issues x && [Form.of [uSrc 1 (r 8)], Form.of [uSrc 1 (r 8), uSrc 2 (r 9)], Form.of [uDst 10, uSrc 1 (r 8)]].all (clear x) && !x.act.isEmpty &&
  [x.gr.sreg 8, x.gr.sreg 9].all (fun r => r.st != .poisoned) && decide ((x.gr.sreg 8).val = 0x8000_07FF) &&
  !x.s.linkHeld && decide (x.lanes.all (fun l => (x.gr.thread l).run == .ready) = true) &&
  (decide (ctrAt x.s 0 0 1023 = some y) &&
    decide ((0x8000_07FF : Word).toNat = y.level.toNat * 2 ^ 30 + 0 * 2 ^ 29 + y.gen.toNat * 2 ^ 10 + 1023) && decide (1023 < 1024) &&
    decide ((0x8000_07FF : Word) ≠ 0) && decide (y.used = true) && decide ((x.s.part 0).live = true) &&
    !(x.s.partOn 0 0).params.columns.isEmpty)

/-- The bundle names counter 1023 of its partition, which is y. -/
def At1023 (x : Site) (y : Counter) : Prop :=
  (∀ fm ∈ [Form.of [uSrc 1 (r 8)], Form.of [uSrc 1 (r 8), uSrc 2 (r 9)], Form.of [uDst 10, uSrc 1 (r 8)]], Meets x fm) ∧ x.act ≠ [] ∧
  Clean [x.gr.sreg 8, x.gr.sreg 9] ∧ (x.gr.sreg 8).val = 0x8000_07FF ∧ x.s.linkHeld = false ∧ Ready x ∧ Names x.s 0 0 1023 0x8000_07FF y

theorem at1023_ok {x : Site} {y : Counter} (h : at1023 x y = true) : At1023 x y := by
  simp only [at1023, Bool.and_eq_true] at h
  obtain ⟨⟨⟨⟨⟨⟨⟨h1, h2⟩, h3⟩, h4⟩, h5⟩, h6⟩, h7⟩, h8⟩ := h
  refine ⟨meets_all (by simp only [Bool.and_eq_true]; exact ⟨h1, h2⟩), fun e => by simp [e] at h3, clean_ok h4, of_decide_eq_true h5,
    by simpa using h6, ready_ok (of_decide_eq_true h7), names_ok (by simp only [Bool.and_eq_true]; exact h8)⟩

/-- A counter that is open, complete and cancelled; raised to the greatest total and past it; posted to before, and at, its total. -/
theorem witness_Counters :
    (let x := withS [(8, 0x8000_0001)];
      UniAt x (Form.of [uDst 10, uSrc 1 (r 8)]) ∧ Clean [x.gr.sreg 8] ∧ (0x8000_0001 : Word).toNat % 2 ^ 30 ≠ 0 ∧
      ctrAt x.s x.k.part x.k.stack 0 = some Counter.reset ∧ Counter.reset.used = false ∧ x.k.stack < 2) ∧
    (UniAt both (Form.of [uDst 10, uSrc 1 (r 8)]) ∧ Clean [both.gr.sreg 8] ∧ (both.gr.sreg 8).val.toNat % 2 ^ 30 = 0 ∧
      both.s.counter? both.k.part 0 = none ∧ both.s.linkHeld = false) ∧
    (∀ a ∈ [((0xFFFF_FFFD : Word), 2 ^ 32 - 1), (0xFFFF_FFFE, 2 ^ 32)], At1023 (onCtr (ctr0 .open 2 0) a.1) (ctr0 .open 2 0) ∧
      (ctr0 .open 2 0).total + ((onCtr (ctr0 .open 2 0) a.1).gr.sreg 9).val.toNat = a.2) ∧
    (∀ y ∈ [ctr0 .open 1 0, ctr0 .open 2 0, ctr0 .complete 1 1, ctr0 .cancelled 1 0], At1023 (onCtr y) y ∧ (onCtr y).s.accesses = [] ∧
      (onCtr y).s.launches = [] ∧ y.total - y.posted < 2 ^ 27 ∧ y.deferred = false) ∧
    (let y := ctr0 .open 1 0 (some 0xC000_0400); let x := onCtr y 1 (withCtr 0 ⟨true, 1, 3, 2, 0, .open, none, false, false, false, false⟩);
      At1023 x y ∧ Names x.s 0 0 0 0xC000_0400 ⟨true, 1, 3, 2, 0, .open, none, false, false, false, false⟩) ∧
    (let x := onCtr (ctr0 .open 1 0) 1 (fun s => { s with accesses := [load0] });
      At1023 x (ctr0 .open 1 0) ∧ x.act.flatMap (Claims.held x) = [5]) ∧
    (let x := withS [(8, 40)] (fun k => { k with launch := some 0 }) (fun s => { s with
        launches := [⟨0, List.replicate 16 0, false, false, 0, 0, 0, false, false, 0⟩] });
      UniAt x (Form.of [uSrc 1 (r 8)]) ∧ Clean [x.gr.sreg 8] ∧ x.k.launch = some 0) ∧
    (UniAt both (Form.of [uDst 10]) ∧ Ready both ∧ both.s.ctx? both.k.part both.k.stack both.k.job = some (Ctx.fresh placedJob 0 0) ∧
      (both.s.partOn both.k.part both.k.stack).params.sliceLen < 2 ^ 32) := by
  refine ⟨⟨uni_at (by decide +kernel), clean_ok (by decide +kernel), by decide +kernel⟩,
    ⟨uni_at (by decide +kernel), clean_ok (by decide +kernel), by decide +kernel⟩,
    forall2 ⟨at1023_ok (by decide +kernel), by decide +kernel⟩ ⟨at1023_ok (by decide +kernel), by decide +kernel⟩,
    forall4 ⟨at1023_ok (by decide +kernel), by decide +kernel⟩ ⟨at1023_ok (by decide +kernel), by decide +kernel⟩
      ⟨at1023_ok (by decide +kernel), by decide +kernel⟩ ⟨at1023_ok (by decide +kernel), by decide +kernel⟩,
    ⟨at1023_ok (by decide +kernel), names_ok (by decide +kernel)⟩, ⟨at1023_ok (by decide +kernel), by decide +kernel⟩,
    ⟨uni_at (by decide +kernel), clean_ok (by decide +kernel), by decide +kernel⟩,
    uni_at (by decide +kernel), ready_ok (by decide +kernel), by decide +kernel⟩

/-- cancel of the counter that a launch names, whose block is resident. -/
theorem witness_Counters_cancel :
    let x := onCtr (ctr0 .open 1 0) 1 (fun s => { s with
      launches := [⟨0, [0x100, 0, 0, 0, 0, 0, 0, 0, 0, 0, 0, 0x8000_07FF, 0xC000_0400, 0, 0, 0], false, false, 0, 1, 0, false, false, 0⟩] });
    At1023 x (ctr0 .open 1 0) ∧ ∀ l, x.s.launches[0]? = some l → l.posted = false ∧ recPart l.words = 0 ∧ 0x8000_07FF ∈ recCounters l.words :=
  ⟨at1023_ok (by decide +kernel), fun l h => by
    simp only [onCtr, withS, site, run, withCtr] at h
    injection h with h
    subst h
    decide +kernel⟩

/-! Launches. -/

/-- A record of one block of one thread, at 0x2000, with the job's counter; word 8 is given. -/
def record (w8 : Word) (c : List Word) : List Word := [0x100, 0, 0, 0, 0, 0, 0, 0, w8] ++ c ++ [0, 0, 0]

def launching (ws : List Word) : Site := withS [] (fun k => k) (fun s =>
  withCtr 1023 (ctr0 .open 1 0) (withCtr 0 ⟨true, 1, 3, 2, 0, .open, none, false, false, false, false⟩ (placed ws s)))

def good : List Word := record 0 [0, 0, 0, 0xC000_0400]
def bad : List Word := record 0x8000_0000 [0, 0, 0, 0]
def badNamed : List Word := record 0x8000_0000 [0, 0, 0x8000_07FF, 0]

/-- A record that is accepted, one that is reported, and one that flags a counter that it names. -/
theorem witness_Launches_records :
    (∀ ws ∈ [good, bad], let x := launching ws;
      UniAt x (Form.of [uSrc 1 (r 2) 2]) ∧ Awake x ∧ DescAt x (r 2) 64 tr0 ws ∧ launchesOpen x.s x.k.stack < 4096 ∧ x.s.linkHeld = false ∧
      x.s.accesses = [] ∧ recordOk x.s x.k ws = decide (ws = good)) ∧
    (let x := launching badNamed;
      UniAt x (Form.of [uSrc 1 (r 2) 2]) ∧ Awake x ∧ DescAt x (r 2) 64 tr0 badNamed ∧ recordOk x.s x.k badNamed = false ∧
      x.s.counter? 0 (badNamed.getD 11 0) = some (ctr0 .open 1 0) ∧ (badNamed.getD 11 0).toNat / 2 ^ 30 = 2 ∧
      x.s.counter? 0 (badNamed.getD 9 0) = none ∧ x.s.counter? 0 (badNamed.getD 10 0) = none) ∧
    (∀ n < 4, (launching bad).s.counter? 0 (bad.getD (9 + n) 0) = none) := by
  refine ⟨forall2 ?_ ?_, ⟨uni_at (by decide +kernel), ?_, desc_ok (by decide +kernel), by decide +kernel⟩, by decide +kernel⟩
  · exact ⟨uni_at (by decide +kernel), by unfold Awake; decide +kernel, desc_ok (by decide +kernel), by decide +kernel⟩
  · exact ⟨uni_at (by decide +kernel), by unfold Awake; decide +kernel, desc_ok (by decide +kernel), by decide +kernel⟩
  · unfold Awake; decide +kernel

/-- One block in a phase, saved or not. -/
def placing (ph : Phase) (saved : Bool) (since : Option Nat) (f : Machine.State → Machine.State := fun s => s) : Machine.State :=
  run { blk0 with
    phase := ph
    saved := saved
    deferredFrom := since } [0] [] f

/-- The vault of column 0 forecasts more than 115 degrees; 200 ms have passed. -/
def hot (s : Machine.State) : Machine.State := s.mapVault 0 0 (fun v => { v with forecast := 2000 })
def late (s : Machine.State) : Machine.State := { s with stks := s.stks.map (fun k => { k with us := 200000 }) }

/-- A block that is placed, one that is deferred, one that is restored, one deferred for 100 ms, and one that has ended. -/
theorem witness_Launches_blocks :
    (∀ p ∈ [(placing .waiting false none, true), (placing .waiting false none hot, false)],
      ∃ k, p.1.block? 0 = some k ∧ k.saved = false ∧ k.trapGroup = false ∧ k.phase = .waiting ∧ asks p.1 0 k = true ∧ allAsk p.1 0 = true ∧
        (choosePlace p.1 0).isSome = p.2 ∧ placesOf p.1 0 ≠ [] ∧ firstToPlace p.1 0 k = true) ∧
    (let s := placing .stopped true none (fun s => { s with
        blocks := s.blocks.map (fun k => { k with phase := .waiting }) });
      ∃ k, s.block? 0 = some k ∧ k.saved = true ∧ asks s 0 k = true ∧ allAsk s 0 = true ∧ firstToPlace s 0 k = true ∧
        choosePlace s 0 = some [(0, 0)] ∧
        (s.mapBlock 0 (fun o => { o with phase := if o.phase = .evicted then .waiting else o.phase })).block? 0 = some k) ∧
    (let s := placing .deferred false (some 0) (fun s => late (hot s));
      ∃ k, s.block? 0 = some k ∧ k.phase = .deferred ∧ k.heldCol = none ∧ k.deferredFrom = some 0 ∧
        0 + 100000 ≤ (s.stack k.stack).us.toNat ∧ ∀ o ∈ s.blocks, o.heldCol = none ∧ (mayHold s o = true → placedBefore s o k = false)) ∧
    (let s := run { blk0 with
        launch := some 0
        groups := [{ grp0 with threads := [{ thr 0 with run := .exited }, { thr 1 with run := .killed }] }] } [0] [] (fun s => withCtr 0
          ⟨true, 1, 3, 1, 0, .open, none, true, false, false, false⟩ { s with
            launches := [⟨0, good, false, false, 0, 1, 0, false, false, 0⟩] });
      ∃ k l, s.block? 0 = some k ∧ k.phase = .resident ∧ k.launch = some 0 ∧ s.launches[0]? = some l ∧ l.done + 1 = l.blocks ∧
        l.cancelled = false ∧ (∀ u ∈ k.allThreads, u.run = .exited ∨ u.run = .killed) ∧ k.seq.state = .idle ∧ k.seq.rows = [] ∧
        s.copies = [] ∧ s.calls = [] ∧ s.accesses = [] ∧ (∀ g ∈ k.groups, ∀ u ∈ g.queues, u.calls = []) ∧
        (recCounters l.words).find? (fun w => w != 0) = some 0xC000_0400) := by
  refine ⟨forall2 ⟨_, rfl, ?_⟩ ⟨_, rfl, ?_⟩, ⟨_, rfl, ?_⟩, ⟨_, rfl, ?_⟩, ⟨_, _, rfl, rfl, rfl, rfl, ?_⟩⟩ <;> decide +kernel

end Sys2Proof.Tests
end

