-- ==== Sys2Proof/Tests/Witness6.lean ====
section
/-!
SUPPORT. Witnesses, continued: system registers, traps, images and the events of contexts.
-/

namespace Sys2Proof.Tests

open Sys2Proof.Machine Sys2Proof.Claims

-- The proofs of this file are checked one after another, so that they do not all hold memory at once.
set_option Elab.async false

/-- Tables that map the first GiB as those of the small machine do. -/
def mapsLow (s : Machine.State) : Bool :=
  s.upsets.isEmpty && s.order.past.isEmpty && decide ((s.part 0).table.toNat = 0x1000) && decide (readEntry (s.memDWord 0x1000) 0 = .table 0x2000) &&
  decide (readEntry (s.memDWord 0x2000) 1 = .table 0x3000) && decide (readEntry (s.memDWord 0x3000) 2 = .leaf 0x4000_0000 0x0C)

theorem walk_low {s : Machine.State} (h : mapsLow s = true) {va : Addr} (hv : va.toNat < 2 ^ 30) (k : Nat) : walk s k 0 va = .page tr0 := by
  simp only [mapsLow, Bool.and_eq_true, decide_eq_true_eq, List.isEmpty_iff] at h
  obtain ⟨⟨⟨⟨⟨hu, ho⟩, h2⟩, h3⟩, h4⟩, h5⟩ := h
  have h1 : ¬ va.toNat / 2 ^ 47 = 0x1FF := by omega
  have e0 : ∀ n, 30 ≤ n → va.toNat / 2 ^ n = 0 := fun n hn =>
    Nat.div_eq_of_lt (Nat.lt_of_lt_of_le hv (Nat.pow_le_pow_right (by decide) hn))
  unfold walk
  rw [if_neg h1, h2]
  simp only [walkFrom, entryAt, entryAddr, ho, List.isEmpty_nil, if_true, levelShift, levelBits]
  rw [e0 47 (by decide), e0 38 (by decide), e0 30 (by decide)]
  simp only [Nat.zero_mod, Nat.mul_zero, Nat.add_zero, hostFails_none hu, h3, h4, h5, tr0]
  rfl

/-! System registers. -/

/-- Lanes 0 and 1 of a block of the job whose context is given. -/
def withCx (cx : Ctx) (fk : Block → Block := fun k => k) (f : Machine.State → Machine.State := fun s => s) : Site :=
  site (fk blk0) [0, 1] [] (fun s => f { s with ctxs := [cx] })

def cx0 : Ctx := Ctx.fresh placedJob 0 0

/-- A context whose handler is at 0x800. -/
def cxH : Ctx := { cx0 with tentry := 0x800 }

/-- Threads that wait for an invalidation. -/
def invalidating : Site := withCx cx0 (fun k => { k with groups := [{ grp0 with
  threads := [{ thr 0 with run := .blocked (.tlbinv 0) }, { thr 1 with run := .blocked (.tlbinv 0) }] }] })

/-- A privileged block, and a trap group, which meet every register's condition. -/
theorem witness_SystemRegisters :
    (∀ x ∈ [withCx cx0, withCx cx0 (fun k => { k with trapGroup := true })],
      x.Issues ∧ x.act ≠ [] ∧ x.s.ctx? x.k.part x.k.stack x.k.job = some cx0 ∧ (x.s.parts[x.k.part]?).isSome = true ∧
      ((x.s.parts[x.k.part]?).bind (fun P => P.on[x.k.stack]?)).isSome = true ∧ cx0.wps.length = 4 ∧ Clean [x.gr.sreg 8] ∧
      Ready x ∧ x.k.stack < x.s.stks.length ∧
      (∀ fm ∈ [(⟨[uDst 8], Accepts.plain, .priv⟩ : Form), ⟨[uRead 0 8], Accepts.plain, .priv⟩, ⟨[uDst 8], Accepts.plain, .any⟩,
        ⟨[uRead 0 8], Accepts.plain, .any⟩], Meets x fm)) ∧
    (∀ fm ∈ [(⟨[uDst 8], Accepts.plain, .handler⟩ : Form), ⟨[uRead 0 8], Accepts.plain, .handler⟩],
      Meets (withCx cx0 (fun k => { k with trapGroup := true })) fm) ∧
    (invalidating.Issues ∧ Meets invalidating ⟨[uRead 0 8], Accepts.plain, .priv⟩ ∧ needOf 0x052 = .priv ∧
      ∀ l ∈ invalidating.act, ∃ q, (invalidating.gr.thread l).run = .blocked (.tlbinv q)) := by
  refine ⟨forall2 ?_ ?_, meets_all (by decide +kernel), issues_ok (by decide +kernel), meets_one (by decide +kernel), by decide, ?_⟩
  · exact ⟨issues_ok (by decide +kernel), by decide +kernel, by decide +kernel, by decide +kernel, by decide +kernel, by decide +kernel,
      clean_ok (by decide +kernel), ready_ok (by decide +kernel), by decide +kernel, meets_all (by decide +kernel)⟩
  · exact ⟨issues_ok (by decide +kernel), by decide +kernel, by decide +kernel, by decide +kernel, by decide +kernel, by decide +kernel,
      clean_ok (by decide +kernel), ready_ok (by decide +kernel), by decide +kernel, meets_all (by decide +kernel)⟩
  · intro l hl
    have h : ∀ l ∈ invalidating.act, (invalidating.gr.thread l).run = .blocked (.tlbinv 0) := by decide +kernel
    exact ⟨0, h l hl⟩

/-! Traps. -/

/-- A park record of the threads of block 0, or of its sequencer. -/
def parked (seq : Bool) : ParkRecord := ⟨0, 0, [0, 1], seq, 13, 0x100, 0, List.replicate 16 0⟩

/-- A trap group of block 1 beside a block whose threads are parked. -/
def handling (tact : BitVec 3) (seq : Bool) : Site :=
  let k : Block := { blk0 with trapGroup := true }
  let victim : Block := { blk0 with groups := [{ grp0 with threads := [{ thr 0 with run := .parked }, { thr 1 with run := .parked }] }] }
  let s := run k [0, 1] [] (fun s => { s with
    ctxs := [{ cxH with
      park := [parked seq]
      tact := tact }]
    blocks := [victim, k]
    cur := .bundle 1 0 [0, 1] 0x100 [] 0 })
  ⟨s, 1, 0, [0, 1], 0x100, [], 0, k, grp0⟩

theorem witness_TrapsAndHandler :
    (let x := withCx cxH; x.Issues ∧ Clear (Form.of []) x.k x.gr x.act x.hints ∧ x.act ≠ [] ∧ x.lanes ≠ [] ∧ Placed x ∧ Served x cxH) ∧
    (let x := withCx cx0; x.Issues ∧ Clear (Form.of []) x.k x.gr x.act x.hints ∧ x.act ≠ [] ∧ Placed x ∧
      x.s.ctx? x.k.part x.k.stack x.k.job = some cx0 ∧ cx0.tentry = 0 ∧ cx0.terminated = false) ∧
    (Runs (seqRun { blk0 with seq := seq0 } []) 0 { blk0 with seq := seq0 } 0x100 0xE000_0000 ∧ seq0.chain = none ∧
      blk0.trapGroup = false ∧
      let s : Machine.State := { seqRun { blk0 with seq := seq0 } [] with ctxs := [cxH] };
      s.ctx? 0 0 placedJob = some cxH ∧ s.cur = .seq 0 0x100 0xE000_0000 ∧ s.block? 0 = some { blk0 with seq := seq0 }) ∧
    (∀ a ∈ [(3 : BitVec 3), 5], ∀ q ∈ [false, true], let x := handling a q;
      x.Issues ∧ Clear ⟨[], Accepts.plain, .handler⟩ x.k x.gr x.act x.hints ∧ x.act ≠ [] ∧
      x.s.ctx? x.k.part x.k.stack x.k.job = some { cxH with park := [parked q], tact := a } ∧ (parked q).blk ≠ x.blk ∧ (parked q).seq = q) ∧
    (let x := handling 4 false; x.Issues ∧ Clear ⟨[], Accepts.plain, .handler⟩ x.k x.gr x.act x.hints ∧ x.act ≠ [] ∧
      x.s.ctx? x.k.part x.k.stack x.k.job = some { cxH with park := [parked false], tact := 4 }) ∧
    (let x := handling 0 false; UniAt x ⟨[uDst 10, uSrc 1 (r 8)], Accepts.plain, .handler⟩ ∧ Clean [x.gr.sreg 8]) ∧
    (let s := (withCx { cxH with park := [parked false] }).s;
      s.ctx? 0 0 placedJob = some { cxH with park := [parked false] } ∧ ∀ k ∈ s.blocks, k.trapGroup = false) := by
  refine ⟨⟨issues_ok (by decide +kernel), clear_ok (by decide +kernel), by decide +kernel, by decide +kernel, ?_, ?_⟩,
    ⟨issues_ok (by decide +kernel), clear_ok (by decide +kernel), by decide +kernel, ?_, by decide +kernel, rfl, rfl⟩,
    ⟨runs_ok (by decide +kernel), rfl, rfl, by decide +kernel, rfl, by decide +kernel⟩, forall2 (forall2 ?_ ?_) (forall2 ?_ ?_),
    ⟨issues_ok (by decide +kernel), clear_ok (by decide +kernel), by decide +kernel⟩,
    ⟨uni_at (by decide +kernel), clean_ok (by decide +kernel)⟩, by decide +kernel⟩
  · unfold Placed; decide +kernel
  · unfold Served; decide +kernel
  · unfold Placed; decide +kernel
  all_goals exact ⟨issues_ok (by decide +kernel), clear_ok (by decide +kernel), by decide +kernel⟩

/-! Images. -/

/-- A block of the job with index 5, stopped or resident. -/
def target0 (ph : Phase) : Block := { Block.fresh none 5 0 0 placedJob false true (2, 1, 1) 32 32 1024 0x100 0 with phase := ph }

/-- A bundle beside that block, with the address of an image at 0x2000 that names the block of an index. -/
def imaging (ph : Phase) (lin : Word) : Site := withS [] (fun k => k) (fun s => placed [0, 0, placedJob, lin] { s with
  blocks := s.blocks ++ [target0 ph] })

theorem image_site {x : Site} {ws : List Word} (h : (issues x && clear x ⟨[uSrc 1 (r 2) 2], Accepts.plain, .priv⟩ && !x.act.isEmpty &&
    decide ((x.s.core x.k.stack x.k.core).sweepTo ≤ x.s.now x.k.stack x.k.core) && decide (x.s.accesses = []) && desc 2 16 tr0 ws x &&
    decide (pairNat (x.gr.sregsAt 2 2) % 64 = 0) && x.s.mem.wf && !x.s.linkStalls &&
    decide (∀ k ∈ x.s.blocks, ∀ u ∈ k.allThreads, u.run ≠ .blocked .monitor)) = true) : ImageSite x (r 2) tr0 ws := by
  simp only [Bool.and_eq_true, decide_eq_true_eq, Bool.not_eq_true'] at h
  obtain ⟨⟨⟨⟨⟨⟨⟨⟨⟨h1, h2⟩, h3⟩, h4⟩, h5⟩, h6⟩, h7⟩, h8⟩, h9⟩, h10⟩ := h
  exact ⟨issues_ok h1, clear_ok h2, fun e => by simp [e] at h3, h4, settled_none h5, desc_ok h6, h7, h8, h9, h10⟩

/-- The first GiB is mapped for a bundle. -/
theorem mapped_low {x : Site} {use : Use} {n : Nat} (h : (mapsLow x.s && decide (x.k.part = 0) && x.k.priv &&
    decide ((x.s.core x.k.stack x.k.core).tlb = []) && permit tr0 use true) = true) (hn : n ≤ 2 ^ 24) : Mapped x use 0x2000 n tr0 := by
  simp only [Bool.and_eq_true, decide_eq_true_eq] at h
  obtain ⟨⟨⟨⟨h1, h2⟩, h3⟩, h4⟩, h5⟩ := h
  refine ⟨fun m j hj => ?_, ?_⟩
  · have hv : ((0x2000 : Addr) + BitVec.ofNat 56 j).toNat < 2 ^ 30 := by
      have e : (0x2000 : Addr).toNat = 8192 := by decide
      rw [BitVec.toNat_add, BitVec.toNat_ofNat, e]
      omega
    have h6 : mapsLow { x.s with moves := m } = true := h1
    have h7 : (({ x.s with moves := m } : Machine.State).core x.k.stack x.k.core).tlb = [] := h4
    have hc : coreLookup { x.s with moves := m } x.k.stack x.k.core x.k.part ((0x2000 : Addr) + BitVec.ofNat 56 j) = .page tr0 := by
      unfold coreLookup
      rw [h2, h7, walk_low h6 hv]
      rfl
    rw [hc, h3]
    simp only [outcome, h5, if_pos]
  · have : (0x2000 : Addr).toNat = 8192 := by decide
    simp only [this, tr0]
    omega

theorem target_regular : Regular (target0 .stopped) := by unfold Regular; decide +kernel

theorem witness_ImagesAndPrivilege :
    (∀ p ∈ [Phase.stopped, .resident], let x := imaging p 5;
      ImageAt x (r 2) tr0 [0, 0, placedJob, 5] 1 (target0 p) ∧ BitVec.ofNat 56 (pairNat (x.gr.sregsAt 2 2)) = 0x2000 ∧ Regular (target0 p) ∧
      fillsPending x.s 1 = false ∧ recordsOf x.s 1 (target0 p) = [] ∧ pendingFills x.s 1 = [] ∧ x.s.poison = [] ∧
      Mapped x .store 0x2000 (2 ^ 24) tr0 ∧ Mapped x .store 0x2000 64 tr0 ∧
      Mapped x .load 0x2000 (64 + (target0 p).groups.length * imageSec 32 32 + (target0 p).scratchSize) tr0) ∧
    imageOk (imaging .stopped 5).s 1 (target0 .stopped)
      ((imaging .stopped 5).s.mem.read 0x4000_2000 (64 + (target0 .stopped).groups.length * imageSec 32 32 + 1024)) = false ∧
    (let x := imaging .stopped 6;
      ImageSite x (r 2) tr0 [0, 0, placedJob, 6] ∧ imageTarget x.s x.k placedJob 6 = none ∧ Mapped x .store 0x2000 64 tr0) ∧
    (UniAt both ⟨[], Accepts.plain, .priv⟩ ∧ both.s.ctx? both.k.part both.k.stack both.k.job = some cx0) ∧
    (UniAt both (Form.of [uDst 10, uSrc 1 (r 8)]) ∧ Clean [both.gr.sreg 8]) := by
  refine ⟨forall2 ?_ ?_, by decide +kernel, ⟨image_site (by decide +kernel), by decide +kernel, mapped_low (by decide +kernel) (by decide)⟩,
    ⟨uni_at (by decide +kernel), by decide +kernel⟩, uni_at (by decide +kernel), clean_ok (by decide +kernel)⟩
  · exact ⟨⟨image_site (by decide +kernel), by decide +kernel, by decide +kernel, by decide +kernel, by decide +kernel⟩,
      by decide +kernel, target_regular, by decide +kernel, by decide +kernel, by decide +kernel, by decide +kernel,
      mapped_low (by decide +kernel) (by decide), mapped_low (by decide +kernel) (by decide), mapped_low (by decide +kernel) (by decide +kernel)⟩
  · exact ⟨⟨image_site (by decide +kernel), by decide +kernel, by decide +kernel, by decide +kernel, by decide +kernel⟩,
      by decide +kernel, by unfold Regular; decide +kernel, by decide +kernel, by decide +kernel, by decide +kernel, by decide +kernel,
      mapped_low (by decide +kernel) (by decide), mapped_low (by decide +kernel) (by decide), mapped_low (by decide +kernel) (by decide +kernel)⟩

/-! Events of contexts. -/

/-- One block of one context; threads run or wait. -/
def held (fk : Block → Block) (q : Run) (cx : Ctx) (f : Machine.State → Machine.State := fun s => s) : Machine.State :=
  (withCx cx (fun k => fk { k with groups := [{ grp0 with threads := [{ thr 0 with run := q }, { thr 1 with run := q }] }] }) f).s

/-- A context whose slice is over. -/
def cxS : Ctx := { cx0 with slice := 1000000000000 }

theorem only_block {fk : Block → Block} {q : Run} {cx : Ctx} {f : Machine.State → Machine.State}
    (hf : ((held fk q cx f).blocks.length == 1) = true) : ∀ b o, b ≠ 0 → (held fk q cx f).block? b = some o → False := by
  intro b o hb ho
  have h : (held fk q cx f).blocks.length = 1 := by simpa using hf
  have : b < (held fk q cx f).blocks.length := (List.getElem?_eq_some_iff.mp ho).1
  omega

theorem witness_ContextEvents_stops :
    (∀ q ∈ [false, true], let s := held (fun k => k) .ready { cx0 with stop := .stopping q };
      s.ctx? 0 0 placedJob = some { cx0 with stop := .stopping q } ∧
      (∃ k, s.block? 0 = some k ∧ k.stack = 0 ∧ k.job = placedJob ∧ k.phase = .resident ∧ k.seq.rows = []) ∧
      (∀ b' o, b' ≠ 0 → s.block? b' = some o → o.stack = 0 → o.job = placedJob → o.phase ≠ .resident ∧ o.phase ≠ .evicted) ∧
      s.calls = [] ∧ (s.partOn 0 0).pending = none) ∧
    (let s := held (fun k => { k with missing := [0x5000] }) (.blocked (.pages [0x5000] false)) cx0;
      ∃ k, s.block? 0 = some k ∧ evictable s 0 k = true ∧ k.missing ≠ []) ∧
    (let s := held (fun k => k) .ready cxS;
      s.ctx? 0 0 placedJob = some cxS ∧ cxS.stop = .running ∧ (s.partOn cxS.part 0).params.sliceLen ≤ cxS.slice ∧
      ∀ b k, s.block? b = some k → waitsFor s 0 0 placedJob b k = false) ∧
    (let s := held (fun k => { k with vregs := 256 }) .ready cxS (fun s => { s with
        blocks := (s.blocks.map (fun k => { k with groups := List.replicate 32 (k.groups.headD grp0) })) ++ [{ blk0 with
          phase := .waiting
          job := 0xC000_0401
          vregs := 256
          scratchSize := 524288 }] });
      ∃ b k, s.block? b = some k ∧ waitsFor s 0 0 placedJob b k = true) := by
  refine ⟨forall2 ⟨by decide +kernel, ⟨_, rfl, by decide +kernel⟩, ?_, rfl, by decide +kernel⟩
      ⟨by decide +kernel, ⟨_, rfl, by decide +kernel⟩, ?_, rfl, by decide +kernel⟩,
    ⟨_, rfl, by decide +kernel⟩, ⟨by decide +kernel, rfl, by decide +kernel, ?_⟩, ⟨1, _, rfl, by decide +kernel⟩⟩
  · exact fun b o hb ho => (only_block (by decide +kernel) b o hb ho).elim
  · exact fun b o hb ho => (only_block (by decide +kernel) b o hb ho).elim
  · intro b k hb
    by_cases h : b = 0
    · subst h
      have e : (held (fun k => k) .ready cxS).block? 0 = some ((held (fun k => k) .ready cxS).blocks.headD blk0) := by decide +kernel
      rw [e] at hb
      injection hb with hb
      subst hb
      decide +kernel
    · exact (only_block (by decide +kernel) b k h hb).elim

/-- The watchdogs of a barrier, of a regroup word and of the sequencer; a breakpoint; a step that has issued; a trigger. -/
theorem witness_ContextEvents_ends :
    (∀ p ∈ [(Run.blocked (.gate 15 true), cxH), (.blocked .regroupRegs, cxH)],
      let s := held (fun k => { k with
        bwdog := 20000
        groups := k.groups.map (fun g => { g with threads := g.threads.map (fun t => { t with rwdog := 1000 }) }) }) p.1 p.2;
      ∃ k g t, s.block? 0 = some k ∧ s.group? 0 0 = some g ∧ g.threads[0]? = some t ∧ k.phase = .resident ∧ t.run = p.1 ∧
        s.ctx? k.part k.stack k.job = some cxH ∧ cxH.stop = .running ∧ cxH.terminated = false ∧ (s.partOn k.part k.stack).bwdog.toNat = k.bwdog ∧
        (s.partOn k.part k.stack).rwdog.toNat = t.rwdog) ∧
    (let s := held (fun k => { k with
        bwdog := 20000
        seq := { seq0 with wait := .mwait 15 1 } }) .ready cxH;
      ∃ k, s.block? 0 = some k ∧ (s.partOn k.part k.stack).bwdog.toNat = k.bwdog ∧ (∀ v ∈ k.allThreads, barrierWait v = none) ∧
        k.seq.state = .running ∧ k.seq.wait = .mwait 15 1 ∧ (k.nbars.getD 15 NBar.fresh).a.toNat < 1 ∧ k.seq.chain = none ∧
        s.ctx? k.part k.stack k.job = some cxH ∧ cxH.tentry ≠ 0 ∧ k.trapGroup = false) ∧
    (let s := held (fun k => k) .ready cx0 (fun s => { s with stks := s.stks.map (fun k => { k with
        traceSize := 4
        dbg := 2
        bps := k.bps.set 7 ⟨true, placedJob, 0x100, 0, 0, true, true, 0⟩ }) });
      ∃ k g t, s.block? 0 = some k ∧ s.group? 0 0 = some g ∧ g.threads[0]? = some t ∧ k.phase = .resident ∧ t.hints = [] ∧
        canIssue s 0 0 k g 0 t = true ∧ breakpointFor s k g 0 t t.pc = some 7 ∧
        ∃ st, s.stks[k.stack]? = some st ∧ st.trace.length < st.traceSize ∧ st.traceDropped = 0) ∧
    (let cx := { cx0 with step := some ((0 : Word), 0, 0), stepped := true }; (held (fun k => k) .ready cx).ctx? 0 0 placedJob = some cx) ∧
    (let s := held (fun k => { k with snapDue := [7] }) .ready cx0;
      ∃ k, s.block? 0 = some k ∧ k.phase = .resident ∧ (7 : Word).toNat / 2 ^ 20 = s.moduleNum ∧ (7 : Word).toNat % 2 ^ 20 ≠ s.snapCount ∧
        k.snapDue = [7]) ∧
    (let s := held (fun k => k) .ready cx0;
      ∃ k, s.block? 0 = some k ∧ (0x0010_0001 : Word).toNat / 2 ^ 20 ≠ s.moduleNum ∧ k.snapDue = [] ∧ k.snapLatched = []) := by
  refine ⟨forall2 ⟨_, _, _, rfl, rfl, rfl, ?_⟩ ⟨_, _, _, rfl, rfl, rfl, ?_⟩, ⟨_, rfl, ?_⟩, ⟨_, _, _, rfl, rfl, rfl, ?_⟩, ?_, ⟨_, rfl, ?_⟩,
    ⟨_, rfl, ?_⟩⟩
  · decide +kernel
  · decide +kernel
  · decide +kernel
  · exact ⟨by decide +kernel, by decide +kernel, by decide +kernel, by decide +kernel, _, rfl, by decide +kernel⟩
  · decide +kernel
  · decide +kernel
  · decide +kernel

end Sys2Proof.Tests
end

