-- ==== Sys2Proof/Tests/Witness7.lean ====
section
/-!
SUPPORT. Witnesses, continued: power, the host and the fabric, management commands, debug, and the step.
-/

namespace Sys2Proof.Tests

open Sys2Proof.Machine Sys2Proof.Claims

-- The proofs of this file are checked one after another, so that they do not all hold memory at once.
set_option Elab.async false

/-! Power. -/

/-- The small machine, with core 0 of stack 0 changed. -/
def cored (f : Core → Core) : Machine.State := run { blk0 with charge := (3, 7) } [0] [] (fun s => s.mapCore 0 0 f)

/-- Clusters that stalled for 10 of 16 cycles of a window, in a state. -/
def stalled (st : Nat) : Machine.State := cored (fun c => { c with
  state := st
  clusters := c.clusters.map (fun a => { a with
    curC := 10
    curM := 6 }) })

/-- A step of the core to a slower state, and one of a lane cluster, which are over. -/
def stepping (q : Option Nat) : PowerStep := ⟨q, 1, 0, 0, 0⟩

/-- Readings of 110.0, 115.0 and 115.1 degrees; windows; steps; a cap that power exceeds, meets, and is 50 W under. -/
theorem witness_PowerEvents :
    (∀ n ∈ [(1100 : Nat), 1151], ∃ st v, (cored id).stks[0]? = some st ∧ st.vaults[0]? = some v ∧ (List.replicate 32 n)[0]? = some n ∧
      v.throttled = false ∧ ∃ c, core? (cored id) 0 0 = some c ∧ c.step = none ∧ c.state ≠ 4) ∧
    (∃ k, (cored id).block? 0 = some k ∧ k.phase = .resident ∧ k.stack = 0 ∧ k.charge.2 ≠ 0) ∧
    (∀ st ∈ [(3 : Nat), 4], ∃ c, core? (stalled st) 0 0 = some c ∧ c.clusters.length = 4 ∧ c.step = none ∧
      0 < windowSum (stalled st) 0 0 (fun a => a.curC) ∧ (∀ a ∈ c.clusters, a.curC < 2 ^ 32 ∧ a.curM < 2 ^ 32) ∧
      6 * windowSum (stalled st) 0 0 (fun a => a.curC) ≤ 10 * windowSum (stalled st) 0 0 (fun a => a.curM) ∧ c.state = st) ∧
    (∀ q ∈ [(none : Option Nat), some 3], let s := cored (fun c => { c with step := some (stepping q) });
      ∃ c, core? s 0 0 = some c ∧ c.step = some (stepping q) ∧ (stepping q).ends ≤ 10 * (s.stack 0).us.toNat ∧ c.want = []) ∧
    (cored id).upsets = [] ∧ 190 ≤ (cored id).capHost := by
  refine ⟨forall2 ⟨_, _, rfl, rfl, by decide, by decide +kernel, _, rfl, by decide +kernel⟩
      ⟨_, _, rfl, rfl, by decide, by decide +kernel, _, rfl, by decide +kernel⟩, ⟨_, rfl, by decide +kernel⟩,
    forall2 ⟨_, rfl, by decide +kernel⟩ ⟨_, rfl, by decide +kernel⟩, forall2 ⟨_, rfl, by decide +kernel⟩ ⟨_, rfl, by decide +kernel⟩,
    rfl, by decide +kernel⟩

/-! The host and the fabric. -/

theorem seen_ok {s : Machine.State} {k : Nat} {use : Use} {n : Nat} (h : (decide (∀ j < n, outcome (walk s k 0 (0x2000 + BitVec.ofNat 56 j))
    (0x2000 + BitVec.ofNat 56 j) use false = .ok tr0) && decide (0 < n) && decide (n ≤ 4096)) = true) : SeenAt s k 0 use 0x2000 n tr0 := by
  simp only [Bool.and_eq_true, decide_eq_true_eq] at h
  refine ⟨h.1.1, ?_, by decide, h.1.2⟩
  have : (0x2000 : Addr).toNat = 8192 := by decide
  omega

def quiet : Machine.State := run blk0 [0]

/-- Stack 0 of the small machine changed. -/
def stacked (f : Stack → Stack) : Machine.State := { quiet with stks := quiet.stks.modify 0 f }

/-- The host writes and reads through stack 0; and, while that is absent, through stack 1, which cannot reach its memory. -/
theorem witness_HostAndFabric :
    (∃ P, quiet.parts[0]? = some P ∧ P.hostQueue = []) ∧ quiet.mem.wf = true ∧ hostSide quiet = 0 ∧ InWindow quiet 0 0x2000 4 ∧
    SeenAt quiet 0 0 .store 0x2000 4 tr0 ∧ SeenAt quiet 0 0 .load 0x2000 8 tr0 ∧ SeenAt quiet 0 0 .store 0x2000 8 tr0 ∧
    Reaches quiet 0 (tr0.pa (0x2000 : Addr).toNat) 8 ∧ ¬ InWindow quiet 0 0x10_0000_0000 4 ∧
    (let s := stacked (fun st => { st with sec := 0 });
      hostSide s = 1 ∧ InWindow s 0 0x2000 4 ∧ SeenAt s 1 0 .store 0x2000 4 tr0 ∧
      ∀ j < 4, s.unreachablePA (tr0.pa (0x2000 : Addr).toNat + j) 1 = true) ∧
    quiet.upsets = [] ∧ quiet.poison = [] ∧ quiet.order.past = [] ∧ quiet.fabricIn = [] ∧ (quiet.ports[3]?).isSome = true := by
  refine ⟨⟨_, rfl, rfl⟩, by decide +kernel, by decide +kernel, ?_, seen_ok (by decide +kernel), seen_ok (by decide +kernel),
    seen_ok (by decide +kernel), by unfold Reaches; decide +kernel, ?_,
    ⟨by decide +kernel, ?_, seen_ok (by decide +kernel), by decide +kernel⟩, by decide +kernel⟩ <;> (unfold InWindow; decide +kernel)

/-! Management commands. -/

theorem up_ok {s : Machine.State} {i : Nat} (h : (s.stks[i]?).any (fun st => decide (st.sec = 1) && decide (st.heldReset = false)) = true) :
    Up s i := by
  unfold Up
  revert h
  cases s.stks[i]? with
  | none => intro h; cases h
  | some st =>
    intro h
    simp only [Option.any_some, Bool.and_eq_true, decide_eq_true_eq] at h
    exact ⟨st, rfl, h⟩

theorem not_up {s : Machine.State} {i : Nat} (h : (s.stks[i]?).any (fun st => decide (st.sec = 1) && decide (st.heldReset = false)) = false) :
    ¬ Up s i := by
  rintro ⟨st, h1, h2, h3⟩
  simp [h1, h2, h3] at h

/-- Columns of one stack for a partition. -/
def params0 (cols : List Nat) : PartParams := { PartParams.none with
  columns := cols
  sliceLen := 2 ^ 20 }

/-- The partition with columns 0, and its context, or no context of it. -/
def parted (ctx : Bool) : Machine.State := (run blk0 [0] [] (fun s => { s with ctxs := if ctx then s.ctxs else [] }))

/-- A partition with a resize that waits. -/
def pending0 : Machine.State := quiet.mapPart 0 (fun p => { p with on := p.on.map (fun q => { q with pending := some (params0 [1]) }) })

theorem direct_ok {s : Machine.State} (h : (s.cmds.isEmpty && decide (s.cur ≠ .command)) = true) : Direct s := by
  simpa [Direct] using h

/-- Commands wait in the queue behind one of the partition. -/
def queued0 : Machine.State := { quiet with cmds := [.destroy 0] }

theorem witness_PartitionCommands :
    (∀ s ∈ [quiet, State.reset, pending0, parted true], Direct s) ∧
    (queued0.cur ≠ .command ∧ ∃ c ∈ queued0.cmds, cmdPart c = some 0) ∧
    (paramsOk (params0 [32]) = false ∧ present quiet 0 = true ∧ present State.reset 0 = false ∧ present State.reset 1 = false) ∧
    (¬ Up State.reset 0 ∧ (params0 [1]).columns ≠ []) ∧
    (Up quiet 0 ∧ Up quiet 1 ∧ (quiet.part 0).live = true) ∧
    (∃ P, quiet.parts[31]? = some P ∧ P.live = false ∧ paramsOk (params0 [1]) = true ∧ paramsOk (params0 []) = true ∧
      paramsFree quiet 31 0 (params0 [1]) = true ∧ paramsFree quiet 31 1 (params0 []) = true ∧ (0x1000 : Addr).toNat % 4096 = 0) ∧
    (resizing pending0 0 = true ∧ (pending0.parts[0]?).isSome = true) ∧
    (resizing State.reset 0 = false ∧ (State.reset.parts[0]?).isSome = true ∧ (State.reset.part 0).live = false) ∧
    (∀ c ∈ [false, true], let s := parted c;
      ∃ P q, s.parts[0]? = some P ∧ P.on[0]? = some q ∧ resizing s 0 = false ∧ Up s 0 ∧ P.live = true ∧ paramsOk (params0 [1]) = true ∧
        paramsFree s 0 0 (params0 [1]) = true ∧ (params0 [1]).slices = q.params.slices ∧ P.srfs.all (fun e => e.kind == 0) = true ∧
        (params0 [1]).columns ≠ q.params.columns ∧ q.params.columns = (params0 [0]).columns ∧
        (c = false → s.ctxs = []) ∧ (c = true → s.ctx? 0 0 placedJob = some cx0)) ∧
    (let s := quiet.mapPart 1 (fun p => { p with
        live := true
        on := p.on.map (fun q => { q with params := params0 [1] }) });
      paramsFree s 0 0 (params0 [1]) = false) := by
  refine ⟨forall4 (direct_ok (by decide +kernel)) (direct_ok (by decide +kernel)) (direct_ok (by decide +kernel)) (direct_ok (by decide +kernel)),
    ⟨by decide +kernel, _, List.mem_singleton.mpr rfl, rfl⟩, by decide +kernel,
    ⟨not_up (by decide +kernel), by decide⟩, ⟨up_ok (by decide +kernel), up_ok (by decide +kernel), by decide +kernel⟩,
    ⟨_, rfl, by decide +kernel⟩, by decide +kernel, by decide +kernel,
    forall2 ⟨_, _, rfl, rfl, by decide +kernel, up_ok (by decide +kernel), ?_⟩ ⟨_, _, rfl, rfl, by decide +kernel, up_ok (by decide +kernel), ?_⟩,
    by decide +kernel⟩ <;> decide +kernel

/-- A surface on the banks of slice 0, which is to move to those of slice 1; and a stop of the partition's only context while a
resize waits for it. -/
theorem witness_PartitionCommands_moves :
    (let s := (withS [] (fun k => k) (fun s => sliced (withSrf 5 srf0 s))).s; let v := { params0 [0] with slices := [1] };
      resizing s 0 = false ∧ Up s 0 ∧ (s.part 0).live = true ∧ paramsOk v = true ∧ paramsFree s 0 0 v = true ∧
      v.columns = (s.partOn 0 0).params.columns ∧ bankList v ≠ bankList (s.partOn 0 0).params ∧ (5, srf0) ∈ surfacesOn s 0 0 ∧
      (refit s.moves (bankList v).length 0 [] (surfacesOn s 0 0)).isSome = true) ∧
    (∀ z ∈ [false, true], let s := { parted true with
        ctxs := [{ cx0 with stop := .stopping z }]
        blocks := [] };
      ((s.partOn 0 0).pending = none ∧ surfacesOn s 0 0 = [] ∧ cx0.terminated = false ∧ (params0 [1]).columns ≠ []) ∧
      paramsFree s 0 0 (params0 [1]) = true) := by
  refine ⟨⟨by decide +kernel, up_ok (by decide +kernel), by decide +kernel⟩, by decide +kernel⟩

theorem witness_StackCommands :
    (∃ st, State.reset.stks[0]? = some st ∧ st.sec = 0) ∧ State.reset.late = [] ∧
    (∃ st, quiet.stks[0]? = some st ∧ st.sec ≠ 0 ∧ st.heldReset = false) ∧
    (∃ st, (stacked (fun st => { st with sec := 2 })).stks[0]? = some st ∧ st.sec = 2) ∧
    (∀ p ∈ [RetPart.core 0 127, .bank 0 2047, .lane 0 31 271, .dramRow 0 31 7 0 0],
      ¬ Up State.reset (retStack p) ∧ Up quiet (retStack p) ∧ partExists p = true) ∧
    partExists (.core 0 128) = false ∧
    (∀ p ∈ [RetPart.core 0 127, .bank 0 2047, .lane 0 31 271, .dramRow 0 31 7 0 0],
      spent (stacked (fun st => { st with
        reserveCores := 0
        reserveBanks := 0 })) p = decide (p = .core 0 127 ∨ p = .bank 0 2047)) ∧
    (∀ p ∈ [RetPart.core 0 127, .bank 0 2047, .lane 0 31 271, .dramRow 0 31 7 0 0],
      spent (stacked (fun st => { st with
        reserveCores := 1
        reserveBanks := 1 })) p = false) ∧
    (Direct quiet ∧ (laneRole (quiet.vault 0 31) 255).isSome = true ∧ laneRole (quiet.vault 0 31) 271 = none ∧
      spent (stacked (fun st => { st with vaults := st.vaults.modify 31 (fun v => { v with pendingSwaps := List.range 8 }) }))
        (.lane 0 31 255) = true) ∧
    ((quiet.vault 0 31).pendingSwaps = [] ∧ (quiet.vault 0 31).swaps = [] ∧ (quiet.vault 0 31).rowRemaps = []) ∧
    (∀ n ∈ [(31 : Nat), 32], let s := stacked (fun st => { st with
        errorsIn := List.replicate 4 (RetPart.dramRow 0 31 7 0 32, 0, false)
        vaults := st.vaults.modify 31 (fun v => { v with rowRemaps := (List.range n).map (fun r => (7, 0, r)) }) });
      ∃ st x, s.stks[0]? = some st ∧ st.vaults[31]? = some x ∧ (7, 0, 0) ∈ x.rowRemaps ∧ (7, 0, 32) ∉ x.rowRemaps ∧
        4 ≤ (st.errorsIn.filter (fun q => q.1 = .dramRow 0 31 7 0 32 ∧ q.2.2 = false ∧ st.us.toNat < q.2.1 + 86400000000)).length ∧
        (x.rowRemaps.filter (fun q => q.1 = 7 ∧ q.2.1 = 0)).length = n) ∧
    (quiet.link.failed = false ∧ quiet.link.idle < 100000) ∧
    (let s : Machine.State := { quiet with link := ⟨false, 100000⟩ }; s.linkDown = false ∧ 100000 ≤ s.link.idle) ∧
    (let s : Machine.State := { State.reset with link := ⟨false, 100000⟩ }; s.linkDown = true ∧ 100000 ≤ s.link.idle) ∧
    (let s : Machine.State := { quiet with link := ⟨true, 100000⟩ }; s.link.failed = true ∧ s.late = []) := by
  refine ⟨⟨_, rfl, by decide +kernel⟩, rfl, ⟨_, rfl, by decide +kernel⟩, ⟨_, rfl, by decide +kernel⟩,
    forall4 ⟨not_up (by decide +kernel), up_ok (by decide +kernel), by decide⟩ ⟨not_up (by decide +kernel), up_ok (by decide +kernel), by decide⟩
      ⟨not_up (by decide +kernel), up_ok (by decide +kernel), by decide⟩ ⟨not_up (by decide +kernel), up_ok (by decide +kernel), by decide⟩,
    by decide, by decide +kernel, by decide +kernel, ⟨direct_ok (by decide +kernel), by decide +kernel⟩, by decide +kernel,
    forall2 ⟨_, _, rfl, rfl, by decide +kernel⟩ ⟨_, _, rfl, rfl, by decide +kernel⟩,
    by decide +kernel, by decide +kernel, by decide +kernel, by decide +kernel⟩

/-! Debug. -/

/-- Stack 0 in a debug state, with one context. -/
def debugged (dbg : Nat) (cx : Ctx) (f : Machine.State → Machine.State := fun s => s) : Machine.State := f { stacked (fun st => { st with
    dbg := dbg
    unlockFuse := true }) with ctxs := [cx] }

theorem witness_DebugCommands :
    Direct (debugged 2 cx0) ∧ (∀ q ∈ [StopState.running, .stopping true, .stopped true, .stopped false], let s := debugged 2 { cx0 with stop := q };
      s.ctx? 0 0 placedJob = some { cx0 with stop := q } ∧ MayDebug s 0 0 ∧ (s.partOn 0 0).pending = none) ∧
    (let s := debugged 2 { cx0 with stop := .stopped true } (fun s => { s with
        blocks := s.blocks.map (fun k => { k with phase := .stopped }) });
      ∃ k gr u, s.block? 0 = some k ∧ k.stack = 0 ∧ k.job = placedJob ∧ k.trapGroup = false ∧ k.lin = (0 : Word).toNat ∧ k.phase = .stopped ∧
        s.group? 0 0 = some gr ∧ gr.num = 0 ∧ gr.threads[1]? = some u ∧ u.live = true) ∧
    ((let s : Machine.State := { State.reset with ctxs := [cx0] }; ¬ Up s 0 ∧ s.ctx? 0 0 placedJob = some cx0) ∧
      (let s := debugged 0 cx0; Up s 0 ∧ (s.stack 0).dbg = 0) ∧
      (let s := debugged 1 cx0; Up s 0 ∧ (s.stack 0).dbg = 1 ∧ (s.part 0).dbgEnable = false)) ∧
    ((debugged 2 cx0).ctx? 0 0 0xC000_0401 = none ∧ MayDebug (debugged 2 cx0) 0 0) ∧
    (((debugged 1 cx0).stack 0).unlockFuse = true ∧ ((debugged 1 cx0).stack 0).dbg ≠ 0) ∧
    (∀ c ∈ (debugged 1 cx0).ctxs, c.stack = 0 → c.stop ≠ .stopped true ∧ c.stop ≠ .stopping true ∧ c.step = none) ∧
    (∃ c ∈ (debugged 1 { cx0 with stop := .stopped true }).ctxs, c.stack = 0 ∧ c.stop = .stopped true) := by
  refine ⟨direct_ok (by decide +kernel), forall4 ⟨by decide +kernel, ⟨up_ok (by decide +kernel), .inl (by decide +kernel)⟩, by decide +kernel⟩
      ⟨by decide +kernel, ⟨up_ok (by decide +kernel), .inl (by decide +kernel)⟩, by decide +kernel⟩
      ⟨by decide +kernel, ⟨up_ok (by decide +kernel), .inl (by decide +kernel)⟩, by decide +kernel⟩
      ⟨by decide +kernel, ⟨up_ok (by decide +kernel), .inl (by decide +kernel)⟩, by decide +kernel⟩,
    ⟨_, _, _, rfl, by decide +kernel, by decide +kernel, by decide +kernel, by decide +kernel, by decide +kernel, rfl, by decide +kernel, rfl,
      by decide +kernel⟩,
    ⟨⟨not_up (by decide +kernel), by decide +kernel⟩, ⟨up_ok (by decide +kernel), by decide +kernel⟩, up_ok (by decide +kernel), by decide +kernel⟩,
    ⟨by decide +kernel, up_ok (by decide +kernel), .inl (by decide +kernel)⟩, by decide +kernel, by decide +kernel, by decide +kernel⟩

/-! The step. -/

/-- A machine whose next move is an issue, the sequencer's next word, or an event. -/
def moving (w : Word) (m : Move) : Machine.State := { (seqRun (seqBlock seq0) []) with
  cur := .none
  agenda := [m]
  mem := (placedTables []).write 0x4000_0100 (leBytes 4 w.toNat) }

theorem witness_StepRunsDecoded :
    (let s := moving 0x18408700 (.issue 0 0 0x100 [] [0, 1]);
      let s0 : Machine.State := { s with agenda := [], cur := .none };
      ∃ k gr, s.agenda = [.issue 0 0 0x100 [] [0, 1]] ∧ s0.block? 0 = some k ∧ s0.group? 0 0 = some gr ∧
        (readyLanes s0 0 0 k gr).filter (fun l => [0, 1].contains l && (gr.thread l).key == (0x100, [])) = [0, 1] ∧
        (∀ l ∈ [0, 1], breakpointFor s0 k gr l (gr.thread l) 0x100 = none) ∧
        (fetchWord s0 k.stack k.core k.part k.priv 0x100).2 = .word 0x18408700 ∧
        outcome (coreLookup s0 k.stack k.core k.part 0x100) 0x100 .fetch k.priv = .ok tr0 ∧ s.poison = [] ∧
        s.upsets = [] ∧ s.order.past = [] ∧
        s.unreachablePA (tr0.pa (0x100 : Addr).toNat) k.stack = false) ∧
    decodeWord 0x18408700 = .ok (.saddI32 4 ⟨2, false⟩ ⟨7, false⟩) ∧
    (let s := moving 0xE0200000 (.seq 0);
      let s0 : Machine.State := { s with agenda := [], cur := .none };
      ∃ k, s.agenda = [.seq 0] ∧ s0.block? 0 = some k ∧ seqRuns s0 0 k = true ∧
        (fetchWord s0 k.stack k.core k.part k.priv k.seq.pc).2 = .word 0xE0200000) ∧
    decodeWord 0xE0200000 = .ok .mswap ∧
    (moving 0 (.event .linkReturn)).agenda = [.event .linkReturn] := by
  exact ⟨⟨_, _, rfl, rfl, rfl, by decide +kernel⟩, by decide +kernel, ⟨_, rfl, rfl, by decide +kernel⟩, by decide +kernel, rfl⟩

/-- The invariant holds of reset. -/
theorem witness_StepKeepsMemory : MemInv State.reset := Machine.reset_memInv

/-- A well-formed instruction with a word. -/
theorem witness_DecodeOfEncode : wellFormed (.saddI32 4 ⟨2, false⟩ ⟨7, false⟩) = true ∧
    encode (.saddI32 4 ⟨2, false⟩ ⟨7, false⟩) = some 0x18408700 := by decide +kernel

/-! The conditions of issue. -/

/-- Both threads under hints, in a block of a context with a handler; a guard names predicate 1, which is 0 in both. -/
def hinted (hs : List Hint) (fk : Block → Block := fun k => k) (fg : Group → Group := fun g => g) : Site :=
  let g := { grp0 with threads := [{ thr 0 with hints := hs }, { thr 1 with hints := hs }] }
  site { fk blk0 with groups := [fg g] } [0, 1] hs (fun s => { s with ctxs := [cxH] })

/-- Uniform register n empty, or poisoned. -/
def spoilt (n : Nat) (st : RegState) (g : Group) : Group := { g with sregs := file.set n ⟨0, st⟩ }

theorem forall3 {α : Type} {P : α → Prop} {a b c : α} (ha : P a) (hb : P b) (hc : P c) : ∀ x ∈ [a, b, c], P x := by
  rintro x (_ | ⟨_, h⟩)
  · exact ha
  · exact forall2 hb hc x h

theorem witness_PlainHints : PlainHints [] ∧ PlainHints [.yield, .grd true 1] ∧ ¬ PlainHints [.imm 0] ∧ ¬ PlainHints [.bad 0xFD40_0000] ∧
    ¬ PlainHints [.yield, .yield] := by
  simp [PlainHints, hintKind]

/-- Five pending hints, and a sixth hint word. -/
theorem witness_SixthHint : let x := hinted [.yield, .yield, .yield, .yield, .yield];
    x.Issues ∧ x.lanes ≠ [] ∧ Placed x ∧ Served x cxH ∧ 5 ≤ x.hints.length := by
  refine ⟨issues_ok (by decide +kernel), ?_⟩
  unfold Placed Served
  decide +kernel

/-- A modifier that no target here accepts; a block that is not privileged and no trap group; allotments of 8, of which
register 8 is the first beyond; an empty register in field a and in field b; a poisoned one; and the address 8 of a pair,
plus 2. -/
theorem witness_ConditionsOfIssue :
    (∀ x ∈ [hinted [.imm 0], hinted [] (fun k => { k with priv := false }), hinted [] (fun k => { k with sregs := 8, vregs := 8 })],
      x.Issues ∧ x.lanes ≠ [] ∧ Placed x ∧ Served x cxH ∧ x.act ≠ []) ∧
    needDetail .priv (hinted [] (fun k => { k with priv := false })).k = some 1 ∧ needDetail .handler (hinted []).k = some 2 ∧
    (let x := hinted [] (fun k => { k with sregs := 8, vregs := 8 });
      boundDetail x [uDst 2, uSrc 1 (r 4), uSrc 2 (r 8)] = some 0x408 ∧ boundDetail x [vDst 8, vSrc 1 (r 9), bSrc (v 4)] = some 8) ∧
    (∀ x ∈ [hinted [] id (spoilt 4 .empty), hinted [] id (spoilt 6 .empty)],
      x.Issues ∧ Placed x ∧ Served x cxH ∧ x.act ≠ [] ∧ boundDetail x [uDst 2, uSrc 1 ⟨4, true⟩, uSrc 2 ⟨6, true⟩] = none ∧
      ((x.gr.sreg 4).st = .empty ∨ (x.gr.sreg 4).st ≠ .empty ∧ (x.gr.sreg 6).st = .empty)) ∧
    (let x := hinted [] id (spoilt 4 .poisoned);
      x.Issues ∧ Placed x ∧ Served x cxH ∧ Clear (Form.of [uSrc 1 (r 4), uSrc 2 (r 6)]) x.k x.gr x.act x.hints ∧
      (x.gr.sreg 4).st = .poisoned ∧ ∀ y ∈ [x.gr.sreg 4, x.gr.sreg 6], y.st = .poisoned → y.val = 0) ∧
    (let k : Block := { blk0 with groups := [{ grp0 with threads := [{ thr 0 with regs := file.set 2 ⟨0x2002, .full⟩ }, thr 1] }] };
      let x := site k [0] [] (fun s => { s with ctxs := [cxH] });
      x.act = [0] ∧ Placed x ∧ Served x cxH ∧ (BitVec.ofNat 56 (pairNat (x.gr.vregsAt (x.gr.thread 0) 2 2))).toNat % 4 = 2 ∧
      Clean (x.gr.vregsAt (x.gr.thread 0) 2 2 ++ x.gr.vregsAt (x.gr.thread 0) 4 1) ∧
      CanAccess x ⟨[vDst 8 1, vSrc 1 (r 2) 2, vSrc 2 (r 4) 1], ⟨false, false, false, false, true, true⟩, .any⟩) := by
  refine ⟨forall3 ?_ ?_ ?_, by decide +kernel, by decide +kernel, by decide +kernel, forall2 ?_ ?_,
    ⟨issues_ok (by decide +kernel), by unfold Placed; decide +kernel, by unfold Served; decide +kernel, clear_ok (by decide +kernel),
      by decide +kernel, by decide +kernel⟩, by decide +kernel, by unfold Placed; decide +kernel, by unfold Served; decide +kernel,
    by decide +kernel, clean_ok (by decide +kernel), access_one (by decide +kernel)⟩
  all_goals
    refine ⟨issues_ok (by decide +kernel), ?_⟩
    unfold Placed Served
    decide +kernel

end Sys2Proof.Tests
end

section
/-!
PROOFS. Uniform arithmetic and control (R90 to R92, R101): the forms that write uniform registers once per bundle, the words
of formats A and D as numbers, and the model's operations on words as the statements write them.
-/

namespace Sys2Proof.Proofs

open Sys2Proof.Machine Sys2Proof.Claims

/-! Joined bit vectors as numbers. -/

theorem toNat_append_eq {m n : Nat} (x : BitVec m) (y : BitVec n) : (x ++ y).toNat = x.toNat * 2 ^ n + y.toNat := by
  rw [BitVec.toNat_append, ← Nat.shiftLeft_add_eq_or_of_lt y.isLt, Nat.shiftLeft_eq]

/-! Forms that write uniform registers. -/

@[simp] theorem bodyGroup_si (gr : Group) (lanes : List Nat) (hs : List Hint) (f : Fld) :
    (bodyGroup gr lanes hs).si f = gr.si f := rfl

@[simp] theorem bodyGroup_sreg (gr : Group) (lanes : List Nat) (hs : List Hint) (f : Fld) :
    (bodyGroup gr lanes hs).sreg f = gr.sreg f := rfl

@[simp] theorem bodyGroup_sregsAt (gr : Group) (lanes : List Nat) (hs : List Hint) (f : Fld) (n : Nat) :
    (bodyGroup gr lanes hs).sregsAt f n = gr.sregsAt f n := rfl

/-- A word whose body, once per bundle, writes a run of uniform registers from what the group holds completes. -/
theorem completes_of_setSregs {i : Instr} {fm : Form} {d : Fld} (v : List Hint → Group → List Reg) {rs : Site → List Reg}
    (hexec : ∀ s, exec i s = withForm fm (perBundle (fun is _ g => .ok (g.setSregs (g.si d) (v is.hints g)))) s)
    (hv : ∀ x : Site, v x.hints (bodyGroup x.gr x.lanes x.hints) = rs x) :
    Completes i fm (fun _ => True) (once (fun x g => g.setSregs (x.gr.si d) (rs x))) (fun _ _ u => u.next) := by
  intro x hi hc _
  rw [hexec]
  refine perBundle_executed hi hc (fun _ _ _ => ⟨_, rfl, rfl, ?_⟩)
  rw [hv, bodyGroup_si]
  rfl

/-! Poison carried from the sources to the results (R90, R91). -/

theorem carry_one (srcs : List Reg) (v : Word) : carry srcs 1 [full v] = result srcs v := rfl

/-- The pair that holds a dword, low word first. -/
theorem pairRegs_eq (x : DWord) :
    pairRegs x = [⟨BitVec.ofNat 32 x.toNat, .full⟩, ⟨BitVec.ofNat 32 (x.toNat / 2 ^ 32), .full⟩] := by
  have hlow : lowWord x = BitVec.ofNat 32 x.toNat := rfl
  have hhigh : highWord x = BitVec.ofNat 32 (x.toNat / 2 ^ 32) := by
    rw [← Nat.shiftRight_eq_div_pow, ← BitVec.toNat_ushiftRight]
    rfl
  rw [pairRegs, hlow, hhigh]
  rfl

theorem carry_two (srcs : List Reg) (x : DWord) : carry srcs 2 (pairRegs x) = result2 srcs x.toNat := by
  rw [pairRegs_eq]
  rfl

/-- The number that a pair holds (R91). -/
theorem regPair_toNat (rs : List Reg) : (regPair rs).toNat = pairNat rs := toNat_append_eq _ _

/-- The difference of R91 as a number. -/
theorem sub_toNat (x y : DWord) : (x - y).toNat = (2 ^ 64 + x.toNat - y.toNat) % 2 ^ 64 := by
  rw [BitVec.toNat_sub]
  omega

/-! Immediates cut to a word (R52). -/

theorem setWidth_ofInt (z : Int) : (BitVec.ofInt 64 z).setWidth 32 = BitVec.ofInt 32 z := by
  apply BitVec.eq_of_toNat_eq
  rw [BitVec.toNat_setWidth, BitVec.toNat_ofInt, BitVec.toNat_ofInt]
  omega

theorem immC_setWidth (hs : List Hint) (i : BitVec 11) :
    (Machine.immC hs i).setWidth 32 = BitVec.ofInt 32 (Claims.immC hs i) := by
  unfold Machine.immC Claims.immC
  cases hintImm? hs <;> exact setWidth_ofInt _

theorem immD_setWidth (hs : List Hint) (i : BitVec 20) :
    (Machine.immD hs i).setWidth 32 = BitVec.ofInt 32 (Claims.immD hs i) := by
  unfold Machine.immD Claims.immD
  cases hintImm? hs <;> exact setWidth_ofInt _

/-! The shapes of R90 and R91. -/

/-- A two-operand form on words. -/
theorem completes_of_uBin {i : Instr} {op f : Word → Word → Word} {d : Fld} {a b : Src}
    (hexec : ∀ s, exec i s = uBin op d a b s) (hop : ∀ x y, op x y = f x y) :
    Completes i (Form.of [uDst d, uSrc 1 a, uSrc 2 b]) (fun _ => True)
      (once (fun x g => g.setSregs (x.gr.si d)
        (result [x.gr.sreg a.f, x.gr.sreg b.f] (f (x.gr.sreg a.f).val (x.gr.sreg b.f).val)))) (fun _ _ u => u.next) :=
  completes_of_setSregs (fun _ g => carry [g.sreg a.f, g.sreg b.f] 1 [full (op (g.sreg a.f).val (g.sreg b.f).val)]) hexec
    (fun x => by simp only [bodyGroup_sreg, carry_one, hop])

/-- A form with an immediate. -/
theorem completes_of_uImm {i : Instr} {op f : Word → Word → Word} {d : Fld} {a : Src} {imm : BitVec 11}
    (hexec : ∀ s, exec i s = uImm op d a imm s) (hop : ∀ x y, op x y = f x y) :
    Completes i (Form.imm [uDst d, uSrc 1 a]) (fun _ => True)
      (once (fun x g => g.setSregs (x.gr.si d)
        (result [x.gr.sreg a.f] (f (x.gr.sreg a.f).val (BitVec.ofInt 32 (Claims.immC x.hints imm))))))
      (fun _ _ u => u.next) :=
  completes_of_setSregs
    (fun hs g => carry [g.sreg a.f] 1 [full (op (g.sreg a.f).val ((Machine.immC hs imm).setWidth 32))]) hexec
    (fun x => by simp only [bodyGroup_sreg, carry_one, hop, immC_setWidth])

/-- A two-operand form on pairs, whose operation is given on the numbers that the pairs hold. -/
theorem completes_of_uPair {i : Instr} {op : DWord → DWord → DWord} {f : Nat → Nat → Nat} {d : Fld} {a b : Src}
    (hexec : ∀ s, exec i s = uPair op d a b s) (hop : ∀ x y, (op x y).toNat = f x.toNat y.toNat) :
    Completes i (Form.of [uDst d 2, uSrc 1 a 2, uSrc 2 b 2]) (fun _ => True)
      (once (fun x g => g.setSregs (x.gr.si d) (result2 (x.gr.sregsAt a.f 2 ++ x.gr.sregsAt b.f 2)
        (f (pairNat (x.gr.sregsAt a.f 2)) (pairNat (x.gr.sregsAt b.f 2)))))) (fun _ _ u => u.next) :=
  completes_of_setSregs
    (fun _ g => carry (g.sregsAt a.f 2 ++ g.sregsAt b.f 2) 2
      (pairRegs (op (regPair (g.sregsAt a.f 2)) (regPair (g.sregsAt b.f 2))))) hexec
    (fun x => by simp only [bodyGroup_sregsAt, carry_two, hop, regPair_toNat])

theorem completes_smovB32 (d : Fld) (a : Src) :
    Completes (.smovB32 d a) (Form.of [uDst d, uSrc 1 a]) (fun _ => True)
      (once (fun x g => g.setSregs (x.gr.si d) (result [x.gr.sreg a.f] (x.gr.sreg a.f).val))) (fun _ _ u => u.next) :=
  completes_of_setSregs (fun _ g => carry [g.sreg a.f] 1 [full (g.sreg a.f).val]) (fun _ => rfl)
    (fun _ => carry_one ..)

theorem completes_smovi (d : Fld) (i : BitVec 20) :
    Completes (.smovi d i) (Form.imm [uDst d]) (fun _ => True)
      (once (fun x g => g.setSregs (x.gr.si d) [⟨BitVec.ofInt 32 (Claims.immD x.hints i), .full⟩])) (fun _ _ u => u.next) :=
  completes_of_setSregs (fun hs _ => [full ((Machine.immD hs i).setWidth 32)]) (fun _ => rfl)
    (fun x => by rw [immD_setWidth, full])

theorem completes_nop : Completes .nop (Form.of []) (fun _ => True) (fun _ g => g) (fun _ _ u => u.next) :=
  fun _ hi hc _ => perLane_executed hi hc (fun _ _ _ _ _ _ => ⟨rfl, rfl⟩)

/-! The operations of R90 as the statements write them. -/

theorem sub_eq_ofInt (x y : Word) : x - y = BitVec.ofInt 32 ((x.toNat : Int) - y.toNat) := by
  apply BitVec.eq_of_toNat_eq
  rw [BitVec.toNat_sub, BitVec.toNat_ofInt]
  omega

theorem mul_eq_ofNat (x y : Word) : x * y = BitVec.ofNat 32 (x.toNat * y.toNat) := by
  apply BitVec.eq_of_toNat_eq
  rw [BitVec.toNat_mul, BitVec.toNat_ofNat]

theorem shl32_eq_shl (x y : Word) : shl32 x y = shl x y := by
  have h : x <<< y.toNat = BitVec.ofNat 32 (x.toNat * 2 ^ y.toNat) := by
    apply BitVec.eq_of_toNat_eq
    rw [BitVec.toNat_shiftLeft, BitVec.toNat_ofNat, Nat.shiftLeft_eq]
  rw [shl32, shl, h]

theorem shr32_eq_shr (x y : Word) : shr32 x y = shr x y := by
  have h : x >>> y.toNat = BitVec.ofNat 32 (x.toNat / 2 ^ y.toNat) := by
    rw [← Nat.shiftRight_eq_div_pow, ← BitVec.toNat_ushiftRight, BitVec.ofNat_toNat, BitVec.setWidth_eq]
  rw [shr32, shr, h]

theorem sra32_eq_sra (x y : Word) : sra32 x y = sra x y := by
  rw [sra32, sra, BitVec.msb_eq_getLsbD_last, BitVec.sshiftRight_eq, Int.shiftRight_eq_div_pow]
  norm_cast

theorem toInt_injective : Function.Injective (fun x : Word => x.toInt) := fun _ _ => BitVec.eq_of_toInt_eq

/-- The lesser of two words by a key that tells them apart. -/
theorem lesser_eq_pick {α : Type} [LinearOrder α] {key : Word → α} (hkey : Function.Injective key) (x y : Word) :
    (if key y < key x then y else x) = if true = decide (key x < key y) ∧ x ≠ y then x else y := by
  rcases lt_trichotomy (key x) (key y) with h | h | h
  · have hne : x ≠ y := fun e => h.ne (congrArg key e)
    simp [h, h.not_gt, hne]
  · simp [hkey h]
  · simp [h, h.not_gt]

/-- The greater of two words by a key. -/
theorem greater_eq_pick {α : Type} [LinearOrder α] (key : Word → α) (x y : Word) :
    (if key x < key y then y else x) = if false = decide (key x < key y) ∧ x ≠ y then x else y := by
  by_cases h : key x < key y
  · simp [h]
  · by_cases e : x = y <;> simp [h, e]

theorem minI_eq_pickI (x y : Word) : minI x y = pickI true x y := by
  rw [minI, pickI, ← lesser_eq_pick toInt_injective]
  simp only [BitVec.slt_iff_toInt_lt]

theorem maxI_eq_pickI (x y : Word) : maxI x y = pickI false x y := by
  rw [maxI, pickI, ← greater_eq_pick (fun x => x.toInt)]
  simp only [BitVec.slt_iff_toInt_lt]

theorem minN_eq_pickN (x y : Word) : minN x y = pickN true x y := by
  rw [minN, pickN, ← lesser_eq_pick BitVec.toNat_injective]
  simp only [BitVec.ult_iff_toNat_lt]

theorem maxN_eq_pickN (x y : Word) : maxN x y = pickN false x y := by
  rw [maxN, pickN, ← greater_eq_pick (fun x => x.toNat)]
  simp only [BitVec.ult_iff_toNat_lt]

/-- Every 32-bit binary form of R90 completes with its operation. -/
theorem completes_uniformOps (d : Fld) (a b : Src) : ∀ p ∈ uniformOps d a b,
    Completes p.1 (Form.of [uDst d, uSrc 1 a, uSrc 2 b]) (fun _ => True)
      (once (fun x g => g.setSregs (x.gr.si d)
        (result [x.gr.sreg a.f, x.gr.sreg b.f] (p.2 (x.gr.sreg a.f).val (x.gr.sreg b.f).val)))) (fun _ _ u => u.next) := by
  simp only [uniformOps, List.forall_mem_cons, List.not_mem_nil, false_implies, implies_true, and_true]
  exact ⟨completes_of_uBin (fun _ => rfl) BitVec.add_def, completes_of_uBin (fun _ => rfl) sub_eq_ofInt,
    completes_of_uBin (fun _ => rfl) mul_eq_ofNat, completes_of_uBin (fun _ => rfl) (fun _ _ => rfl),
    completes_of_uBin (fun _ => rfl) (fun _ _ => rfl), completes_of_uBin (fun _ => rfl) (fun _ _ => rfl),
    completes_of_uBin (fun _ => rfl) shl32_eq_shl, completes_of_uBin (fun _ => rfl) shr32_eq_shr,
    completes_of_uBin (fun _ => rfl) sra32_eq_sra, completes_of_uBin (fun _ => rfl) minI_eq_pickI,
    completes_of_uBin (fun _ => rfl) minN_eq_pickN, completes_of_uBin (fun _ => rfl) maxI_eq_pickI,
    completes_of_uBin (fun _ => rfl) maxN_eq_pickN⟩

/-- Every 32-bit form of R90 with an immediate completes with its operation. -/
theorem completes_uniformImmOps (d : Fld) (a : Src) (i : BitVec 11) : ∀ p ∈ uniformImmOps d a i,
    Completes p.1 (Form.imm [uDst d, uSrc 1 a]) (fun _ => True)
      (once (fun x g => g.setSregs (x.gr.si d)
        (result [x.gr.sreg a.f] (p.2 (x.gr.sreg a.f).val (BitVec.ofInt 32 (Claims.immC x.hints i))))))
      (fun _ _ u => u.next) := by
  simp only [uniformImmOps, List.forall_mem_cons, List.not_mem_nil, false_implies, implies_true, and_true]
  exact ⟨completes_of_uImm (fun _ => rfl) BitVec.add_def, completes_of_uImm (fun _ => rfl) (fun _ _ => rfl),
    completes_of_uImm (fun _ => rfl) (fun _ _ => rfl), completes_of_uImm (fun _ => rfl) (fun _ _ => rfl)⟩

/-! Words of formats A and D (R44). -/

theorem toNat_packA (m d a b : BitVec 6) (fn : BitVec 4) (sb ea eb : Bool) :
    (packA m d a b fn sb ea eb).toNat = m.toNat * 2 ^ 26 + d.toNat * 2 ^ 20 + a.toNat * 2 ^ 14 + b.toNat * 2 ^ 8 +
      fn.toNat * 2 ^ 4 + sb.toNat * 8 + ea.toNat * 4 + eb.toNat * 2 := by
  simp only [packA, toNat_append_eq, BitVec.toNat_ofBool, BitVec.ofNat_eq_ofNat, BitVec.toNat_ofNat, Nat.zero_mod]
  omega

theorem encA2_eq_wordA (m : BitVec 6) (fn : BitVec 4) (d : Fld) (a b : Src) :
    encA2 m fn d a b = wordA m.toNat fn.toNat d a false b := by
  have hbit (c : Bool) (n : Nat) : (if c then n else 0) = c.toNat * n := by cases c <;> simp
  rw [wordA, hbit, hbit, hbit, encA2, ← toNat_packA, BitVec.ofNat_toNat, BitVec.setWidth_eq]

theorem toNat_packD (m d : BitVec 6) (i : BitVec 20) :
    (packD m d i).toNat = m.toNat * 2 ^ 26 + d.toNat * 2 ^ 20 + i.toNat := by
  rw [packD, toNat_append_eq, toNat_append_eq]
  omega

theorem packD_eq_ofNat (m d : BitVec 6) (i : BitVec 20) :
    packD m d i = BitVec.ofNat 32 (m.toNat * 2 ^ 26 + d.toNat * 2 ^ 20 + i.toNat) := by
  rw [← toNat_packD, BitVec.ofNat_toNat, BitVec.setWidth_eq]

/-! The obligations. -/

/-- Settles O3: a bundle that completes without effect, and the word of format A with every field 0. -/
theorem nopDoesNothing : Obligations.NopDoesNothing := ⟨by decide, completes_nop⟩

/-- Settles O5: every form is one of the shapes uBin, uImm or uPair with the operation that the rule names. -/
theorem uniformArithmetic : Obligations.UniformArithmetic :=
  ⟨fun d a b i => ⟨completes_uniformOps d a b, completes_uniformImmOps d a i, completes_smovB32 d a⟩,
    fun d a b => ⟨congrArg some (encA2_eq_wordA 0x06 13 d a b), congrArg some (encA2_eq_wordA 0x06 14 d a b),
      completes_of_uPair (f := fun x y => (x + y) % 2 ^ 64) (fun _ => rfl) BitVec.toNat_add,
      completes_of_uPair (f := fun x y => (2 ^ 64 + x - y) % 2 ^ 64) (fun _ => rfl) sub_toNat⟩⟩

/-- Settles O6: the word of format D, and the immediate that the body truncates to a word. -/
theorem uniformConstant : Obligations.UniformConstant :=
  fun d i => ⟨congrArg some (packD_eq_ofNat 0x0B d i), completes_smovi d i⟩

end Sys2Proof.Proofs
end

section
/-!
PROOFS. The rules for forms that every active lane executes by itself or that the bundle executes once (R89, R112), what a
body reads of its group, and the shapes of vector forms whose results carry poison (R115 to R123).
-/

namespace Sys2Proof.Proofs

open Sys2Proof.Machine Sys2Proof.Claims

/-! What a body reads. -/

/-- The bundle of a site as the body of its word is given it. -/
def issueOf (x : Site) : Issue := ⟨x.blk, x.grp, x.lanes, x.act, x.pc, x.hints, x.word⟩

@[simp] theorem issueOf_act (x : Site) : (issueOf x).act = x.act := rfl
@[simp] theorem issueOf_hints (x : Site) : (issueOf x).hints = x.hints := rfl

/-- The group of a site as the body of its word is given it. -/
def groupOf (x : Site) : Group := bodyGroup x.gr x.lanes x.hints

@[simp] theorem groupOf_vi (x : Site) (f : Fld) : (groupOf x).vi f = x.gr.vi f := rfl
@[simp] theorem groupOf_vreg (x : Site) (t : Thread) (f : Fld) : (groupOf x).vreg t f = x.gr.vreg t f := rfl
@[simp] theorem groupOf_sreg (x : Site) (f : Fld) : (groupOf x).sreg f = x.gr.sreg f := rfl

@[simp] theorem groupOf_vregsAt (x : Site) (t : Thread) (f : Fld) (n : Nat) :
    (groupOf x).vregsAt t f n = x.gr.vregsAt t f n := rfl

@[simp] theorem groupOf_bRegs (x : Site) (t : Thread) (b : SrcB) (n : Nat) :
    (groupOf x).bRegs t b n = x.gr.bRegs t b n := rfl

/-- Issuing leaves the registers and the predicates of every thread of the group as they were. -/
theorem groupOf_thread_keeps (x : Site) (j : Nat) :
    ((groupOf x).thread j).regs = (x.gr.thread j).regs ∧ ((groupOf x).thread j).preds = (x.gr.thread j).preds := by
  simp only [Group.thread, groupOf, bodyGroup, List.getD_eq_getElem?_getD, getElem?_mapFrom, Nat.zero_add]
  cases x.gr.threads[j]? with
  | none => exact ⟨rfl, rfl⟩
  | some t =>
    simp only [Option.map_some, Option.getD_some]
    split_ifs <;> exact ⟨rfl, rfl⟩

@[simp] theorem groupOf_thread_pred (x : Site) (j : Nat) (p : BitVec 3) :
    ((groupOf x).thread j).pred p = (x.gr.thread j).preds.getLsbD p.toNat := by
  rw [Thread.pred, (groupOf_thread_keeps x j).2]

@[simp] theorem vreg_groupOf_thread (x : Site) (j : Nat) (f : Fld) :
    x.gr.vreg ((groupOf x).thread j) f = x.gr.vreg (x.gr.thread j) f := by
  rw [Group.vreg, (groupOf_thread_keeps x j).1, Group.vreg]

@[simp] theorem bRegs_groupOf_thread (x : Site) (j : Nat) (b : SrcB) (n : Nat) :
    x.gr.bRegs ((groupOf x).thread j) b n = x.gr.bRegs (x.gr.thread j) b n := by
  cases b with
  | vec r => simp only [Group.bRegs, Group.vregsAt, (groupOf_thread_keeps x j).1]
  | uni r => rfl

theorem vregsAt_one (g : Group) (t : Thread) (f : Fld) : g.vregsAt t f 1 = [g.vreg t f] := rfl

theorem headD_eq_getD (rs : List Reg) : rs.headD Reg.mk0 = rs.getD 0 Reg.mk0 := by cases rs <;> rfl

/-! Forms that every active lane executes by itself (R112). -/

/-- A per-thread word completes that traps in no active lane. -/
theorem completes_of_perLane {i : Instr} {fm : Form} {pre : Site → Prop} {f : Issue → Group → Nat → Thread → LaneRes}
    {fl : Site → Nat → Thread → Thread} (hexec : ∀ s, exec i s = withForm fm (perLane (fun is _ g l t => f is g l t)) s)
    (hf : ∀ x, pre x → ∀ l ∈ x.act, ∀ u, x.gr.threads[l]? = some u →
      f (issueOf x) (groupOf x) l (issuedThread x.hints u) = .ok (fl x l (issuedThread x.hints u))) :
    Completes i fm pre (fun _ g => g) (fun x l u => (fl x l u).next) := by
  intro x hi hc hp
  rw [hexec]
  refine perLane_executed hi hc (fun _ _ l hl u hu => ?_)
  have hok := hf x hp l hl u hu
  rw [issueOf, groupOf] at hok
  unfold Site.act at hok
  rw [hok]
  exact ⟨rfl, rfl⟩

/-- A word completes whose body writes a run of vector registers in every active lane. -/
theorem completes_of_setRegs {i : Instr} {fm : Form} {pre : Site → Prop} {d : Fld} (v : Issue → Group → Nat → Thread → List Reg)
    {rs : Site → Nat → Thread → List Reg}
    (hexec : ∀ s, exec i s = withForm fm (perLane (fun is _ g l t => .ok (t.setRegs (g.vi d) (v is g l t)))) s)
    (hv : ∀ x, pre x → ∀ l ∈ x.act, ∀ u, v (issueOf x) (groupOf x) l u = rs x l u) :
    Completes i fm pre (fun _ g => g) (fun x l u => (u.setRegs (x.gr.vi d) (rs x l u)).next) :=
  completes_of_perLane hexec (fun x hp l hl u _ => by rw [hv x hp l hl, groupOf_vi])

/-- A word completes whose body writes a predicate in every active lane. -/
theorem completes_of_setPred {i : Instr} {p : BitVec 3} (v : Issue → Group → Thread → Bool) {b : Site → Nat → Thread → Bool}
    (hexec : ∀ s, exec i s = withForm (Form.of []) (perLane (fun is _ g _ t => .ok (t.setPred p (v is g t)))) s)
    (hv : ∀ x l u, v (issueOf x) (groupOf x) u = b x l u) :
    Completes i (Form.of []) (fun _ => True) (fun _ g => g) (fun x l u => (u.setPred p (b x l u)).next) :=
  completes_of_perLane hexec (fun x _ l _ u _ => by rw [hv x l])

/-- A word completes whose body, once per bundle, writes a run of uniform registers from what the active lanes hold. -/
theorem completes_of_setSregs_of_lanes {i : Instr} {fm : Form} {d : Fld} (v : Issue → Group → List Reg) {rs : Site → List Reg}
    (hexec : ∀ s, exec i s = withForm fm (perBundle (fun is _ g => .ok (g.setSregs (g.si d) (v is g)))) s)
    (hv : ∀ x, v (issueOf x) (groupOf x) = rs x) :
    Completes i fm (fun _ => True) (once (fun x g => g.setSregs (x.gr.si d) (rs x))) (fun _ _ u => u.next) := by
  intro x hi hc _
  rw [hexec]
  refine perBundle_executed hi hc (fun _ _ _ => ⟨_, rfl, rfl, ?_⟩)
  have hrs := hv x
  rw [issueOf, groupOf] at hrs
  unfold Site.act at hrs
  rw [hrs, bodyGroup_si]
  rfl

/-! Shapes whose results carry poison (R115). -/

/-- A form of R115 completes with the registers that its sources and results come to. -/
theorem completes_of_vCarry {i : Instr} {fm : Form} {d : Fld} {n : Nat} {srcs res : Issue → Group → Thread → List Reg}
    {rs : Site → Thread → List Reg} (hexec : ∀ s, exec i s = vCarry fm d n srcs res s)
    (hv : ∀ x u, carry (srcs (issueOf x) (groupOf x) u) n (res (issueOf x) (groupOf x) u) = rs x u) :
    Completes i fm (fun _ => True) (fun _ g => g) (fun x _ u => (u.setRegs (x.gr.vi d) (rs x u)).next) :=
  completes_of_setRegs (fun is g _ t => carry (srcs is g t) n (res is g t)) hexec (fun x _ _ _ u => hv x u)

/-- A form of major 0x0F that takes no modifier. -/
theorem completes_of_vImm {i : Instr} {op : Word → Word → Word} {d : Fld} {a : Src} {imm : BitVec 11}
    (hexec : ∀ s, exec i s = vImm Accepts.immOnly (fun _ => op) d a imm s) :
    Completes i (Form.imm [vDst d, vSrc 1 a]) (fun _ => True) (fun _ g => g)
      (fun x _ u => (u.setRegs (x.gr.vi d) (result [x.gr.vreg u a.f]
        (op (x.gr.vreg u a.f).val (BitVec.ofInt 32 (Claims.immC x.hints imm))))).next) :=
  completes_of_vCarry hexec (fun x u => by simp only [groupOf_vreg, issueOf_hints, carry_one, immC_setWidth])

/-- A unary form (R118). -/
theorem completes_of_vUn {i : Instr} {op f : Word → Word} {d : Fld} {a : Src}
    (hexec : ∀ s, exec i s = vUn op d a s) (hop : ∀ x, op x = f x) :
    Completes i (Form.of [vDst d, vSrc 1 a]) (fun _ => True) (fun _ g => g)
      (fun x _ u => (u.setRegs (x.gr.vi d) (result [x.gr.vreg u a.f] (f (x.gr.vreg u a.f).val))).next) :=
  completes_of_vCarry hexec (fun x u => by simp only [groupOf_vreg, carry_one, hop])

/-- A form whose result is a pair (R121), given as a number. -/
theorem completes_of_vWide {i : Instr} {op : Word → Word → DWord} {f : Word → Word → Nat} {d : Fld} {a : Src} {b : SrcB}
    (hexec : ∀ s, exec i s = vWide op d a b s) (hop : ∀ x y, (op x y).toNat = f x y) :
    Completes i (Form.of [vDst d 2, vSrc 1 a, bSrc b]) (fun _ => True) (fun _ g => g)
      (fun x _ u => (u.setRegs (x.gr.vi d) (result2 (x.gr.vreg u a.f :: x.gr.bRegs u b 1)
        (f (x.gr.vreg u a.f).val ((x.gr.bRegs u b 1).getD 0 Reg.mk0).val))).next) :=
  completes_of_vCarry hexec (fun x u => by
    simp only [groupOf_vreg, groupOf_bRegs, carry_two, hop, regWord, headD_eq_getD, List.singleton_append])

/-- A form on pairs (R122), whose operation is given on the numbers that the pairs hold. -/
theorem completes_of_vPair {i : Instr} {op : DWord → DWord → DWord} {f : Nat → Nat → Nat} {d : Fld} {a : Src} {b : SrcB}
    (hexec : ∀ s, exec i s = vPair op d a b s) (hop : ∀ x y, (op x y).toNat = f x.toNat y.toNat) :
    Completes i (Form.of [vDst d 2, vSrc 1 a 2, bSrc b 2]) (fun _ => True) (fun _ g => g)
      (fun x _ u => (u.setRegs (x.gr.vi d) (result2 (x.gr.vregsAt u a.f 2 ++ x.gr.bRegs u b 2)
        (f (pairNat (x.gr.vregsAt u a.f 2)) (pairNat (x.gr.bRegs u b 2))))).next) :=
  completes_of_vCarry hexec (fun x u => by simp only [groupOf_vregsAt, groupOf_bRegs, carry_two, hop, regPair_toNat])

/-- A form on an address and an offset (R123), whose operation is given as an integer from the number that the pair holds. -/
theorem completes_of_vAddr {i : Instr} {op : Addr → Word → Addr} {f : Nat → Word → Int} {d : Fld} {a : Src} {b : SrcB}
    (hexec : ∀ s, exec i s = vAddr op d a b s)
    (hop : ∀ (x : DWord) (y : Word), (op (x.setWidth 56) y).toNat = (f x.toNat y).toNat) :
    Completes i (Form.of [vDst d 2, vSrc 1 a 2, bSrc b]) (fun _ => True) (fun _ g => g)
      (fun x _ u => (u.setRegs (x.gr.vi d) (result2 (x.gr.vregsAt u a.f 2 ++ x.gr.bRegs u b 1)
        (f (pairNat (x.gr.vregsAt u a.f 2)) ((x.gr.bRegs u b 1).getD 0 Reg.mk0).val).toNat)).next) :=
  completes_of_vCarry hexec (fun x u => by
    have hzext (z : Addr) : (z.zeroExtend 64).toNat = z.toNat := BitVec.toNat_setWidth_of_le (by decide)
    simp only [groupOf_vregsAt, groupOf_bRegs, addrRegs, carry_two, hzext, regAddr, hop, regPair_toNat, regWord, headD_eq_getD])

end Sys2Proof.Proofs
end

section
/-!
PROOFS. The model's operations on words as the statements write them: words of format A, addresses, conditions, bit counts,
lane masks and reductions (R48, R65, R116 to R136).
-/

namespace Sys2Proof.Proofs

open Sys2Proof.Machine Sys2Proof.Claims

/-! Words of format A whose operand b may lie in either file (R48). -/

theorem packA_eq_wordA (m : BitVec 6) (fn : BitVec 4) (d : Fld) (a b : Src) (sb : Bool) :
    packA m d a.f b.f fn sb a.chk b.chk = wordA m.toNat fn.toNat d a sb b := by
  have hbit (c : Bool) (n : Nat) : (if c then n else 0) = c.toNat * n := by cases c <;> simp
  rw [wordA, hbit, hbit, hbit, ← toNat_packA, BitVec.ofNat_toNat, BitVec.setWidth_eq]

theorem encAB_eq_wordAB (m : BitVec 6) (fn : BitVec 4) (d : Fld) (a : Src) (b : SrcB) :
    encAB m fn d a b = wordAB m.toNat fn.toNat d a b := by
  cases b with
  | vec r => exact packA_eq_wordA m fn d a r false
  | uni r => exact packA_eq_wordA m fn d a r true

/-! The addresses of R123 as numbers modulo 2^56. -/

/-- An address plus an offset, where the offset is given by an integer modulo 2^56. -/
theorem addr_add_toNat {x : DWord} {o : Addr} {z : Int} (ho : (o.toNat : Int) % 2 ^ 56 = z % 2 ^ 56) :
    (x.setWidth 56 + o).toNat = (((x.toNat : Int) + z) % 2 ^ 56).toNat := by
  rw [BitVec.toNat_add, BitVec.toNat_setWidth]
  omega

theorem signExtend_toNat_emod (y : Word) : ((y.signExtend 56).toNat : Int) % 2 ^ 56 = y.toInt % 2 ^ 56 := by
  rw [BitVec.signExtend, BitVec.toNat_ofInt]
  omega

/-- A shifted offset is the offset times 2^k. -/
theorem shiftLeft_toNat_emod {o : Addr} {z : Int} (k : Nat) (ho : (o.toNat : Int) % 2 ^ 56 = z % 2 ^ 56) :
    ((o <<< k).toNat : Int) % 2 ^ 56 = z * 2 ^ k % 2 ^ 56 := by
  have hmod : ((o <<< k).toNat : Int) = (o.toNat : Int) * 2 ^ k % 2 ^ 56 := by
    rw [BitVec.toNat_shiftLeft, Nat.shiftLeft_eq]
    norm_cast
  rw [hmod, Int.emod_emod]
  exact Int.ModEq.mul_right (2 ^ k) ho

theorem zeroExtend_toNat_emod (y : Word) : ((y.zeroExtend 56).toNat : Int) % 2 ^ 56 = (y.toNat : Int) % 2 ^ 56 := by
  rw [BitVec.zeroExtend, BitVec.toNat_setWidth_of_le (by decide)]

theorem ofInt64_toNat (z : Int) : (BitVec.ofInt 64 z).toNat = (z % 2 ^ 64).toNat := by
  rw [BitVec.toNat_ofInt]
  norm_cast

/-- The product of two words fits a pair. -/
theorem mulWideN_toNat (x y : Word) : (BitVec.ofNat 64 (x.toNat * y.toNat)).toNat = x.toNat * y.toNat := by
  rw [BitVec.toNat_ofNat]
  exact Nat.mod_eq_of_lt ((Nat.mul_lt_mul'' x.isLt y.isLt).trans_le (by norm_num))

/-! Tests and conditions (R59, R65). -/

/-- The model's test of a bit against a sense is that of R59. -/
theorem bne_eq_test (v sense : Bool) : (v != sense) = test v sense := by cases v <;> cases sense <;> rfl

theorem icondHolds_eq_holds {w : Nat} (c : ICond) (x y : BitVec w) :
    icondHolds c x y = holds c x.toInt y.toInt x.toNat y.toNat := by
  cases c with
  | eq => simp only [icondHolds, holds, BitVec.toNat_inj, beq_eq_decide]
  | ne => simp only [icondHolds, holds, ne_eq, BitVec.toNat_inj, bne, beq_eq_decide, decide_not]
  | _ => rfl

theorem signed64_toNat (x : DWord) : signed64 x.toNat = x.toInt := by
  rw [signed64, BitVec.toInt_eq_toNat_cond]
  split_ifs <;> omega

/-! Words given bit by bit. -/

/-- A bit of a word as a number. -/
theorem toNat_getLsbD (x : Word) (i : Nat) : (x.getLsbD i).toNat = x.toNat / 2 ^ i % 2 := Nat.toNat_testBit ..

theorem length_filter_eq_sum {α : Type} (p : α → Bool) (l : List α) :
    (l.filter p).length = (l.map (fun a => (p a).toNat)).sum := by
  induction l with
  | nil => rfl
  | cons a l ih => cases h : p a <;> simp [h, ih, Nat.add_comm]

theorem foldl_add_if_eq_sum {α : Type} (p : α → Bool) (g : α → Nat) (l : List α) (n : Nat) :
    l.foldl (fun n a => if p a then n + g a else n) n = n + (l.map (fun a => (p a).toNat * g a)).sum := by
  induction l generalizing n with
  | nil => rfl
  | cons a l ih => cases h : p a <;> simp [h, ih, Nat.add_assoc]

/-- A sum over the numbers below n, taken from the highest down. -/
theorem sum_map_range_reflect (f : Nat → Nat) (n : Nat) :
    ((List.range n).map (fun i => f (n - 1 - i))).sum = ((List.range n).map f).sum := Finset.sum_range_reflect f n

theorem length_filter_lt_range (k n : Nat) : ((List.range n).filter (fun i => decide (i < k))).length = min k n := by
  induction n with
  | zero => simp
  | succ n ih =>
    by_cases h : n < k <;> simp [List.range_succ, ih, h] <;> omega

theorem abs_eq_ofNat_natAbs (x : Word) : (if x.msb then -x else x) = BitVec.ofNat 32 x.toInt.natAbs := by
  apply BitVec.eq_of_toNat_eq
  rw [BitVec.toNat_ofNat, BitVec.toInt_eq_msb_cond]
  split_ifs
  · rw [BitVec.toNat_neg]
    omega
  · omega

theorem neg_eq_ofInt (x : Word) : -x = BitVec.ofInt 32 (-x.toInt) := by rw [BitVec.ofInt_neg, BitVec.ofInt_toInt]

theorem not_eq_ofNat (x : Word) : ~~~x = BitVec.ofNat 32 (2 ^ 32 - 1 - x.toNat) := by
  rw [← BitVec.toNat_not, BitVec.ofNat_toNat, BitVec.setWidth_eq]

/-- Leading zeros: as many shorter lengths hold the word. -/
theorem clz32_eq (x : Word) :
    clz32 x = BitVec.ofNat 32 (((List.range 33).filter (fun n => decide (x.toNat < 2 ^ (32 - n)))).length - 1) := by
  by_cases hx : x = 0
  · subst hx
    rfl
  · have hne : x.toNat ≠ 0 := fun h => hx (BitVec.eq_of_toNat_eq h)
    have hlt : x.toNat.log2 < 32 := (Nat.log2_lt hne).mpr x.isLt
    have hfits (n : Nat) : decide (x.toNat < 2 ^ (32 - n)) = decide (n < 32 - x.toNat.log2) := by
      rw [decide_eq_decide, ← Nat.log2_lt hne]
      omega
    simp only [hfits, length_filter_lt_range]
    rw [clz32, if_neg hx]
    congr 1
    omega

theorem popc32_eq (x : Word) : popc32 x = BitVec.ofNat 32 ((List.range 32).map (fun i => x.toNat / 2 ^ i % 2)).sum := by
  simp only [popc32, length_filter_eq_sum, toNat_getLsbD]

theorem brev32_eq (x : Word) :
    brev32 x = BitVec.ofNat 32 ((List.range 32).map (fun i => x.toNat / 2 ^ (31 - i) % 2 * 2 ^ i)).sum := by
  rw [brev32, foldl_add_if_eq_sum, Nat.zero_add, ← sum_map_range_reflect]
  congr 2
  refine List.map_congr_left (fun i hi => ?_)
  have hlt := List.mem_range.mp hi
  have hback : 31 - (32 - 1 - i) = i := by omega
  rw [toNat_getLsbD, hback]

theorem mad_eq_ofNat (x y z : Word) : x * y + z = BitVec.ofNat 32 (x.toNat * y.toNat + z.toNat) := by
  rw [BitVec.ofNat_add, ← mul_eq_ofNat, BitVec.ofNat_toNat, BitVec.setWidth_eq]

/-! Masks of lanes. -/

/-- Σ 2^j over the lanes of a list that lie below n: the sum of mask, for every width. -/
def maskBelow (ls : List Nat) (n : Nat) : Nat := ((List.range n).map (fun j => if j ∈ ls then 2 ^ j else 0)).sum

theorem mask_eq_maskBelow (ls : List Nat) : mask ls = BitVec.ofNat 32 (maskBelow ls 32) := rfl

theorem maskBelow_succ (ls : List Nat) (n : Nat) :
    maskBelow ls (n + 1) = 2 ^ n * (decide (n ∈ ls)).toNat + maskBelow ls n := by
  by_cases h : n ∈ ls <;> simp [maskBelow, List.range_succ, h, Nat.add_comm]

theorem maskBelow_lt (ls : List Nat) (n : Nat) : maskBelow ls n < 2 ^ n := by
  induction n with
  | zero => simp [maskBelow]
  | succ n ih =>
    have hbit := Nat.mul_le_mul_left (2 ^ n) (Bool.toNat_le (decide (n ∈ ls)))
    rw [maskBelow_succ]
    omega

theorem testBit_maskBelow (ls : List Nat) (n i : Nat) : (maskBelow ls n).testBit i = decide (i < n ∧ i ∈ ls) := by
  induction n with
  | zero => simp [maskBelow]
  | succ n ih =>
    rw [maskBelow_succ, Nat.two_pow_add_eq_or_of_lt (maskBelow_lt ls n), Nat.testBit_or, ih]
    rcases eq_or_ne i n with rfl | hi
    · by_cases h : i ∈ ls <;> simp [h]
    · have hlt : i < n + 1 ↔ i < n := by omega
      by_cases h : n ∈ ls <;> simp [h, hi.symm, hlt]

theorem getLsbD_foldl_lane (ls : List Nat) (m : Word) (i : Nat) (hi : i < 32) :
    (ls.foldl (fun m l => m ||| ((1 : Word) <<< l)) m).getLsbD i = (m.getLsbD i || decide (i ∈ ls)) := by
  induction ls generalizing m with
  | nil => simp
  | cons l ls ih =>
    have hbit : ((1 : Word) <<< l).getLsbD i = decide (i = l) := by
      rw [BitVec.getLsbD_shiftLeft]
      by_cases h : i < l
      · simp [h, h.ne]
      · have hsub : i = l ↔ i - l = 0 := by omega
        simp [hi, h, hsub]
    rw [List.foldl_cons, ih, BitVec.getLsbD_or, hbit]
    simp [Bool.or_assoc]

theorem maskOf_eq_mask (ls : List Nat) : maskOf ls = mask ls := by
  apply BitVec.eq_of_getLsbD_eq
  intro i hi
  rw [maskOf, getLsbD_foldl_lane ls 0 i hi, mask_eq_maskBelow, BitVec.getLsbD_ofNat, testBit_maskBelow]
  simp [hi]

/-! Fields of words. -/

theorem bits_low (w : Word) : bits w 4 0 = w.toNat % 32 := rfl

/-- The word of lanes (R132): three fields that do not meet. -/
theorem putBits_lanes {a b l : Nat} (ha : a < 64) (hb : b < 32) (hl : l < 32) :
    putBits a 21 16 ||| putBits b 12 8 ||| putBits l 4 0 = BitVec.ofNat 32 (a * 2 ^ 16 + b * 2 ^ 8 + l) := by
  have hlow : b <<< 8 + l = b <<< 8 ||| l := Nat.shiftLeft_add_eq_or_of_lt (by omega) b
  have hall : a <<< 16 + (b <<< 8 + l) = a <<< 16 ||| (b <<< 8 + l) :=
    Nat.shiftLeft_add_eq_or_of_lt (by rw [Nat.shiftLeft_eq]; omega) a
  have hA : putBits a 21 16 = BitVec.ofNat 32 (a <<< 16) := by rw [putBits, Nat.mod_eq_of_lt (by simpa using ha)]
  have hB : putBits b 12 8 = BitVec.ofNat 32 (b <<< 8) := by rw [putBits, Nat.mod_eq_of_lt (by simpa using hb)]
  have hL : putBits l 4 0 = BitVec.ofNat 32 l := by rw [putBits, Nat.mod_eq_of_lt (by simpa using hl)]; rfl
  rw [hA, hB, hL, BitVec.or_assoc, ← BitVec.ofNat_or, ← BitVec.ofNat_or, ← hlow, ← hall, Nat.shiftLeft_eq, Nat.shiftLeft_eq,
    Nat.add_assoc]

theorem length_le_of_nodup_lt {ls : List Nat} {n : Nat} (hnd : ls.Nodup) (hlt : ∀ l ∈ ls, l < n) : ls.length ≤ n := by
  have h := hnd.length_le_of_subset (l₂ := List.range n) (fun l hl => List.mem_range.mpr (hlt l hl))
  rwa [List.length_range] at h

theorem act_sub_lanes (x : Site) : ∀ l ∈ x.act, l ∈ x.lanes := activeLanes_sub

theorem nodup_act {x : Site} (h : x.lanes.Nodup) : x.act.Nodup := h.filter _

/-! Reduction (R136). -/

theorem redOp_addI32 : redOp .addI32 = fun x y => BitVec.ofNat 32 (x.toNat + y.toNat) := funext₂ BitVec.add_def
theorem redOp_minI32 : redOp .minI32 = pickI true := funext₂ minI_eq_pickI
theorem redOp_maxI32 : redOp .maxI32 = pickI false := funext₂ maxI_eq_pickI
theorem redOp_minN32 : redOp .minN32 = pickN true := funext₂ minN_eq_pickN
theorem redOp_maxN32 : redOp .maxN32 = pickN false := funext₂ maxN_eq_pickN

theorem reduceRegs_eq_acrossLanes (o : RedOp) (rs : List Reg) : reduceRegs o rs = acrossLanes o rs := by
  cases o <;>
    simp only [reduceRegs, redOp_addI32, redOp_minI32, redOp_maxI32, redOp_minN32, redOp_maxN32] <;> rfl

end Sys2Proof.Proofs
end

section
/-!
PROOFS. The vector integer, predicate and cross-lane forms (R116 to R136), and the obligations about them.
-/

namespace Sys2Proof.Proofs

open Sys2Proof.Machine Sys2Proof.Claims

/-! Comparison and predicates (R127, R128). -/

theorem poisonIn_eq_none {rs : List Reg} (h : ∀ r ∈ rs, r.st ≠ .poisoned) : poisonIn rs = none := by
  rw [poisonIn, List.find?_eq_none.mpr (fun r hr => by simpa [Reg.isPoisoned] using h r hr)]
  rfl

theorem thread_of_getElem? {g : Group} {l : Nat} {u : Thread} (h : g.threads[l]? = some u) : g.thread l = u := by
  simp [Group.thread, h]

/-- A compare whose sources are clean writes the predicate. -/
theorem completes_of_cmp {i : Instr} {n : Nat} {p : BitVec 3} {a : Src} {b : SrcB} (v : List Reg → List Reg → Bool)
    (hexec : ∀ s, exec i s = withForm (Form.of [vSrc 1 a n, bSrc b n]) (perLane (fun _ _ g _ t =>
      match poisonIn (g.vregsAt t a.f n ++ g.bRegs t b n) with
      | some (kind, w) => .trap kind w 0
      | none => .ok (t.setPred p (v (g.vregsAt t a.f n) (g.bRegs t b n))))) s) :
    Completes i (Form.of [vSrc 1 a n, bSrc b n])
      (fun x => ∀ l ∈ x.act, ∀ y ∈ x.gr.vregsAt (x.gr.thread l) a.f n ++ x.gr.bRegs (x.gr.thread l) b n, y.st ≠ .poisoned)
      (fun _ g => g) (fun x _ u => (u.setPred p (v (x.gr.vregsAt u a.f n) (x.gr.bRegs u b n))).next) := by
  refine completes_of_perLane hexec (fun x hclean l hl u hu => ?_)
  have hnone : poisonIn (x.gr.vregsAt (issuedThread x.hints u) a.f n ++ x.gr.bRegs (issuedThread x.hints u) b n) = none :=
    poisonIn_eq_none (thread_of_getElem? hu ▸ hclean l hl)
  simp only [groupOf_vregsAt, groupOf_bRegs, hnone]

/-- A predicate form (R128). -/
theorem completes_of_predForm {i : Instr} {op : Thread → Bool} {p : BitVec 3} (hexec : ∀ s, exec i s = predForm op p s) :
    Completes i (Form.of []) (fun _ => True) (fun _ g => g) (fun _ _ u => (u.setPred p (op u)).next) :=
  completes_of_setPred (fun _ _ t => op t) hexec (fun _ _ _ => rfl)

/-! Cross-lane forms. -/

theorem result_one (r : Reg) (v : Word) : result [r] v = [if r.isPoisoned then poison0 else full v] := by
  rw [apply_ite (fun q => [q])]
  simp only [result, List.any_cons, List.any_nil, Bool.or_false]
  rfl

/-- The lane that a shuffle reads, if it is active, and otherwise the lane's own register (R134). -/
theorem completes_of_shuffle {i : Instr} {src : Nat → Word → Option Nat} {f : Nat → Nat → Option Nat} {d : Fld} {a : Src}
    {b : SrcB} (hexec : ∀ s, exec i s = shuffle src d a b s) (hsrc : ∀ l y, src l y = f l y.toNat) :
    Completes i (Form.of [vDst d, vSrc 1 a, bSrc b]) (fun _ => True) (fun _ g => g)
      (fun x l u =>
        let y := (x.gr.bRegs u b 1).getD 0 Reg.mk0
        (u.setRegs (x.gr.vi d) [if y.st = .poisoned then ⟨0, .poisoned⟩
          else match f l y.val.toNat with
            | some j => if j ∈ x.act then x.gr.vreg (x.gr.thread j) a.f else x.gr.vreg u a.f
            | none => x.gr.vreg u a.f]).next) := by
  refine completes_of_setRegs _ hexec (fun x _ l _ u => ?_)
  simp only [groupOf_bRegs, groupOf_vreg, vreg_groupOf_thread, issueOf_act, headD_eq_getD, hsrc, Reg.isPoisoned, beq_iff_eq,
    List.contains_iff_mem]
  rfl

theorem completes_lanes (d : Fld) :
    Completes (.lanes d) (Form.of [vDst d]) (fun x => x.lanes.Nodup ∧ ∀ l ∈ x.lanes, l < 32) (fun _ g => g)
      (fun x l u => (u.setRegs (x.gr.vi d) [⟨BitVec.ofNat 32 (x.act.length * 2 ^ 16 +
        (x.act.filter (fun j => decide (j < l))).length * 2 ^ 8 + l), .full⟩]).next) := by
  refine completes_of_setRegs _ (fun _ => rfl) (fun x hp l hl u => ?_)
  obtain ⟨hnd, hlt⟩ := hp
  have hact : ∀ j ∈ x.act, j < 32 := fun j hj => hlt j (act_sub_lanes x j hj)
  have hcount : x.act.length ≤ 32 := length_le_of_nodup_lt (nodup_act hnd) hact
  have hbelow : (x.act.filter (fun j => decide (j < l))).length ≤ l :=
    length_le_of_nodup_lt ((nodup_act hnd).filter _) (fun j hj => by simpa using (List.mem_filter.mp hj).2)
  have hl32 := hact l hl
  rw [issueOf_act, putBits_lanes (by omega) (by omega) hl32]
  rfl

theorem completes_matchB32 (d : Fld) (a : Src) :
    Completes (.matchB32 d a) (Form.of [vDst d, vSrc 1 a]) (fun _ => True) (fun _ g => g)
      (fun x _ u => (u.setRegs (x.gr.vi d) (result [x.gr.vreg u a.f]
        (mask (x.act.filter (fun j => x.gr.vreg (x.gr.thread j) a.f == ⟨(x.gr.vreg u a.f).val, .full⟩))))).next) := by
  refine completes_of_setRegs _ (fun _ => rfl) (fun x _ l _ u => ?_)
  simp only [groupOf_vreg, vreg_groupOf_thread, issueOf_act, maskOf_eq_mask, result_one]
  rfl

theorem completes_v2s (d : Fld) (a : Src) (b : SrcB) :
    Completes (.v2s d a b) (Form.of [uDst d, vSrc 1 a, bSrc b]) (fun _ => True)
      (once (fun x g =>
        let low := x.act.headD 0
        let y := (x.gr.bRegs (x.gr.thread low) b 1).getD 0 Reg.mk0
        let l := if y.val.toNat % 32 ∈ x.act then y.val.toNat % 32 else low
        g.setSregs (x.gr.si d) [if y.st = .poisoned then ⟨0, .poisoned⟩ else x.gr.vreg (x.gr.thread l) a.f]))
      (fun _ _ u => u.next) := by
  refine completes_of_setSregs_of_lanes _ (fun _ => rfl) (fun x => ?_)
  simp only [groupOf_bRegs, groupOf_vreg, bRegs_groupOf_thread, vreg_groupOf_thread, issueOf_act, headD_eq_getD, bits_low,
    Reg.isPoisoned, beq_iff_eq, List.contains_iff_mem]
  rfl

/-! The obligations. -/

/-- Settles O10: the unary operations bit by bit, the exact multiply-add, and the immediates that the body truncates to a
word. -/
theorem vectorUnaryAndConstants : Obligations.VectorUnaryAndConstants := by
  intro d a b c i n
  refine ⟨?_, ?_, ?_, congrArg some (packD_eq_ofNat 0x10 d n), ?_⟩
  · intro p hp
    simp only [List.mem_cons, List.not_mem_nil, or_false] at hp
    rcases hp with rfl | rfl | rfl
    · exact completes_of_vImm (op := fun x y => x &&& y) (fun _ => rfl)
    · exact completes_of_vImm (op := fun x y => x ||| y) (fun _ => rfl)
    · exact completes_of_vImm (op := fun x y => x ^^^ y) (fun _ => rfl)
  · intro p hp
    simp only [unaryOps, List.mem_cons, List.not_mem_nil, or_false] at hp
    rcases hp with rfl | rfl | rfl | rfl | rfl | rfl | rfl
    · exact completes_of_vUn (op := fun x => if x.msb then -x else x) (fun _ => rfl) abs_eq_ofNat_natAbs
    · exact completes_of_vUn (op := fun x => -x) (fun _ => rfl) neg_eq_ofInt
    · exact completes_of_vUn (op := clz32) (fun _ => rfl) clz32_eq
    · exact completes_of_vUn (op := popc32) (fun _ => rfl) popc32_eq
    · exact completes_of_vUn (op := brev32) (fun _ => rfl) brev32_eq
    · exact completes_of_vUn (op := fun x => x) (fun _ => rfl) (fun _ => rfl)
    · exact completes_of_vUn (op := fun x => ~~~x) (fun _ => rfl) not_eq_ofNat
  · exact completes_of_vCarry (fun _ => rfl) (fun x u => by simp only [groupOf_vreg, carry_one, mad_eq_ofNat])
  · exact completes_of_vCarry (fun _ => rfl) (fun x u => by
      simp only [issueOf_hints, carry_one, immD_setWidth]
      rfl)

/-- Settles O11: every form is one of the shapes vWide, vPair or vAddr with the operation that the rule names. -/
theorem vectorPairs : Obligations.VectorPairs := by
  intro d a b k
  refine ⟨congrArg some (encAB_eq_wordAB 0x0D 1 d a b), congrArg some (encAB_eq_wordAB 0x0D 2 d a b),
    congrArg some (encAB_eq_wordAB 0x0D 3 d a b), congrArg some (encAB_eq_wordAB 0x0D 4 d a b), ?_, ?_, ?_⟩
  · exact List.forall_mem_cons.mpr ⟨
      completes_of_vWide (op := fun x y => BitVec.ofInt 64 (x.toInt * y.toInt)) (fun _ => rfl) (fun _ _ => ofInt64_toNat _),
      List.forall_mem_singleton.mpr
        (completes_of_vWide (op := fun x y => BitVec.ofNat 64 (x.toNat * y.toNat)) (fun _ => rfl) mulWideN_toNat)⟩
  · exact List.forall_mem_cons.mpr ⟨completes_of_vPair (op := fun x y => x + y) (fun _ => rfl) BitVec.toNat_add,
      List.forall_mem_singleton.mpr (completes_of_vPair (op := fun x y => x - y) (fun _ => rfl) sub_toNat)⟩
  · exact List.forall_mem_cons.mpr ⟨completes_of_vAddr (op := fun x y => x + y.signExtend 56) (fun _ => rfl)
        (fun _ y => addr_add_toNat (signExtend_toNat_emod y)),
      List.forall_mem_cons.mpr ⟨completes_of_vAddr (op := fun x y => x + (y.signExtend 56 <<< k.toNat)) (fun _ => rfl)
        (fun _ y => addr_add_toNat (shiftLeft_toNat_emod _ (signExtend_toNat_emod y))),
      List.forall_mem_singleton.mpr (completes_of_vAddr (op := fun x y => x + (y.zeroExtend 56 <<< k.toNat)) (fun _ => rfl)
        (fun _ y => addr_add_toNat (shiftLeft_toNat_emod _ (zeroExtend_toNat_emod y))))⟩⟩

/-- Settles O12: selection writes a register, a compare with clean sources and the predicate forms write a predicate. -/
theorem vectorPredicates : Obligations.VectorPredicates := by
  intro d a b sense p q r c
  refine ⟨?_, ?_, ?_, ?_, ?_⟩
  · have hfn : (b1 sense ++ p).toNat = (if sense then 8 else 0) + p.toNat := by
      rw [toNat_append_eq]
      cases sense <;> rfl
    rw [← hfn]
    exact congrArg some (encAB_eq_wordAB 0x11 (b1 sense ++ p) d a b)
  · exact completes_of_setRegs
      (fun _ g _ t => [if t.pred p != sense then g.vreg t a.f else (g.bRegs t b 1).headD Reg.mk0]) (fun _ => rfl)
      (fun x _ _ _ u => by simp only [bne_eq_test, groupOf_vreg, groupOf_bRegs, headD_eq_getD, Thread.pred])
  · have h := completes_of_cmp (i := .cmp false p c a b) (n := 1) (fun x y => icondHolds c (regWord x) (regWord y)) (fun _ => rfl)
    simpa only [icondHolds_eq_holds, vregsAt_one, List.singleton_append, regWord, headD_eq_getD, List.getD_cons_zero] using h
  · have h := completes_of_cmp (i := .cmp true p c a b) (n := 2) (fun x y => icondHolds c (regPair x) (regPair y)) (fun _ => rfl)
    simpa only [icondHolds_eq_holds, ← signed64_toNat, regPair_toNat] using h
  · simp only [List.forall_mem_cons, List.not_mem_nil, false_implies, implies_true, and_true]
    exact ⟨completes_of_predForm (fun _ => rfl), completes_of_predForm (fun _ => rfl),
      completes_of_predForm (fun _ => rfl), completes_of_predForm (fun _ => rfl)⟩

/-- Settles O13: every lane reads the group as it stood before the bundle, and a lane mask is the sum of its powers of two. -/
theorem crossLane : Obligations.CrossLane := by
  refine ⟨fun d a p q => ⟨?_, ?_, ?_, congrArg some (packA_eq_wordA 0x14 3 d a ⟨0, false⟩ false), completes_matchB32 d a,
    completes_lanes d⟩, fun d a b o => ⟨?_, ?_, completes_v2s d a b, ?_, ?_⟩⟩
  · exact completes_of_setPred _ (fun _ => rfl) (fun x l u => by simp only [issueOf_act, groupOf_thread_pred])
  · exact completes_of_setPred _ (fun _ => rfl) (fun x l u => by simp only [issueOf_act, groupOf_thread_pred])
  · exact completes_of_setRegs _ (fun _ => rfl)
      (fun x _ l _ u => by simp only [issueOf_act, groupOf_thread_pred, maskOf_eq_mask, full])
  · intro p hp
    simp only [List.mem_cons, List.not_mem_nil, or_false] at hp
    rcases hp with rfl | rfl | rfl | rfl
    · exact completes_of_shuffle (src := fun _ y => some (bits y 4 0)) (f := fun _ y => some (y % 32)) (fun _ => rfl)
        (fun _ y => congrArg some (bits_low y))
    · exact completes_of_shuffle (src := fun i y => if 32 ≤ y.toNat ∨ i < y.toNat then none else some (i - y.toNat))
        (f := fun i y => if 32 ≤ y ∨ i < y then none else some (i - y))
        (fun _ => rfl) (fun _ _ => rfl)
    · exact completes_of_shuffle (src := fun i y => if 32 ≤ y.toNat ∨ 31 < i + y.toNat then none else some (i + y.toNat))
        (f := fun i y => if 32 ≤ y ∨ 31 < i + y then none else some (i + y))
        (fun _ => rfl) (fun _ _ => rfl)
    · exact completes_of_shuffle (src := fun i y => some (i ^^^ bits y 4 0)) (f := fun i y => some (i ^^^ (y % 32))) (fun _ => rfl)
        (fun i y => congrArg (fun n => some (i ^^^ n)) (bits_low y))
  · exact completes_of_setRegs (fun _ g _ _ => [g.sreg a.f]) (fun _ => rfl) (fun x _ l _ u => by simp only [groupOf_sreg])
  · exact completes_of_setSregs_of_lanes _ (fun _ => rfl)
      (fun x => by simp only [issueOf_act, groupOf_vreg, vreg_groupOf_thread, reduceRegs_eq_acrossLanes])
  · exact completes_of_setRegs _ (fun _ => rfl)
      (fun x _ l _ u => by simp only [issueOf_act, groupOf_vreg, vreg_groupOf_thread, reduceRegs_eq_acrossLanes])

end Sys2Proof.Proofs
end
